-- ==== Sys2Proof/Word.lean ====
section
/-! DEFINITION. The word types of the Alto core and the two accessors of a fixed-length bank of cells. -/

namespace Sys2Proof

/-- A Word is 16 bits (00_scope.md R9). -/
abbrev Word := BitVec 16

/-- One byte cell of a store (the representation unit of `Host.Cell`). -/
abbrev Byte := BitVec 8

/-- A raw microinstruction is 32 bits (R9, R90). -/
abbrev MicroWord := BitVec 32

/-- A micro-address, and the micro-program counter, is 10 bits (R9, R31). -/
abbrev MicroAddr := BitVec 10

/-- A task number 0..15, also its priority (R30). -/
abbrev TaskNum := Fin 16

/-- One cell per task number (R30: the task table has 16 slots). -/
abbrev PerTask (α : Type) := Vector α 16

/-- Read cell `i` of a bank. -/
def Bank.get {α : Type} {n : Nat} (v : Vector α n) (i : Fin n) : α := v[i.val]'i.isLt

/-- Write cell `i` of a bank. -/
def Bank.put {α : Type} {n : Nat} (v : Vector α n) (i : Fin n) (x : α) : Vector α n := v.set i.val x i.isLt

/-- The bank of 16 cells whose cell `k` holds `f k`. -/
def PerTask.tabulate {α : Type} (f : TaskNum → α) : PerTask α :=
  #v[f 0, f 1, f 2, f 3, f 4, f 5, f 6, f 7, f 8, f 9, f 10, f 11, f 12, f 13, f 14, f 15]

end Sys2Proof
end

