-- ==== Sys2Proof/Syntax.lean ====
section
/-! DEFINITION. The microinstruction's decoded fields (30_encoding.md R90 to R98) and `Instr`, one constructor per row
of spec/opcode_table.json. -/

namespace Sys2Proof

/-- The ALU functions, in the order of their codes 0..15 (R93). -/
inductive AluFn where
  | bus | t | busOrT | busAndT | busXorT | busPlus1 | busMinus1 | busPlusT | busMinusT | busMinusTMinus1
  | busPlusTPlus1 | busPlusSkip | aluBusAndT | busAndNotT | reserved14 | reserved15
deriving DecidableEq, Repr, Inhabited

/-- The bus sources (R95, R98): codes 3 and 4 are `readS` and `loadS` in the Emulator and `taskSpecific1` and
`taskSpecific2` in every other task. -/
inductive BusSrc where
  | readR | loadR | none | readMd | readMouse | readDisp
  | readS | loadS | taskSpecific1 | taskSpecific2
deriving DecidableEq, Repr, Inhabited

/-- The F1 functions: codes 0..7 for every task (R96), codes 8..15 of the Emulator (R98), and codes 8..15 of every
other task (R203). -/
inductive F1Fn where
  | none | loadMar | task | block | lLsh1 | lRsh1 | lLcy8 | constant
  | swmode | wrtram | rdram | loadRmr | reserved12 | loadEsrb | rsnf | startf
  | taskSpecific8 | taskSpecific9 | taskSpecific10 | taskSpecific11
  | taskSpecific12 | taskSpecific13 | taskSpecific14 | taskSpecific15
deriving DecidableEq, Repr, Inhabited

/-- The F2 functions: codes 0..7 for every task (R97), codes 8..15 of the Emulator (R98), and codes 8..15 of every
other task (R223). -/
inductive F2Fn where
  | none | busEq0 | shLt0 | shEq0 | bus | alucy | storeMd | constant
  | busodd | magic | loadDns | acdest | loadIr | idisp | acsource | reserved15
  | taskSpecific8 | taskSpecific9 | taskSpecific10 | taskSpecific11
  | taskSpecific12 | taskSpecific13 | taskSpecific14 | taskSpecific15
deriving DecidableEq, Repr, Inhabited

/-- A decoded microinstruction: the eight fields of R90, each operation code turned into the function it names. -/
structure Micro where
  rselect : BitVec 5
  aluf : AluFn
  bs : BusSrc
  f1 : F1Fn
  f2 : F2Fn
  loadT : Bool
  loadL : Bool
  next : MicroAddr
deriving DecidableEq, Repr, Inhabited

/-- One constructor per row of spec/opcode_table.json. A row is one field value; the instruction it stands for is a
whole microinstruction with that value in that field (R13), so every constructor carries the microinstruction it
stands in, and fixes its own field of it whatever the carried field says (`Instr.micro`; DESIGN CHOICE, log 1). -/
inductive Instr where
  | microinstruction (u : Micro)
  | aluBus (u : Micro)
  | aluT (u : Micro)
  | aluBusOrT (u : Micro)
  | aluBusAndT (u : Micro)
  | aluBusXorT (u : Micro)
  | aluBusPlus1 (u : Micro)
  | aluBusMinus1 (u : Micro)
  | aluBusPlusT (u : Micro)
  | aluBusMinusT (u : Micro)
  | aluBusMinusTMinus1 (u : Micro)
  | aluBusPlusTPlus1 (u : Micro)
  | aluBusPlusSkip (u : Micro)
  | aluAluBusAndT (u : Micro)
  | aluBusAndNotT (u : Micro)
  | aluReserved14 (u : Micro)
  | aluReserved15 (u : Micro)
  | bsReadR (u : Micro)
  | bsLoadR (u : Micro)
  | bsNone (u : Micro)
  | bsReadMd (u : Micro)
  | bsReadMouse (u : Micro)
  | bsReadDisp (u : Micro)
  | bsReadS (u : Micro)
  | bsLoadS (u : Micro)
  | bsTaskSpecific1 (u : Micro)
  | bsTaskSpecific2 (u : Micro)
  | f1None (u : Micro)
  | f1LoadMar (u : Micro)
  | f1Task (u : Micro)
  | f1Block (u : Micro)
  | f1LLsh1 (u : Micro)
  | f1LRsh1 (u : Micro)
  | f1LLcy8 (u : Micro)
  | f1Constant (u : Micro)
  | f1Swmode (u : Micro)
  | f1Wrtram (u : Micro)
  | f1Rdram (u : Micro)
  | f1LoadRmr (u : Micro)
  | f1Reserved12 (u : Micro)
  | f1LoadEsrb (u : Micro)
  | f1Rsnf (u : Micro)
  | f1Startf (u : Micro)
  | f1TaskSpecific8 (u : Micro)
  | f1TaskSpecific9 (u : Micro)
  | f1TaskSpecific10 (u : Micro)
  | f1TaskSpecific11 (u : Micro)
  | f1TaskSpecific12 (u : Micro)
  | f1TaskSpecific13 (u : Micro)
  | f1TaskSpecific14 (u : Micro)
  | f1TaskSpecific15 (u : Micro)
  | f2None (u : Micro)
  | f2BusEq0 (u : Micro)
  | f2ShLt0 (u : Micro)
  | f2ShEq0 (u : Micro)
  | f2Bus (u : Micro)
  | f2Alucy (u : Micro)
  | f2StoreMd (u : Micro)
  | f2Constant (u : Micro)
  | f2Busodd (u : Micro)
  | f2Magic (u : Micro)
  | f2LoadDns (u : Micro)
  | f2Acdest (u : Micro)
  | f2LoadIr (u : Micro)
  | f2Idisp (u : Micro)
  | f2Acsource (u : Micro)
  | f2Reserved15 (u : Micro)
  | f2TaskSpecific8 (u : Micro)
  | f2TaskSpecific9 (u : Micro)
  | f2TaskSpecific10 (u : Micro)
  | f2TaskSpecific11 (u : Micro)
  | f2TaskSpecific12 (u : Micro)
  | f2TaskSpecific13 (u : Micro)
  | f2TaskSpecific14 (u : Micro)
  | f2TaskSpecific15 (u : Micro)
  | lt (u : Micro)
  | ll (u : Micro)
deriving DecidableEq, Repr, Inhabited

/-- The microinstruction a row stands for: the carried one with the row's own field at the row's value. -/
def Instr.micro : Instr → Micro
  | .microinstruction u => u
  | .aluBus u => { u with aluf := .bus }
  | .aluT u => { u with aluf := .t }
  | .aluBusOrT u => { u with aluf := .busOrT }
  | .aluBusAndT u => { u with aluf := .busAndT }
  | .aluBusXorT u => { u with aluf := .busXorT }
  | .aluBusPlus1 u => { u with aluf := .busPlus1 }
  | .aluBusMinus1 u => { u with aluf := .busMinus1 }
  | .aluBusPlusT u => { u with aluf := .busPlusT }
  | .aluBusMinusT u => { u with aluf := .busMinusT }
  | .aluBusMinusTMinus1 u => { u with aluf := .busMinusTMinus1 }
  | .aluBusPlusTPlus1 u => { u with aluf := .busPlusTPlus1 }
  | .aluBusPlusSkip u => { u with aluf := .busPlusSkip }
  | .aluAluBusAndT u => { u with aluf := .aluBusAndT }
  | .aluBusAndNotT u => { u with aluf := .busAndNotT }
  | .aluReserved14 u => { u with aluf := .reserved14 }
  | .aluReserved15 u => { u with aluf := .reserved15 }
  | .bsReadR u => { u with bs := .readR }
  | .bsLoadR u => { u with bs := .loadR }
  | .bsNone u => { u with bs := .none }
  | .bsReadMd u => { u with bs := .readMd }
  | .bsReadMouse u => { u with bs := .readMouse }
  | .bsReadDisp u => { u with bs := .readDisp }
  | .bsReadS u => { u with bs := .readS }
  | .bsLoadS u => { u with bs := .loadS }
  | .bsTaskSpecific1 u => { u with bs := .taskSpecific1 }
  | .bsTaskSpecific2 u => { u with bs := .taskSpecific2 }
  | .f1None u => { u with f1 := .none }
  | .f1LoadMar u => { u with f1 := .loadMar }
  | .f1Task u => { u with f1 := .task }
  | .f1Block u => { u with f1 := .block }
  | .f1LLsh1 u => { u with f1 := .lLsh1 }
  | .f1LRsh1 u => { u with f1 := .lRsh1 }
  | .f1LLcy8 u => { u with f1 := .lLcy8 }
  | .f1Constant u => { u with f1 := .constant }
  | .f1Swmode u => { u with f1 := .swmode }
  | .f1Wrtram u => { u with f1 := .wrtram }
  | .f1Rdram u => { u with f1 := .rdram }
  | .f1LoadRmr u => { u with f1 := .loadRmr }
  | .f1Reserved12 u => { u with f1 := .reserved12 }
  | .f1LoadEsrb u => { u with f1 := .loadEsrb }
  | .f1Rsnf u => { u with f1 := .rsnf }
  | .f1Startf u => { u with f1 := .startf }
  | .f1TaskSpecific8 u => { u with f1 := .taskSpecific8 }
  | .f1TaskSpecific9 u => { u with f1 := .taskSpecific9 }
  | .f1TaskSpecific10 u => { u with f1 := .taskSpecific10 }
  | .f1TaskSpecific11 u => { u with f1 := .taskSpecific11 }
  | .f1TaskSpecific12 u => { u with f1 := .taskSpecific12 }
  | .f1TaskSpecific13 u => { u with f1 := .taskSpecific13 }
  | .f1TaskSpecific14 u => { u with f1 := .taskSpecific14 }
  | .f1TaskSpecific15 u => { u with f1 := .taskSpecific15 }
  | .f2None u => { u with f2 := .none }
  | .f2BusEq0 u => { u with f2 := .busEq0 }
  | .f2ShLt0 u => { u with f2 := .shLt0 }
  | .f2ShEq0 u => { u with f2 := .shEq0 }
  | .f2Bus u => { u with f2 := .bus }
  | .f2Alucy u => { u with f2 := .alucy }
  | .f2StoreMd u => { u with f2 := .storeMd }
  | .f2Constant u => { u with f2 := .constant }
  | .f2Busodd u => { u with f2 := .busodd }
  | .f2Magic u => { u with f2 := .magic }
  | .f2LoadDns u => { u with f2 := .loadDns }
  | .f2Acdest u => { u with f2 := .acdest }
  | .f2LoadIr u => { u with f2 := .loadIr }
  | .f2Idisp u => { u with f2 := .idisp }
  | .f2Acsource u => { u with f2 := .acsource }
  | .f2Reserved15 u => { u with f2 := .reserved15 }
  | .f2TaskSpecific8 u => { u with f2 := .taskSpecific8 }
  | .f2TaskSpecific9 u => { u with f2 := .taskSpecific9 }
  | .f2TaskSpecific10 u => { u with f2 := .taskSpecific10 }
  | .f2TaskSpecific11 u => { u with f2 := .taskSpecific11 }
  | .f2TaskSpecific12 u => { u with f2 := .taskSpecific12 }
  | .f2TaskSpecific13 u => { u with f2 := .taskSpecific13 }
  | .f2TaskSpecific14 u => { u with f2 := .taskSpecific14 }
  | .f2TaskSpecific15 u => { u with f2 := .taskSpecific15 }
  | .lt u => { u with loadT := true }
  | .ll u => { u with loadL := true }

end Sys2Proof
end

