-- ==== Sys2Proof/WellFormed.lean ====
section
/-! DEFINITION. When an instruction is well formed: its carried field agrees with its row, and its task-specific codes
belong to one kind of task (30_encoding.md R98, R100). -/

namespace Sys2Proof

/-- Whether a bus source can be decoded in the Emulator (`emu = true`) or in another task (R98). -/
def BusSrc.fits (emu : Bool) : BusSrc → Bool
  | .readS | .loadS => emu
  | .taskSpecific1 | .taskSpecific2 => !emu
  | .readR | .loadR | .none | .readMd | .readMouse | .readDisp => true

/-- Whether an F1 function can be decoded in the Emulator or in another task (R98). -/
def F1Fn.fits (emu : Bool) : F1Fn → Bool
  | .swmode | .wrtram | .rdram | .loadRmr | .reserved12 | .loadEsrb | .rsnf | .startf => emu
  | .taskSpecific8 | .taskSpecific9 | .taskSpecific10 | .taskSpecific11
  | .taskSpecific12 | .taskSpecific13 | .taskSpecific14 | .taskSpecific15 => !emu
  | .none | .loadMar | .task | .block | .lLsh1 | .lRsh1 | .lLcy8 | .constant => true

/-- Whether an F2 function can be decoded in the Emulator or in another task (R98). -/
def F2Fn.fits (emu : Bool) : F2Fn → Bool
  | .busodd | .magic | .loadDns | .acdest | .loadIr | .idisp | .acsource | .reserved15 => emu
  | .taskSpecific8 | .taskSpecific9 | .taskSpecific10 | .taskSpecific11
  | .taskSpecific12 | .taskSpecific13 | .taskSpecific14 | .taskSpecific15 => !emu
  | .none | .busEq0 | .shLt0 | .shEq0 | .bus | .alucy | .storeMd | .constant => true

/-- Whether a microinstruction can be decoded in the Emulator (`emu = true`) or in another task (R98, R100). -/
def Micro.fits (emu : Bool) (u : Micro) : Bool := u.bs.fits emu && u.f1.fits emu && u.f2.fits emu

/-- The microinstruction an instruction carries, as written. -/
def Instr.carried : Instr → Micro
  | .microinstruction u | .aluBus u | .aluT u | .aluBusOrT u
  | .aluBusAndT u | .aluBusXorT u | .aluBusPlus1 u | .aluBusMinus1 u
  | .aluBusPlusT u | .aluBusMinusT u | .aluBusMinusTMinus1 u | .aluBusPlusTPlus1 u
  | .aluBusPlusSkip u | .aluAluBusAndT u | .aluBusAndNotT u | .aluReserved14 u
  | .aluReserved15 u | .bsReadR u | .bsLoadR u | .bsNone u
  | .bsReadMd u | .bsReadMouse u | .bsReadDisp u | .bsReadS u
  | .bsLoadS u | .bsTaskSpecific1 u | .bsTaskSpecific2 u | .f1None u
  | .f1LoadMar u | .f1Task u | .f1Block u | .f1LLsh1 u
  | .f1LRsh1 u | .f1LLcy8 u | .f1Constant u | .f1Swmode u
  | .f1Wrtram u | .f1Rdram u | .f1LoadRmr u | .f1Reserved12 u
  | .f1LoadEsrb u | .f1Rsnf u | .f1Startf u | .f1TaskSpecific8 u
  | .f1TaskSpecific9 u | .f1TaskSpecific10 u | .f1TaskSpecific11 u | .f1TaskSpecific12 u
  | .f1TaskSpecific13 u | .f1TaskSpecific14 u | .f1TaskSpecific15 u | .f2None u
  | .f2BusEq0 u | .f2ShLt0 u | .f2ShEq0 u | .f2Bus u
  | .f2Alucy u | .f2StoreMd u | .f2Constant u | .f2Busodd u
  | .f2Magic u | .f2LoadDns u | .f2Acdest u | .f2LoadIr u
  | .f2Idisp u | .f2Acsource u | .f2Reserved15 u | .f2TaskSpecific8 u
  | .f2TaskSpecific9 u | .f2TaskSpecific10 u | .f2TaskSpecific11 u | .f2TaskSpecific12 u
  | .f2TaskSpecific13 u | .f2TaskSpecific14 u | .f2TaskSpecific15 u | .lt u
  | .ll u => u

/-- Check 1: the carried field says what the row says. -/
def Instr.rowAgrees (i : Instr) : Bool := i.carried == i.micro

/-- Check 2: the task-specific codes are all the Emulator's or all another task's. -/
def Instr.oneKind (i : Instr) : Bool := i.micro.fits true || i.micro.fits false

/-- An instruction some word of some task stands for. -/
def Instr.wellFormed (i : Instr) : Bool := i.rowAgrees && i.oneKind

end Sys2Proof
end

