-- ==== Sys2Proof/Decode.lean ====
section
/-! DEFINITION. The decoder (30_encoding.md R90, R91, R93 to R98), total on any bytes, and after it the encoder (R103).
A word decodes to its eight fields; which of the table's rows it is then NAMED by is fixed by `rowOf` (log 1). -/

namespace Sys2Proof

/-- The ALU function of a code (R93). -/
def aluOfCode (c : BitVec 4) : AluFn :=
  match c.toNat with
  | 0 => .bus
  | 1 => .t
  | 2 => .busOrT
  | 3 => .busAndT
  | 4 => .busXorT
  | 5 => .busPlus1
  | 6 => .busMinus1
  | 7 => .busPlusT
  | 8 => .busMinusT
  | 9 => .busMinusTMinus1
  | 10 => .busPlusTPlus1
  | 11 => .busPlusSkip
  | 12 => .aluBusAndT
  | 13 => .busAndNotT
  | 14 => .reserved14
  | _ => .reserved15

/-- The bus source of a code in the Emulator or in another task (R95, R98). -/
def busOfCode (emu : Bool) (c : BitVec 3) : BusSrc :=
  match c.toNat with
  | 0 => .readR
  | 1 => .loadR
  | 2 => .none
  | 3 => if emu then .readS else .taskSpecific1
  | 4 => if emu then .loadS else .taskSpecific2
  | 5 => .readMd
  | 6 => .readMouse
  | _ => .readDisp

/-- The F1 function of a code in the Emulator or in another task (R96, R98). -/
def f1OfCode (emu : Bool) (c : BitVec 4) : F1Fn :=
  match c.toNat with
  | 0 => .none
  | 1 => .loadMar
  | 2 => .task
  | 3 => .block
  | 4 => .lLsh1
  | 5 => .lRsh1
  | 6 => .lLcy8
  | 7 => .constant
  | 8 => if emu then .swmode else .taskSpecific8
  | 9 => if emu then .wrtram else .taskSpecific9
  | 10 => if emu then .rdram else .taskSpecific10
  | 11 => if emu then .loadRmr else .taskSpecific11
  | 12 => if emu then .reserved12 else .taskSpecific12
  | 13 => if emu then .loadEsrb else .taskSpecific13
  | 14 => if emu then .rsnf else .taskSpecific14
  | _ => if emu then .startf else .taskSpecific15

/-- The F2 function of a code in the Emulator or in another task (R97, R98). -/
def f2OfCode (emu : Bool) (c : BitVec 4) : F2Fn :=
  match c.toNat with
  | 0 => .none
  | 1 => .busEq0
  | 2 => .shLt0
  | 3 => .shEq0
  | 4 => .bus
  | 5 => .alucy
  | 6 => .storeMd
  | 7 => .constant
  | 8 => if emu then .busodd else .taskSpecific8
  | 9 => if emu then .magic else .taskSpecific9
  | 10 => if emu then .loadDns else .taskSpecific10
  | 11 => if emu then .acdest else .taskSpecific11
  | 12 => if emu then .loadIr else .taskSpecific12
  | 13 => if emu then .idisp else .taskSpecific13
  | 14 => if emu then .acsource else .taskSpecific14
  | _ => if emu then .reserved15 else .taskSpecific15

/-- `Decode` (R91) with the operation codes turned into functions of the executing task's kind: `emu` says whether the
executing task is the Emulator (R100). Every word decodes. -/
def decodeMicro (emu : Bool) (w : MicroWord) : Micro where
  rselect := w.extractLsb' 27 5
  aluf := aluOfCode (w.extractLsb' 23 4)
  bs := busOfCode emu (w.extractLsb' 20 3)
  f1 := f1OfCode emu (w.extractLsb' 16 4)
  f2 := f2OfCode emu (w.extractLsb' 12 4)
  loadT := w.getLsbD 11
  loadL := w.getLsbD 10
  next := w.extractLsb' 0 10

/-- The row named after a microinstruction's aluf field. -/
def rowOfAluf (u : Micro) : Instr :=
  match u.aluf with
  | .bus => .aluBus u
  | .t => .aluT u
  | .busOrT => .aluBusOrT u
  | .busAndT => .aluBusAndT u
  | .busXorT => .aluBusXorT u
  | .busPlus1 => .aluBusPlus1 u
  | .busMinus1 => .aluBusMinus1 u
  | .busPlusT => .aluBusPlusT u
  | .busMinusT => .aluBusMinusT u
  | .busMinusTMinus1 => .aluBusMinusTMinus1 u
  | .busPlusTPlus1 => .aluBusPlusTPlus1 u
  | .busPlusSkip => .aluBusPlusSkip u
  | .aluBusAndT => .aluAluBusAndT u
  | .busAndNotT => .aluBusAndNotT u
  | .reserved14 => .aluReserved14 u
  | .reserved15 => .aluReserved15 u

/-- The row named after a microinstruction's bs field. -/
def rowOfBs (u : Micro) : Instr :=
  match u.bs with
  | .readR => .bsReadR u
  | .loadR => .bsLoadR u
  | .none => .bsNone u
  | .readMd => .bsReadMd u
  | .readMouse => .bsReadMouse u
  | .readDisp => .bsReadDisp u
  | .readS => .bsReadS u
  | .loadS => .bsLoadS u
  | .taskSpecific1 => .bsTaskSpecific1 u
  | .taskSpecific2 => .bsTaskSpecific2 u

/-- The row named after a microinstruction's f1 field. -/
def rowOfF1 (u : Micro) : Instr :=
  match u.f1 with
  | .none => .f1None u
  | .loadMar => .f1LoadMar u
  | .task => .f1Task u
  | .block => .f1Block u
  | .lLsh1 => .f1LLsh1 u
  | .lRsh1 => .f1LRsh1 u
  | .lLcy8 => .f1LLcy8 u
  | .constant => .f1Constant u
  | .swmode => .f1Swmode u
  | .wrtram => .f1Wrtram u
  | .rdram => .f1Rdram u
  | .loadRmr => .f1LoadRmr u
  | .reserved12 => .f1Reserved12 u
  | .loadEsrb => .f1LoadEsrb u
  | .rsnf => .f1Rsnf u
  | .startf => .f1Startf u
  | .taskSpecific8 => .f1TaskSpecific8 u
  | .taskSpecific9 => .f1TaskSpecific9 u
  | .taskSpecific10 => .f1TaskSpecific10 u
  | .taskSpecific11 => .f1TaskSpecific11 u
  | .taskSpecific12 => .f1TaskSpecific12 u
  | .taskSpecific13 => .f1TaskSpecific13 u
  | .taskSpecific14 => .f1TaskSpecific14 u
  | .taskSpecific15 => .f1TaskSpecific15 u

/-- The row named after a microinstruction's f2 field. -/
def rowOfF2 (u : Micro) : Instr :=
  match u.f2 with
  | .none => .f2None u
  | .busEq0 => .f2BusEq0 u
  | .shLt0 => .f2ShLt0 u
  | .shEq0 => .f2ShEq0 u
  | .bus => .f2Bus u
  | .alucy => .f2Alucy u
  | .storeMd => .f2StoreMd u
  | .constant => .f2Constant u
  | .busodd => .f2Busodd u
  | .magic => .f2Magic u
  | .loadDns => .f2LoadDns u
  | .acdest => .f2Acdest u
  | .loadIr => .f2LoadIr u
  | .idisp => .f2Idisp u
  | .acsource => .f2Acsource u
  | .reserved15 => .f2Reserved15 u
  | .taskSpecific8 => .f2TaskSpecific8 u
  | .taskSpecific9 => .f2TaskSpecific9 u
  | .taskSpecific10 => .f2TaskSpecific10 u
  | .taskSpecific11 => .f2TaskSpecific11 u
  | .taskSpecific12 => .f2TaskSpecific12 u
  | .taskSpecific13 => .f2TaskSpecific13 u
  | .taskSpecific14 => .f2TaskSpecific14 u
  | .taskSpecific15 => .f2TaskSpecific15 u

/-- The row a microinstruction is named by: the first of the ALU function, the bus source, F1 and F2 whose code is not
0, then LT, then LL; the plain microinstruction when none is (DESIGN CHOICE, log 1: a word carries one row of every
field at once, and the name does not change what it does). -/
def rowOf (u : Micro) : Instr :=
  if u.aluf ≠ .bus then rowOfAluf u
  else if u.bs ≠ .readR then rowOfBs u
  else if u.f1 ≠ .none then rowOfF1 u
  else if u.f2 ≠ .none then rowOfF2 u
  else if u.loadT then .lt u
  else if u.loadL then .ll u
  else .microinstruction u

/-- The decoder of one raw microinstruction (R91). -/
def decode (emu : Bool) (w : MicroWord) : Instr := rowOf (decodeMicro emu w)

/-- Why bytes are not a microinstruction. -/
inductive DecodeError where
  /-- Fewer bytes are left than the four of a microinstruction (R100). -/
  | truncated
deriving DecidableEq, Repr

/-- The 32-bit word whose cells are `b0` (lowest address, low byte) to `b3` (log 6). -/
def wordOfCells (b0 b1 b2 b3 : Byte) : MicroWord := b3 ++ b2 ++ b1 ++ b0

/-- The four cells of a word, the lowest address first (log 6). -/
def cellsOfWord (w : MicroWord) : List Byte :=
  [w.extractLsb' 0 8, w.extractLsb' 8 8, w.extractLsb' 16 8, w.extractLsb' 24 8]

/-- The decoder on any bytes: the first microinstruction and the bytes after it, or a rejection by name. -/
def decodeBytes (emu : Bool) : List Byte → Except DecodeError (Instr × List Byte)
  | b0 :: b1 :: b2 :: b3 :: rest => .ok (decode emu (wordOfCells b0 b1 b2 b3), rest)
  | _ => .error .truncated

/-- The instruction the decoder reads, in the Emulator (the task that runs first after reset, R302), from the word
whose low `nbits` bits are `w`'s and whose other bits are 0. -/
def decodeTableWord (nbits w : Nat) : Option Instr :=
  match decodeBytes true (cellsOfWord (BitVec.ofNat 32 (w % 2 ^ nbits))) with
  | .ok (i, _) => some i
  | .error _ => none

/-- The code of an ALU function (R93). -/
def AluFn.code : AluFn → BitVec 4
  | .bus => 0#4
  | .t => 1#4
  | .busOrT => 2#4
  | .busAndT => 3#4
  | .busXorT => 4#4
  | .busPlus1 => 5#4
  | .busMinus1 => 6#4
  | .busPlusT => 7#4
  | .busMinusT => 8#4
  | .busMinusTMinus1 => 9#4
  | .busPlusTPlus1 => 10#4
  | .busPlusSkip => 11#4
  | .aluBusAndT => 12#4
  | .busAndNotT => 13#4
  | .reserved14 => 14#4
  | .reserved15 => 15#4

/-- The code of a bus source (R95, R98). -/
def BusSrc.code : BusSrc → BitVec 3
  | .readR => 0#3
  | .loadR => 1#3
  | .none => 2#3
  | .readS | .taskSpecific1 => 3#3
  | .loadS | .taskSpecific2 => 4#3
  | .readMd => 5#3
  | .readMouse => 6#3
  | .readDisp => 7#3

/-- The code of an F1 function (R96, R98). -/
def F1Fn.code : F1Fn → BitVec 4
  | .none => 0#4
  | .loadMar => 1#4
  | .task => 2#4
  | .block => 3#4
  | .lLsh1 => 4#4
  | .lRsh1 => 5#4
  | .lLcy8 => 6#4
  | .constant => 7#4
  | .swmode | .taskSpecific8 => 8#4
  | .wrtram | .taskSpecific9 => 9#4
  | .rdram | .taskSpecific10 => 10#4
  | .loadRmr | .taskSpecific11 => 11#4
  | .reserved12 | .taskSpecific12 => 12#4
  | .loadEsrb | .taskSpecific13 => 13#4
  | .rsnf | .taskSpecific14 => 14#4
  | .startf | .taskSpecific15 => 15#4

/-- The code of an F2 function (R97, R98). -/
def F2Fn.code : F2Fn → BitVec 4
  | .none => 0#4
  | .busEq0 => 1#4
  | .shLt0 => 2#4
  | .shEq0 => 3#4
  | .bus => 4#4
  | .alucy => 5#4
  | .storeMd => 6#4
  | .constant => 7#4
  | .busodd | .taskSpecific8 => 8#4
  | .magic | .taskSpecific9 => 9#4
  | .loadDns | .taskSpecific10 => 10#4
  | .acdest | .taskSpecific11 => 11#4
  | .loadIr | .taskSpecific12 => 12#4
  | .idisp | .taskSpecific13 => 13#4
  | .acsource | .taskSpecific14 => 14#4
  | .reserved15 | .taskSpecific15 => 15#4

/-- `Encode` (R103): the fields packed from bit 31 down, in the order of R90. -/
def encodeMicro (u : Micro) : MicroWord :=
  u.rselect ++ u.aluf.code ++ u.bs.code ++ u.f1.code ++ u.f2.code
    ++ BitVec.ofBool u.loadT ++ BitVec.ofBool u.loadL ++ u.next

/-- The word of an instruction: that of the microinstruction it stands for. -/
def encode (i : Instr) : MicroWord := encodeMicro i.micro

end Sys2Proof
end

