-- ==== Sys2Proof/Config.lean ====
section
/-! DEFINITION. What an implementation fixes (the parameters of 00_scope.md R8, plain data) and the free values the
spec leaves open (opaque constants, no body). -/

namespace Sys2Proof

/-- The two machine configurations (R2, R8 `P_SYSTEM`). -/
inductive System where
  | altoI | altoII
deriving DecidableEq, Repr, Inhabited

/-- The microcode banks (10_state.md R27). -/
inductive BankName where
  | rom0 | rom1 | ram0 | ram1 | ram2
deriving DecidableEq, Repr, Inhabited

/-- The shifter operations (R37). -/
inductive ShiftOp where
  | none | shiftLeft | shiftRight | rotateLeft | rotateRight
deriving DecidableEq, Repr, Inhabited

/-- The shifter's per-microinstruction configuration (R37). -/
structure ShiftConfig where
  op : ShiftOp
  count : Nat
  magic : Bool
  dns : Bool
  dnsCarry : Bool
deriving DecidableEq, Repr, Inhabited

/-- The configuration at the start of every microinstruction and at reset (R38, 43_shifter.md R192). -/
def ShiftConfig.clear : ShiftConfig := ⟨.none, 0, false, false, false⟩

/-- A call of the core on a device (R7, R66): one entry of the log that the free device values depend on. -/
inductive DeviceCall where
  /-- `device.read(address, task, xm)`. -/
  | read (addr : Word) (task : TaskNum) (xm : Bool)
  /-- `device.load(address, data, task, xm)`. -/
  | load (addr data : Word) (task : TaskNum) (xm : Bool)
  /-- `P_DEVICE.mouseBits()` (R167). -/
  | mouse
  /-- `P_DEVICE.nodeId()` (R245). -/
  | nodeId
  /-- `P_DEVICE.startf(busData)` (R246). -/
  | startf (data : Word)
  /-- A device call of a task hook (42_bus_sources.md R172). -/
  | hook (task : TaskNum) (data : Word)
deriving DecidableEq, Repr, Inhabited

/-- A call of a device on the scheduler: the only two entry points (60_exceptions.md R279). -/
inductive ExternalCall where
  | wakeupTask (i : TaskNum)
  | blockTask (i : TaskNum)
deriving DecidableEq, Repr, Inhabited

/-- The hooks a task other than the Emulator may have (40_cycle.md R132, R133). `f1 c` and `f2 c` are the hooks of the
field codes 8..15. -/
inductive HookPoint where
  | bs3 | bs4 | f1 (code : Nat) | f2 (code : Nat)
  | f1Early | f2Early | f2Late | block | reset | onTaskSwitch
deriving DecidableEq, Repr, Inhabited

/-- The bus word a `bs3` or `bs4` hook returns: a word, or what `ReadMD` returns (R132, R133). -/
inductive HookBus where
  | word (w : Word)
  | readMd
deriving DecidableEq, Repr, Inhabited

/-- One thing a task hook does (R132, R133). A hook returns the state and the scratch, so it may change every field of them
that no rule of the spec closes to it: the fields of this microinstruction's scratch below, the devices, and the memory bus
and the wakeups through the functions R133 names. Which rules close the other fields, one by one, is log 11. -/
inductive HookAction where
  | setLoadR (b : Bool)
  | setRSelect (r : BitVec 5)
  | setAlu (w : Word)
  | setSh (w : Word)
  | setTaskFired (b : Bool)
  | setBlockFired (b : Bool)
  | setShift (c : ShiftConfig)
  | orNextModifier (a : MicroAddr)
  | loadMar (addr : Word) (xm : Bool)
  | storeMd (data : Word)
  | readMd
  | wakeupTask (i : TaskNum)
  | blockTask (i : TaskNum)
  | device (data : Word)
deriving DecidableEq, Repr, Inhabited

/-- What a hook does when it runs: the bus word it returns (used at `bs3` and `bs4` only) and its actions in order. -/
structure HookAnswer where
  bus : HookBus
  acts : List HookAction
deriving DecidableEq, Repr, Inhabited

/-- A hook that is present: one whose answer is written down, or one left open, whose answer is a free function of the
machine state (`Config.openHook`, log 11). -/
inductive Hook where
  | fixed (a : HookAnswer)
  | free
deriving DecidableEq, Repr, Inhabited

/-- One present hook of one task: an entry of `P_TASK_HOOKS` (R132). -/
structure HookEntry where
  task : TaskNum
  point : HookPoint
  hook : Hook
deriving DecidableEq, Repr, Inhabited

/-- One row of `P_SWMODE_MAP` (20_memory.md R73, R74): from this bank with this `next` field to that bank. -/
structure SwModeRow where
  source : BankName
  next : MicroAddr
  target : BankName
deriving DecidableEq, Repr, Inhabited

/-- The parameters of every step (R8, R44). Plain data, carried in the state so that every claim covers every
configuration; no step changes them (log 2). -/
structure Params where
  /-- `P_SYSTEM`. -/
  system : System
  /-- `P_READ_AFTER`. -/
  readAfter : Nat
  /-- `P_ROM_BANKS`. -/
  romBanks : Nat
  /-- `P_RAM_BANKS`. -/
  ramBanks : Nat
  /-- `P_TASKS`: bit i is 1 when task i exists; task 0 always exists (R30). -/
  tasks : BitVec 16
  /-- `P_DISK_SECTOR_TASK`. -/
  diskSectorTask : TaskNum
  /-- `P_LOADS_BUS`. -/
  loadsBus : Word
  /-- `P_IR_CLEARS_SKIP`. -/
  irClearsSkip : Bool
  /-- `P_CRAM_XOR`. -/
  cramXor : MicroWord
  /-- `P_IO_BASE`. -/
  ioBase : Word
  /-- `P_XM_BASE`. -/
  xmBase : Word
  /-- `P_XM_READ_FILL`. -/
  xmReadFill : Word
  /-- `P_SWMODE_MAP` outside the one-ROM, one-RAM configuration; no row is "not given" (R74). -/
  swModeMap : List SwModeRow
  /-- Known entries of `P_CONST_ROM`; every other entry is free (log 7). -/
  constRom : List (BitVec 8 × Word)
  /-- Known entries of `P_IDISP_PROM`; every other entry is free (log 8). -/
  idispProm : List (Word × MicroAddr)
  /-- Known entries of `P_ACSOURCE_PROM`; every other entry is free (log 8). -/
  acsourceProm : List (Word × MicroAddr)
  /-- `P_EMU_DNS` replaced by another function, left free (log 13); false is the default of 46_emulator.md. -/
  emuDnsReplaced : Bool
  /-- `P_TASK_HOOKS`: the hooks that are present (log 11). -/
  hooks : List HookEntry
deriving DecidableEq, Repr, Inhabited

/-- The defaults of R8. `P_SYSTEM` is OPEN: DESIGN CHOICE `ALTO_II`, the value of the spec's examples (log 2, unsafe).
`P_TASKS = {0, 4, 7, 8, 9, 10, 11, 12, 13, 14}` (60_exceptions.md R282). -/
def Params.default : Params where
  system := .altoII
  readAfter := 4
  romBanks := 1
  ramBanks := 1
  tasks := 0x7F91#16
  diskSectorTask := 4
  loadsBus := 0x0000#16
  irClearsSkip := true
  cramXor := 0#32
  ioBase := 0xFE00#16
  xmBase := 0xFFE0#16
  xmReadFill := 0xFFF0#16
  swModeMap := []
  constRom := []
  idispProm := []
  acsourceProm := []
  emuDnsReplaced := false
  hooks := []

/-- `P_STORE_AFTER` (R8): 2 on ALTO_II, 4 on ALTO_I. -/
def Params.storeAfter (p : Params) : Nat :=
  match p.system with
  | .altoII => 2
  | .altoI => 4

/-- Whether task `k` exists (R30: `k ∈ P_TASKS`; task 0 always exists). -/
def Params.present (p : Params) (k : TaskNum) : Bool := k == 0 || p.tasks.getLsbD k.val

/-- The Word a device answers to `device.read` (20_memory.md R51): free, a function of the time, of the calls made
before, and of the call (log 9). -/
opaque Config.deviceRead (ticks : Nat) (calls : List DeviceCall) (addr : Word) (task : TaskNum) (xm : Bool) : Word

/-- The mouse poll bits (42_bus_sources.md R167): free (log 10). -/
opaque Config.mouseBits (ticks : Nat) (calls : List DeviceCall) : Word

/-- The 8-bit Ethernet host number (46_emulator.md R245): free (log 10). -/
opaque Config.nodeId (ticks : Nat) (calls : List DeviceCall) : BitVec 8

/-- A word of `P_CONST_ROM` that is not listed (20_memory.md R81): free (log 7). -/
opaque Config.constRomWord (index : BitVec 8) : Word

/-- An entry of `P_IDISP_PROM` that is not listed (46_emulator.md R253): free (log 8). -/
opaque Config.idispPromWord (ir : Word) : MicroAddr

/-- An entry of `P_ACSOURCE_PROM` that is not listed (46_emulator.md R255): free (log 8). -/
opaque Config.acsourcePromWord (ir : Word) : MicroAddr

/-- What a replacing `P_EMU_DNS` computes early: `rSelect`, `loadR`, `dnsCarry` (46_emulator.md R256): free (log 13). -/
opaque Config.dnsEarly (ir : Word) (novaCarry aluC0 : Bool) (rSelect : BitVec 5) : BitVec 5 × Bool × Bool

/-- What a replacing `P_EMU_DNS` computes late: `novaCarry`, `skip` (46_emulator.md R257): free (log 13). -/
opaque Config.dnsLate (ir : Word) (novaCarry carry : Bool) (sh : Word) : Bool × Bool

end Sys2Proof
end

