-- ==== Sys2Proof/Machine/State.lean ====
section
/-! DEFINITION. The machine state as plain data (10_state.md), the faults of 60_exceptions.md R271, and the state right
after reset. -/

namespace Sys2Proof.Machine

/-- The 18 faults of R271, by name. `raise` (Machine/Ops.lean) writes one into `State.halted` (R270); the machine then
stands still, and that standing still is a NEXT state (log 16). No step answers `Host.Outcome.fault`. All are the
spec's own stops, so safe. -/
inductive Fault where
  /-- Code 1, aluf 14 or 15; raised by `runAlu` (R154). Safe. -/
  | aluFn
  /-- Code 2, bus source 3 or 4 of a task with no hook; raised by `busHook` (R164, R165). Safe. -/
  | busSource
  /-- Code 3, Emulator f1 12, or f1 8..15 of a task with no hook (R247, R203). Safe. -/
  | f1
  /-- Code 4, Emulator f2 15, or f2 8..15 of a task with no hook (R258, R223). Safe. -/
  | f2
  /-- Code 5, LoadMAR while an operation is active; raised by `loadMar` (R57). Safe. -/
  | marActive
  /-- Code 6, a store with the bus idle; raised by `storeMd` (R62). Safe. -/
  | storeNoOp
  /-- Code 7, a store before cycle `P_STORE_AFTER + 1`; raised by `storeMd` (R62). Safe. -/
  | storeEarly
  /-- Code 8, a read of MD after a store in the same operation; raised by `readMd` (R61). Safe. -/
  | mixedRead
  /-- Code 9, a read of MD in cycle 6 without one in cycle 5; raised by `readMd` (R61). Safe. -/
  | readLate
  /-- Code 10, DNS with ROTATE_RIGHT; raised by `runShifter` (R188). Safe. -/
  | dnsRotateRight
  /-- Code 11, a magic shift with a count other than 1; raised by `runShifter` (R181). Safe. -/
  | magicCount
  /-- Code 12, magic with DNS, a magic rotate, a DNS shift with a count other than 1; raised by `runShifter`
  (R176, R184, R189). Safe. -/
  | shifterMode
  /-- Code 13, a block or a wake of the Emulator (R198, R279, R280). Safe. -/
  | protectedTask
  /-- Code 14, a block or a wake of a task not in `P_TASKS` (R279). Safe. -/
  | noTask
  /-- Code 15, a fetch from a bank the configuration lacks; raised by `step` (R71). Safe. -/
  | noBank
  /-- Code 16, a control-RAM read with the ROM selected; raised by `cramRead` (R77). Safe. -/
  | cramRomRead
  /-- Code 17, a control-RAM access to a RAM bank the configuration lacks (R76, R77). Safe. -/
  | cramBank
  /-- Code 18, a bank switch due where `P_SWMODE_MAP` is not given; raised by `switchBank` (R74). Safe. -/
  | swModeUnmodelled
deriving DecidableEq, Repr, Inhabited

/-- The number R271 gives each fault. -/
def Fault.code : Fault → Nat
  | .aluFn => 1 | .busSource => 2 | .f1 => 3 | .f2 => 4 | .marActive => 5 | .storeNoOp => 6
  | .storeEarly => 7 | .mixedRead => 8 | .readLate => 9 | .dnsRotateRight => 10 | .magicCount => 11
  | .shifterMode => 12 | .protectedTask => 13 | .noTask => 14 | .noBank => 15 | .cramRomRead => 16
  | .cramBank => 17 | .swModeUnmodelled => 18

/-- Why an instruction has no meaning. -/
inductive Refusal where
  /-- Raised only by an arm of `exec` that has no meaning yet; there is none. Safe. -/
  | notModelled (mnemonic : String)
deriving DecidableEq, Repr, Inhabited

/-- The `info` of a fault (R270), as the raising rule gives it; `none` where the rule names no info (log 17). -/
inductive FaultInfo where
  | none
  | code (c : Nat)
  | word (w : Word)
  | cycle (n : Nat)
  | task (i : TaskNum)
  | bank (b : BankName)
  | ramBank (n : Nat)
deriving DecidableEq, Repr, Inhabited

/-- The fault record of `halted` (R43): name, task, mpc, info. -/
structure FaultRecord where
  fault : Fault
  task : TaskNum
  mpc : MicroAddr
  info : FaultInfo
deriving DecidableEq, Repr, Inhabited

/-- The completion codes of a CPU step (60_exceptions.md R275). -/
inductive Completion where
  | normal | taskSwitch | memoryWait
deriving DecidableEq, Repr, Inhabited

/-- The per-microinstruction scratch (10_state.md R36, R37). -/
structure Scratch where
  busData : Word
  rSelect : BitVec 5
  srSelect : BitVec 5
  loadR : Bool
  loadS : Bool
  softReset : Bool
  blockFired : Bool
  taskFired : Bool
  nextModifier : MicroAddr
  mPrev : Word
  lPrev : Word
  aluC0Prev : Bool
  rdRam : Bool
  wrtRam : Bool
  swMode : Bool
  alu : Word
  sh : Word
  shift : ShiftConfig
deriving DecidableEq, Repr, Inhabited

/-- The scratch with every field clear: the shifter configuration of R38; the others DESIGN CHOICE (log 19). -/
def Scratch.clear : Scratch where
  busData := 0#16
  rSelect := 0#5
  srSelect := 0#5
  loadR := false
  loadS := false
  softReset := false
  blockFired := false
  taskFired := false
  nextModifier := 0#10
  mPrev := 0#16
  lPrev := 0#16
  aluC0Prev := false
  rdRam := false
  wrtRam := false
  swMode := false
  alu := 0#16
  sh := 0#16
  shift := ShiftConfig.clear

/-- A store: byte cells at strictly rising addresses, none of them equal to what an unlisted address reads as. -/
abbrev Memory := List Host.Cell

/-- The state of the machine: 10_state.md R16 to R43, then the parameters of every step (R44), then the model's own
fields (INVENTORY.md, State). -/
structure State where
  /-- T (R16). -/
  t : Word
  /-- L (R17). -/
  l : Word
  /-- M (R18). -/
  m : Word
  /-- IR (R19). -/
  ir : Word
  /-- R[0..31] (R20). -/
  r : Vector Word 32
  /-- S[0..7][0..31] (R21); the word of bank b and index i is cell 32 b + i. -/
  sStore : Vector Word 256
  /-- rb (R22). -/
  rb : BitVec 3
  /-- aluCarry (R23). -/
  aluCarry : Bool
  /-- aluC0 (R24). -/
  aluC0 : Bool
  /-- skip (R25). -/
  skip : Bool
  /-- novaCarry (R25). -/
  novaCarry : Bool
  /-- rmr (R26). -/
  rmr : BitVec 16
  /-- microcodeBank (R27). -/
  bank : PerTask BankName
  /-- cramAddr (R28). -/
  cramAddr : Word
  /-- xmBanks (R29). -/
  xmBanks : PerTask (BitVec 4)
  /-- mpc (R31). -/
  mpc : PerTask MicroAddr
  /-- wakeup (R32). -/
  wakeup : PerTask Bool
  /-- firstAfterSwitch (R33). -/
  firstAfterSwitch : PerTask Bool
  /-- currentTask (R34). -/
  currentTask : TaskNum
  /-- nextTask (R34). -/
  nextTask : Option TaskNum
  /-- rdRamPending (R35). -/
  rdRamPending : PerTask Bool
  /-- wrtRamPending (R35). -/
  wrtRamPending : PerTask Bool
  /-- swModePending (R35). -/
  swModePending : PerTask Bool
  /-- memActive (R39). -/
  memActive : Bool
  /-- memCycle, a counter 1..6 (R39). -/
  memCycle : Nat
  /-- memAddr (R39). -/
  memAddr : Word
  /-- memData (R39). -/
  memData : Word
  /-- memData2 (R39). -/
  memData2 : Word
  /-- dwStore (R39, R64). -/
  dwStore : Bool
  /-- dwMixed (R39, R64). -/
  dwMixed : Bool
  /-- memXM (R39, R55). -/
  memXM : Bool
  /-- memTask (R39, R56). -/
  memTask : TaskNum
  /-- memRd5 (R39, R61). -/
  memRd5 : Bool
  /-- Main[0..2^18-1] (R40); the word of physical address p is the byte cells 2 p (low half) and 2 p + 1 (log 6). -/
  main : Memory
  /-- The microcode ROM banks (R41); the word a of bank n is the byte cells 4 (1024 n + a) .. + 3, low byte first. -/
  urom : Memory
  /-- The microcode RAM banks (R41), laid out as the ROM's. -/
  uram : Memory
  /-- halted (R43, R270). -/
  halted : Option FaultRecord
  /-- The per-microinstruction scratch (R36, R37). -/
  scratch : Scratch
  /-- The completion code of the last CPU step (R275). -/
  completion : Completion
  /-- The parameters of every step (R8, R44). -/
  params : Params
  /-- Model's own: the wakeupTask and blockTask calls of the coming ticks, one list per tick (R279; log 15). -/
  external : List (List ExternalCall)
  /-- Model's own: the wakeupTask and blockTask calls this tick's hooks have made, in the order made (R279; log 12). -/
  hookCalls : List ExternalCall
  /-- Model's own: the calls made on devices, newest first (log 9). -/
  deviceCalls : List DeviceCall
  /-- Model's own: the number of ticks begun (R286; log 20). -/
  ticks : Nat
deriving DecidableEq, Repr

/-- The machine right after power-up reset with the default parameters (10_state.md R45, 70_reset_and_hazards.md R300):
nothing is listed in any store (logs 3, 4, 5), no hook is present, no call of a device is due. -/
def State.reset : State where
  t := 0#16
  l := 0#16
  m := 0#16
  ir := 0#16
  r := Vector.replicate 32 0#16
  sStore := Vector.replicate 256 0#16
  rb := 0#3
  aluCarry := false
  aluC0 := false
  skip := false
  novaCarry := false
  rmr := 0xFFFF#16
  bank := Vector.replicate 16 .rom0
  cramAddr := 0#16
  xmBanks := Vector.replicate 16 0#4
  mpc := PerTask.tabulate fun k => BitVec.ofNat 10 k.val
  wakeup := PerTask.tabulate fun k => k == 0
  firstAfterSwitch := Vector.replicate 16 false
  currentTask := 0
  nextTask := none
  rdRamPending := Vector.replicate 16 false
  wrtRamPending := Vector.replicate 16 false
  swModePending := Vector.replicate 16 false
  memActive := false
  memCycle := 1
  memAddr := 0#16
  memData := 0#16
  memData2 := 0#16
  dwStore := false
  dwMixed := false
  memXM := false
  memTask := 0
  memRd5 := false
  main := []
  urom := []
  uram := []
  halted := none
  scratch := Scratch.clear
  completion := .normal
  params := Params.default
  external := []
  hookCalls := []
  deviceCalls := []
  ticks := 0

end Sys2Proof.Machine
end

