-- ==== Sys2Proof/Machine/Ops.lean ====
section
/-! DEFINITION. The named operations over the state: the byte cells of a store, raising a fault (the machine's one kind of
exception), phases, the memory bus, the microcode store, the wakeups and the two resets. -/

namespace Sys2Proof.Machine

/-! ## Stores -/

/-- What an address that is not listed reads as: 0 (DESIGN CHOICE, unsafe, logs 3 to 5). -/
def Memory.blank : Byte := 0#8

/-- The byte at address `a` of a store. -/
def Memory.readByte : Memory → Nat → Byte
  | [], _ => Memory.blank
  | (x, v) :: rest, a => if x = a then v else Memory.readByte rest a

/-- Insert a cell before the first cell with a higher address. -/
def Memory.insertCell (c : Host.Cell) : Memory → Memory
  | [] => [c]
  | d :: rest => if c.1 < d.1 then c :: d :: rest else d :: Memory.insertCell c rest

/-- Write a byte, keeping the canonical form: writing the blank value removes the entry. -/
def Memory.writeByte (mem : Memory) (a : Nat) (v : Byte) : Memory :=
  let rest := mem.filter fun c => c.1 != a
  if v = Memory.blank then rest else Memory.insertCell (a, v) rest

/-- The canonical form: addresses strictly rising, no entry blank. -/
def Memory.wf : Memory → Bool
  | [] => true
  | c :: rest => c.2 != Memory.blank && rest.all (fun d => decide (c.1 < d.1)) && Memory.wf rest

/-- The word `p` of a store of 16-bit words (R47; the layout of a word's two cells is the model's, log 6). -/
def Memory.readWord (mem : Memory) (p : Nat) : Word := mem.readByte (2 * p + 1) ++ mem.readByte (2 * p)

/-- Write the word `p` of a store of 16-bit words. -/
def Memory.writeWord (mem : Memory) (p : Nat) (v : Word) : Memory :=
  (mem.writeByte (2 * p) (v.extractLsb' 0 8)).writeByte (2 * p + 1) (v.extractLsb' 8 8)

/-- The word `p` of a store of 32-bit words. -/
def Memory.readMicro (mem : Memory) (p : Nat) : MicroWord :=
  mem.readByte (4 * p + 3) ++ mem.readByte (4 * p + 2) ++ mem.readByte (4 * p + 1) ++ mem.readByte (4 * p)

/-- Write the word `p` of a store of 32-bit words. -/
def Memory.writeMicro (mem : Memory) (p : Nat) (v : MicroWord) : Memory :=
  (((mem.writeByte (4 * p) (v.extractLsb' 0 8)).writeByte (4 * p + 1) (v.extractLsb' 8 8)).writeByte (4 * p + 2)
    (v.extractLsb' 16 8)).writeByte (4 * p + 3) (v.extractLsb' 24 8)

/-! ## Faults and phases -/

/-- `raise Fault(name, info)` (60_exceptions.md R270): the one way the machine takes an exception. It stops the machine
in place: the record names the current task and its micro-program counter, and everything else stays as the earlier
steps left it. There is no trap entry and no return from one (R274), so nothing stands beside it. -/
def raise (f : Fault) (info : FaultInfo) (s : State) : State :=
  { s with halted := some ⟨f, s.currentTask, Bank.get s.mpc s.currentTask, info⟩ }

/-- Run phases in order; a fault ends the run at the phase that raised it (R270, R272). -/
def runPhases : List (State → State) → State → State
  | [], s => s
  | f :: rest, s =>
    match (f s).halted with
    | none => runPhases rest (f s)
    | some _ => f s

/-- Change this microinstruction's scratch (R36). -/
def State.onScratch (s : State) (f : Scratch → Scratch) : State := { s with scratch := f s.scratch }

/-- Put a word on the bus. -/
def State.setBus (s : State) (w : Word) : State := s.onScratch fun c => { c with busData := w }

/-- OR bits into the next-address modifier (45_f2.md). -/
def State.orModifier (s : State) (a : MicroAddr) : State :=
  s.onScratch fun c => { c with nextModifier := c.nextModifier ||| a }

/-- Record a call on a device (R66; log 9). -/
def State.logCall (s : State) (c : DeviceCall) : State := { s with deviceCalls := c :: s.deviceCalls }

/-! ## Register files -/

/-- The word R[i] (10_state.md R20). -/
def readR (i : BitVec 5) (s : State) : Word := Bank.get s.r i.toFin

/-- The cell of S[b][i] in `State.sStore` (R21). -/
def sIndex (b : BitVec 3) (i : BitVec 5) : Fin 256 := (b ++ i).toFin

/-- The word S[b][i] (R21). -/
def readS (b : BitVec 3) (i : BitVec 5) (s : State) : Word := Bank.get s.sStore (sIndex b i)

/-! ## The data space (20_memory.md R50 to R54) -/

/-- The task whose XM bank register answers at `a`, if one does (R53). -/
def xmIndex (p : Params) (a : Word) : Option TaskNum :=
  if p.system = .altoII ∧ p.xmBase.toNat ≤ a.toNat ∧ a.toNat ≤ p.xmBase.toNat + 15 then
    some (Fin.ofNat 16 (a.toNat - p.xmBase.toNat))
  else none

/-- `PhysAddr` (R54): the 18-bit physical word address. -/
def physAddr (a : Word) (k : TaskNum) (xm : Bool) (s : State) : BitVec 18 :=
  match s.params.system with
  | .altoI => 0#2 ++ a
  | .altoII =>
    if xm then (Bank.get s.xmBanks k).extractLsb' 0 2 ++ a else (Bank.get s.xmBanks k).extractLsb' 2 2 ++ a

/-- `MemRead(a, 1)` (R52): the word and the state after it (a device read is a call, R66). -/
def memRead (a : Word) (s : State) : Word × State :=
  match xmIndex s.params a with
  | some i => (s.params.xmReadFill ||| (Bank.get s.xmBanks i).setWidth 16, s)
  | none =>
    if s.params.ioBase.toNat ≤ a.toNat then
      (Config.deviceRead s.ticks s.deviceCalls a s.memTask s.memXM, s.logCall (.read a s.memTask s.memXM))
    else (s.main.readWord (physAddr a s.memTask s.memXM s).toNat, s)

/-- `MemWrite(a, 1, v)` (R52). -/
def memWrite (a v : Word) (s : State) : State :=
  match xmIndex s.params a with
  | some i => { s with xmBanks := Bank.put s.xmBanks i (v.extractLsb' 0 4) }
  | none =>
    if s.params.ioBase.toNat ≤ a.toNat then s.logCall (.load a v s.memTask s.memXM)
    else { s with main := s.main.writeWord (physAddr a s.memTask s.memXM s).toNat v }

/-! ## The memory bus (20_memory.md R56 to R64) -/

/-- The partner address of a double-word access (R48): it differs in bit 0. -/
def partner (a : Word) : Word := a ^^^ 1#16

/-- `LoadMAR(a, task, xm)` (R57). -/
def loadMar (a : Word) (k : TaskNum) (xm : Bool) (s : State) : State :=
  if s.memActive then raise .marActive (.word a) s
  else
    { s with
      memActive := true, memCycle := 1, memAddr := a, memTask := k, memXM := xm,
      dwStore := false, dwMixed := false, memRd5 := false }

/-- Latch the first word at the bus clock that enters cycle 5 (R58, R59). -/
def latchFirst (s : State) : State :=
  { (memRead s.memAddr s).2 with memData := (memRead s.memAddr s).1 }

/-- Latch the partner word at the bus clock that enters cycle 6 (R58, R59). -/
def latchSecond (s : State) : State :=
  { (memRead (partner s.memAddr) s).2 with memData2 := (memRead (partner s.memAddr) s).1 }

/-- `BusClock()` (R58). -/
def busClock (s : State) : State :=
  if s.memActive = false then s
  else if s.memCycle = 6 then { s with memActive := false }
  else if s.memCycle + 1 = 5 ∧ s.dwMixed = false then latchFirst { s with memCycle := s.memCycle + 1 }
  else if s.memCycle + 1 = 6 ∧ s.dwMixed = false then latchSecond { s with memCycle := s.memCycle + 1 }
  else { s with memCycle := s.memCycle + 1 }

/-- `Ready(LOAD_ADDRESS)` (R60). -/
def readyLoadAddress (s : State) : Bool := !s.memActive

/-- `Ready(READ)` (R60). -/
def readyRead (s : State) : Bool := !s.memActive || decide (s.params.readAfter < s.memCycle)

/-- `Ready(STORE)` (R60). -/
def readyStore (s : State) : Bool := !s.memActive || decide (s.params.storeAfter < s.memCycle)

/-- `ReadMD()` (R61): the word and the state after it, or the state halted by a fault. -/
def readMd (s : State) : Except State (Word × State) :=
  if s.dwMixed then .error (raise .mixedRead (.word s.memAddr) s)
  else if s.memActive ∧ s.memCycle = 5 then .ok (s.memData, { s with memRd5 := true })
  else if s.memActive ∧ s.memCycle = 6 then
    if s.memRd5 = false then .error (raise .readLate (.word s.memAddr) s) else .ok (s.memData2, s)
  else .ok (s.memData, s)

/-- The address `StoreMD` stores to (R62): in cycle F + 1 after a store in cycle F the partner, else `memAddr`. -/
def storeAddr (s : State) : Word :=
  if s.memCycle = s.params.storeAfter + 2 ∧ s.dwStore then partner s.memAddr else s.memAddr

/-- `StoreMD(v)` (R62), with F = `P_STORE_AFTER` + 1. -/
def storeMd (v : Word) (s : State) : State :=
  if s.memActive = false then raise .storeNoOp (.word v) s
  else if s.memCycle < s.params.storeAfter + 1 then raise .storeEarly (.cycle s.memCycle) s
  else
    { memWrite (storeAddr s) v s with
      dwStore := s.dwStore || decide (s.memCycle = s.params.storeAfter + 1), dwMixed := true }

/-! ## The microcode store (20_memory.md R71 to R78) -/

/-- The word number of address `a` of bank number `n` of the ROM or of the RAM. -/
def microIndex (n : Nat) (a : MicroAddr) : Nat := 1024 * n + a.toNat

/-- Whether a bank is ROM, and its number. -/
def bankParts : BankName → Bool × Nat
  | .rom0 => (true, 0)
  | .rom1 => (true, 1)
  | .ram0 => (false, 0)
  | .ram1 => (false, 1)
  | .ram2 => (false, 2)

/-- Whether the configuration has a bank (R27, R71). -/
def bankExists (p : Params) (b : BankName) : Bool :=
  if (bankParts b).1 then decide ((bankParts b).2 < p.romBanks) else decide ((bankParts b).2 < p.ramBanks)

/-- `UFetch(b, a)` (R71); `none` where the configuration lacks the bank. -/
def uFetch (b : BankName) (a : MicroAddr) (s : State) : Option MicroWord :=
  if bankExists s.params b then
    some ((if (bankParts b).1 then s.urom else s.uram).readMicro (microIndex (bankParts b).2 a))
  else none

/-- Place a word at an address of a bank: loading a program from outside (log 4). -/
def placeMicro (b : BankName) (a : MicroAddr) (w : MicroWord) (s : State) : State :=
  if (bankParts b).1 then { s with urom := s.urom.writeMicro (microIndex (bankParts b).2 a) w }
  else { s with uram := s.uram.writeMicro (microIndex (bankParts b).2 a) w }

/-- `loadBanksFromRMR(r)` (R72). -/
def banksOfRmr (r : BitVec 16) : PerTask BankName :=
  PerTask.tabulate fun i => if r.getLsbD i.val then .rom0 else .ram0

/-- `P_SWMODE_MAP` (R74): fixed for one ROM and one RAM bank, the given rows otherwise; `none` where not given. -/
def swModeTarget (p : Params) (b : BankName) (a : MicroAddr) : Option BankName :=
  if p.romBanks = 1 ∧ p.ramBanks = 1 then
    match b with
    | .rom0 => some .ram0
    | .ram0 => some .rom0
    | .rom1 | .ram1 | .ram2 => none
  else (p.swModeMap.find? fun row => row.source == b && row.next == a).map (·.target)

/-- The RAM bank number of `cramAddr` (R75). -/
def cramBankOf (a : Word) : Nat := (a.extractLsb' 12 2).toNat

/-- `CramWrite(alu, mPrev)` (R76). -/
def cramWrite (alu mPrev : Word) (s : State) : State :=
  if s.cramAddr.getLsbD 11 then s
  else if s.params.ramBanks ≤ cramBankOf s.cramAddr then raise .cramBank (.ramBank (cramBankOf s.cramAddr)) s
  else
    { s with
      uram := s.uram.writeMicro (microIndex (cramBankOf s.cramAddr) (s.cramAddr.extractLsb' 0 10))
        ((mPrev ++ alu) ^^^ s.params.cramXor) }

/-- `CramRead()` (R77): the half-word, or the state halted by a fault. -/
def cramRead (s : State) : Except State Word :=
  if s.cramAddr.getLsbD 11 then .error (raise .cramRomRead (.word s.cramAddr) s)
  else if s.params.ramBanks ≤ cramBankOf s.cramAddr then
    .error (raise .cramBank (.ramBank (cramBankOf s.cramAddr)) s)
  else
    let w := s.uram.readMicro (microIndex (cramBankOf s.cramAddr) (s.cramAddr.extractLsb' 0 10)) ^^^ s.params.cramXor
    .ok (if s.cramAddr.getLsbD 10 then w.extractLsb' 16 16 else w.extractLsb' 0 16)

/-! ## Tasks (60_exceptions.md R276 to R281) -/

/-- The task numbers from the highest priority down (R281). -/
def tasksDown : List TaskNum := [15, 14, 13, 12, 11, 10, 9, 8, 7, 6, 5, 4, 3, 2, 1, 0]

/-- Whether a scan may pick task `k`: it exists and is woken (R276). -/
def eligible (s : State) (k : TaskNum) : Bool := s.params.present k && Bank.get s.wakeup k

/-- The scan of R276: the highest woken task; task 0 always qualifies (R280). -/
def highestWoken (s : State) : TaskNum := (tasksDown.find? (eligible s)).getD 0

/-- `wakeupTask(i)` (R279). -/
def wakeupTask (i : TaskNum) (s : State) : State :=
  if i = 0 then raise .protectedTask (.task i) s
  else if s.params.present i = false then raise .noTask (.task i) s
  else { s with wakeup := Bank.put s.wakeup i true }

/-- `blockTask(i)` (R279). -/
def blockTask (i : TaskNum) (s : State) : State :=
  if i = 0 then raise .protectedTask (.task i) s
  else if s.params.present i = false then raise .noTask (.task i) s
  else { s with wakeup := Bank.put s.wakeup i false }

/-- One call of wakeupTask or blockTask (R279). -/
def externalCall : ExternalCall → State → State
  | .wakeupTask i => wakeupTask i
  | .blockTask i => blockTask i

/-- A call of wakeupTask or blockTask that a hook makes during a tick: it waits for the end of the tick (R279, D41). -/
def queueCall (c : ExternalCall) (s : State) : State := { s with hookCalls := s.hookCalls ++ [c] }

/-- The calls due at the end of this tick (R279): those of its hooks, then those of the environment, each in the order made.
That the hooks' come first is a DESIGN CHOICE (log 12). -/
def callsDue (s : State) : List ExternalCall := s.hookCalls ++ s.external.headD []

/-- `ApplyExternalEvents()` (40_cycle.md R110, R279): the calls made during this tick, one after another. -/
def applyExternal (s : State) : State :=
  runPhases ((callsDue s).map externalCall) { s with hookCalls := [], external := s.external.tail }

/-! ## Soft reset (70_reset_and_hazards.md R305) -/

/-- `SoftReset()` (R305). -/
def softReset (s : State) : State :=
  { s with
    bank := banksOfRmr s.rmr
    rmr := 0#16
    mpc := PerTask.tabulate fun k => if s.params.present k then BitVec.ofNat 10 k.val else Bank.get s.mpc k
    currentTask := 0
    nextTask := none
    wakeup :=
      if s.params.present s.params.diskSectorTask then Bank.put s.wakeup s.params.diskSectorTask true else s.wakeup }

end Sys2Proof.Machine
end

