-- ==== Sys2Proof/Machine/Flags.lean ====
section
/-! DEFINITION. Every flag computation of the core: the ALU's carry (41_alu.md), the Nova carry and skip of LOAD_DNS
(46_emulator.md R256, R257) and the next-address modifier bits (45_f2.md R224). -/

namespace Sys2Proof.Machine

/-- The carry of an addition function: the unbounded sum exceeds 0xFFFF (41_alu.md section 2). -/
def carryOfSum (raw : Nat) : Bool := decide (0xFFFF < raw)

/-- The carry of a subtraction function: the unbounded difference is not negative (41_alu.md section 2). -/
def carryOfDifference (raw : Int) : Bool := decide (0 ≤ raw)

/-- The base carry of the Nova carry-control field IR[5:4] (R256). -/
def novaBaseCarry (ir : Word) (novaCarry : Bool) : Bool :=
  match (ir.extractLsb' 4 2).toNat with
  | 0 => novaCarry
  | 1 => false
  | 2 => true
  | _ => !novaCarry

/-- Whether the Nova function field IR[10:8] complements the base carry when the arithmetic carried out: NEG, INC, ADC,
SUB and ADD do (R256). -/
def novaFnCarries (ir : Word) : Bool :=
  match (ir.extractLsb' 8 3).toNat with
  | 1 | 3 | 4 | 5 | 6 => true
  | _ => false

/-- The carry LOAD_DNS feeds into the shifter (R256). -/
def novaCarryIn (ir : Word) (novaCarry aluC0 : Bool) : Bool :=
  if novaFnCarries ir && aluC0 then !novaBaseCarry ir novaCarry else novaBaseCarry ir novaCarry

/-- The Nova skip condition of IR[2:0] on the carry and the shifter output (R257). -/
def novaSkip (ir : Word) (c : Bool) (sh : Word) : Bool :=
  match (ir.extractLsb' 0 3).toNat with
  | 0 => false
  | 1 => true
  | 2 => !c
  | 3 => c
  | 4 => sh == 0#16
  | 5 => sh != 0#16
  | 6 => !c || sh == 0#16
  | _ => c && sh != 0#16

/-- The no-load bit IR[3] (R256). -/
def novaNoLoad (ir : Word) : Bool := ir.getLsbD 3

/-- A branch condition as a next-address modifier: bit 0 (R224). -/
def branchBit (c : Bool) : MicroAddr := if c then 1#10 else 0#10

/-- The bits LOAD_IR ORs in: bit 3 is bus[15], bits 2:0 are bus[10:8] (R252). -/
def loadIrModifier (w : Word) : MicroAddr := 0#6 ++ w.extractLsb' 15 1 ++ w.extractLsb' 8 3

end Sys2Proof.Machine
end

