-- ==== Sys2Proof/Machine/Operands.lean ====
section
/-! DEFINITION. The operand forms: register selection, the constant ROM, the displacement, the dispatch PROMs, and the
predicates computed from a microinstruction's fields (30_encoding.md R92, R94, R101). -/

namespace Sys2Proof.Machine

/-- `constantAccess` (R92). -/
def constantAccess (u : Micro) : Bool := u.f1 == .constant || u.f2 == .constant

/-- `constantAccessOrBS4` (R92): constant access, or a bus source code above 4. -/
def constantAccessOrBS4 (u : Micro) : Bool := constantAccess u || decide (4 < u.bs.code.toNat)

/-- The constant ROM's index `rselect * 8 + bs` (R92, R101). -/
def constantIndex (u : Micro) : BitVec 8 := u.rselect ++ u.bs.code

/-- An entry of `P_CONST_ROM` (20_memory.md R81): as listed, else free (log 7). -/
def constRomWord (p : Params) (i : BitVec 8) : Word := (p.constRom.lookup i).getD (Config.constRomWord i)

/-- `constantValue` (R92). -/
def constantValue (p : Params) (u : Micro) : Word := constRomWord p (constantIndex u)

/-- `loadTFromALU` (R94). -/
def loadTFromAlu : AluFn → Bool
  | .bus | .busOrT | .busPlus1 | .busMinus1 | .busPlusTPlus1 | .busPlusSkip | .aluBusAndT => true
  | .t | .busAndT | .busXorT | .busPlusT | .busMinusT | .busMinusTMinus1 | .busAndNotT | .reserved14 | .reserved15 =>
    false

/-- An extended memory reference: LOAD_MAR with MD← on ALTO_II (20_memory.md R55). -/
def isXmar (p : Params) (u : Micro) : Bool := u.f1 == .loadMar && u.f2 == .storeMd && p.system == .altoII

/-- Whether every memory request of the microinstruction (`memKinds`, R92) is ready (40_cycle.md R112). -/
def allReady (u : Micro) (s : State) : Bool :=
  (u.f1 != .loadMar || readyLoadAddress s)
    && (u.bs != .readMd || readyRead s)
    && (u.f2 != .storeMd || isXmar s.params u || readyStore s)

/-- The R register of a Nova accumulator field: the low two bits of `rSelect` become the complement of the field
(46_emulator.md R254, R255). -/
def accumulatorSelect (rSelect : BitVec 5) (field : BitVec 2) : BitVec 5 := rSelect.extractLsb' 2 3 ++ ~~~field

/-- The Nova destination-accumulator field IR[12:11] (R254). -/
def destField (ir : Word) : BitVec 2 := ir.extractLsb' 11 2

/-- The Nova source-accumulator field IR[14:13] (R255). -/
def sourceField (ir : Word) : BitVec 2 := ir.extractLsb' 13 2

/-- The displacement of IR (42_bus_sources.md R168): zero-extended when IR[9:8] is 0, else sign-extended from bit 7. -/
def displacement (ir : Word) : Word :=
  if ir.extractLsb' 8 2 = 0#2 then (ir.extractLsb' 0 8).setWidth 16 else (ir.extractLsb' 0 8).signExtend 16

/-- `P_IDISP_PROM(IR)` (R253): as listed, else free (log 8). -/
def idispProm (p : Params) (ir : Word) : MicroAddr := (p.idispProm.lookup ir).getD (Config.idispPromWord ir)

/-- `P_ACSOURCE_PROM(IR)` (R255): as listed, else free (log 8). -/
def acsourceProm (p : Params) (ir : Word) : MicroAddr := (p.acsourceProm.lookup ir).getD (Config.acsourcePromWord ir)

/-- `skipIn` (40_cycle.md R117): `skip` for the Emulator, 0 for any other task. -/
def skipIn (k : TaskNum) (s : State) : Bool := k == 0 && s.skip

end Sys2Proof.Machine
end

