-- ==== Sys2Proof/Machine/Alu.lean ====
section
/-! DEFINITION. The ALU functions (41_alu.md R140 to R154), one definition per row of the table, and step 5 of the
microinstruction (40_cycle.md R117). -/

namespace Sys2Proof.Machine

/-- What an ALU function gives: the 16-bit result and the carry latch. -/
structure AluResult where
  value : Word
  carry : Bool
deriving DecidableEq, Repr, Inhabited

/-- A logic function's result: carry 0 (41_alu.md section 1). -/
def ofLogic (w : Word) : AluResult := ⟨w, false⟩

/-- An addition function's result from the unbounded sum (R157). -/
def ofSum (raw : Nat) : AluResult := ⟨BitVec.ofNat 16 raw, carryOfSum raw⟩

/-- A subtraction function's result from the unbounded difference (R157). -/
def ofDifference (raw : Int) : AluResult := ⟨BitVec.ofInt 16 raw, carryOfDifference raw⟩

/-- BUS (R140). -/
def aluBus (b : Word) : AluResult := ofLogic b

/-- T (R141). -/
def aluT (t : Word) : AluResult := ofLogic t

/-- BUS_OR_T (R142). -/
def aluBusOrT (b t : Word) : AluResult := ofLogic (b ||| t)

/-- BUS_AND_T (R143). -/
def aluBusAndT (b t : Word) : AluResult := ofLogic (b &&& t)

/-- BUS_XOR_T (R144). -/
def aluBusXorT (b t : Word) : AluResult := ofLogic (b ^^^ t)

/-- BUS_PLUS_1 (R145). -/
def aluBusPlus1 (b : Word) : AluResult := ofSum (b.toNat + 1)

/-- BUS_MINUS_1 (R146). -/
def aluBusMinus1 (b : Word) : AluResult := ofDifference ((b.toNat : Int) - 1)

/-- BUS_PLUS_T (R147). -/
def aluBusPlusT (b t : Word) : AluResult := ofSum (b.toNat + t.toNat)

/-- BUS_MINUS_T (R148). -/
def aluBusMinusT (b t : Word) : AluResult := ofDifference ((b.toNat : Int) - t.toNat)

/-- BUS_MINUS_T_MINUS_1 (R149). -/
def aluBusMinusTMinus1 (b t : Word) : AluResult := ofDifference ((b.toNat : Int) - t.toNat - 1)

/-- BUS_PLUS_T_PLUS_1 (R150). -/
def aluBusPlusTPlus1 (b t : Word) : AluResult := ofSum (b.toNat + t.toNat + 1)

/-- BUS_PLUS_SKIP (R151). -/
def aluBusPlusSkip (b : Word) (skip : Bool) : AluResult := ofSum (b.toNat + skip.toNat)

/-- ALU_BUS_AND_T (R152). -/
def aluAluBusAndT (b t : Word) : AluResult := ofLogic (b &&& t)

/-- BUS_AND_NOT_T (R153, C6: carry 0). -/
def aluBusAndNotT (b t : Word) : AluResult := ofLogic (b &&& ~~~t)

/-- Code 14 has no function (R154). -/
def aluReserved14 : Except Nat AluResult := .error 14

/-- Code 15 has no function (R154). -/
def aluReserved15 : Except Nat AluResult := .error 15

/-- The ALU (R158): a pure function of the code, the bus, T and skip; an unknown code answers itself. -/
def alu (f : AluFn) (b t : Word) (skip : Bool) : Except Nat AluResult :=
  match f with
  | .bus => .ok (aluBus b)
  | .t => .ok (aluT t)
  | .busOrT => .ok (aluBusOrT b t)
  | .busAndT => .ok (aluBusAndT b t)
  | .busXorT => .ok (aluBusXorT b t)
  | .busPlus1 => .ok (aluBusPlus1 b)
  | .busMinus1 => .ok (aluBusMinus1 b)
  | .busPlusT => .ok (aluBusPlusT b t)
  | .busMinusT => .ok (aluBusMinusT b t)
  | .busMinusTMinus1 => .ok (aluBusMinusTMinus1 b t)
  | .busPlusTPlus1 => .ok (aluBusPlusTPlus1 b t)
  | .busPlusSkip => .ok (aluBusPlusSkip b skip)
  | .aluBusAndT => .ok (aluAluBusAndT b t)
  | .busAndNotT => .ok (aluBusAndNotT b t)
  | .reserved14 => aluReserved14
  | .reserved15 => aluReserved15

/-- Step 5 (R117, R154, R155): the ALU over the bus and T; the latch takes the new carry at once. -/
def runAlu (u : Micro) (k : TaskNum) (s : State) : State :=
  match alu u.aluf s.scratch.busData s.t (skipIn k s) with
  | .ok a => { s.onScratch (fun c => { c with alu := a.value }) with aluCarry := a.carry }
  | .error code => raise .aluFn (.code code) s

end Sys2Proof.Machine
end

