-- ==== Sys2Proof/Machine/Hooks.lean ====
section
/-! DEFINITION. The hooks of tasks other than the Emulator (40_cycle.md R132, R133): looking one up, running it, and the
faults of a missing one. -/

namespace Sys2Proof

/-- What a hook left open does (log 11): a free function of the machine state. -/
opaque Config.openHook (task : TaskNum) (point : HookPoint) (s : Machine.State) : HookAnswer

namespace Machine

/-- What hook `point` of task `k` does now, if `P_TASK_HOOKS[k]` has it (R132). -/
def hookAnswer (k : TaskNum) (point : HookPoint) (s : State) : Option HookAnswer :=
  (s.params.hooks.find? fun e => e.task == k && e.point == point).map fun e =>
    match e.hook with
    | .fixed a => a
    | .free => Config.openHook k point s

/-- The early hooks of step 4a: the points where a change of `rSelect` reaches the bus source and the R write. A hook that
changes it later has no effect (R114, R122, 92_eei_decisions.md D32). -/
def selectsR : HookPoint → Bool
  | .f1Early | .f2Early => true
  | .bs3 | .bs4 | .f1 _ | .f2 _ | .f2Late | .block | .reset | .onTaskSwitch => false

/-- The hooks of steps 7 and 8: the points where `nextModifier` is built (45_f2.md R225). -/
def buildsModifier : HookPoint → Bool
  | .f1 _ | .f2 _ => true
  | .bs3 | .bs4 | .f1Early | .f2Early | .f2Late | .block | .reset | .onTaskSwitch => false

/-- A call of wakeupTask or blockTask by a hook at `point`: it waits for the end of the tick (60_exceptions.md R279, D41). The
power-up reset is no tick, and there the call acts at once (DESIGN CHOICE, log 12). -/
def hookCall (point : HookPoint) (c : ExternalCall) (s : State) : State :=
  if point = .reset then externalCall c s else queueCall c s

/-- One action of a hook of task `k` at `point` (R132, R133). DESIGN CHOICES: a LoadMAR that asks for an extended reference on
ALTO_I starts a normal one, as R55 has it for LOAD_MAR (log 31); `loadR` may be set at any hook point, also after step 4
(log 33). -/
def hookAction (k : TaskNum) (point : HookPoint) : HookAction → State → State
  | .setLoadR b, s => s.onScratch fun c => { c with loadR := b }
  | .setRSelect r, s => if selectsR point then s.onScratch fun c => { c with rSelect := r } else s
  | .setAlu w, s => s.onScratch fun c => { c with alu := w }
  | .setSh w, s => s.onScratch fun c => { c with sh := w }
  | .setTaskFired b, s => s.onScratch fun c => { c with taskFired := b }
  | .setBlockFired b, s => s.onScratch fun c => { c with blockFired := b }
  | .setShift g, s => s.onScratch fun c => { c with shift := g }
  | .orNextModifier a, s => if buildsModifier point then s.orModifier a else s
  | .loadMar a xm, s => loadMar a k (xm && s.params.system == .altoII) s
  | .storeMd v, s => storeMd v s
  | .readMd, s =>
    match readMd s with
    | .ok (_, s') => s'
    | .error s' => s'
  | .wakeupTask i, s => hookCall point (.wakeupTask i) s
  | .blockTask i, s => hookCall point (.blockTask i) s
  | .device d, s => s.logCall (.hook k d)

/-- Run a hook's actions in order; a fault ends it. -/
def hookActions (k : TaskNum) (point : HookPoint) (acts : List HookAction) (s : State) : State :=
  runPhases (acts.map (hookAction k point)) s

/-- An optional hook: nothing if absent (R132). -/
def optionalHook (k : TaskNum) (point : HookPoint) (s : State) : State :=
  match hookAnswer k point s with
  | none => s
  | some a => hookActions k point a.acts s

/-- The hook of a field code: a fault if absent (R132). -/
def codeHook (k : TaskNum) (point : HookPoint) (f : Fault) (s : State) : State :=
  match hookAnswer k point s with
  | none => raise f .none s
  | some a => hookActions k point a.acts s

/-- Put the word a bus hook returns on the bus. -/
def hookBus (b : HookBus) (s : State) : State :=
  match b with
  | .word w => s.setBus w
  | .readMd =>
    match readMd s with
    | .ok (w, s') => s'.setBus w
    | .error s' => s'

/-- The hook of bus source 3 or 4 (42_bus_sources.md R164, R165): `FLT_BUS_SOURCE` if absent. -/
def busHook (k : TaskNum) (point : HookPoint) (s : State) : State :=
  match hookAnswer k point s with
  | none => raise .busSource .none s
  | some a => runPhases [hookActions k point a.acts, hookBus a.bus] s

end Machine

end Sys2Proof
end

