-- ==== Sys2Proof/Machine/BusSources.lean ====
section
/-! DEFINITION. The bus sources (42_bus_sources.md R161 to R168, 46_emulator.md R236, R237), one definition per row of the
table, and the masks applied after them (R169, R170). -/

namespace Sys2Proof.Machine

/-- READ_R (R161): the register the early hooks left selected. -/
def bsReadR (s : State) : State := s.setBus (readR s.scratch.rSelect s)

/-- LOAD_R (R162): bus 0, and R is written at step 11. -/
def bsLoadR (s : State) : State := s.onScratch fun c => { c with busData := 0x0000#16, loadR := true }

/-- NONE (R163): all ones. -/
def bsNone (s : State) : State := s.setBus 0xFFFF#16

/-- READ_MD (R166). -/
def bsReadMd (s : State) : State :=
  match readMd s with
  | .ok (w, s') => s'.setBus w
  | .error s' => s'

/-- READ_MOUSE (R167): a free value (log 10). -/
def bsReadMouse (s : State) : State :=
  (s.logCall .mouse).setBus (Config.mouseBits s.ticks s.deviceCalls)

/-- READ_DISP (R168). -/
def bsReadDisp (s : State) : State := s.setBus (displacement s.ir)

/-- READ_S of the Emulator (R236): S register 0 of every bank reads as M. -/
def bsReadS (s : State) : State :=
  s.setBus (if s.scratch.srSelect = 0#5 then s.scratch.mPrev else readS s.rb s.scratch.srSelect s)

/-- LOAD_S of the Emulator (R237): the S store is written at step 11. -/
def bsLoadS (s : State) : State := s.onScratch fun c => { c with busData := s.params.loadsBus, loadS := true }

/-- TASK_SPECIFIC_1 of a task other than the Emulator (R164). -/
def bsTaskSpecific1 (k : TaskNum) (s : State) : State := busHook k .bs3 s

/-- TASK_SPECIFIC_2 of a task other than the Emulator (R165). -/
def bsTaskSpecific2 (k : TaskNum) (s : State) : State := busHook k .bs4 s

/-- `BusSource(t, bs)` (R160). -/
def busSource (u : Micro) (k : TaskNum) (s : State) : State :=
  match u.bs with
  | .readR => bsReadR s
  | .loadR => bsLoadR s
  | .none => bsNone s
  | .readMd => bsReadMd s
  | .readMouse => bsReadMouse s
  | .readDisp => bsReadDisp s
  | .readS => bsReadS s
  | .loadS => bsLoadS s
  | .taskSpecific1 => bsTaskSpecific1 k s
  | .taskSpecific2 => bsTaskSpecific2 k s

/-- The constant access (R169): the bus is ANDed with the constant ROM's word. -/
def maskConstant (u : Micro) (s : State) : State :=
  if constantAccessOrBS4 u then s.setBus (s.scratch.busData &&& constantValue s.params u) else s

/-- The control-RAM data of a pending RDRAM (R170). -/
def maskCram (s : State) : State :=
  if s.scratch.rdRam then
    match cramRead s with
    | .ok w => s.setBus (s.scratch.busData &&& w)
    | .error s' => s'
  else s

end Sys2Proof.Machine
end

