-- ==== Sys2Proof/Machine/F1.lean ====
section
/-! DEFINITION. The F1 functions (44_f1.md R195 to R203, 46_emulator.md R240 to R247), one definition per row of the
table, and step 7 of the microinstruction (40_cycle.md R119). -/

namespace Sys2Proof.Machine

/-- NONE (R195). -/
def f1None (s : State) : State := s

/-- LOAD_MAR (R196): the address is the ALU result; with MD← on ALTO_II the reference is extended (R55). -/
def f1LoadMar (u : Micro) (k : TaskNum) (s : State) : State := loadMar s.scratch.alu k (isXmar s.params u) s

/-- TASK (R197): ignored in the first microinstruction after a switch. -/
def f1Task (k : TaskNum) (s : State) : State :=
  if Bank.get s.firstAfterSwitch k then s else s.onScratch fun c => { c with taskFired := true }

/-- BLOCK (R198): a fault in the Emulator. -/
def f1Block (k : TaskNum) (s : State) : State :=
  if k = 0 then raise .protectedTask .none s
  else { s.onScratch (fun c => { c with blockFired := true }) with wakeup := Bank.put s.wakeup k false }

/-- Set the shifter's operation and count. -/
def setShiftOp (op : ShiftOp) (count : Nat) (s : State) : State :=
  s.onScratch fun c => { c with shift := { c.shift with op := op, count := count } }

/-- L_LSH_1 (R199). -/
def f1LLsh1 (s : State) : State := setShiftOp .shiftLeft 1 s

/-- L_RSH_1 (R200). -/
def f1LRsh1 (s : State) : State := setShiftOp .shiftRight 1 s

/-- L_LCY_8 (R201). -/
def f1LLcy8 (s : State) : State := setShiftOp .rotateLeft 8 s

/-- CONSTANT (R202): nothing at step 7; its effect is the mask of R169. -/
def f1Constant (s : State) : State := s

/-- SWMODE (R240). -/
def f1Swmode (s : State) : State := { s with swModePending := Bank.put s.swModePending 0 true }

/-- WRTRAM (R241). -/
def f1Wrtram (s : State) : State := { s with wrtRamPending := Bank.put s.wrtRamPending 0 true }

/-- RDRAM (R242). -/
def f1Rdram (s : State) : State := { s with rdRamPending := Bank.put s.rdRamPending 0 true }

/-- LOAD_RMR (R243). -/
def f1LoadRmr (s : State) : State := { s with rmr := s.scratch.busData }

/-- Emulator code 12 has no function (R247). -/
def f1Reserved12 (s : State) : State := raise .f1 .none s

/-- LOAD_ESRB (R244). -/
def f1LoadEsrb (s : State) : State := { s with rb := s.scratch.busData.extractLsb' 1 3 }

/-- RSNF at step 7 (R245): nothing; its effect is `earlyBus`. -/
def f1Rsnf (s : State) : State := s

/-- RSNF at step 4b (R245): the node number is a free value (log 10). -/
def f1RsnfEarly (s : State) : State :=
  (s.logCall .nodeId).setBus
    (s.scratch.busData &&& (0xFF00#16 ||| (Config.nodeId s.ticks s.deviceCalls).setWidth 16))

/-- STARTF (R246): bit 15 is the soft reset, any other nonzero word goes to the device. -/
def f1Startf (s : State) : State :=
  if s.scratch.busData.getLsbD 15 then (softReset s).onScratch fun c => { c with softReset := true }
  else if s.scratch.busData ≠ 0#16 then s.logCall (.startf s.scratch.busData)
  else s

/-- Code 8 of a task other than the Emulator (R203). -/
def f1TaskSpecific8 (k : TaskNum) (s : State) : State := codeHook k (.f1 8) .f1 s

/-- Code 9 of a task other than the Emulator (R203). -/
def f1TaskSpecific9 (k : TaskNum) (s : State) : State := codeHook k (.f1 9) .f1 s

/-- Code 10 of a task other than the Emulator (R203). -/
def f1TaskSpecific10 (k : TaskNum) (s : State) : State := codeHook k (.f1 10) .f1 s

/-- Code 11 of a task other than the Emulator (R203). -/
def f1TaskSpecific11 (k : TaskNum) (s : State) : State := codeHook k (.f1 11) .f1 s

/-- Code 12 of a task other than the Emulator (R203). -/
def f1TaskSpecific12 (k : TaskNum) (s : State) : State := codeHook k (.f1 12) .f1 s

/-- Code 13 of a task other than the Emulator (R203). -/
def f1TaskSpecific13 (k : TaskNum) (s : State) : State := codeHook k (.f1 13) .f1 s

/-- Code 14 of a task other than the Emulator (R203). -/
def f1TaskSpecific14 (k : TaskNum) (s : State) : State := codeHook k (.f1 14) .f1 s

/-- Code 15 of a task other than the Emulator (R203). -/
def f1TaskSpecific15 (k : TaskNum) (s : State) : State := codeHook k (.f1 15) .f1 s

/-- Step 4b, the early bus function (40_cycle.md R116). -/
def earlyBus (u : Micro) (s : State) : State := if u.f1 = .rsnf then f1RsnfEarly s else s

/-- Step 7, F1 dispatch (40_cycle.md R119). -/
def runF1 (u : Micro) (k : TaskNum) (s : State) : State :=
  match u.f1 with
  | .none => f1None s
  | .loadMar => f1LoadMar u k s
  | .task => f1Task k s
  | .block => f1Block k s
  | .lLsh1 => f1LLsh1 s
  | .lRsh1 => f1LRsh1 s
  | .lLcy8 => f1LLcy8 s
  | .constant => f1Constant s
  | .swmode => f1Swmode s
  | .wrtram => f1Wrtram s
  | .rdram => f1Rdram s
  | .loadRmr => f1LoadRmr s
  | .reserved12 => f1Reserved12 s
  | .loadEsrb => f1LoadEsrb s
  | .rsnf => f1Rsnf s
  | .startf => f1Startf s
  | .taskSpecific8 => f1TaskSpecific8 k s
  | .taskSpecific9 => f1TaskSpecific9 k s
  | .taskSpecific10 => f1TaskSpecific10 k s
  | .taskSpecific11 => f1TaskSpecific11 k s
  | .taskSpecific12 => f1TaskSpecific12 k s
  | .taskSpecific13 => f1TaskSpecific13 k s
  | .taskSpecific14 => f1TaskSpecific14 k s
  | .taskSpecific15 => f1TaskSpecific15 k s

end Sys2Proof.Machine
end

