-- ==== Sys2Proof/Machine/F2.lean ====
section
/-! DEFINITION. The F2 functions (45_f2.md R215 to R223, 46_emulator.md R250 to R258), one definition per row of the
table with its early and late parts, and steps 4a, 8, 10 and 12 of the microinstruction (40_cycle.md R114, R120, R121,
R127). -/

namespace Sys2Proof.Machine

/-- NONE (R215). -/
def f2None (s : State) : State := s

/-- BUS_EQ_0 (R216). -/
def f2BusEq0 (s : State) : State := s.orModifier (branchBit (s.scratch.busData == 0#16))

/-- SH_LT_0 at step 8 (R217): nothing. -/
def f2ShLt0 (s : State) : State := s

/-- SH_LT_0 at step 10 (R217). -/
def f2ShLt0Branch (s : State) : State := s.orModifier (branchBit (s.scratch.sh.getLsbD 15))

/-- SH_EQ_0 at step 8 (R218): nothing. -/
def f2ShEq0 (s : State) : State := s

/-- SH_EQ_0 at step 10 (R218). -/
def f2ShEq0Branch (s : State) : State := s.orModifier (branchBit (s.scratch.sh == 0#16))

/-- BUS (R219): the low ten bits of the bus. -/
def f2Bus (s : State) : State := s.orModifier (s.scratch.busData.extractLsb' 0 10)

/-- ALUCY (R220): the carry latched before this microinstruction. -/
def f2Alucy (s : State) : State := s.orModifier (branchBit s.scratch.aluC0Prev)

/-- STORE_MD (R221): the bus word; with LOAD_MAR on ALTO_II it only marks the extended reference. -/
def f2StoreMd (u : Micro) (s : State) : State := if isXmar s.params u then s else storeMd s.scratch.busData s

/-- CONSTANT (R222): nothing at step 8; its effect is the mask of 42_bus_sources.md R169. -/
def f2Constant (s : State) : State := s

/-- BUSODD (R250). -/
def f2Busodd (s : State) : State := s.orModifier (branchBit (s.scratch.busData.getLsbD 0))

/-- MAGIC (R251). -/
def f2Magic (s : State) : State := s.onScratch fun c => { c with shift := { c.shift with magic := true } }

/-- LOAD_DNS at step 8: nothing; its parts are early and late (R256, R257). -/
def f2LoadDns (s : State) : State := s

/-- What LOAD_DNS computes early: `rSelect`, `loadR` and the carry fed into the shifter (R256), or what a replacing
`P_EMU_DNS` computes (log 13). -/
def dnsEarly (s : State) : BitVec 5 × Bool × Bool :=
  if s.params.emuDnsReplaced then Config.dnsEarly s.ir s.novaCarry s.scratch.aluC0Prev s.scratch.rSelect
  else
    (accumulatorSelect s.scratch.rSelect (destField s.ir), !novaNoLoad s.ir,
      novaCarryIn s.ir s.novaCarry s.scratch.aluC0Prev)

/-- LOAD_DNS early, step 4a (R256). DESIGN CHOICE: the shifter's DNS mode is set with a replacing `P_EMU_DNS` too (log 13). -/
def f2LoadDnsEarly (s : State) : State :=
  s.onScratch fun c =>
    { c with
      rSelect := (dnsEarly s).1
      loadR := (dnsEarly s).2.1
      shift := { c.shift with dns := true, dnsCarry := (dnsEarly s).2.2 } }

/-- What LOAD_DNS computes late: `novaCarry` and `skip` (R257), or what a replacing `P_EMU_DNS` computes (log 13). -/
def dnsLate (s : State) : Bool × Bool :=
  if s.params.emuDnsReplaced then Config.dnsLate s.ir s.novaCarry s.scratch.shift.dnsCarry s.scratch.sh
  else
    (if novaNoLoad s.ir then s.novaCarry else s.scratch.shift.dnsCarry,
      novaSkip s.ir s.scratch.shift.dnsCarry s.scratch.sh)

/-- LOAD_DNS late, step 12 (R257). -/
def f2LoadDnsLate (s : State) : State := { s with novaCarry := (dnsLate s).1, skip := (dnsLate s).2 }

/-- ACDEST at step 8 (R254): nothing. -/
def f2Acdest (s : State) : State := s

/-- ACDEST early, step 4a (R254). -/
def f2AcdestEarly (s : State) : State :=
  s.onScratch fun c => { c with rSelect := accumulatorSelect c.rSelect (destField s.ir) }

/-- LOAD_IR (R252). -/
def f2LoadIr (s : State) : State :=
  { s.orModifier (loadIrModifier s.scratch.busData) with
    ir := s.scratch.busData
    skip := if s.params.irClearsSkip then false else s.skip }

/-- IDISP (R253). -/
def f2Idisp (s : State) : State := s.orModifier (idispProm s.params s.ir)

/-- ACSOURCE at step 8 (R255). -/
def f2Acsource (s : State) : State := s.orModifier (acsourceProm s.params s.ir)

/-- ACSOURCE early, step 4a (R255). -/
def f2AcsourceEarly (s : State) : State :=
  s.onScratch fun c => { c with rSelect := accumulatorSelect c.rSelect (sourceField s.ir) }

/-- Emulator code 15 has no function (R258). -/
def f2Reserved15 (s : State) : State := raise .f2 .none s

/-- Code 8 of a task other than the Emulator (R223). -/
def f2TaskSpecific8 (k : TaskNum) (s : State) : State := codeHook k (.f2 8) .f2 s

/-- Code 9 of a task other than the Emulator (R223). -/
def f2TaskSpecific9 (k : TaskNum) (s : State) : State := codeHook k (.f2 9) .f2 s

/-- Code 10 of a task other than the Emulator (R223). -/
def f2TaskSpecific10 (k : TaskNum) (s : State) : State := codeHook k (.f2 10) .f2 s

/-- Code 11 of a task other than the Emulator (R223). -/
def f2TaskSpecific11 (k : TaskNum) (s : State) : State := codeHook k (.f2 11) .f2 s

/-- Code 12 of a task other than the Emulator (R223). -/
def f2TaskSpecific12 (k : TaskNum) (s : State) : State := codeHook k (.f2 12) .f2 s

/-- Code 13 of a task other than the Emulator (R223). -/
def f2TaskSpecific13 (k : TaskNum) (s : State) : State := codeHook k (.f2 13) .f2 s

/-- Code 14 of a task other than the Emulator (R223). -/
def f2TaskSpecific14 (k : TaskNum) (s : State) : State := codeHook k (.f2 14) .f2 s

/-- Code 15 of a task other than the Emulator (R223). -/
def f2TaskSpecific15 (k : TaskNum) (s : State) : State := codeHook k (.f2 15) .f2 s

/-- Step 4a (R114): the Emulator's F2 functions that change `rSelect`, or another task's early hooks. DESIGN CHOICE: of the two
hooks `f1Early` runs first (log 32). -/
def earlySelect (u : Micro) (k : TaskNum) (s : State) : State :=
  match u.f2 with
  | .acdest => f2AcdestEarly s
  | .acsource => f2AcsourceEarly s
  | .loadDns => f2LoadDnsEarly s
  | _ => if k = 0 then s else runPhases [optionalHook k .f1Early, optionalHook k .f2Early] s

/-- Step 8, F2 dispatch (R120). -/
def runF2 (u : Micro) (k : TaskNum) (s : State) : State :=
  match u.f2 with
  | .none => f2None s
  | .busEq0 => f2BusEq0 s
  | .shLt0 => f2ShLt0 s
  | .shEq0 => f2ShEq0 s
  | .bus => f2Bus s
  | .alucy => f2Alucy s
  | .storeMd => f2StoreMd u s
  | .constant => f2Constant s
  | .busodd => f2Busodd s
  | .magic => f2Magic s
  | .loadDns => f2LoadDns s
  | .acdest => f2Acdest s
  | .loadIr => f2LoadIr s
  | .idisp => f2Idisp s
  | .acsource => f2Acsource s
  | .reserved15 => f2Reserved15 s
  | .taskSpecific8 => f2TaskSpecific8 k s
  | .taskSpecific9 => f2TaskSpecific9 k s
  | .taskSpecific10 => f2TaskSpecific10 k s
  | .taskSpecific11 => f2TaskSpecific11 k s
  | .taskSpecific12 => f2TaskSpecific12 k s
  | .taskSpecific13 => f2TaskSpecific13 k s
  | .taskSpecific14 => f2TaskSpecific14 k s
  | .taskSpecific15 => f2TaskSpecific15 k s

/-- Step 10 (R121): the branches on the shifter output. -/
def shifterBranch (u : Micro) (s : State) : State :=
  match u.f2 with
  | .shLt0 => f2ShLt0Branch s
  | .shEq0 => f2ShEq0Branch s
  | _ => s

/-- Step 12, the late F2 function (R127). -/
def lateF2 (u : Micro) (k : TaskNum) (s : State) : State :=
  match u.f2 with
  | .loadDns => f2LoadDnsLate s
  | _ => if k = 0 then s else optionalHook k .f2Late s

end Sys2Proof.Machine
end

