-- ==== Sys2Proof/Machine/Shifter.lean ====
section
/-! DEFINITION. The shifter (43_shifter.md R175 to R194) and steps 9 and 10 of the microinstruction (40_cycle.md R121). -/

namespace Sys2Proof.Machine

/-- Rotate left by `count mod 16` (R185). -/
def rotL (x : Word) (count : Nat) : Word := (x <<< (count % 16)) ||| (x >>> (16 - count % 16))

/-- Rotate right by `count mod 16` (R187). -/
def rotR (x : Word) (count : Nat) : Word := (x >>> (count % 16)) ||| (x <<< (16 - count % 16))

/-- Swap the halves (R186). -/
def byteSwap (x : Word) : Word := (x <<< 8) ||| (x >>> 8)

/-- A bit as a word, in bit 0. -/
def lowBit (b : Bool) : Word := if b then 0x0001#16 else 0x0000#16

/-- A bit as a word, in bit 15. -/
def highBit (b : Bool) : Word := if b then 0x8000#16 else 0x0000#16

/-- SHIFT_LEFT (R177, R179, R181, R182, R184). -/
def shiftLeft (c : ShiftConfig) (x t : Word) : Except Fault (Word × Bool) :=
  if c.magic then
    if c.count ≠ 1 then .error .magicCount else .ok ((x <<< 1) ||| lowBit (t.getLsbD 15), c.dnsCarry)
  else if c.dns then
    if c.count ≠ 1 then .error .shifterMode else .ok ((x <<< 1) ||| lowBit c.dnsCarry, x.getLsbD 15)
  else .ok (if 16 ≤ c.count then 0#16 else x <<< c.count, c.dnsCarry)

/-- SHIFT_RIGHT (R178, R180, R181, R183, R184). -/
def shiftRight (c : ShiftConfig) (x t : Word) : Except Fault (Word × Bool) :=
  if c.magic then
    if c.count ≠ 1 then .error .magicCount else .ok ((x >>> 1) ||| highBit (t.getLsbD 0), c.dnsCarry)
  else if c.dns then
    if c.count ≠ 1 then .error .shifterMode else .ok ((x >>> 1) ||| highBit c.dnsCarry, x.getLsbD 0)
  else .ok (if 16 ≤ c.count then 0#16 else x >>> c.count, c.dnsCarry)

/-- ROTATE_LEFT (R185, R186, R189). -/
def rotateLeft (c : ShiftConfig) (x : Word) : Except Fault (Word × Bool) :=
  if c.magic then .error .shifterMode
  else if c.dns then .ok (byteSwap x, c.dnsCarry)
  else .ok (rotL x c.count, c.dnsCarry)

/-- ROTATE_RIGHT (R187, R188, R189). -/
def rotateRight (c : ShiftConfig) (x : Word) : Except Fault (Word × Bool) :=
  if c.dns then .error .dnsRotateRight
  else if c.magic then .error .shifterMode
  else .ok (rotR x c.count, c.dnsCarry)

/-- `Shift` (R194): the output and the carry out, or the fault. -/
def shift (c : ShiftConfig) (x t : Word) : Except Fault (Word × Bool) :=
  match c.op with
  | .none => .ok (x, c.dnsCarry)
  | .shiftLeft => if c.magic && c.dns then .error .shifterMode else shiftLeft c x t
  | .shiftRight => if c.magic && c.dns then .error .shifterMode else shiftRight c x t
  | .rotateLeft => if c.magic && c.dns then .error .shifterMode else rotateLeft c x
  | .rotateRight => if c.magic && c.dns then .error .shifterMode else rotateRight c x

/-- `needShifterOutput` (R190). DESIGN CHOICE: the `loadR` it reads is the one of step 9, so a hook of steps 7 and 8 counts (log
33). -/
def needShifterOutput (u : Micro) (s : State) : Bool :=
  s.scratch.loadR || u.f2 == .shLt0 || u.f2 == .shEq0 || u.f2 == .loadDns

/-- Step 9 (R121, R175): the shifter over the old L; its output is 0, and has no reader, when nothing needs it. -/
def runShifter (u : Micro) (s : State) : State :=
  if needShifterOutput u s then
    match shift s.scratch.shift s.scratch.lPrev s.t with
    | .ok (sh, carry) => s.onScratch fun c => { c with sh := sh, shift := { c.shift with dnsCarry := carry } }
    | .error f => raise f .none s
  else s.onScratch fun c => { c with sh := 0#16 }

end Sys2Proof.Machine
end

