-- ==== Sys2Proof/Machine/Cycle.lean ====
section
/-! DEFINITION. The microinstruction cycle (40_cycle.md R112 to R131), the scheduler (60_exceptions.md R276) and the
power-up reset (70_reset_and_hazards.md R300). -/

namespace Sys2Proof.Machine

/-- The start of execution (R113): the scratch is initialised, the carried flags are captured and cleared. -/
def beginMicro (u : Micro) (k : TaskNum) (s : State) : State :=
  { s with
    scratch :=
      { Scratch.clear with
        rSelect := u.rselect
        srSelect := u.rselect
        rdRam := Bank.get s.rdRamPending k
        wrtRam := Bank.get s.wrtRamPending k
        swMode := Bank.get s.swModePending k
        mPrev := s.m
        lPrev := s.l
        aluC0Prev := s.aluC0 }
    rdRamPending := Bank.put s.rdRamPending k false
    wrtRamPending := Bank.put s.wrtRamPending k false
    swModePending := Bank.put s.swModePending k false }

/-- Step 6, the deferred control-RAM write (R118). -/
def deferredCramWrite (s : State) : State :=
  if s.scratch.wrtRam then cramWrite s.scratch.alu s.scratch.mPrev s else s

/-- Step 11a (R122). `rSelect` is the value after the early hooks; `loadR` is read here, after all the hooks of steps 4 to 8
(DESIGN CHOICE, log 33). -/
def writeR (s : State) : State :=
  if s.scratch.loadR then { s with r := Bank.put s.r s.scratch.rSelect.toFin s.scratch.sh } else s

/-- Step 11b (R123). -/
def writeS (s : State) : State :=
  if s.scratch.loadS then { s with sStore := Bank.put s.sStore (sIndex s.rb s.scratch.srSelect) s.scratch.mPrev }
  else s

/-- Step 11c, the row LT (R124). -/
def writeT (u : Micro) (s : State) : State :=
  if u.loadT then
    { s with t := if loadTFromAlu u.aluf then s.scratch.alu else s.scratch.busData, cramAddr := s.scratch.alu }
  else s

/-- Step 11d, the row LL (R125). -/
def writeL (u : Micro) (k : TaskNum) (s : State) : State :=
  if u.loadL then
    { s with l := s.scratch.alu, m := if k = 0 then s.scratch.alu else s.m, aluC0 := s.aluCarry }
  else s

/-- Step 13, the deferred bank switch (R128, 20_memory.md R73, R74). -/
def switchBank (u : Micro) (k : TaskNum) (s : State) : State :=
  if s.scratch.swMode then
    match swModeTarget s.params (Bank.get s.bank k) u.next with
    | some b => { s with bank := Bank.put s.bank k b }
    | none => raise .swModeUnmodelled .none s
  else s

/-- Step 14, the block hook (R129). -/
def blockHook (k : TaskNum) (s : State) : State := if s.scratch.blockFired then optionalHook k .block s else s

/-- Step 15 (R130). -/
def advance (u : Micro) (k : TaskNum) (s : State) : State :=
  if s.scratch.softReset then s else { s with mpc := Bank.put s.mpc k (u.next ||| s.scratch.nextModifier) }

/-- Step 16 (R131): the completion code. -/
def finish (k : TaskNum) (s : State) : State :=
  { s with
    firstAfterSwitch := Bank.put s.firstAfterSwitch k false
    completion := if s.scratch.taskFired then .taskSwitch else .normal }

/-- The steps of R131 after the fetch and the memory wait, in execution order. -/
def cpuPhases (u : Micro) (k : TaskNum) : List (State → State) :=
  [beginMicro u k, earlySelect u k, busSource u k, maskConstant u, maskCram, earlyBus u, runAlu u k,
    deferredCramWrite, runF1 u k, runF2 u k, runShifter u, shifterBranch u, writeR, writeS, writeT u, writeL u k,
    lateF2 u k, switchBank u k, blockHook k, advance u k, finish k]

/-- `CpuStep` after its fetch (R131) by the current task: MEMORY_WAIT changes nothing but the completion code (R112). -/
def cpuStep (u : Micro) (s : State) : State :=
  if allReady u s then runPhases (cpuPhases u s.currentTask) s else { s with completion := .memoryWait }

/-! ## The scheduler -/

/-- The switch of a NORMAL completion (R276): the pending target runs next, marked as just switched to. -/
def takeSwitch (i : TaskNum) (s : State) : State :=
  optionalHook i .onTaskSwitch
    { s with currentTask := i, nextTask := none, firstAfterSwitch := Bank.put s.firstAfterSwitch i true }

/-- `Schedule(code)` (R276). The switch takes effect when the next microinstruction completes NORMAL, so the task that issued
TASK still executes one (70_reset_and_hazards.md R313). The example of 44_f1.md R197 has the target run "at the next tick";
the model follows R276 (DESIGN CHOICE, log 34). -/
def schedule (s : State) : State :=
  match s.completion with
  | .taskSwitch => { s with nextTask := some (highestWoken s) }
  | .memoryWait => s
  | .normal =>
    match s.nextTask with
    | none => s
    | some i => takeSwitch i s

/-! ## Power-up reset -/

/-- Task `k`'s cells for the tasks that do not exist, which the loop of R300 does not reach: their value of 10_state.md R45
(DESIGN CHOICE, log 24). The cells of the tasks that exist stay. -/
def absentCells {α : Type} (p : Params) (v : PerTask α) (x : TaskNum → α) : PerTask α :=
  PerTask.tabulate fun k => if p.present k then Bank.get v k else x k

/-- The first part of R300: the registers, the carries, the shifter, `rmr` and the banks; and the model's own value of the
completion code and of the cells of absent tasks, and no call of a hook due (logs 12, 18, 24). -/
def resetShared (s : State) : State :=
  { s with
    halted := none, hookCalls := []
    t := 0#16, l := 0#16, m := 0#16, ir := 0#16
    r := Vector.replicate 32 0#16, sStore := Vector.replicate 256 0#16, rb := 0#3
    aluCarry := false, aluC0 := false, cramAddr := 0#16
    scratch := Scratch.clear
    rmr := 0xFFFF#16, bank := banksOfRmr 0xFFFF#16
    completion := .normal
    mpc := absentCells s.params s.mpc fun k => BitVec.ofNat 10 k.val
    wakeup := absentCells s.params s.wakeup fun k => k == 0
    firstAfterSwitch := absentCells s.params s.firstAfterSwitch fun _ => false
    rdRamPending := absentCells s.params s.rdRamPending fun _ => false
    wrtRamPending := absentCells s.params s.wrtRamPending fun _ => false
    swModePending := absentCells s.params s.swModePending fun _ => false
    xmBanks := absentCells s.params s.xmBanks fun _ => 0#4 }

/-- The cells of task `k` in the loop of R300, before its hook. -/
def resetCells (k : TaskNum) (s : State) : State :=
  { s with
    mpc := Bank.put s.mpc k (BitVec.ofNat 10 k.val)
    wakeup := Bank.put s.wakeup k (k == 0)
    firstAfterSwitch := Bank.put s.firstAfterSwitch k false
    rdRamPending := Bank.put s.rdRamPending k false
    wrtRamPending := Bank.put s.wrtRamPending k false
    swModePending := Bank.put s.swModePending k false
    xmBanks := Bank.put s.xmBanks k 0#4 }

/-- One round of the loop of R300: the cells of task `k`, then its `reset` hook (40_cycle.md R133). -/
def resetTask (k : TaskNum) (s : State) : State := optionalHook k .reset (resetCells k s)

/-- The loop of R300 over the tasks that exist, from the lowest task up (DESIGN CHOICE, log 30). -/
def resetTasks (s : State) : State := runPhases ((tasksDown.reverse.filter s.params.present).map resetTask) s

/-- The part of R300 after its loop: the Emulator's flip-flops and the memory bus, whatever a hook left in it; and the
shifter configuration of 10_state.md R45 again, with the rest of the scratch (log 19). -/
def resetBus (s : State) : State :=
  { s with
    skip := false, novaCarry := false
    memActive := false, memCycle := 1, memAddr := 0#16, memData := 0#16, memData2 := 0#16
    dwStore := false, dwMixed := false, memXM := false, memRd5 := false, memTask := 0
    scratch := Scratch.clear }

/-- The task-switch pass and the promotion of R300: the scan's winner is the current task, and nothing is pending. -/
def promote (s : State) : State := { s with currentTask := highestWoken s, nextTask := none }

/-- `Reset()` (R300) of any state, in the order of the rule; a fault of a hook ends it (R270). The stores, the parameters and
the model's own `external`, `deviceCalls` and `ticks` are kept (R40, R41; logs 9, 15, 20). -/
def powerUp (s : State) : State := runPhases [resetTasks, resetBus, promote] (resetShared s)

end Sys2Proof.Machine
end

