-- ==== Sys2Proof/Machine/RowsAlu.lean ====
section
/-! DEFINITION. The meanings of the ALU rows of spec/opcode_table.json: the microinstruction cycle (40_cycle.md R131) of the
microinstruction with the row's value in the row's field. What the row itself does is the definition of its name in
Machine/ that `cpuPhases` reaches. -/

namespace Sys2Proof.Machine

/-- ALU=BUS (R140). -/
def execAluBus (u : Micro) (s : State) : Host.Outcome State Fault Refusal :=
  .next (cpuStep { u with aluf := .bus } s)

/-- ALU=T (R141). -/
def execAluT (u : Micro) (s : State) : Host.Outcome State Fault Refusal :=
  .next (cpuStep { u with aluf := .t } s)

/-- ALU=BUS_OR_T (R142). -/
def execAluBusOrT (u : Micro) (s : State) : Host.Outcome State Fault Refusal :=
  .next (cpuStep { u with aluf := .busOrT } s)

/-- ALU=BUS_AND_T (R143). -/
def execAluBusAndT (u : Micro) (s : State) : Host.Outcome State Fault Refusal :=
  .next (cpuStep { u with aluf := .busAndT } s)

/-- ALU=BUS_XOR_T (R144). -/
def execAluBusXorT (u : Micro) (s : State) : Host.Outcome State Fault Refusal :=
  .next (cpuStep { u with aluf := .busXorT } s)

/-- ALU=BUS_PLUS_1 (R145). -/
def execAluBusPlus1 (u : Micro) (s : State) : Host.Outcome State Fault Refusal :=
  .next (cpuStep { u with aluf := .busPlus1 } s)

/-- ALU=BUS_MINUS_1 (R146). -/
def execAluBusMinus1 (u : Micro) (s : State) : Host.Outcome State Fault Refusal :=
  .next (cpuStep { u with aluf := .busMinus1 } s)

/-- ALU=BUS_PLUS_T (R147). -/
def execAluBusPlusT (u : Micro) (s : State) : Host.Outcome State Fault Refusal :=
  .next (cpuStep { u with aluf := .busPlusT } s)

/-- ALU=BUS_MINUS_T (R148). -/
def execAluBusMinusT (u : Micro) (s : State) : Host.Outcome State Fault Refusal :=
  .next (cpuStep { u with aluf := .busMinusT } s)

/-- ALU=BUS_MINUS_T_MINUS_1 (R149). -/
def execAluBusMinusTMinus1 (u : Micro) (s : State) : Host.Outcome State Fault Refusal :=
  .next (cpuStep { u with aluf := .busMinusTMinus1 } s)

/-- ALU=BUS_PLUS_T_PLUS_1 (R150). -/
def execAluBusPlusTPlus1 (u : Micro) (s : State) : Host.Outcome State Fault Refusal :=
  .next (cpuStep { u with aluf := .busPlusTPlus1 } s)

/-- ALU=BUS_PLUS_SKIP (R151). -/
def execAluBusPlusSkip (u : Micro) (s : State) : Host.Outcome State Fault Refusal :=
  .next (cpuStep { u with aluf := .busPlusSkip } s)

/-- ALU=ALU_BUS_AND_T (R152). -/
def execAluAluBusAndT (u : Micro) (s : State) : Host.Outcome State Fault Refusal :=
  .next (cpuStep { u with aluf := .aluBusAndT } s)

/-- ALU=BUS_AND_NOT_T (R153). -/
def execAluBusAndNotT (u : Micro) (s : State) : Host.Outcome State Fault Refusal :=
  .next (cpuStep { u with aluf := .busAndNotT } s)

/-- ALU=RESERVED_14 (R154). -/
def execAluReserved14 (u : Micro) (s : State) : Host.Outcome State Fault Refusal :=
  .next (cpuStep { u with aluf := .reserved14 } s)

/-- ALU=RESERVED_15 (R154). -/
def execAluReserved15 (u : Micro) (s : State) : Host.Outcome State Fault Refusal :=
  .next (cpuStep { u with aluf := .reserved15 } s)

end Sys2Proof.Machine
end

