-- ==== Sys2Proof/Machine/RowsBus.lean ====
section
/-! DEFINITION. The meanings of the bus source rows of spec/opcode_table.json: the microinstruction cycle (40_cycle.md R131) of the
microinstruction with the row's value in the row's field. What the row itself does is the definition of its name in
Machine/ that `cpuPhases` reaches. -/

namespace Sys2Proof.Machine

/-- BS=READ_R (R161). -/
def execBsReadR (u : Micro) (s : State) : Host.Outcome State Fault Refusal :=
  .next (cpuStep { u with bs := .readR } s)

/-- BS=LOAD_R (R162). -/
def execBsLoadR (u : Micro) (s : State) : Host.Outcome State Fault Refusal :=
  .next (cpuStep { u with bs := .loadR } s)

/-- BS=NONE (R163). -/
def execBsNone (u : Micro) (s : State) : Host.Outcome State Fault Refusal :=
  .next (cpuStep { u with bs := .none } s)

/-- BS=READ_MD (R166). -/
def execBsReadMd (u : Micro) (s : State) : Host.Outcome State Fault Refusal :=
  .next (cpuStep { u with bs := .readMd } s)

/-- BS=READ_MOUSE (R167). -/
def execBsReadMouse (u : Micro) (s : State) : Host.Outcome State Fault Refusal :=
  .next (cpuStep { u with bs := .readMouse } s)

/-- BS=READ_DISP (R168). -/
def execBsReadDisp (u : Micro) (s : State) : Host.Outcome State Fault Refusal :=
  .next (cpuStep { u with bs := .readDisp } s)

/-- BS=READ_S (R236). -/
def execBsReadS (u : Micro) (s : State) : Host.Outcome State Fault Refusal :=
  .next (cpuStep { u with bs := .readS } s)

/-- BS=LOAD_S (R237). -/
def execBsLoadS (u : Micro) (s : State) : Host.Outcome State Fault Refusal :=
  .next (cpuStep { u with bs := .loadS } s)

/-- BS=TASK_SPECIFIC_1 (R164). -/
def execBsTaskSpecific1 (u : Micro) (s : State) : Host.Outcome State Fault Refusal :=
  .next (cpuStep { u with bs := .taskSpecific1 } s)

/-- BS=TASK_SPECIFIC_2 (R165). -/
def execBsTaskSpecific2 (u : Micro) (s : State) : Host.Outcome State Fault Refusal :=
  .next (cpuStep { u with bs := .taskSpecific2 } s)

end Sys2Proof.Machine
end

