-- ==== Sys2Proof/Machine/RowsF1.lean ====
section
/-! DEFINITION. The meanings of the F1 rows of spec/opcode_table.json: the microinstruction cycle (40_cycle.md R131) of the
microinstruction with the row's value in the row's field. What the row itself does is the definition of its name in
Machine/ that `cpuPhases` reaches. -/

namespace Sys2Proof.Machine

/-- F1=NONE (R195). -/
def execF1None (u : Micro) (s : State) : Host.Outcome State Fault Refusal :=
  .next (cpuStep { u with f1 := .none } s)

/-- F1=LOAD_MAR (R196). -/
def execF1LoadMar (u : Micro) (s : State) : Host.Outcome State Fault Refusal :=
  .next (cpuStep { u with f1 := .loadMar } s)

/-- F1=TASK (R197). -/
def execF1Task (u : Micro) (s : State) : Host.Outcome State Fault Refusal :=
  .next (cpuStep { u with f1 := .task } s)

/-- F1=BLOCK (R198). -/
def execF1Block (u : Micro) (s : State) : Host.Outcome State Fault Refusal :=
  .next (cpuStep { u with f1 := .block } s)

/-- F1=L_LSH_1 (R199). -/
def execF1LLsh1 (u : Micro) (s : State) : Host.Outcome State Fault Refusal :=
  .next (cpuStep { u with f1 := .lLsh1 } s)

/-- F1=L_RSH_1 (R200). -/
def execF1LRsh1 (u : Micro) (s : State) : Host.Outcome State Fault Refusal :=
  .next (cpuStep { u with f1 := .lRsh1 } s)

/-- F1=L_LCY_8 (R201). -/
def execF1LLcy8 (u : Micro) (s : State) : Host.Outcome State Fault Refusal :=
  .next (cpuStep { u with f1 := .lLcy8 } s)

/-- F1=CONSTANT (R202). -/
def execF1Constant (u : Micro) (s : State) : Host.Outcome State Fault Refusal :=
  .next (cpuStep { u with f1 := .constant } s)

/-- F1=SWMODE (R240). -/
def execF1Swmode (u : Micro) (s : State) : Host.Outcome State Fault Refusal :=
  .next (cpuStep { u with f1 := .swmode } s)

/-- F1=WRTRAM (R241). -/
def execF1Wrtram (u : Micro) (s : State) : Host.Outcome State Fault Refusal :=
  .next (cpuStep { u with f1 := .wrtram } s)

/-- F1=RDRAM (R242). -/
def execF1Rdram (u : Micro) (s : State) : Host.Outcome State Fault Refusal :=
  .next (cpuStep { u with f1 := .rdram } s)

/-- F1=LOAD_RMR (R243). -/
def execF1LoadRmr (u : Micro) (s : State) : Host.Outcome State Fault Refusal :=
  .next (cpuStep { u with f1 := .loadRmr } s)

/-- F1=RESERVED_12 (R247). -/
def execF1Reserved12 (u : Micro) (s : State) : Host.Outcome State Fault Refusal :=
  .next (cpuStep { u with f1 := .reserved12 } s)

/-- F1=LOAD_ESRB (R244). -/
def execF1LoadEsrb (u : Micro) (s : State) : Host.Outcome State Fault Refusal :=
  .next (cpuStep { u with f1 := .loadEsrb } s)

/-- F1=RSNF (R245). -/
def execF1Rsnf (u : Micro) (s : State) : Host.Outcome State Fault Refusal :=
  .next (cpuStep { u with f1 := .rsnf } s)

/-- F1=STARTF (R246). -/
def execF1Startf (u : Micro) (s : State) : Host.Outcome State Fault Refusal :=
  .next (cpuStep { u with f1 := .startf } s)

/-- F1=TASK_SPECIFIC_8 (R203). -/
def execF1TaskSpecific8 (u : Micro) (s : State) : Host.Outcome State Fault Refusal :=
  .next (cpuStep { u with f1 := .taskSpecific8 } s)

/-- F1=TASK_SPECIFIC_9 (R203). -/
def execF1TaskSpecific9 (u : Micro) (s : State) : Host.Outcome State Fault Refusal :=
  .next (cpuStep { u with f1 := .taskSpecific9 } s)

/-- F1=TASK_SPECIFIC_10 (R203). -/
def execF1TaskSpecific10 (u : Micro) (s : State) : Host.Outcome State Fault Refusal :=
  .next (cpuStep { u with f1 := .taskSpecific10 } s)

/-- F1=TASK_SPECIFIC_11 (R203). -/
def execF1TaskSpecific11 (u : Micro) (s : State) : Host.Outcome State Fault Refusal :=
  .next (cpuStep { u with f1 := .taskSpecific11 } s)

/-- F1=TASK_SPECIFIC_12 (R203). -/
def execF1TaskSpecific12 (u : Micro) (s : State) : Host.Outcome State Fault Refusal :=
  .next (cpuStep { u with f1 := .taskSpecific12 } s)

/-- F1=TASK_SPECIFIC_13 (R203). -/
def execF1TaskSpecific13 (u : Micro) (s : State) : Host.Outcome State Fault Refusal :=
  .next (cpuStep { u with f1 := .taskSpecific13 } s)

/-- F1=TASK_SPECIFIC_14 (R203). -/
def execF1TaskSpecific14 (u : Micro) (s : State) : Host.Outcome State Fault Refusal :=
  .next (cpuStep { u with f1 := .taskSpecific14 } s)

/-- F1=TASK_SPECIFIC_15 (R203). -/
def execF1TaskSpecific15 (u : Micro) (s : State) : Host.Outcome State Fault Refusal :=
  .next (cpuStep { u with f1 := .taskSpecific15 } s)

end Sys2Proof.Machine
end

