-- ==== Sys2Proof/Machine/RowsF2.lean ====
section
/-! DEFINITION. The meanings of the F2 rows of spec/opcode_table.json: the microinstruction cycle (40_cycle.md R131) of the
microinstruction with the row's value in the row's field. What the row itself does is the definition of its name in
Machine/ that `cpuPhases` reaches. -/

namespace Sys2Proof.Machine

/-- F2=NONE (R215). -/
def execF2None (u : Micro) (s : State) : Host.Outcome State Fault Refusal :=
  .next (cpuStep { u with f2 := .none } s)

/-- F2=BUS_EQ_0 (R216). -/
def execF2BusEq0 (u : Micro) (s : State) : Host.Outcome State Fault Refusal :=
  .next (cpuStep { u with f2 := .busEq0 } s)

/-- F2=SH_LT_0 (R217). -/
def execF2ShLt0 (u : Micro) (s : State) : Host.Outcome State Fault Refusal :=
  .next (cpuStep { u with f2 := .shLt0 } s)

/-- F2=SH_EQ_0 (R218). -/
def execF2ShEq0 (u : Micro) (s : State) : Host.Outcome State Fault Refusal :=
  .next (cpuStep { u with f2 := .shEq0 } s)

/-- F2=BUS (R219). -/
def execF2Bus (u : Micro) (s : State) : Host.Outcome State Fault Refusal :=
  .next (cpuStep { u with f2 := .bus } s)

/-- F2=ALUCY (R220). -/
def execF2Alucy (u : Micro) (s : State) : Host.Outcome State Fault Refusal :=
  .next (cpuStep { u with f2 := .alucy } s)

/-- F2=STORE_MD (R221). -/
def execF2StoreMd (u : Micro) (s : State) : Host.Outcome State Fault Refusal :=
  .next (cpuStep { u with f2 := .storeMd } s)

/-- F2=CONSTANT (R222). -/
def execF2Constant (u : Micro) (s : State) : Host.Outcome State Fault Refusal :=
  .next (cpuStep { u with f2 := .constant } s)

/-- F2=BUSODD (R250). -/
def execF2Busodd (u : Micro) (s : State) : Host.Outcome State Fault Refusal :=
  .next (cpuStep { u with f2 := .busodd } s)

/-- F2=MAGIC (R251). -/
def execF2Magic (u : Micro) (s : State) : Host.Outcome State Fault Refusal :=
  .next (cpuStep { u with f2 := .magic } s)

/-- F2=LOAD_DNS (R256). -/
def execF2LoadDns (u : Micro) (s : State) : Host.Outcome State Fault Refusal :=
  .next (cpuStep { u with f2 := .loadDns } s)

/-- F2=ACDEST (R254). -/
def execF2Acdest (u : Micro) (s : State) : Host.Outcome State Fault Refusal :=
  .next (cpuStep { u with f2 := .acdest } s)

/-- F2=LOAD_IR (R252). -/
def execF2LoadIr (u : Micro) (s : State) : Host.Outcome State Fault Refusal :=
  .next (cpuStep { u with f2 := .loadIr } s)

/-- F2=IDISP (R253). -/
def execF2Idisp (u : Micro) (s : State) : Host.Outcome State Fault Refusal :=
  .next (cpuStep { u with f2 := .idisp } s)

/-- F2=ACSOURCE (R255). -/
def execF2Acsource (u : Micro) (s : State) : Host.Outcome State Fault Refusal :=
  .next (cpuStep { u with f2 := .acsource } s)

/-- F2=RESERVED_15 (R258). -/
def execF2Reserved15 (u : Micro) (s : State) : Host.Outcome State Fault Refusal :=
  .next (cpuStep { u with f2 := .reserved15 } s)

/-- F2=TASK_SPECIFIC_8 (R223). -/
def execF2TaskSpecific8 (u : Micro) (s : State) : Host.Outcome State Fault Refusal :=
  .next (cpuStep { u with f2 := .taskSpecific8 } s)

/-- F2=TASK_SPECIFIC_9 (R223). -/
def execF2TaskSpecific9 (u : Micro) (s : State) : Host.Outcome State Fault Refusal :=
  .next (cpuStep { u with f2 := .taskSpecific9 } s)

/-- F2=TASK_SPECIFIC_10 (R223). -/
def execF2TaskSpecific10 (u : Micro) (s : State) : Host.Outcome State Fault Refusal :=
  .next (cpuStep { u with f2 := .taskSpecific10 } s)

/-- F2=TASK_SPECIFIC_11 (R223). -/
def execF2TaskSpecific11 (u : Micro) (s : State) : Host.Outcome State Fault Refusal :=
  .next (cpuStep { u with f2 := .taskSpecific11 } s)

/-- F2=TASK_SPECIFIC_12 (R223). -/
def execF2TaskSpecific12 (u : Micro) (s : State) : Host.Outcome State Fault Refusal :=
  .next (cpuStep { u with f2 := .taskSpecific12 } s)

/-- F2=TASK_SPECIFIC_13 (R223). -/
def execF2TaskSpecific13 (u : Micro) (s : State) : Host.Outcome State Fault Refusal :=
  .next (cpuStep { u with f2 := .taskSpecific13 } s)

/-- F2=TASK_SPECIFIC_14 (R223). -/
def execF2TaskSpecific14 (u : Micro) (s : State) : Host.Outcome State Fault Refusal :=
  .next (cpuStep { u with f2 := .taskSpecific14 } s)

/-- F2=TASK_SPECIFIC_15 (R223). -/
def execF2TaskSpecific15 (u : Micro) (s : State) : Host.Outcome State Fault Refusal :=
  .next (cpuStep { u with f2 := .taskSpecific15 } s)

end Sys2Proof.Machine
end

