-- ==== Sys2Proof/Machine/RowsWord.lean ====
section
/-! DEFINITION. The meanings of the rows MICROINSTRUCTION, LT and LL of spec/opcode_table.json. -/

namespace Sys2Proof.Machine

/-- MICROINSTRUCTION (R90). -/
def execMicroinstruction (u : Micro) (s : State) : Host.Outcome State Fault Refusal :=
  .next (cpuStep u s)

/-- LT (R124). -/
def execLt (u : Micro) (s : State) : Host.Outcome State Fault Refusal :=
  .next (cpuStep { u with loadT := true } s)

/-- LL (R125). -/
def execLl (u : Micro) (s : State) : Host.Outcome State Fault Refusal :=
  .next (cpuStep { u with loadL := true } s)

end Sys2Proof.Machine
end

