-- ==== Sys2Proof/Machine/Dispatch.lean ====
section
/-! DEFINITION. Every instruction's meaning, by its constructor. -/

namespace Sys2Proof.Machine

def exec (i : Instr) (s : State) : Host.Outcome State Fault Refusal :=
  match i with
  | .microinstruction u => Sys2Proof.Machine.execMicroinstruction u s
  | .aluBus u => Sys2Proof.Machine.execAluBus u s
  | .aluT u => Sys2Proof.Machine.execAluT u s
  | .aluBusOrT u => Sys2Proof.Machine.execAluBusOrT u s
  | .aluBusAndT u => Sys2Proof.Machine.execAluBusAndT u s
  | .aluBusXorT u => Sys2Proof.Machine.execAluBusXorT u s
  | .aluBusPlus1 u => Sys2Proof.Machine.execAluBusPlus1 u s
  | .aluBusMinus1 u => Sys2Proof.Machine.execAluBusMinus1 u s
  | .aluBusPlusT u => Sys2Proof.Machine.execAluBusPlusT u s
  | .aluBusMinusT u => Sys2Proof.Machine.execAluBusMinusT u s
  | .aluBusMinusTMinus1 u => Sys2Proof.Machine.execAluBusMinusTMinus1 u s
  | .aluBusPlusTPlus1 u => Sys2Proof.Machine.execAluBusPlusTPlus1 u s
  | .aluBusPlusSkip u => Sys2Proof.Machine.execAluBusPlusSkip u s
  | .aluAluBusAndT u => Sys2Proof.Machine.execAluAluBusAndT u s
  | .aluBusAndNotT u => Sys2Proof.Machine.execAluBusAndNotT u s
  | .aluReserved14 u => Sys2Proof.Machine.execAluReserved14 u s
  | .aluReserved15 u => Sys2Proof.Machine.execAluReserved15 u s
  | .bsReadR u => Sys2Proof.Machine.execBsReadR u s
  | .bsLoadR u => Sys2Proof.Machine.execBsLoadR u s
  | .bsNone u => Sys2Proof.Machine.execBsNone u s
  | .bsReadMd u => Sys2Proof.Machine.execBsReadMd u s
  | .bsReadMouse u => Sys2Proof.Machine.execBsReadMouse u s
  | .bsReadDisp u => Sys2Proof.Machine.execBsReadDisp u s
  | .bsReadS u => Sys2Proof.Machine.execBsReadS u s
  | .bsLoadS u => Sys2Proof.Machine.execBsLoadS u s
  | .bsTaskSpecific1 u => Sys2Proof.Machine.execBsTaskSpecific1 u s
  | .bsTaskSpecific2 u => Sys2Proof.Machine.execBsTaskSpecific2 u s
  | .f1None u => Sys2Proof.Machine.execF1None u s
  | .f1LoadMar u => Sys2Proof.Machine.execF1LoadMar u s
  | .f1Task u => Sys2Proof.Machine.execF1Task u s
  | .f1Block u => Sys2Proof.Machine.execF1Block u s
  | .f1LLsh1 u => Sys2Proof.Machine.execF1LLsh1 u s
  | .f1LRsh1 u => Sys2Proof.Machine.execF1LRsh1 u s
  | .f1LLcy8 u => Sys2Proof.Machine.execF1LLcy8 u s
  | .f1Constant u => Sys2Proof.Machine.execF1Constant u s
  | .f1Swmode u => Sys2Proof.Machine.execF1Swmode u s
  | .f1Wrtram u => Sys2Proof.Machine.execF1Wrtram u s
  | .f1Rdram u => Sys2Proof.Machine.execF1Rdram u s
  | .f1LoadRmr u => Sys2Proof.Machine.execF1LoadRmr u s
  | .f1Reserved12 u => Sys2Proof.Machine.execF1Reserved12 u s
  | .f1LoadEsrb u => Sys2Proof.Machine.execF1LoadEsrb u s
  | .f1Rsnf u => Sys2Proof.Machine.execF1Rsnf u s
  | .f1Startf u => Sys2Proof.Machine.execF1Startf u s
  | .f1TaskSpecific8 u => Sys2Proof.Machine.execF1TaskSpecific8 u s
  | .f1TaskSpecific9 u => Sys2Proof.Machine.execF1TaskSpecific9 u s
  | .f1TaskSpecific10 u => Sys2Proof.Machine.execF1TaskSpecific10 u s
  | .f1TaskSpecific11 u => Sys2Proof.Machine.execF1TaskSpecific11 u s
  | .f1TaskSpecific12 u => Sys2Proof.Machine.execF1TaskSpecific12 u s
  | .f1TaskSpecific13 u => Sys2Proof.Machine.execF1TaskSpecific13 u s
  | .f1TaskSpecific14 u => Sys2Proof.Machine.execF1TaskSpecific14 u s
  | .f1TaskSpecific15 u => Sys2Proof.Machine.execF1TaskSpecific15 u s
  | .f2None u => Sys2Proof.Machine.execF2None u s
  | .f2BusEq0 u => Sys2Proof.Machine.execF2BusEq0 u s
  | .f2ShLt0 u => Sys2Proof.Machine.execF2ShLt0 u s
  | .f2ShEq0 u => Sys2Proof.Machine.execF2ShEq0 u s
  | .f2Bus u => Sys2Proof.Machine.execF2Bus u s
  | .f2Alucy u => Sys2Proof.Machine.execF2Alucy u s
  | .f2StoreMd u => Sys2Proof.Machine.execF2StoreMd u s
  | .f2Constant u => Sys2Proof.Machine.execF2Constant u s
  | .f2Busodd u => Sys2Proof.Machine.execF2Busodd u s
  | .f2Magic u => Sys2Proof.Machine.execF2Magic u s
  | .f2LoadDns u => Sys2Proof.Machine.execF2LoadDns u s
  | .f2Acdest u => Sys2Proof.Machine.execF2Acdest u s
  | .f2LoadIr u => Sys2Proof.Machine.execF2LoadIr u s
  | .f2Idisp u => Sys2Proof.Machine.execF2Idisp u s
  | .f2Acsource u => Sys2Proof.Machine.execF2Acsource u s
  | .f2Reserved15 u => Sys2Proof.Machine.execF2Reserved15 u s
  | .f2TaskSpecific8 u => Sys2Proof.Machine.execF2TaskSpecific8 u s
  | .f2TaskSpecific9 u => Sys2Proof.Machine.execF2TaskSpecific9 u s
  | .f2TaskSpecific10 u => Sys2Proof.Machine.execF2TaskSpecific10 u s
  | .f2TaskSpecific11 u => Sys2Proof.Machine.execF2TaskSpecific11 u s
  | .f2TaskSpecific12 u => Sys2Proof.Machine.execF2TaskSpecific12 u s
  | .f2TaskSpecific13 u => Sys2Proof.Machine.execF2TaskSpecific13 u s
  | .f2TaskSpecific14 u => Sys2Proof.Machine.execF2TaskSpecific14 u s
  | .f2TaskSpecific15 u => Sys2Proof.Machine.execF2TaskSpecific15 u s
  | .lt u => Sys2Proof.Machine.execLt u s
  | .ll u => Sys2Proof.Machine.execLl u s

end Sys2Proof.Machine
end

