-- ==== Sys2Proof/Machine/Fetch.lean ====
section
/-! DEFINITION. Fetching the next microinstruction (40_cycle.md R111), and the two ends of a tick (R110). -/

namespace Sys2Proof.Machine

/-- The raw word at the current task's micro-program counter in its bank (R111, 20_memory.md R71); `none` where the
configuration lacks the bank. -/
def fetchWord (s : State) : Option MicroWord :=
  uFetch (Bank.get s.bank s.currentTask) (Bank.get s.mpc s.currentTask) s

/-- Whether the executing task is the Emulator, which decides what the task-specific codes mean (30_encoding.md R98,
R100). -/
def emulatorRuns (s : State) : Bool := s.currentTask == 0

/-- Step 1 (R111): the decoded microinstruction. -/
def fetch (s : State) : Option Instr := (fetchWord s).map (decode (emulatorRuns s))

/-- The start of a tick: the bus clock, before the CPU (R110). -/
def startTick (s : State) : State := { busClock s with ticks := s.ticks + 1 }

/-- The end of a tick the CPU step did not halt: the scheduler, then the external events (R110). -/
def endTick (s : State) : State :=
  match s.halted with
  | some _ => s
  | none => runPhases [schedule, applyExternal] s

/-- A fetch from a bank the configuration lacks (R71, R111). -/
def noBank (s : State) : State := raise .noBank (.bank (Bank.get s.bank s.currentTask)) s

end Sys2Proof.Machine
end

