-- ==== Sys2Proof/Machine/Step.lean ====
section
/-! DEFINITION. One tick of the whole block (40_cycle.md R110), and placing an instruction where the next tick fetches. -/

namespace Sys2Proof.Machine

/-- `Tick()` (R110): nothing when halted; else the bus clock, the fetch, the microinstruction, the scheduler and the
external events. -/
def step (s : State) : Host.Outcome State Fault Refusal :=
  match s.halted with
  | some _ => .next s
  | none =>
    match fetch (startTick s) with
    | none => .next (noBank (startTick s))
    | some i =>
      match exec i (startTick s) with
      | .next s' => .next (endTick s')
      | .fault f => .fault f
      | .refused r => .refused r

/-- `s` with the word `w` (its low `nbits` bits, the others 0) at the current task's micro-program counter in its bank,
where the next `step` fetches: the load of a program from outside (log 4). -/
def State.withFetchWord (s : State) (nbits w : Nat) : State :=
  placeMicro (Bank.get s.bank s.currentTask) (Bank.get s.mpc s.currentTask) (BitVec.ofNat 32 (w % 2 ^ nbits)) s

end Sys2Proof.Machine
end

