-- ==== Sys2Proof/Safety.lean ====
section
/-! DEFINITION. What counts as a safe run: a machine that has not halted, the invariant every step keeps, and the
conditions under which a microinstruction runs to its end (no memory wait, no fault), in the terms claims use. -/

namespace Sys2Proof.Machine

/-- A machine that no fault has stopped (60_exceptions.md R270). -/
def State.running (s : State) : Bool := s.halted.isNone

/-- What holds at reset and what every step keeps. -/
structure Inv (s : State) : Prop where
  /-- The main store is in canonical form. -/
  mainWf : s.main.wf = true
  /-- The microcode ROM is in canonical form. -/
  uromWf : s.urom.wf = true
  /-- The microcode RAM is in canonical form. -/
  uramWf : s.uram.wf = true
  /-- `memCycle` is a counter 1..6 (10_state.md R39). -/
  cycleRange : 1 ≤ s.memCycle ∧ s.memCycle ≤ 6
  /-- `wakeup[0]` is always 1 (R32, 60_exceptions.md R280). -/
  emulatorWoken : Bank.get s.wakeup 0 = true
  /-- The current task exists (R30, R34). -/
  currentPresent : s.params.present s.currentTask = true
  /-- A pending switch target exists (R30, R34). -/
  nextPresent : ∀ i, s.nextTask = some i → s.params.present i = true
  /-- Only the Emulator has carried flags (46_emulator.md R260). -/
  carriedFlags : ∀ k, k ≠ 0 → Bank.get s.rdRamPending k = false ∧ Bank.get s.wrtRamPending k = false
    ∧ Bank.get s.swModePending k = false
  /-- A store in the first cycle is a store (20_memory.md R64). -/
  storeMixed : s.dwStore = true → s.dwMixed = true
  /-- The main store has 2^18 words (R40). -/
  mainBound : ∀ c ∈ s.main, c.1 < 2 * 2 ^ 18
  /-- The microcode RAM has `P_RAM_BANKS` banks of 1024 words (R41). -/
  uramBound : ∀ c ∈ s.uram, c.1 < 4 * (1024 * s.params.ramBanks)

/-! ## Hooks -/

/-- A written-down hook that returns a plain word and whose actions are all allowed. -/
def hookOnly (ok : HookAction → Bool) : Hook → Bool
  | .fixed ⟨.word _, acts⟩ => acts.all ok
  | .fixed ⟨.readMd, _⟩ => false
  | .free => false

/-- Every hook of task `k` does allowed actions only. -/
def hooksOnly (ok : HookAction → Bool) (k : TaskNum) (s : State) : Bool :=
  s.params.hooks.all fun e => e.task != k || hookOnly ok e.hook

/-- A hook action that cannot fault and changes nothing but the next address and the device log. -/
def harmlessAction : HookAction → Bool
  | .orNextModifier _ | .device _ => true
  | .setLoadR _ | .setRSelect _ | .setAlu _ | .setSh _ | .setTaskFired _ | .setBlockFired _ | .setShift _ | .loadMar _ _
  | .storeMd _ | .readMd | .wakeupTask _ | .blockTask _ => false

/-- A hook action that leaves the memory bus alone. -/
def offBusAction : HookAction → Bool
  | .loadMar _ _ | .storeMd _ | .readMd => false
  | .setLoadR _ | .setRSelect _ | .setAlu _ | .setSh _ | .setTaskFired _ | .setBlockFired _ | .setShift _
  | .orNextModifier _ | .wakeupTask _ | .blockTask _ | .device _ => true

/-- Every hook of task `k` is harmless. -/
def hooksHarmless (k : TaskNum) (s : State) : Bool := hooksOnly harmlessAction k s

/-- The hook points of a microinstruction's bus source (40_cycle.md R132). -/
def busHooks (u : Micro) : List HookPoint :=
  match u.bs with
  | .taskSpecific1 => [.bs3]
  | .taskSpecific2 => [.bs4]
  | _ => []

/-- The hook points of a microinstruction's F1 code. -/
def f1Hooks (u : Micro) : List HookPoint :=
  match u.f1 with
  | .taskSpecific8 => [.f1 8]
  | .taskSpecific9 => [.f1 9]
  | .taskSpecific10 => [.f1 10]
  | .taskSpecific11 => [.f1 11]
  | .taskSpecific12 => [.f1 12]
  | .taskSpecific13 => [.f1 13]
  | .taskSpecific14 => [.f1 14]
  | .taskSpecific15 => [.f1 15]
  | _ => []

/-- The hook points of a microinstruction's F2 code. -/
def f2Hooks (u : Micro) : List HookPoint :=
  match u.f2 with
  | .taskSpecific8 => [.f2 8]
  | .taskSpecific9 => [.f2 9]
  | .taskSpecific10 => [.f2 10]
  | .taskSpecific11 => [.f2 11]
  | .taskSpecific12 => [.f2 12]
  | .taskSpecific13 => [.f2 13]
  | .taskSpecific14 => [.f2 14]
  | .taskSpecific15 => [.f2 15]
  | _ => []

/-- The task a call of wakeupTask or blockTask is about. -/
def callTask : ExternalCall → TaskNum
  | .wakeupTask i | .blockTask i => i

/-- Whether a call wakes its task. -/
def callWakes : ExternalCall → Bool
  | .wakeupTask _ => true
  | .blockTask _ => false

/-- The executing task has every hook of a list. -/
def hooksPresent (points : List HookPoint) (s : State) : Bool :=
  points.all fun p => (hookAnswer s.currentTask p s).isSome

/-- The actions of the executing task's hook at a point; none if the hook is absent. -/
def hookActs (p : HookPoint) (s : State) : List HookAction :=
  match hookAnswer s.currentTask p s with
  | some a => a.acts
  | none => []

/-- The word the executing task's bus hook returns. -/
def hookWord (p : HookPoint) (s : State) : Word :=
  match hookAnswer s.currentTask p s with
  | some ⟨.word w, _⟩ => w
  | _ => 0#16

/-- The next-address bits a list of actions ORs in. -/
def modifierOf : List HookAction → MicroAddr
  | [] => 0#10
  | .orNextModifier a :: rest => a ||| modifierOf rest
  | _ :: rest => modifierOf rest

/-- The device calls a list of actions of task `k` makes, newest first. -/
def callsOf (k : TaskNum) : List HookAction → List DeviceCall
  | [] => []
  | .device d :: rest => callsOf k rest ++ [.hook k d]
  | _ :: rest => callsOf k rest

/-- The next-address bits the hooks of a microinstruction OR in: those of steps 7 and 8 only (45_f2.md R225). -/
def hookBits (u : Micro) (s : State) : MicroAddr :=
  modifierOf ((f1Hooks u ++ f2Hooks u).flatMap fun p => hookActs p s)

/-! ## When a microinstruction runs -/

/-- A read of MD would not fault (20_memory.md R61). -/
def mdReadable (s : State) : Bool := !s.dwMixed && !(s.memActive && s.memCycle == 6 && !s.memRd5)

/-- A control-RAM read would not fault (R77). -/
def cramReadable (s : State) : Bool := !s.cramAddr.getLsbD 11 && decide (cramBankOf s.cramAddr < s.params.ramBanks)

/-- A control-RAM write would not fault (R76). -/
def cramWritable (s : State) : Bool := s.cramAddr.getLsbD 11 || decide (cramBankOf s.cramAddr < s.params.ramBanks)

/-- A bank switch due now would not fault (R74), whichever bank a STARTF of the same microinstruction loads. -/
def switchKnown (u : Micro) (s : State) : Bool :=
  (swModeTarget s.params (Bank.get s.bank s.currentTask) u.next).isSome
    && (u.f1 != .startf
      || (swModeTarget s.params .rom0 u.next).isSome && (swModeTarget s.params .ram0 u.next).isSome)

/-- The microinstruction starts: the machine is not halted, every memory request is ready (40_cycle.md R112), its
task-specific codes are the executing task's (30_encoding.md R98), and that task's hooks are harmless. -/
def mayStart (u : Micro) (s : State) : Bool :=
  s.running && allReady u s && u.fits (emulatorRuns s) && hooksHarmless s.currentTask s

/-- It reaches the ALU: no fault of the bus source or of the control-RAM read. -/
def mayReachAlu (u : Micro) (s : State) : Bool :=
  mayStart u s && hooksPresent (busHooks u) s && (u.bs != .readMd || mdReadable s)
    && (!Bank.get s.rdRamPending s.currentTask || cramReadable s)

/-- It reaches F1: no fault of the ALU or of the control-RAM write. -/
def mayReachF1 (u : Micro) (s : State) : Bool :=
  mayReachAlu u s && u.aluf != .reserved14 && u.aluf != .reserved15
    && (!Bank.get s.wrtRamPending s.currentTask || cramWritable s)

/-- It reaches F2: no fault of F1. -/
def mayReachF2 (u : Micro) (s : State) : Bool :=
  mayReachF1 u s && u.f1 != .reserved12 && hooksPresent (f1Hooks u) s && (u.f1 != .block || s.currentTask != 0)

/-- It reaches the shifter: no fault of F2. -/
def mayReachShifter (u : Micro) (s : State) : Bool :=
  mayReachF2 u s && u.f2 != .reserved15 && hooksPresent (f2Hooks u) s
    && (u.f2 != .storeMd || isXmar s.params u || (s.memActive && u.f1 != .loadMar))

/-- It runs to its end: no fault of the shifter (43_shifter.md R189) or of the bank switch. -/
def mayRun (u : Micro) (s : State) : Bool :=
  mayReachShifter u s && !(u.f1 == .lLcy8 && u.f2 == .magic && u.bs == .loadR)
    && (!Bank.get s.swModePending s.currentTask || switchKnown u s)

/-- The machine stopped with a fault: the record names the current task and its micro-program counter
(60_exceptions.md R270). -/
def haltedBy (f : Fault) (s : State) : Prop :=
  ∃ info, s.halted = some ⟨f, s.currentTask, Bank.get s.mpc s.currentTask, info⟩

/-! ## What a microinstruction reads -/

/-- The R register a microinstruction selects (40_cycle.md R114): `rselect` as the Emulator's early functions change it. -/
def selectedR (u : Micro) (s : State) : BitVec 5 :=
  match u.f2 with
  | .acdest => accumulatorSelect u.rselect (destField s.ir)
  | .acsource => accumulatorSelect u.rselect (sourceField s.ir)
  | .loadDns => (dnsEarly (beginMicro u s.currentTask s)).1
  | _ => u.rselect

/-- Whether a microinstruction loads R (43_shifter.md R190): LOAD_R, or LOAD_DNS without its no-load bit. -/
def loadsR (u : Micro) (s : State) : Bool :=
  u.bs == .loadR || (u.f2 == .loadDns && (dnsEarly (beginMicro u s.currentTask s)).2.1)

/-- The carry LOAD_DNS feeds into the shifter (46_emulator.md R256); 0 without LOAD_DNS. -/
def dnsCarryIn (u : Micro) (s : State) : Bool :=
  u.f2 == .loadDns && (dnsEarly (beginMicro u s.currentTask s)).2.2

/-- The constant mask of the bus (42_bus_sources.md R169); all ones where it does not apply. -/
def constMask (u : Micro) (s : State) : Word :=
  if constantAccessOrBS4 u then constantValue s.params u else 0xFFFF#16

/-- The control-RAM mask of the bus (R170); all ones where no RDRAM is pending. -/
def cramMask (s : State) : Word :=
  if Bank.get s.rdRamPending s.currentTask then
    match cramRead s with
    | .ok w => w
    | .error _ => 0xFFFF#16
  else 0xFFFF#16

/-- The node-number mask of the bus (46_emulator.md R245): a free value, the one the device answers after the call of a
READ_MOUSE, if any; all ones without RSNF. -/
def nodeMask (u : Micro) (s : State) : Word :=
  if u.f1 = .rsnf then
    0xFF00#16 ||| (Config.nodeId s.ticks
      (if u.bs = .readMouse then .mouse :: s.deviceCalls else s.deviceCalls)).setWidth 16
  else 0xFFFF#16

/-- All the masks applied to the bus source. -/
def busMask (u : Micro) (s : State) : Word := constMask u s &&& cramMask s &&& nodeMask u s

/-- The calls the early hooks of a microinstruction make, before those already made. -/
def callsBeforeBus (s : State) : List DeviceCall :=
  callsOf s.currentTask ((if s.currentTask = 0 then [] else [HookPoint.f1Early, .f2Early]).flatMap fun p => hookActs p s)
    ++ s.deviceCalls

/-- The word of the bus source before the masks (42_bus_sources.md R161 to R168, 46_emulator.md R236, R237). -/
def sourceWord (u : Micro) (s : State) : Word :=
  match u.bs with
  | .readR => readR (selectedR u s) s
  | .loadR => 0x0000#16
  | .none => 0xFFFF#16
  | .readMd => if s.memActive = true ∧ s.memCycle = 6 then s.memData2 else s.memData
  | .readMouse => Config.mouseBits s.ticks (callsBeforeBus s)
  | .readDisp => displacement s.ir
  | .readS => if u.rselect = 0#5 then s.m else readS s.rb u.rselect s
  | .loadS => s.params.loadsBus
  | .taskSpecific1 => hookWord .bs3 s
  | .taskSpecific2 => hookWord .bs4 s

/-- Whether the shifter runs (43_shifter.md R190). -/
def needsShifter (u : Micro) (s : State) : Bool := loadsR u s || u.f2 == .shLt0 || u.f2 == .shEq0 || u.f2 == .loadDns

/-- The shifter's output and carry out for the F1 and F2 of a microinstruction (R176 to R186); a magic rotate, which faults,
left aside. -/
def shifterOut (u : Micro) (s : State) : Word × Bool :=
  match u.f1 with
  | .lLsh1 =>
    if u.f2 = .magic then ((s.l <<< 1) ||| lowBit (s.t.getLsbD 15), false)
    else if u.f2 = .loadDns then ((s.l <<< 1) ||| lowBit (dnsCarryIn u s), s.l.getLsbD 15)
    else (s.l <<< 1, false)
  | .lRsh1 =>
    if u.f2 = .magic then ((s.l >>> 1) ||| highBit (s.t.getLsbD 0), false)
    else if u.f2 = .loadDns then ((s.l >>> 1) ||| highBit (dnsCarryIn u s), s.l.getLsbD 0)
    else (s.l >>> 1, false)
  | .lLcy8 => (byteSwap s.l, dnsCarryIn u s)
  | _ => (s.l, dnsCarryIn u s)

/-- The main-store word a microinstruction stores to (20_memory.md R62), if it stores to the main store: STORE_MD without
LOAD_MAR, an operation active and far enough, an address below the I/O page. -/
def storedWord (u : Micro) (s : State) : Option Nat :=
  if u.f2 = .storeMd ∧ u.f1 ≠ .loadMar ∧ s.memActive = true ∧ s.params.storeAfter < s.memCycle
      ∧ xmIndex s.params (storeAddr s) = none ∧ (storeAddr s).toNat < s.params.ioBase.toNat then
    some (physAddr (storeAddr s) s.memTask s.memXM s).toNat
  else none

/-- The control-RAM word a pending WRTRAM writes (R76), if it writes one. -/
def cramWord (s : State) : Option Nat :=
  if Bank.get s.wrtRamPending s.currentTask = true ∧ s.cramAddr.getLsbD 11 = false
      ∧ cramBankOf s.cramAddr < s.params.ramBanks then
    some (microIndex (cramBankOf s.cramAddr) (s.cramAddr.extractLsb' 0 10))
  else none

/-! ## How an instruction ends -/

/-- `i` answers a next state in which the machine runs on and the microinstruction was executed, and `P` holds there. -/
def completesWith (i : Instr) (s : State) (P : State → Prop) : Prop :=
  ∃ t, exec i s = .next t ∧ t.halted = none ∧ t.completion ≠ .memoryWait ∧ P t

/-- `i` answers a next state in which the machine has stopped with the fault `f`, before any writeback of step 11. -/
def stopsWith (i : Instr) (s : State) (f : Fault) : Prop :=
  ∃ t, exec i s = .next t ∧ haltedBy f t ∧ t.t = s.t ∧ t.cramAddr = s.cramAddr ∧ t.l = s.l ∧ t.m = s.m ∧ t.aluC0 = s.aluC0
    ∧ t.r = s.r ∧ t.sStore = s.sStore ∧ t.completion = s.completion

/-- The ALU row `i` computes `f` of the bus, T and the skip input, and its result goes where the load bits send it; `fromAlu`
says whether a load of T takes the ALU result or the bus (30_encoding.md R94, 40_cycle.md R117, R124, R125). -/
def aluRow (i : Instr) (fromAlu : Bool) (f : Word → Word → Bool → Word × Bool) (s : State) : Prop :=
  mayRun i.micro s = true → completesWith i s fun t =>
    t.scratch.alu = (f t.scratch.busData s.t (skipIn s.currentTask s)).1
      ∧ t.aluCarry = (f t.scratch.busData s.t (skipIn s.currentTask s)).2
      ∧ (i.micro.loadT = true → t.t = (if fromAlu then t.scratch.alu else t.scratch.busData) ∧ t.cramAddr = t.scratch.alu)
      ∧ (i.micro.loadL = true → t.l = t.scratch.alu ∧ t.aluC0 = t.aluCarry)

/-- The bus row `i` puts `source`, masked, on the bus, and `P` holds after. -/
def busRow (i : Instr) (source : Word) (P : State → Prop) (s : State) : Prop :=
  mayRun i.micro s = true → completesWith i s fun t => t.scratch.busData = source &&& busMask i.micro s ∧ P t

/-- The next micro-address is `next` with `bits` and the hooks' bits ORed in (40_cycle.md R130), unless a soft reset gave
every task its seed address. -/
def nextAddress (i : Instr) (bits : MicroAddr) (s t : State) : Prop :=
  t.mpc = if t.scratch.softReset = true then (softReset s).mpc
    else Bank.put s.mpc s.currentTask (i.micro.next ||| bits ||| hookBits i.micro s)

/-- The row `i` runs, its next address has `bits`, and `P` holds after. -/
def branchRow (i : Instr) (s : State) (bits : State → MicroAddr) (P : State → Prop) : Prop :=
  mayRun i.micro s = true → completesWith i s fun t => nextAddress i (bits t) s t ∧ P t

/-- The hook at `p` ran: its device calls are in the log. -/
def hookCalled (p : HookPoint) (s t : State) : Prop :=
  ∀ d, HookAction.device d ∈ hookActs p s → DeviceCall.hook s.currentTask d ∈ t.deviceCalls

/-- The hook of an F1 or F2 code ran: its next-address bits are in the next address and its device calls in the log. -/
def hookRan (p : HookPoint) (s t : State) : Prop :=
  (∀ a, HookAction.orNextModifier a ∈ hookActs p s → Bank.get t.mpc s.currentTask &&& a = a) ∧ hookCalled p s t

/-- With no F2 function, and no F1 hook, nothing is ORed into the next address: no hook of another point can (45_f2.md R225). -/
def plainNext (i : Instr) (s t : State) : Prop :=
  i.micro.f2 = .none → f1Hooks i.micro = [] → t.mpc = Bank.put s.mpc s.currentTask i.micro.next

end Sys2Proof.Machine
end

