-- ==== Sys2Proof/Certificates/Slice0/Obligations.lean ====
section
/-! DEFINITION. The statements for the provers, from the numbered rules of spec/. Each is about the model alone; no program is
named. `completesWith`, `stopsWith`, `mayRun` and the row forms are defined in Sys2Proof/Safety.lean. -/

open Sys2Proof Sys2Proof.Machine

/-! ## Encoding -/

/-- The spec's worked example (30_encoding.md R104) decodes to the fields it gives, in any task. -/
def Obligations.SpecExampleDecodes : Prop :=
  ∀ emu : Bool, decodeMicro emu 0x09623903#32
    = { rselect := 1#5, aluf := .busOrT, bs := .readMouse, f1 := .task, f2 := .shEq0, loadT := true, loadL := false,
        next := 0x103#10 }

/-- Words of 95_test_vectors.md, one or two of every family, decode to the rows they are written for. Rests on the spec's own
decisions D3, D5, D6, D7, D8, D9 and D10 (92_eei_decisions.md). -/
def Obligations.VectorWordsDecode : Prop :=
  decode true 0x2A800400#32 = .aluBusPlus1 ⟨5#5, .busPlus1, .readR, .none, .none, false, true, 0#10⟩
  ∧ decode true 0x07000000#32 = .aluReserved14 ⟨0#5, .reserved14, .readR, .none, .none, false, false, 0#10⟩
  ∧ decode true 0x18300800#32 = .bsReadS ⟨3#5, .bus, .readS, .none, .none, true, false, 0#10⟩
  ∧ decode false 0x00300000#32 = .bsTaskSpecific1 ⟨0#5, .bus, .taskSpecific1, .none, .none, false, false, 0#10⟩
  ∧ decode true 0x000A0002#32 = .f1Rdram ⟨0#5, .bus, .readR, .rdram, .none, false, false, 2#10⟩
  ∧ decode false 0x00080000#32 = .f1TaskSpecific8 ⟨0#5, .bus, .readR, .taskSpecific8, .none, false, false, 0#10⟩
  ∧ decode true 0x00005010#32 = .f2Alucy ⟨0#5, .bus, .readR, .none, .alucy, false, false, 0x010#10⟩
  ∧ decode true 0x0000F000#32 = .f2Reserved15 ⟨0#5, .bus, .readR, .none, .reserved15, false, false, 0#10⟩
  ∧ decode true 0x1800081F#32 = .lt ⟨3#5, .bus, .readR, .none, .none, true, false, 0x01F#10⟩
  ∧ decode true 0x00000006#32 = .microinstruction ⟨0#5, .bus, .readR, .none, .none, false, false, 6#10⟩

/-- Encoding is the inverse of decoding (R103): packing the fields, each at its place, is undone by decoding, and every word is the
encoding of what it decodes to. -/
def Obligations.EncodingInvertsDecoding : Prop :=
  (∀ (emu : Bool) (u : Micro), u.fits emu = true → decodeMicro emu (encodeMicro u) = u)
  ∧ (∀ (emu : Bool) (w : MicroWord), (decodeMicro emu w).fits emu = true ∧ encodeMicro (decodeMicro emu w) = w)
  ∧ (∀ u : Micro, (encodeMicro u).toNat
      = u.rselect.toNat * 2 ^ 27 + u.aluf.code.toNat * 2 ^ 23 + u.bs.code.toNat * 2 ^ 20 + u.f1.code.toNat * 2 ^ 16
        + u.f2.code.toNat * 2 ^ 12 + u.loadT.toNat * 2 ^ 11 + u.loadL.toNat * 2 ^ 10 + u.next.toNat)

/-- Every instruction of every row: the decoding of its word is the microinstruction it stands for, is well formed, has the same
meaning, and is the instruction itself when the decoder's naming of rows (the model's choice, log 1) names that row. Rests on the
spec's own decisions D8, D9 and D10 (92_eei_decisions.md). -/
def Obligations.EveryInstructionRoundTrips : Prop :=
  ∀ (emu : Bool) (i : Instr), i.micro.fits emu = true →
    (decode emu (encode i)).micro = i.micro ∧ (decode emu (encode i)).wellFormed = true
    ∧ (∀ s, exec (decode emu (encode i)) s = exec i s)
    ∧ (rowOf i.micro = i → decode emu (encode i) = i)

/-! ## The tick -/

/-- A step of a running machine whose fetch finds a word runs `exec` of the instruction the word decodes to in the executing task,
between the bus clock and the scheduler (40_cycle.md R110, R111); without the bank the fetch halts (20_memory.md R71). Rests on the
spec's own decisions D27 and D57 (92_eei_decisions.md). -/
def Obligations.StepRunsDecodedInstruction : Prop :=
  ∀ s : State, s.halted = none →
    (∀ w, fetchWord (startTick s) = some w →
      (decode (emulatorRuns s) w).wellFormed = true
      ∧ ∃ t, exec (decode (emulatorRuns s) w) (startTick s) = .next t ∧ step s = .next (endTick t))
    ∧ (bankExists s.params (Bank.get s.bank s.currentTask) = false →
      ∃ t, step s = .next t ∧ haltedBy .noBank t ∧ t.mpc = s.mpc ∧ t.t = s.t ∧ t.l = s.l ∧ t.r = s.r)

/-- A halted machine stands still (60_exceptions.md R270): every later tick answers the same state. Rests on the spec's own decision
D39 (92_eei_decisions.md). -/
def Obligations.HaltedMachineStandsStill : Prop :=
  ∀ (s : State) (n : Nat), s.halted ≠ none → Sys2Proof.core.run n s = .next s

/-- A microinstruction with a memory request that is not ready returns MEMORY_WAIT and changes nothing else (40_cycle.md R112).
Rests on the spec's own decisions D4, D16, D19 and D31 (92_eei_decisions.md). -/
def Obligations.MemoryWaitChangesNothing : Prop :=
  ∀ (i : Instr) (s : State),
    (i.micro.f1 = .loadMar ∧ s.memActive = true)
      ∨ (i.micro.bs = .readMd ∧ s.memActive = true ∧ s.memCycle ≤ s.params.readAfter)
      ∨ (i.micro.f2 = .storeMd ∧ ¬(s.params.system = .altoII ∧ i.micro.f1 = .loadMar) ∧ s.memActive = true
          ∧ s.memCycle ≤ s.params.storeAfter) →
    exec i s = .next { s with completion := .memoryWait }

/-- Every row of the table runs to its end wherever no fault of 60_exceptions.md R271 is due, every memory request is ready and the
executing task's hooks do no more than OR next-address bits and call devices (`mayRun`): a next state, no fault, completion NORMAL
or TASK_SWITCH (R275). Rests on the spec's own decisions D16, D19 and D39 (92_eei_decisions.md). -/
def Obligations.EveryInstructionRuns : Prop :=
  ∀ (i : Instr) (s : State), mayRun i.micro s = true →
    ∃ t, exec i s = .next t ∧ t.halted = none ∧ (t.completion = .normal ∨ t.completion = .taskSwitch)
      ∧ Bank.get t.firstAfterSwitch s.currentTask = false

/-! ## ALU rows -/

/-- The logic rows of the ALU but the alias of code 12 (41_alu.md R140 to R144, R153): result, carry 0, and which of the ALU and the
bus a load of T takes. -/
def Obligations.AluLogicRows : Prop :=
  ∀ (u : Micro) (s : State),
    aluRow (.aluBus u) true (fun b _ _ => (b, false)) s
    ∧ aluRow (.aluT u) false (fun _ t _ => (t, false)) s
    ∧ aluRow (.aluBusOrT u) true (fun b t _ => (b ||| t, false)) s
    ∧ aluRow (.aluBusAndT u) false (fun b t _ => (b &&& t, false)) s
    ∧ aluRow (.aluBusXorT u) false (fun b t _ => (b ^^^ t, false)) s
    ∧ aluRow (.aluBusAndNotT u) false (fun b t _ => (b &&& ~~~t, false)) s

/-- The arithmetic rows of the ALU (41_alu.md R145 to R151): result modulo 2^16, carry of an addition on overflow, carry of a
subtraction the inverted borrow, which of the ALU and the bus a load of T takes, and whose skip is added. -/
def Obligations.AluArithmeticRows : Prop :=
  ∀ (u : Micro) (s : State),
    aluRow (.aluBusPlus1 u) true (fun b _ _ => (b + 1#16, decide (b = 0xFFFF#16))) s
    ∧ aluRow (.aluBusMinus1 u) true (fun b _ _ => (b - 1#16, decide (b ≠ 0#16))) s
    ∧ aluRow (.aluBusPlusT u) false (fun b t _ => (b + t, decide (2 ^ 16 ≤ b.toNat + t.toNat))) s
    ∧ aluRow (.aluBusMinusT u) false (fun b t _ => (b - t, decide (t.toNat ≤ b.toNat))) s
    ∧ aluRow (.aluBusMinusTMinus1 u) false (fun b t _ => (b - t - 1#16, decide (t.toNat < b.toNat))) s
    ∧ aluRow (.aluBusPlusTPlus1 u) true (fun b t _ => (b + t + 1#16, decide (2 ^ 16 - 1 ≤ b.toNat + t.toNat))) s
    ∧ aluRow (.aluBusPlusSkip u) true
        (fun b _ skip => (if skip then b + 1#16 else b, skip && decide (b = 0xFFFF#16))) s
    ∧ skipIn s.currentTask s = (if s.currentTask = 0 then s.skip else false)

/-- The subtraction carry is the carry out of a two's-complement adder (R157): for every bus, T and skip input, the codes 8 and 9
are `b + ~t + 1` and `b + ~t` with the normal carry of an addition. -/
def Obligations.SubtractionIsComplementAddition : Prop :=
  ∀ (b t : Word) (skip : Bool),
    alu .busMinusT b t skip
      = .ok ⟨b + ~~~t + 1#16, decide (2 ^ 16 ≤ b.toNat + (~~~t).toNat + 1)⟩
    ∧ alu .busMinusTMinus1 b t skip = .ok ⟨b + ~~~t, decide (2 ^ 16 ≤ b.toNat + (~~~t).toNat)⟩

/-! ## Bus rows -/

/-- READ_R, LOAD_R and NONE (42_bus_sources.md R161 to R163): the source word, masked as section 2 says, and for LOAD_R the R
register written from the shifter. With a replaced `P_EMU_DNS` the shifter of LOAD_DNS runs in Nova mode: the model's choice (log
13). -/
def Obligations.GenericBusRows : Prop :=
  ∀ (u : Micro) (s : State),
    busRow (.bsReadR u) (Bank.get s.r (selectedR (Instr.bsReadR u).micro s).toFin) (fun _ => True) s
    ∧ busRow (.bsLoadR u) 0x0000#16
        (fun t => t.r = Bank.put s.r (selectedR (Instr.bsLoadR u).micro s).toFin
          (shifterOut (Instr.bsLoadR u).micro s).1) s
    ∧ busRow (.bsNone u) 0xFFFF#16 (fun _ => True) s

/-- READ_S and LOAD_S of the Emulator: S register 0 reads as M, and the S register takes M as it was at the start of the tick, in
the bank `rb` selects after this tick's LOAD_ESRB. Rests on the spec's own decisions D10 and D33 (92_eei_decisions.md). -/
def Obligations.SStoreRows : Prop :=
  ∀ (u : Micro) (s : State),
    busRow (.bsReadS u) (if u.rselect = 0#5 then s.m else Bank.get s.sStore (s.rb ++ u.rselect).toFin)
        (fun t => t.sStore = s.sStore) s
    ∧ busRow (.bsLoadS u) s.params.loadsBus
        (fun t => t.sStore = Bank.put s.sStore (t.rb ++ u.rselect).toFin s.m) s

/-- READ_MD, READ_MOUSE and READ_DISP: the latched first or second word (the spec's own decision D16), the free mouse bits after a
call of the device (D51, log 10), and the displacement of IR with its sign extension (D50). -/
def Obligations.MemoryMouseDispRows : Prop :=
  ∀ (u : Micro) (s : State),
    busRow (.bsReadMd u) (if s.memActive = true ∧ s.memCycle = 6 then s.memData2 else s.memData)
        (fun t => s.memActive = true → s.memCycle = 5 → t.memRd5 = true) s
    ∧ busRow (.bsReadMouse u) (Config.mouseBits s.ticks (callsBeforeBus s))
        (fun t => DeviceCall.mouse ∈ t.deviceCalls) s
    ∧ busRow (.bsReadDisp u)
        (if s.ir.extractLsb' 8 2 = 0#2 then s.ir &&& 0x00FF#16
          else if s.ir.getLsbD 7 then s.ir ||| 0xFF00#16 else s.ir &&& 0x00FF#16) (fun _ => True) s

/-- TASK_SPECIFIC_1 and TASK_SPECIFIC_2 of a task with the hook: the hook's word on the bus and its calls made; a next-address bit
it asks for counts for nothing, since the modifier is built at steps 7 to 10 (45_f2.md R225). What a hook can do is the model's
reading (log 11). Rests on the spec's own decision D52 (92_eei_decisions.md). -/
def Obligations.TaskBusRows : Prop :=
  ∀ (u : Micro) (s : State),
    busRow (.bsTaskSpecific1 u) (hookWord .bs3 s) (fun t => hookCalled .bs3 s t ∧ plainNext (.bsTaskSpecific1 u) s t) s
    ∧ busRow (.bsTaskSpecific2 u) (hookWord .bs4 s) (fun t => hookCalled .bs4 s t ∧ plainNext (.bsTaskSpecific2 u) s t) s

/-- F1 CONSTANT and F2 CONSTANT AND the constant ROM's word (free where the parameters list none, log 7) at `rselect * 8 + bs` into
the bus (42_bus_sources.md R169). Rests on the spec's own decision D13 (92_eei_decisions.md). -/
def Obligations.ConstantRows : Prop :=
  ∀ (u : Micro) (s : State),
    (mayRun (Instr.f1Constant u).micro s = true → completesWith (.f1Constant u) s fun t =>
      t.scratch.busData = sourceWord (Instr.f1Constant u).micro s
        &&& constRomWord s.params (BitVec.ofNat 8 (u.rselect.toNat * 8 + u.bs.code.toNat)) &&& cramMask s)
    ∧ (mayRun (Instr.f2Constant u).micro s = true → completesWith (.f2Constant u) s fun t =>
      t.scratch.busData = sourceWord (Instr.f2Constant u).micro s
        &&& constRomWord s.params (BitVec.ofNat 8 (u.rselect.toNat * 8 + u.bs.code.toNat)) &&& cramMask s
        &&& nodeMask (Instr.f2Constant u).micro s)

/-! ## F1 rows -/

/-- F1 NONE and the three shift functions: NONE asks for nothing, and each shift function gives the shifter output its own plain,
magic and Nova forms, whenever the shifter runs. With a replaced `P_EMU_DNS` the Nova form of LOAD_DNS is the model's choice (log
13). Rests on the spec's own decisions D6, D29, D30 and D31 (92_eei_decisions.md). -/
def Obligations.NoneAndShiftRows : Prop :=
  ∀ (u : Micro) (s : State),
    (mayRun (Instr.f1None u).micro s = true → completesWith (.f1None u) s fun t =>
      t.completion = .normal ∧ t.wakeup = s.wakeup ∧ t.rmr = s.rmr ∧ t.rb = s.rb
        ∧ (needsShifter (Instr.f1None u).micro s = true → t.scratch.sh = s.l))
    ∧ (mayRun (Instr.f1LLsh1 u).micro s = true → completesWith (.f1LLsh1 u) s fun t =>
      needsShifter (Instr.f1LLsh1 u).micro s = true → t.scratch.sh =
        (if u.f2 = .magic then (s.l <<< 1) ||| lowBit (s.t.getLsbD 15)
          else if u.f2 = .loadDns then (s.l <<< 1) ||| lowBit (dnsCarryIn (Instr.f1LLsh1 u).micro s) else s.l <<< 1))
    ∧ (mayRun (Instr.f1LRsh1 u).micro s = true → completesWith (.f1LRsh1 u) s fun t =>
      needsShifter (Instr.f1LRsh1 u).micro s = true → t.scratch.sh =
        (if u.f2 = .magic then (s.l >>> 1) ||| highBit (s.t.getLsbD 0)
          else if u.f2 = .loadDns then (s.l >>> 1) ||| highBit (dnsCarryIn (Instr.f1LRsh1 u).micro s) else s.l >>> 1))
    ∧ (mayRun (Instr.f1LLcy8 u).micro s = true → completesWith (.f1LLcy8 u) s fun t =>
      needsShifter (Instr.f1LLcy8 u).micro s = true → t.scratch.sh = s.l.extractLsb' 0 8 ++ s.l.extractLsb' 8 8)

/-- LOAD_MAR starts a memory operation at the ALU result (20_memory.md R57), extended with MD← on ALTO_II (R55). Rests on the spec's
own decisions D14 and D15 (92_eei_decisions.md). -/
def Obligations.LoadMarRow : Prop :=
  ∀ (u : Micro) (s : State), mayRun (Instr.f1LoadMar u).micro s = true → completesWith (.f1LoadMar u) s fun t =>
    t.memActive = true ∧ t.memCycle = 1 ∧ t.memAddr = t.scratch.alu ∧ t.memTask = s.currentTask
      ∧ t.memXM = decide (s.params.system = .altoII ∧ u.f2 = .storeMd)
      ∧ t.dwStore = false ∧ t.dwMixed = false ∧ t.memRd5 = false ∧ t.main = s.main

/-- TASK completes with TASK_SWITCH but in the first microinstruction after a switch, where it has no effect (44_f1.md R197). -/
def Obligations.TaskRow : Prop :=
  ∀ (u : Micro) (s : State), mayRun (Instr.f1Task u).micro s = true → completesWith (.f1Task u) s fun t =>
    t.completion = (if Bank.get s.firstAfterSwitch s.currentTask then .normal else .taskSwitch)
      ∧ t.wakeup = s.wakeup ∧ t.currentTask = s.currentTask ∧ t.nextTask = s.nextTask

/-- SWMODE, WRTRAM and RDRAM set the Emulator's carried flag, consuming the ones that were due, and change no bank and no
control-RAM word themselves. A due WRTRAM writes M of the start of the microinstruction and its ALU result (20_memory.md R76,
70_reset_and_hazards.md R312), and a due SWMODE moves the task to the bank the map gives, from the bank a soft reset of the same
microinstruction loads (R73, R74, R310, R306); with one ROM and one RAM bank it exchanges ROM0 and RAM0. Rests on the spec's own
decisions D25 and D27 (92_eei_decisions.md). -/
def Obligations.CarriedFlagRows : Prop :=
  ∀ (u : Micro) (s : State),
    (mayRun (Instr.f1Swmode u).micro s = true → completesWith (.f1Swmode u) s fun t =>
      Bank.get t.swModePending 0 = true ∧ Bank.get t.wrtRamPending 0 = false ∧ Bank.get t.rdRamPending 0 = false
        ∧ (Bank.get s.swModePending 0 = false → t.bank = s.bank))
    ∧ (mayRun (Instr.f1Wrtram u).micro s = true → completesWith (.f1Wrtram u) s fun t =>
      Bank.get t.wrtRamPending 0 = true ∧ Bank.get t.swModePending 0 = false ∧ Bank.get t.rdRamPending 0 = false
        ∧ (Bank.get s.wrtRamPending 0 = false → t.uram = s.uram))
    ∧ (mayRun (Instr.f1Rdram u).micro s = true → completesWith (.f1Rdram u) s fun t =>
      Bank.get t.rdRamPending 0 = true ∧ Bank.get t.swModePending 0 = false ∧ Bank.get t.wrtRamPending 0 = false)
    ∧ ∀ i : Instr, mayRun i.micro s = true → completesWith i s fun t =>
      (∀ p, cramWord s = some p → t.uram.readMicro p = (s.m ++ t.scratch.alu) ^^^ s.params.cramXor)
      ∧ (Bank.get s.swModePending s.currentTask = true →
        (let banks := if t.scratch.softReset = true then (softReset s).bank else s.bank;
          ∃ b, swModeTarget s.params (Bank.get banks s.currentTask) i.micro.next = some b
            ∧ t.bank = Bank.put banks s.currentTask b)
        ∧ (t.scratch.softReset = false → s.params.romBanks = 1 → s.params.ramBanks = 1 →
          (Bank.get s.bank s.currentTask = .rom0 → Bank.get t.bank s.currentTask = .ram0)
          ∧ (Bank.get s.bank s.currentTask = .ram0 → Bank.get t.bank s.currentTask = .rom0)))

/-- LOAD_RMR takes the whole bus and changes no bank, LOAD_ESRB takes bus bits 3:1, and RSNF ANDs the free node number (log 10) into
the low byte of the bus. Rests on the spec's own decisions D42, D43 and D47 (92_eei_decisions.md). -/
def Obligations.ControlRegisterRows : Prop :=
  ∀ (u : Micro) (s : State),
    (mayRun (Instr.f1LoadRmr u).micro s = true → completesWith (.f1LoadRmr u) s fun t =>
      t.rmr = t.scratch.busData ∧ (Bank.get s.swModePending 0 = false → t.bank = s.bank))
    ∧ (mayRun (Instr.f1LoadEsrb u).micro s = true → completesWith (.f1LoadEsrb u) s fun t =>
      t.rb = t.scratch.busData.extractLsb' 1 3)
    ∧ (mayRun (Instr.f1Rsnf u).micro s = true → completesWith (.f1Rsnf u) s fun t =>
      t.scratch.busData = sourceWord (Instr.f1Rsnf u).micro s &&& constMask (Instr.f1Rsnf u).micro s &&& cramMask s
        &&& (0xFF00#16 ||| (Config.nodeId s.ticks
          (if u.bs = .readMouse then .mouse :: s.deviceCalls else s.deviceCalls)).setWidth 16)
      ∧ DeviceCall.nodeId ∈ t.deviceCalls)

/-- STARTF: bit 15 of the bus is the soft reset of 70_reset_and_hazards.md R305, after which no `mpc` advances; any other nonzero
word is handed to the device, once; zero does nothing. Only the second calls the device. Rests on the spec's own decisions D36 and
D49 (92_eei_decisions.md). -/
def Obligations.StartfRow : Prop :=
  ∀ (u : Micro) (s : State), mayRun (Instr.f1Startf u).micro s = true → completesWith (.f1Startf u) s fun t =>
    (t.scratch.busData.getLsbD 15 = true →
      t.rmr = 0#16 ∧ t.currentTask = 0 ∧ t.nextTask = none
        ∧ (∀ k, s.params.present k = true → Bank.get t.mpc k = BitVec.ofNat 10 k.val)
        ∧ (Bank.get s.swModePending 0 = false → ∀ k, Bank.get t.bank k = if s.rmr.getLsbD k.val then .rom0 else .ram0)
        ∧ (s.params.present s.params.diskSectorTask = true →
            t.wakeup = Bank.put s.wakeup s.params.diskSectorTask true)
        ∧ ∀ d, t.deviceCalls.count (.startf d) = s.deviceCalls.count (.startf d))
    ∧ (t.scratch.busData.getLsbD 15 = false → t.scratch.busData ≠ 0#16 →
      DeviceCall.startf t.scratch.busData ∈ t.deviceCalls ∧ t.rmr = s.rmr ∧ t.wakeup = s.wakeup
        ∧ (Bank.get s.swModePending 0 = false → t.bank = s.bank)
        ∧ ∀ d, t.deviceCalls.count (.startf d)
            = s.deviceCalls.count (.startf d) + if d = t.scratch.busData then 1 else 0)
    ∧ (t.scratch.busData = 0#16 → t.rmr = s.rmr ∧ t.wakeup = s.wakeup ∧ t.currentTask = s.currentTask
        ∧ t.nextTask = s.nextTask ∧ (Bank.get s.swModePending 0 = false → t.bank = s.bank)
        ∧ ∀ d, t.deviceCalls.count (.startf d) = s.deviceCalls.count (.startf d))

/-- BLOCK of a task other than the Emulator clears its wakeup, keeps the task running and runs the block hook, whose calls are made
and whose next-address bits come too late (44_f1.md R198, 45_f2.md R225, the spec's own decision D34), and F1 codes 8 to 15 of a
task with the hook run it, its bits and its calls (R203, D52). What a hook can do is the model's reading (log 11). -/
def Obligations.BlockAndTaskF1Rows : Prop :=
  ∀ (u : Micro) (s : State),
    (mayRun (Instr.f1Block u).micro s = true → completesWith (.f1Block u) s fun t =>
      t.completion = .normal ∧ t.currentTask = s.currentTask ∧ t.wakeup = Bank.put s.wakeup s.currentTask false
        ∧ hookCalled .block s t ∧ plainNext (.f1Block u) s t)
    ∧ (mayRun (Instr.f1TaskSpecific8 u).micro s = true → completesWith (.f1TaskSpecific8 u) s (hookRan (.f1 8) s))
    ∧ (mayRun (Instr.f1TaskSpecific9 u).micro s = true → completesWith (.f1TaskSpecific9 u) s (hookRan (.f1 9) s))
    ∧ (mayRun (Instr.f1TaskSpecific10 u).micro s = true → completesWith (.f1TaskSpecific10 u) s (hookRan (.f1 10) s))
    ∧ (mayRun (Instr.f1TaskSpecific11 u).micro s = true → completesWith (.f1TaskSpecific11 u) s (hookRan (.f1 11) s))
    ∧ (mayRun (Instr.f1TaskSpecific12 u).micro s = true → completesWith (.f1TaskSpecific12 u) s (hookRan (.f1 12) s))
    ∧ (mayRun (Instr.f1TaskSpecific13 u).micro s = true → completesWith (.f1TaskSpecific13 u) s (hookRan (.f1 13) s))
    ∧ (mayRun (Instr.f1TaskSpecific14 u).micro s = true → completesWith (.f1TaskSpecific14 u) s (hookRan (.f1 14) s))
    ∧ (mayRun (Instr.f1TaskSpecific15 u).micro s = true → completesWith (.f1TaskSpecific15 u) s (hookRan (.f1 15) s))

/-! ## F2 rows -/

/-- The generic F2 functions: the bits each ORs into the next address (45_f2.md R224). Rests on the spec's own decisions D7, D60,
D61 and D62 (92_eei_decisions.md). -/
def Obligations.GenericBranchRows : Prop :=
  ∀ (u : Micro) (s : State),
    branchRow (.f2None u) s (fun _ => 0#10) (fun _ => True)
    ∧ branchRow (.f2BusEq0 u) s (fun t => if t.scratch.busData = 0#16 then 1#10 else 0#10) (fun _ => True)
    ∧ branchRow (.f2ShLt0 u) s
        (fun _ => if (shifterOut (Instr.f2ShLt0 u).micro s).1.getLsbD 15 then 1#10 else 0#10) (fun _ => True)
    ∧ branchRow (.f2ShEq0 u) s
        (fun _ => if (shifterOut (Instr.f2ShEq0 u).micro s).1 = 0#16 then 1#10 else 0#10) (fun _ => True)
    ∧ branchRow (.f2Bus u) s (fun t => t.scratch.busData.extractLsb' 0 10) (fun _ => True)
    ∧ branchRow (.f2Alucy u) s (fun _ => if s.aluC0 then 1#10 else 0#10) (fun _ => True)

/-- The Emulator's BUSODD, LOAD_IR and IDISP: their next-address bits (IDISP's from its PROM, log 8), and what LOAD_IR writes. Rests
on the spec's own decisions D44, D45 and D46 (92_eei_decisions.md). -/
def Obligations.EmulatorBranchRows : Prop :=
  ∀ (u : Micro) (s : State),
    branchRow (.f2Busodd u) s (fun t => if t.scratch.busData.getLsbD 0 then 1#10 else 0#10) (fun _ => True)
    ∧ branchRow (.f2LoadIr u) s
        (fun t => (if t.scratch.busData.getLsbD 15 then 8#10 else 0#10) ||| (t.scratch.busData.extractLsb' 8 3).setWidth 10)
        (fun t => t.ir = t.scratch.busData ∧ t.skip = (if s.params.irClearsSkip then false else s.skip))
    ∧ branchRow (.f2Idisp u) s (fun _ => idispProm s.params s.ir) (fun _ => True)

/-- ACDEST and ACSOURCE: accumulator n is the R register `(rselect & 0x1C) | (3 - n)`, and ACSOURCE dispatches on its PROM (log 8).
Rests on the spec's own decision D45 (92_eei_decisions.md). -/
def Obligations.AccumulatorRows : Prop :=
  ∀ (u : Micro) (s : State),
    branchRow (.f2Acdest u) s (fun _ => 0#10)
        (fun t => t.scratch.rSelect.toNat = u.rselect.toNat / 4 * 4 + (3 - (s.ir.extractLsb' 11 2).toNat))
    ∧ branchRow (.f2Acsource u) s (fun _ => acsourceProm s.params s.ir)
        (fun t => t.scratch.rSelect.toNat = u.rselect.toNat / 4 * 4 + (3 - (s.ir.extractLsb' 13 2).toNat))

/-- MAGIC: with a shift function the shifter brings in the matching bit of T; with none the shifter output is L. Rests on the spec's
own decisions D9 and D29 (92_eei_decisions.md). -/
def Obligations.MagicRow : Prop :=
  ∀ (u : Micro) (s : State), branchRow (.f2Magic u) s (fun _ => 0#10) fun t =>
    (u.bs = .loadR → t.r = Bank.put s.r u.rselect.toFin
      (if u.f1 = .lLsh1 then (s.l <<< 1) ||| lowBit (s.t.getLsbD 15)
        else if u.f1 = .lRsh1 then (s.l >>> 1) ||| highBit (s.t.getLsbD 0) else s.l))
    ∧ (u.bs ≠ .loadR → t.r = s.r)

/-- LOAD_DNS with the default Nova function (46_emulator.md R256, R257), its tables written out: the base carry of IR[5:4],
complemented for the functions 1, 3, 4, 5 and 6 of IR[10:8] when the old aluC0 is set, goes through the shifter with L; the
accumulator takes the shifted L and the Nova carry the carry out unless the no-load bit is set; and skip is the condition IR[2:0] on
both. Rests on the spec's own decisions D30 and D48 (92_eei_decisions.md). -/
def Obligations.LoadDnsRow : Prop :=
  ∀ (u : Micro) (s : State), s.params.emuDnsReplaced = false →
    branchRow (.f2LoadDns u) s (fun _ => 0#10) fun t =>
      let base : Bool := if s.ir.extractLsb' 4 2 = 0#2 then s.novaCarry else if s.ir.extractLsb' 4 2 = 1#2 then false
        else if s.ir.extractLsb' 4 2 = 2#2 then true else !s.novaCarry
      let cin : Bool := if (s.ir.extractLsb' 8 3).toNat ∈ [1, 3, 4, 5, 6] ∧ s.aluC0 = true then !base else base
      let sh : Word := if u.f1 = .lLsh1 then (s.l <<< 1) ||| (if cin = true then 0x0001#16 else 0#16)
        else if u.f1 = .lRsh1 then (s.l >>> 1) ||| (if cin = true then 0x8000#16 else 0#16)
        else if u.f1 = .lLcy8 then s.l.extractLsb' 0 8 ++ s.l.extractLsb' 8 8 else s.l
      let c : Bool := if u.f1 = .lLsh1 then s.l.getLsbD 15 else if u.f1 = .lRsh1 then s.l.getLsbD 0 else cin
      t.scratch.rSelect.toNat = u.rselect.toNat / 4 * 4 + (3 - (s.ir.extractLsb' 11 2).toNat)
      ∧ (s.ir.getLsbD 3 = false → t.r = Bank.put s.r t.scratch.rSelect.toFin sh ∧ t.novaCarry = c)
      ∧ (s.ir.getLsbD 3 = true → t.novaCarry = s.novaCarry ∧ (u.bs ≠ .loadR → t.r = s.r))
      ∧ (s.ir.extractLsb' 0 3 = 0#3 → t.skip = false) ∧ (s.ir.extractLsb' 0 3 = 1#3 → t.skip = true)
      ∧ (s.ir.extractLsb' 0 3 = 2#3 → t.skip = !c) ∧ (s.ir.extractLsb' 0 3 = 3#3 → t.skip = c)
      ∧ (s.ir.extractLsb' 0 3 = 4#3 → t.skip = decide (sh = 0#16))
      ∧ (s.ir.extractLsb' 0 3 = 5#3 → t.skip = decide (sh ≠ 0#16))
      ∧ (s.ir.extractLsb' 0 3 = 6#3 → t.skip = (!c || decide (sh = 0#16)))
      ∧ (s.ir.extractLsb' 0 3 = 7#3 → t.skip = (c && decide (sh ≠ 0#16)))

/-- STORE_MD writes the bus at the operation's address (20_memory.md R62): the main store, an XM bank register or a device; with
LOAD_MAR on ALTO_II it stores nothing. Rests on the spec's own decisions D14, D15, D17 and D21 (92_eei_decisions.md). -/
def Obligations.StoreMdRow : Prop :=
  ∀ (u : Micro) (s : State), branchRow (.f2StoreMd u) s (fun _ => 0#10) fun t =>
    (u.f1 = .loadMar → t.main = s.main ∧ t.xmBanks = s.xmBanks ∧ t.memXM = true)
    ∧ (u.f1 ≠ .loadMar → t.dwMixed = true
      ∧ t.dwStore = (s.dwStore || decide (s.memCycle = s.params.storeAfter + 1))
      ∧ (∀ k, xmIndex s.params (storeAddr s) = some k →
          t.main = s.main ∧ t.xmBanks = Bank.put s.xmBanks k (t.scratch.busData.extractLsb' 0 4))
      ∧ (xmIndex s.params (storeAddr s) = none → s.params.ioBase.toNat ≤ (storeAddr s).toNat →
          t.main = s.main ∧ DeviceCall.load (storeAddr s) t.scratch.busData s.memTask s.memXM ∈ t.deviceCalls)
      ∧ (xmIndex s.params (storeAddr s) = none → (storeAddr s).toNat < s.params.ioBase.toNat →
          t.main.readWord (physAddr (storeAddr s) s.memTask s.memXM s).toNat = t.scratch.busData ∧ t.xmBanks = s.xmBanks))

/-- F2 codes 8 to 15 of a task with the hook run it, its next-address bits and its calls (45_f2.md R223). What a hook can do is the
model's reading (log 11). Rests on the spec's own decision D52 (92_eei_decisions.md). -/
def Obligations.TaskF2Rows : Prop :=
  ∀ (u : Micro) (s : State),
    (mayRun (Instr.f2TaskSpecific8 u).micro s = true → completesWith (.f2TaskSpecific8 u) s (hookRan (.f2 8) s))
    ∧ (mayRun (Instr.f2TaskSpecific9 u).micro s = true → completesWith (.f2TaskSpecific9 u) s (hookRan (.f2 9) s))
    ∧ (mayRun (Instr.f2TaskSpecific10 u).micro s = true → completesWith (.f2TaskSpecific10 u) s (hookRan (.f2 10) s))
    ∧ (mayRun (Instr.f2TaskSpecific11 u).micro s = true → completesWith (.f2TaskSpecific11 u) s (hookRan (.f2 11) s))
    ∧ (mayRun (Instr.f2TaskSpecific12 u).micro s = true → completesWith (.f2TaskSpecific12 u) s (hookRan (.f2 12) s))
    ∧ (mayRun (Instr.f2TaskSpecific13 u).micro s = true → completesWith (.f2TaskSpecific13 u) s (hookRan (.f2 13) s))
    ∧ (mayRun (Instr.f2TaskSpecific14 u).micro s = true → completesWith (.f2TaskSpecific14 u) s (hookRan (.f2 14) s))
    ∧ (mayRun (Instr.f2TaskSpecific15 u).micro s = true → completesWith (.f2TaskSpecific15 u) s (hookRan (.f2 15) s))

/-! ## LT, LL and the microinstruction -/

/-- LT: T takes the ALU result for the functions of 30_encoding.md R94 (the spec's own decision D4) and the bus for every other, and
the control-RAM address register takes the ALU result; ALU_BUS_AND_T is BUS_AND_T but for this (41_alu.md R152, D4). -/
def Obligations.LoadTRow : Prop :=
  ∀ (u : Micro) (s : State), aluRow (.aluAluBusAndT u) true (fun b t _ => (b &&& t, false)) s
    ∧ (mayRun (Instr.lt u).micro s = true → completesWith (.lt u) s fun t =>
    t.t = (if u.aluf ∈ [.bus, .busOrT, .busPlus1, .busMinus1, .busPlusTPlus1, .busPlusSkip, .aluBusAndT] then t.scratch.alu
      else t.scratch.busData) ∧ t.cramAddr = t.scratch.alu)

/-- LL: L, and for the Emulator M, take the ALU result, and aluC0 the carry of this tick's ALU operation (40_cycle.md R125). -/
def Obligations.LoadLRow : Prop :=
  ∀ (u : Micro) (s : State), mayRun (Instr.ll u).micro s = true → completesWith (.ll u) s fun t =>
    t.l = t.scratch.alu ∧ t.aluC0 = t.aluCarry ∧ t.m = if s.currentTask = 0 then t.scratch.alu else s.m

/-- Any microinstruction, whatever its fields: the bus word, the R register it loads, and the next address with the modifier its
functions built (40_cycle.md R115, R121, R122, R130). With a replaced `P_EMU_DNS` the shifter and R clauses of LOAD_DNS rest on the
model's choice of log 13. Rests on the spec's own decisions D13, D31 and D63 (92_eei_decisions.md). -/
def Obligations.MicroinstructionRow : Prop :=
  ∀ (u : Micro) (s : State), mayRun u s = true → completesWith (.microinstruction u) s fun t =>
    t.scratch.busData = sourceWord u s &&& busMask u s
    ∧ (needsShifter u s = true → t.scratch.sh = (shifterOut u s).1)
    ∧ t.r = (if loadsR u s = true then Bank.put s.r (selectedR u s).toFin (shifterOut u s).1 else s.r)
    ∧ (t.scratch.softReset = false →
        t.mpc = Bank.put s.mpc s.currentTask (u.next ||| t.scratch.nextModifier)
        ∧ u.next &&& Bank.get t.mpc s.currentTask = u.next)

/-! ## Where instructions stop -/

/-- ALU codes 14 and 15 halt the machine with the code as information, after the bus was read and before anything later (41_alu.md
R154). -/
def Obligations.ReservedAluCodesHalt : Prop :=
  ∀ (u : Micro) (s : State),
    (mayReachAlu (Instr.aluReserved14 u).micro s = true →
      stopsWith (.aluReserved14 u) s .aluFn ∧ ∃ t, exec (.aluReserved14 u) s = .next t
        ∧ t.halted = some ⟨.aluFn, s.currentTask, Bank.get s.mpc s.currentTask, .code 14⟩ ∧ t.aluCarry = s.aluCarry
        ∧ t.scratch.busData = sourceWord (Instr.aluReserved14 u).micro s &&& busMask (Instr.aluReserved14 u).micro s)
    ∧ (mayReachAlu (Instr.aluReserved15 u).micro s = true →
      stopsWith (.aluReserved15 u) s .aluFn ∧ ∃ t, exec (.aluReserved15 u) s = .next t
        ∧ t.halted = some ⟨.aluFn, s.currentTask, Bank.get s.mpc s.currentTask, .code 15⟩ ∧ t.aluCarry = s.aluCarry
        ∧ t.scratch.busData = sourceWord (Instr.aluReserved15 u).micro s &&& busMask (Instr.aluReserved15 u).micro s)

/-- Codes with no function halt the machine: a task-specific code of a task without the hook (42_bus_sources.md R164, R165, 44_f1.md
R203, 45_f2.md R223, the spec's own decision D52), F1 12 and F2 15 of the Emulator (46_emulator.md R247, R258, D8, D9), and BLOCK of
the Emulator (44_f1.md R198, D34). -/
def Obligations.MissingFunctionsHalt : Prop :=
  ∀ (u : Micro) (s : State),
    (mayReachF1 (Instr.f1Reserved12 u).micro s = true → stopsWith (.f1Reserved12 u) s .f1)
    ∧ (mayReachF2 (Instr.f2Reserved15 u).micro s = true → stopsWith (.f2Reserved15 u) s .f2)
    ∧ (mayReachF1 (Instr.f1Block u).micro s = true → s.currentTask = 0 → stopsWith (.f1Block u) s .protectedTask)
    ∧ (mayStart (Instr.bsTaskSpecific1 u).micro s = true → hookAnswer s.currentTask .bs3 s = none →
      stopsWith (.bsTaskSpecific1 u) s .busSource)
    ∧ (mayStart (Instr.bsTaskSpecific2 u).micro s = true → hookAnswer s.currentTask .bs4 s = none →
      stopsWith (.bsTaskSpecific2 u) s .busSource)
    ∧ (∀ p i, (p, i) ∈ [(HookPoint.f1 8, Instr.f1TaskSpecific8 u), (.f1 9, .f1TaskSpecific9 u),
          (.f1 10, .f1TaskSpecific10 u), (.f1 11, .f1TaskSpecific11 u), (.f1 12, .f1TaskSpecific12 u),
          (.f1 13, .f1TaskSpecific13 u), (.f1 14, .f1TaskSpecific14 u), (.f1 15, .f1TaskSpecific15 u)] →
        mayReachF1 i.micro s = true → hookAnswer s.currentTask p s = none → stopsWith i s .f1)
    ∧ (∀ p i, (p, i) ∈ [(HookPoint.f2 8, Instr.f2TaskSpecific8 u), (.f2 9, .f2TaskSpecific9 u),
          (.f2 10, .f2TaskSpecific10 u), (.f2 11, .f2TaskSpecific11 u), (.f2 12, .f2TaskSpecific12 u),
          (.f2 13, .f2TaskSpecific13 u), (.f2 14, .f2TaskSpecific14 u), (.f2 15, .f2TaskSpecific15 u)] →
        mayReachF2 i.micro s = true → hookAnswer s.currentTask p s = none → stopsWith i s .f2)

/-- The memory protocol's faults, each raised by the microinstruction that makes the request (20_memory.md R61 to R64, R68). Rests
on the spec's own decisions D16, D17 and D18 (92_eei_decisions.md). -/
def Obligations.MemoryProtocolFaults : Prop :=
  ∀ (u : Micro) (s : State),
    (mayStart (Instr.bsReadMd u).micro s = true → s.dwMixed = true → stopsWith (.bsReadMd u) s .mixedRead)
    ∧ (mayStart (Instr.bsReadMd u).micro s = true → s.dwMixed = false → s.memActive = true → s.memCycle = 6 →
        s.memRd5 = false → stopsWith (.bsReadMd u) s .readLate)
    ∧ (mayReachF2 (Instr.f2StoreMd u).micro s = true → u.f1 ≠ .loadMar → s.memActive = false →
        stopsWith (.f2StoreMd u) s .storeNoOp)
    ∧ (mayReachF2 (Instr.f2StoreMd u).micro s = true → u.f1 = .loadMar → s.params.system = .altoI →
        stopsWith (.f2StoreMd u) s .storeEarly)

/-- The faults of the carried flags, raised by the microinstruction after the one that set the flag (20_memory.md R74, R76 to R78),
and the one shifter fault the Emulator can reach (43_shifter.md R189). Rests on the spec's own decisions D25, D26, D27 and D28
(92_eei_decisions.md). -/
def Obligations.DeferredFaults : Prop :=
  ∀ (i : Instr) (s : State),
    (mayStart i.micro s = true → hooksPresent (busHooks i.micro) s = true → (i.micro.bs = .readMd → mdReadable s = true) →
      Bank.get s.rdRamPending s.currentTask = true →
      (s.cramAddr.getLsbD 11 = true → stopsWith i s .cramRomRead)
      ∧ (s.cramAddr.getLsbD 11 = false → s.params.ramBanks ≤ cramBankOf s.cramAddr → stopsWith i s .cramBank))
    ∧ (mayReachAlu i.micro s = true → i.micro.aluf ≠ .reserved14 → i.micro.aluf ≠ .reserved15 →
      Bank.get s.wrtRamPending s.currentTask = true → s.cramAddr.getLsbD 11 = false →
      s.params.ramBanks ≤ cramBankOf s.cramAddr → stopsWith i s .cramBank)
    ∧ (mayReachShifter i.micro s = true → i.micro.f1 = .lLcy8 → i.micro.f2 = .magic → i.micro.bs = .loadR →
      stopsWith i s .shifterMode)
    ∧ (mayReachShifter i.micro s = true → ¬(i.micro.f1 = .lLcy8 ∧ i.micro.f2 = .magic ∧ i.micro.bs = .loadR) →
      i.micro.f1 ≠ .startf → Bank.get s.swModePending s.currentTask = true →
      swModeTarget s.params (Bank.get s.bank s.currentTask) i.micro.next = none →
      ∃ t, exec i s = .next t ∧ haltedBy .swModeUnmodelled t ∧ t.bank = s.bank ∧ t.mpc = s.mpc)

/-! ## What every instruction leaves alone -/

/-- The registers of every row, on every path: each changes only by the field that loads it. That no hook writes a register is the
model's reading (log 11), and with a replaced `P_EMU_DNS` which R register LOAD_DNS loads is its choice (log 13). Rests on the
spec's own decision D25 (92_eei_decisions.md). -/
def Obligations.RegisterFrame : Prop :=
  ∀ (i : Instr) (s t : State), exec i s = .next t →
    (i.micro.loadT = false → t.t = s.t ∧ t.cramAddr = s.cramAddr)
    ∧ (i.micro.loadL = false → t.l = s.l ∧ t.m = s.m ∧ t.aluC0 = s.aluC0)
    ∧ (s.currentTask ≠ 0 → t.m = s.m)
    ∧ (i.micro.f2 ≠ .loadIr → t.ir = s.ir)
    ∧ (i.micro.f2 ≠ .loadIr → i.micro.f2 ≠ .loadDns → t.skip = s.skip)
    ∧ (i.micro.f2 ≠ .loadDns → t.novaCarry = s.novaCarry)
    ∧ (i.micro.f1 ≠ .loadEsrb → t.rb = s.rb)
    ∧ (i.micro.f1 ≠ .loadRmr → i.micro.f1 ≠ .startf → t.rmr = s.rmr)
    ∧ (i.micro.bs ≠ .loadS → t.sStore = s.sStore)
    ∧ (∀ x : Fin 256, i.micro.bs = .loadS → x ≠ (t.rb ++ i.micro.rselect).toFin → Bank.get t.sStore x = Bank.get s.sStore x)
    ∧ (hooksOnly harmlessAction s.currentTask s = true → loadsR i.micro s = false → t.r = s.r)
    ∧ (hooksOnly harmlessAction s.currentTask s = true → ∀ x : Fin 32, x ≠ (selectedR i.micro s).toFin →
        Bank.get t.r x = Bank.get s.r x)

/-- The main store of every row, on every path: a task whose hooks leave the memory bus alone changes no byte but the two of the
word a STORE_MD stores to, `storedWord`, which is computed from the state before; a row that stores nothing changes none. Rests on
the spec's own decisions D17 and D52 (92_eei_decisions.md). -/
def Obligations.MainStoreFrame : Prop :=
  ∀ (i : Instr) (s t : State), exec i s = .next t → hooksOnly offBusAction s.currentTask s = true →
    (storedWord i.micro s = none → t.main = s.main)
    ∧ (∀ p, storedWord i.micro s = some p → ∀ a : Nat, a ≠ 2 * p → a ≠ 2 * p + 1 → t.main.readByte a = s.main.readByte a)

/-- The microcode stores and the parameters of every row, on every path and whatever the hooks: the ROM and the parameters never
change, and no byte of the control RAM but the four of the word a pending WRTRAM writes. That no hook writes them is the model's
reading (log 11). Rests on the spec's own decisions D25 and D55 (92_eei_decisions.md). -/
def Obligations.MicrocodeStoreFrame : Prop :=
  ∀ (i : Instr) (s t : State), exec i s = .next t →
    t.urom = s.urom ∧ t.params = s.params
    ∧ (cramWord s = none → t.uram = s.uram)
    ∧ (∀ p, cramWord s = some p → ∀ a : Nat, a / 4 ≠ p → t.uram.readByte a = s.uram.readByte a)

/-- The memory bus of every row, on every path, for a task whose hooks leave it alone: only LOAD_MAR starts an operation, only
READ_MD, LOAD_MAR and STORE_MD touch the flags, the cycle counter and the data latches are the bus clock's, and the XM bank
registers change by STORE_MD only. What else a hook can write is the model's reading (log 11). Rests on the spec's own decisions
D16, D17, D18 and D52 (92_eei_decisions.md). -/
def Obligations.MemoryBusFrame : Prop :=
  ∀ (i : Instr) (s t : State), exec i s = .next t → hooksOnly offBusAction s.currentTask s = true →
    t.memData = s.memData ∧ t.memData2 = s.memData2
    ∧ (i.micro.f1 ≠ .loadMar → t.memActive = s.memActive ∧ t.memCycle = s.memCycle ∧ t.memAddr = s.memAddr
        ∧ t.memTask = s.memTask ∧ t.memXM = s.memXM)
    ∧ (i.micro.f1 ≠ .loadMar → i.micro.f2 ≠ .storeMd → t.dwStore = s.dwStore ∧ t.dwMixed = s.dwMixed)
    ∧ (i.micro.f1 ≠ .loadMar → i.micro.bs ≠ .readMd → t.memRd5 = s.memRd5)
    ∧ (i.micro.f2 ≠ .storeMd → t.xmBanks = s.xmBanks)

/-- The tasks' own state of every row, on every path: another task's micro-program counter, bank, carried flags and
first-after-switch flag change only by a soft reset (its STARTF) or a carried flag the Emulator sets; no row but STARTF changes
which task runs; wakeups change by BLOCK and STARTF only, since a hook's calls wait for the end of the tick (R279, D41). That no
hook writes these is the model's reading (log 11), and the last clause is about its own fields (logs 15 and 20). Rests on the spec's
own decisions D36, D52 and D57 (92_eei_decisions.md). -/
def Obligations.TaskStateFrame : Prop :=
  ∀ (i : Instr) (s t : State), exec i s = .next t →
    (i.micro.f1 ≠ .startf → t.currentTask = s.currentTask ∧ t.nextTask = s.nextTask
      ∧ ∀ k, k ≠ s.currentTask → Bank.get t.mpc k = Bank.get s.mpc k ∧ Bank.get t.bank k = Bank.get s.bank k)
    ∧ (Bank.get s.swModePending s.currentTask = false → i.micro.f1 ≠ .startf → t.bank = s.bank)
    ∧ (∀ k, k ≠ s.currentTask → Bank.get t.firstAfterSwitch k = Bank.get s.firstAfterSwitch k)
    ∧ (∀ k, k ≠ s.currentTask → k ≠ 0 → Bank.get t.rdRamPending k = Bank.get s.rdRamPending k
        ∧ Bank.get t.wrtRamPending k = Bank.get s.wrtRamPending k ∧ Bank.get t.swModePending k = Bank.get s.swModePending k)
    ∧ (i.micro.f1 ≠ .block → i.micro.f1 ≠ .startf → t.wakeup = s.wakeup)
    ∧ (i.micro.f1 = .block → ∀ k, k ≠ s.currentTask → Bank.get t.wakeup k = Bank.get s.wakeup k)
    ∧ t.external = s.external ∧ t.ticks = s.ticks

/-- Only the Emulator reaches the S store, M, IR, `rb`, `rmr`, its flip-flops, the control RAM and the banks (46_emulator.md R235):
whatever its hooks do, a tick of another task that has no carried flag due leaves them all alone. That no hook writes them is the
model's reading (log 11). Rests on the spec's own decisions D8, D9, D10 and D52 (92_eei_decisions.md). -/
def Obligations.OtherTasksKeepEmulatorState : Prop :=
  ∀ s t : State, Inv s → s.currentTask ≠ 0 → step s = .next t →
    t.sStore = s.sStore ∧ t.m = s.m ∧ t.ir = s.ir ∧ t.rb = s.rb ∧ t.rmr = s.rmr ∧ t.skip = s.skip ∧ t.novaCarry = s.novaCarry
      ∧ t.uram = s.uram ∧ t.bank = s.bank ∧ t.rdRamPending = s.rdRamPending ∧ t.wrtRamPending = s.wrtRamPending
      ∧ t.swModePending = s.swModePending ∧ Bank.get t.mpc 0 = Bank.get s.mpc 0

/-! ## Invariants and reset -/

/-- Every step keeps the invariant (`Inv`, Sys2Proof/Safety.lean): stores in the model's canonical form (logs 3 to 6) within their
sizes, the memory counter in 1..6, the Emulator woken, current and pending tasks that exist, carried flags of the Emulator only.
What a hook can write is the model's reading (log 11). Rests on the spec's own decisions D16, D18, D37 and D38
(92_eei_decisions.md). -/
def Obligations.StepKeepsInvariant : Prop :=
  ∀ s t : State, Inv s → step s = .next t → Inv t

/-- The machine after reset meets the invariant. Rests on the spec's own decisions D16, D37 and D38 (92_eei_decisions.md). -/
def Obligations.ResetMeetsInvariant : Prop := Inv State.reset

/-- After reset with the default hooks (70_reset_and_hazards.md R301). Rests on the spec's own decision D37
(92_eei_decisions.md). -/
def Obligations.ResetSelectsEmulator : Prop :=
  State.reset.currentTask = 0 ∧ Bank.get State.reset.mpc 0 = 0#10 ∧ Bank.get State.reset.bank 0 = .rom0
    ∧ State.reset.nextTask = none ∧ State.reset.rmr = 0xFFFF#16

/-- The power-up reset of any state (R300, R307, 10_state.md R45). Whatever the hooks do at reset, one that no fault ends leaves the
registers, the carries, `rmr`, the banks, the tasks' seeds and flags, the memory bus and `nextTask` at their values of R45 and the
scan's winner current; with no hook at reset it leaves the state after reset, so that only the Emulator is woken and it runs. The
stores, the parameters and the model's own fields are kept. The model's own choices in it: logs 9, 12, 15 and 20 for those fields,
11 for what a hook can write, 18 for the completion code, 19 for the scratch, 24 for the tasks that do not exist and 30 for the
order of the hooks. Rests on the spec's own decision D37 (92_eei_decisions.md). -/
def Obligations.PowerUpReset : Prop :=
  ∀ s : State,
    ((powerUp s).halted = none →
      (let t := powerUp s;
        t.t = 0#16 ∧ t.l = 0#16 ∧ t.m = 0#16 ∧ t.ir = 0#16 ∧ t.rb = 0#3 ∧ t.cramAddr = 0#16
        ∧ (∀ i, Bank.get t.r i = 0#16) ∧ (∀ i, Bank.get t.sStore i = 0#16)
        ∧ t.aluCarry = false ∧ t.aluC0 = false ∧ t.skip = false ∧ t.novaCarry = false ∧ t.rmr = 0xFFFF#16
        ∧ (∀ k, Bank.get t.bank k = .rom0 ∧ Bank.get t.mpc k = BitVec.ofNat 10 k.val
          ∧ Bank.get t.firstAfterSwitch k = false ∧ Bank.get t.rdRamPending k = false
          ∧ Bank.get t.wrtRamPending k = false ∧ Bank.get t.swModePending k = false)
        ∧ t.memActive = false ∧ t.memCycle = 1 ∧ t.memAddr = 0#16 ∧ t.memData = 0#16 ∧ t.memData2 = 0#16
        ∧ t.dwStore = false ∧ t.dwMixed = false ∧ t.memXM = false ∧ t.memTask = 0 ∧ t.memRd5 = false
        ∧ t.scratch.shift = ⟨.none, 0, false, false, false⟩
        ∧ t.nextTask = none ∧ t.currentTask = highestWoken t
        ∧ t.urom = s.urom ∧ t.uram = s.uram ∧ t.params = s.params))
    ∧ ((∀ e ∈ s.params.hooks, e.point ≠ .reset) →
      (powerUp s).halted = none ∧ (powerUp s).currentTask = 0
      ∧ (∀ k, Bank.get (powerUp s).wakeup k = decide (k = 0) ∧ Bank.get (powerUp s).xmBanks k = 0#4)
      ∧ powerUp s = { State.reset with
          main := s.main, urom := s.urom, uram := s.uram, params := s.params
          external := s.external, deviceCalls := s.deviceCalls, ticks := s.ticks })

/-- The soft reset (R305): banks from `rmr`, `rmr` cleared, every existing task at its seed address, the Emulator current, the Disk
Sector task woken if it exists, and nothing else changed. Rests on the spec's own decision D36 (92_eei_decisions.md). -/
def Obligations.SoftResetEffect : Prop :=
  ∀ s : State,
    (∀ k, Bank.get (softReset s).bank k = if s.rmr.getLsbD k.val then .rom0 else .ram0)
    ∧ (softReset s).rmr = 0#16
    ∧ (∀ k, s.params.present k = true → Bank.get (softReset s).mpc k = BitVec.ofNat 10 k.val)
    ∧ (softReset s).currentTask = 0 ∧ (softReset s).nextTask = none
    ∧ (∀ k, Bank.get (softReset s).wakeup k
        = (Bank.get s.wakeup k || (decide (k = s.params.diskSectorTask) && s.params.present k)))
    ∧ (∀ k, Bank.get (softReset (softReset s)).bank k = .ram0)
    ∧ { softReset s with
        bank := s.bank, rmr := s.rmr, mpc := s.mpc, currentTask := s.currentTask, nextTask := s.nextTask
        wakeup := s.wakeup } = s

/-! ## The data space and the memory bus -/

/-- A word written through the memory bus is what the next read of the same address gives, for the main store and, of its low four
bits, for an XM bank register; every other word of the main store, in whichever bank, is unchanged (20_memory.md R52, R53). Rests on
the spec's own decisions D20 and D21 (92_eei_decisions.md). -/
def Obligations.DataSpaceReadAfterWrite : Prop :=
  ∀ (s : State) (a v : Word),
    (xmIndex s.params a = none → a.toNat < s.params.ioBase.toNat → (memRead a (memWrite a v s)).1 = v
      ∧ (∀ p : Nat, p ≠ (physAddr a s.memTask s.memXM s).toNat →
          (memWrite a v s).main.readWord p = s.main.readWord p)
      ∧ ∀ b : Word, xmIndex s.params b = none → b.toNat < s.params.ioBase.toNat → b ≠ a →
          (memRead b (memWrite a v s)).1 = (memRead b s).1)
    ∧ (∀ k, xmIndex s.params a = some k →
        (memRead a (memWrite a v s)).1 = s.params.xmReadFill ||| (v &&& 0x000F#16)
        ∧ (memWrite a v s).main = s.main
        ∧ ∀ j, j ≠ k → Bank.get (memWrite a v s).xmBanks j = Bank.get s.xmBanks j)

/-- The physical word address (R54). Rests on the spec's own decision D20 (92_eei_decisions.md). -/
def Obligations.PhysicalAddress : Prop :=
  ∀ (a : Word) (k : TaskNum) (xm : Bool) (s : State),
    (s.params.system = .altoI → (physAddr a k xm s).toNat = a.toNat)
    ∧ (s.params.system = .altoII → xm = true →
        (physAddr a k xm s).toNat = (Bank.get s.xmBanks k).toNat % 4 * 65536 + a.toNat)
    ∧ (s.params.system = .altoII → xm = false →
        (physAddr a k xm s).toNat = (Bank.get s.xmBanks k).toNat / 4 * 65536 + a.toNat)

/-- The bus timeline of an operation on two main-store words with nothing stored (R58, R59, R65): after n bus clocks the cycle is n
+ 1, the sixth ends it, the first word is latched from the fourth clock on and its partner from the fifth, and each kind of request
is ready in the cycles of the table. Rests on the spec's own decision D16 (92_eei_decisions.md). -/
def Obligations.BusTimeline : Prop :=
  ∀ (s : State) (a : Word) (k : TaskNum) (xm : Bool), s.memActive = false → s.params.readAfter = 4 →
    xmIndex s.params a = none → a.toNat < s.params.ioBase.toNat →
    xmIndex s.params (partner a) = none → (partner a).toNat < s.params.ioBase.toNat →
    ∀ n : Nat, n ≤ 6 →
      let t := (busClock^[n]) (loadMar a k xm s)
      t.memActive = decide (n < 6) ∧ (n < 6 → t.memCycle = n + 1)
      ∧ (4 ≤ n → t.memData = s.main.readWord (physAddr a k xm s).toNat)
      ∧ (5 ≤ n → t.memData2 = s.main.readWord (physAddr (partner a) k xm s).toNat)
      ∧ readyLoadAddress t = decide (n = 6) ∧ readyRead t = decide (4 ≤ n)
      ∧ readyStore t = decide ((if s.params.system = .altoII then 2 else 4) ≤ n)
      ∧ t.main = s.main ∧ t.halted = s.halted

/-- A double-word store (R62): a store in cycle F and one in the next cycle write the two words of the pair, whichever of the two
the operation was started with, and no other word. Rests on the spec's own decisions D17, D18 and D24 (92_eei_decisions.md). -/
def Obligations.DoubleWordStore : Prop :=
  ∀ (s : State) (v w : Word), s.memActive = true → s.memCycle = s.params.storeAfter + 1 →
    xmIndex s.params s.memAddr = none → s.memAddr.toNat < s.params.ioBase.toNat →
    xmIndex s.params (partner s.memAddr) = none → (partner s.memAddr).toNat < s.params.ioBase.toNat → s.dwStore = false →
    let t := storeMd w (busClock (storeMd v s))
    t.halted = s.halted ∧ t.dwStore = true ∧ t.dwMixed = true
    ∧ t.main.readWord (physAddr s.memAddr s.memTask s.memXM s).toNat = v
    ∧ t.main.readWord (physAddr (partner s.memAddr) s.memTask s.memXM s).toNat = w
    ∧ ∀ p, p ≠ (physAddr s.memAddr s.memTask s.memXM s).toNat →
        p ≠ (physAddr (partner s.memAddr) s.memTask s.memXM s).toNat → t.main.readWord p = s.main.readWord p

/-! ## The shifter -/

/-- Rotating left and then right by the same count, or the other way, gives the word back; counts 0 and 16 leave it unchanged
(43_shifter.md R193). Rests on the spec's own decision D58 (92_eei_decisions.md). -/
def Obligations.RotatesAreInverse : Prop :=
  ∀ (x : Word) (c : Nat), c ≤ 16 →
    rotR (rotL x c) c = x ∧ rotL (rotR x c) c = x
    ∧ rotL x 0 = x ∧ rotR x 0 = x ∧ rotL x 16 = x ∧ rotR x 16 = x

/-- The Nova shifts are 17-bit rotates of the carry and the word by one, and undo each other (R182, R183). Rests on the spec's own
decision D30 (92_eei_decisions.md). -/
def Obligations.NovaShiftsRotateThroughCarry : Prop :=
  ∀ (x t : Word) (c : Bool),
    (∃ y d, shift ⟨.shiftLeft, 1, false, true, c⟩ x t = .ok (y, d)
      ∧ BitVec.ofBool d ++ y = (BitVec.ofBool c ++ x).rotateLeft 1
      ∧ shift ⟨.shiftRight, 1, false, true, d⟩ y t = .ok (x, c))
    ∧ ∃ y d, shift ⟨.shiftRight, 1, false, true, c⟩ x t = .ok (y, d)
      ∧ BitVec.ofBool d ++ y = (BitVec.ofBool c ++ x).rotateRight 1

/-- When the shifter faults, and with what (R194): NONE never; magic with DNS; a magic shift or a DNS shift by a count other than 1;
a magic rotate; DNS with ROTATE_RIGHT. Rests on the spec's own decision D28 (92_eei_decisions.md). -/
def Obligations.ShifterFaults : Prop :=
  ∀ (g : ShiftConfig) (x t : Word),
    (shift g x t = .error .magicCount ↔
      (g.op = .shiftLeft ∨ g.op = .shiftRight) ∧ g.magic = true ∧ g.dns = false ∧ g.count ≠ 1)
    ∧ (shift g x t = .error .dnsRotateRight ↔ g.op = .rotateRight ∧ g.dns = true ∧ g.magic = false)
    ∧ (shift g x t = .error .shifterMode ↔
      (g.op ≠ .none ∧ g.magic = true ∧ g.dns = true)
        ∨ ((g.op = .shiftLeft ∨ g.op = .shiftRight) ∧ g.magic = false ∧ g.dns = true ∧ g.count ≠ 1)
        ∨ ((g.op = .rotateLeft ∨ g.op = .rotateRight) ∧ g.magic = true ∧ g.dns = false))
    ∧ (∀ f, shift g x t = .error f → f = .magicCount ∨ f = .dnsRotateRight ∨ f = .shifterMode)

/-! ## The scheduler and the control RAM -/

/-- The scan picks the highest-numbered woken task that exists (60_exceptions.md R276, R281). -/
def Obligations.ScanPicksHighestWoken : Prop :=
  ∀ s : State, Bank.get s.wakeup 0 = true →
    s.params.present (highestWoken s) = true ∧ Bank.get s.wakeup (highestWoken s) = true
    ∧ ∀ k, s.params.present k = true → Bank.get s.wakeup k = true → k ≤ highestWoken s

/-- The scheduler (R276, R277): TASK_SWITCH names the scan's winner and switches nothing; MEMORY_WAIT does nothing; NORMAL switches
to a pending target whoever it is, marks it as just switched to, and does nothing without one. That the switch waits for the next
NORMAL follows R276 against the example of 44_f1.md R197 (log 34). Rests on the spec's own decisions D35 and D59
(92_eei_decisions.md). -/
def Obligations.SchedulerSwitches : Prop :=
  ∀ s : State,
    (s.completion = .taskSwitch → schedule s = { s with nextTask := some (highestWoken s) })
    ∧ (s.completion = .memoryWait → schedule s = s)
    ∧ (s.completion = .normal → s.nextTask = none → schedule s = s)
    ∧ (∀ k, s.completion = .normal → s.nextTask = some k → (∀ e ∈ s.params.hooks, e.point ≠ .onTaskSwitch) →
        (schedule s).currentTask = k ∧ (schedule s).nextTask = none
        ∧ (∀ j, Bank.get (schedule s).firstAfterSwitch j = if j = k then true else Bank.get s.firstAfterSwitch j)
        ∧ (schedule s).t = s.t ∧ (schedule s).l = s.l ∧ (schedule s).r = s.r ∧ (schedule s).mpc = s.mpc)

/-- Waking and blocking a task (R279): the Emulator and an absent task fault, any other task's wakeup is set or cleared and nothing
else changes. A call a hook makes in a tick changes no wakeup; it waits for the end of the tick, where the calls are applied in the
order made and the last call on a task decides. Calls of hooks come before the environment's there: the model's choice (logs 12 and
15). Rests on the spec's own decisions D41 and D57 (92_eei_decisions.md). -/
def Obligations.WakeAndBlock : Prop :=
  ∀ (s : State) (k : TaskNum),
    haltedBy .protectedTask (wakeupTask 0 s) ∧ haltedBy .protectedTask (blockTask 0 s)
    ∧ (k ≠ 0 → s.params.present k = false → haltedBy .noTask (wakeupTask k s) ∧ haltedBy .noTask (blockTask k s))
    ∧ (k ≠ 0 → s.params.present k = true → wakeupTask k s = { s with wakeup := Bank.put s.wakeup k true }
        ∧ blockTask k s = { s with wakeup := Bank.put s.wakeup k false })
    ∧ (∀ (j : TaskNum) (p : HookPoint), p ≠ .reset →
        hookAction j p (.wakeupTask k) s = { s with hookCalls := s.hookCalls ++ [.wakeupTask k] }
        ∧ hookAction j p (.blockTask k) s = { s with hookCalls := s.hookCalls ++ [.blockTask k] })
    ∧ (s.halted = none → (∀ c ∈ callsDue s, callTask c ≠ 0 ∧ s.params.present (callTask c) = true) →
        Bank.get (applyExternal s).wakeup k
          = (((callsDue s).filter fun c => callTask c == k).getLast?.map callWakes).getD (Bank.get s.wakeup k)
        ∧ applyExternal s = { s with
            wakeup := (applyExternal s).wakeup, hookCalls := [], external := s.external.tail })

/-- A task switch is deferred by one microinstruction (70_reset_and_hazards.md R313): in the tick whose microinstruction completes
TASK_SWITCH, and in every tick that returns MEMORY_WAIT, the current task stays, whatever the devices wake or block in it. The
example of 44_f1.md R197 reads otherwise: the model's choice (log 34). -/
def Obligations.TaskSwitchIsDeferred : Prop :=
  ∀ (s t : State) (i : Instr), s.halted = none → fetch (startTick s) = some i → exec i (startTick s) = .next t →
    t.halted = none →
    (t.completion = .taskSwitch → i.micro.f1 ≠ .startf →
      ∃ v, step s = .next v ∧ v.currentTask = s.currentTask ∧ v.nextTask = some (highestWoken t))
    ∧ (t.completion = .memoryWait →
      ∃ v, step s = .next v ∧ v.currentTask = s.currentTask ∧ v.nextTask = s.nextTask ∧ v.mpc = s.mpc
        ∧ v.firstAfterSwitch = s.firstAfterSwitch)

/-- A word written to the control RAM is what the next fetch from that address of that bank gives (20_memory.md R76, R80), and what
a control-RAM read gives, half by half (R77). Rests on the spec's own decisions D25 and D26 (92_eei_decisions.md). -/
def Obligations.ControlRamReadAfterWrite : Prop :=
  ∀ (s : State) (alu mPrev : Word), s.cramAddr.getLsbD 11 = false → cramBankOf s.cramAddr < s.params.ramBanks →
    (∀ b, bankParts b = (false, cramBankOf s.cramAddr) →
      uFetch b (s.cramAddr.extractLsb' 0 10) (cramWrite alu mPrev s) = some ((mPrev ++ alu) ^^^ s.params.cramXor))
    ∧ (s.cramAddr.getLsbD 10 = true → cramRead (cramWrite alu mPrev s) = .ok mPrev)
    ∧ (s.cramAddr.getLsbD 10 = false → cramRead (cramWrite alu mPrev s) = .ok alu)
end

