-- ==== Sys2Proof/Laws/Banks.lean ====
section
/-! SUPPORT. The laws of a bank of cells: a read after a write, and the cells of a tabulated bank. -/

namespace Sys2Proof

@[simp] theorem Bank.get_put_same {α : Type} {n : Nat} (v : Vector α n) (i : Fin n) (x : α) :
    Bank.get (Bank.put v i x) i = x := by
  simp [Bank.get, Bank.put]

theorem Bank.get_put_other {α : Type} {n : Nat} (v : Vector α n) (i j : Fin n) (x : α) (h : j ≠ i) :
    Bank.get (Bank.put v i x) j = Bank.get v j := by
  have : i.val ≠ j.val := fun e => h (Fin.ext e.symm)
  simp [Bank.get, Bank.put, this]

/-- A read after a write, both cases at once. -/
theorem Bank.get_put {α : Type} {n : Nat} (v : Vector α n) (i j : Fin n) (x : α) :
    Bank.get (Bank.put v i x) j = if j = i then x else Bank.get v j := by
  by_cases h : j = i
  · rw [h, if_pos rfl, Bank.get_put_same]
  · rw [if_neg h, Bank.get_put_other _ _ _ _ h]

@[simp] theorem Bank.get_replicate {α : Type} {n : Nat} (x : α) (i : Fin n) : Bank.get (Vector.replicate n x) i = x := by
  simp [Bank.get]

@[simp] theorem Bank.get_tabulate {α : Type} (f : TaskNum → α) (i : TaskNum) :
    Bank.get (PerTask.tabulate f) i = f i := by
  fin_cases i <;> rfl

/-- Banks with the same cells are the same data. -/
theorem Bank.ext {α : Type} {n : Nat} (v w : Vector α n) (h : ∀ i, Bank.get v i = Bank.get w i) : v = w := by
  apply Vector.ext
  intro i hi
  exact h ⟨i, hi⟩

end Sys2Proof
end

