-- ==== Sys2Proof/Laws/Phases.lean ====
section
/-! SUPPORT. The laws of running phases in order: a fault ends the run, what every phase keeps the run keeps, and a run that
is not halted went through every phase. -/

namespace Sys2Proof.Machine

theorem runPhases_nil (s : State) : runPhases [] s = s := rfl

theorem runPhases_cons (f : State → State) (fs : List (State → State)) (s : State) :
    runPhases (f :: fs) s = if (f s).halted = none then runPhases fs (f s) else f s := by
  show (match (f s).halted with | none => runPhases fs (f s) | some _ => f s) = _
  split <;> simp_all

/-- A phase that does not fault hands its state on. -/
theorem runPhases_cons_of_running (f : State → State) (fs : List (State → State)) (s : State) (h : (f s).halted = none) :
    runPhases (f :: fs) s = runPhases fs (f s) := by
  rw [runPhases_cons, if_pos h]

/-- A phase that faults ends the run. -/
theorem runPhases_cons_of_halted (f : State → State) (fs : List (State → State)) (s : State) (h : (f s).halted ≠ none) :
    runPhases (f :: fs) s = f s := by
  rw [runPhases_cons, if_neg h]

/-- What every phase keeps, the run keeps. -/
theorem runPhases_keeps (P : State → Prop) (fs : List (State → State)) (hf : ∀ f ∈ fs, ∀ s, P s → P (f s)) (s : State)
    (h : P s) : P (runPhases fs s) := by
  induction fs generalizing s with
  | nil => exact h
  | cons f fs ih =>
    rw [runPhases_cons]
    have hfs := hf f (by simp) s h
    split
    · exact ih (fun g hg => hf g (by simp [hg])) _ hfs
    · exact hfs

/-- What every phase keeps while the machine runs, the run keeps. -/
theorem runPhases_keeps_running (P : State → Prop) (fs : List (State → State))
    (hf : ∀ f ∈ fs, ∀ s, s.halted = none → P s → P (f s)) (s : State) (hs : s.halted = none) (h : P s) :
    P (runPhases fs s) := by
  induction fs generalizing s with
  | nil => exact h
  | cons f fs ih =>
    rw [runPhases_cons]
    have hfs := hf f (by simp) s hs h
    split
    · rename_i hn
      exact ih (fun g hg => hf g (by simp [hg])) _ hn hfs
    · exact hfs

/-- A run of phases one after another. -/
theorem runPhases_append (fs gs : List (State → State)) (s : State) (hs : s.halted = none) :
    runPhases (fs ++ gs) s
      = if (runPhases fs s).halted = none then runPhases gs (runPhases fs s) else runPhases fs s := by
  induction fs generalizing s with
  | nil => rw [List.nil_append, runPhases_nil, if_pos hs]
  | cons f fs ih =>
    rw [List.cons_append, runPhases_cons, runPhases_cons]
    by_cases h : (f s).halted = none
    · rw [if_pos h, if_pos h, ih _ h]
    · rw [if_neg h, if_neg h, if_neg h]

/-- A run that is not halted went through every phase. -/
theorem runPhases_split (fs : List (State → State)) (f : State → State) (gs : List (State → State)) (s : State)
    (hs : s.halted = none) (h : (runPhases (fs ++ f :: gs) s).halted = none) :
    (runPhases fs s).halted = none ∧ (f (runPhases fs s)).halted = none
      ∧ runPhases (fs ++ f :: gs) s = runPhases gs (f (runPhases fs s)) := by
  rw [runPhases_append _ _ _ hs] at h ⊢
  by_cases h1 : (runPhases fs s).halted = none
  · rw [if_pos h1, runPhases_cons] at h ⊢
    by_cases h2 : (f (runPhases fs s)).halted = none
    · exact ⟨h1, h2, by rw [if_pos h2]⟩
    · rw [if_neg h2] at h
      exact absurd h h2
  · rw [if_neg h1] at h
    exact absurd h h1

end Sys2Proof.Machine
end

