-- ==== Sys2Proof/Laws/State.lean ====
section
/-! SUPPORT. One lemma per field per update of the state, true by rfl: what a change of the scratch, of the bus, of the
next-address modifier, of the device log, of the halt record and of the queued calls leaves alone. -/

namespace Sys2Proof.Machine

/-! ## `onScratch` -/

@[simp] theorem State.onScratch_t (s : State) (f : Scratch → Scratch) : (s.onScratch f).t = s.t := rfl
@[simp] theorem State.onScratch_l (s : State) (f : Scratch → Scratch) : (s.onScratch f).l = s.l := rfl
@[simp] theorem State.onScratch_m (s : State) (f : Scratch → Scratch) : (s.onScratch f).m = s.m := rfl
@[simp] theorem State.onScratch_ir (s : State) (f : Scratch → Scratch) : (s.onScratch f).ir = s.ir := rfl
@[simp] theorem State.onScratch_r (s : State) (f : Scratch → Scratch) : (s.onScratch f).r = s.r := rfl
@[simp] theorem State.onScratch_sStore (s : State) (f : Scratch → Scratch) : (s.onScratch f).sStore = s.sStore := rfl
@[simp] theorem State.onScratch_rb (s : State) (f : Scratch → Scratch) : (s.onScratch f).rb = s.rb := rfl
@[simp] theorem State.onScratch_aluCarry (s : State) (f : Scratch → Scratch) : (s.onScratch f).aluCarry = s.aluCarry := rfl
@[simp] theorem State.onScratch_aluC0 (s : State) (f : Scratch → Scratch) : (s.onScratch f).aluC0 = s.aluC0 := rfl
@[simp] theorem State.onScratch_skip (s : State) (f : Scratch → Scratch) : (s.onScratch f).skip = s.skip := rfl
@[simp] theorem State.onScratch_novaCarry (s : State) (f : Scratch → Scratch) : (s.onScratch f).novaCarry = s.novaCarry := rfl
@[simp] theorem State.onScratch_rmr (s : State) (f : Scratch → Scratch) : (s.onScratch f).rmr = s.rmr := rfl
@[simp] theorem State.onScratch_bank (s : State) (f : Scratch → Scratch) : (s.onScratch f).bank = s.bank := rfl
@[simp] theorem State.onScratch_cramAddr (s : State) (f : Scratch → Scratch) : (s.onScratch f).cramAddr = s.cramAddr := rfl
@[simp] theorem State.onScratch_xmBanks (s : State) (f : Scratch → Scratch) : (s.onScratch f).xmBanks = s.xmBanks := rfl
@[simp] theorem State.onScratch_mpc (s : State) (f : Scratch → Scratch) : (s.onScratch f).mpc = s.mpc := rfl
@[simp] theorem State.onScratch_wakeup (s : State) (f : Scratch → Scratch) : (s.onScratch f).wakeup = s.wakeup := rfl
@[simp] theorem State.onScratch_firstAfterSwitch (s : State) (f : Scratch → Scratch) : (s.onScratch f).firstAfterSwitch = s.firstAfterSwitch := rfl
@[simp] theorem State.onScratch_currentTask (s : State) (f : Scratch → Scratch) : (s.onScratch f).currentTask = s.currentTask := rfl
@[simp] theorem State.onScratch_nextTask (s : State) (f : Scratch → Scratch) : (s.onScratch f).nextTask = s.nextTask := rfl
@[simp] theorem State.onScratch_rdRamPending (s : State) (f : Scratch → Scratch) : (s.onScratch f).rdRamPending = s.rdRamPending := rfl
@[simp] theorem State.onScratch_wrtRamPending (s : State) (f : Scratch → Scratch) : (s.onScratch f).wrtRamPending = s.wrtRamPending := rfl
@[simp] theorem State.onScratch_swModePending (s : State) (f : Scratch → Scratch) : (s.onScratch f).swModePending = s.swModePending := rfl
@[simp] theorem State.onScratch_memActive (s : State) (f : Scratch → Scratch) : (s.onScratch f).memActive = s.memActive := rfl
@[simp] theorem State.onScratch_memCycle (s : State) (f : Scratch → Scratch) : (s.onScratch f).memCycle = s.memCycle := rfl
@[simp] theorem State.onScratch_memAddr (s : State) (f : Scratch → Scratch) : (s.onScratch f).memAddr = s.memAddr := rfl
@[simp] theorem State.onScratch_memData (s : State) (f : Scratch → Scratch) : (s.onScratch f).memData = s.memData := rfl
@[simp] theorem State.onScratch_memData2 (s : State) (f : Scratch → Scratch) : (s.onScratch f).memData2 = s.memData2 := rfl
@[simp] theorem State.onScratch_dwStore (s : State) (f : Scratch → Scratch) : (s.onScratch f).dwStore = s.dwStore := rfl
@[simp] theorem State.onScratch_dwMixed (s : State) (f : Scratch → Scratch) : (s.onScratch f).dwMixed = s.dwMixed := rfl
@[simp] theorem State.onScratch_memXM (s : State) (f : Scratch → Scratch) : (s.onScratch f).memXM = s.memXM := rfl
@[simp] theorem State.onScratch_memTask (s : State) (f : Scratch → Scratch) : (s.onScratch f).memTask = s.memTask := rfl
@[simp] theorem State.onScratch_memRd5 (s : State) (f : Scratch → Scratch) : (s.onScratch f).memRd5 = s.memRd5 := rfl
@[simp] theorem State.onScratch_main (s : State) (f : Scratch → Scratch) : (s.onScratch f).main = s.main := rfl
@[simp] theorem State.onScratch_urom (s : State) (f : Scratch → Scratch) : (s.onScratch f).urom = s.urom := rfl
@[simp] theorem State.onScratch_uram (s : State) (f : Scratch → Scratch) : (s.onScratch f).uram = s.uram := rfl
@[simp] theorem State.onScratch_halted (s : State) (f : Scratch → Scratch) : (s.onScratch f).halted = s.halted := rfl
@[simp] theorem State.onScratch_scratch (s : State) (f : Scratch → Scratch) : (s.onScratch f).scratch = f s.scratch := rfl
@[simp] theorem State.onScratch_completion (s : State) (f : Scratch → Scratch) : (s.onScratch f).completion = s.completion := rfl
@[simp] theorem State.onScratch_params (s : State) (f : Scratch → Scratch) : (s.onScratch f).params = s.params := rfl
@[simp] theorem State.onScratch_external (s : State) (f : Scratch → Scratch) : (s.onScratch f).external = s.external := rfl
@[simp] theorem State.onScratch_hookCalls (s : State) (f : Scratch → Scratch) : (s.onScratch f).hookCalls = s.hookCalls := rfl
@[simp] theorem State.onScratch_deviceCalls (s : State) (f : Scratch → Scratch) : (s.onScratch f).deviceCalls = s.deviceCalls := rfl
@[simp] theorem State.onScratch_ticks (s : State) (f : Scratch → Scratch) : (s.onScratch f).ticks = s.ticks := rfl

/-! ## `setBus` -/

@[simp] theorem State.setBus_t (s : State) (w : Word) : (s.setBus w).t = s.t := rfl
@[simp] theorem State.setBus_l (s : State) (w : Word) : (s.setBus w).l = s.l := rfl
@[simp] theorem State.setBus_m (s : State) (w : Word) : (s.setBus w).m = s.m := rfl
@[simp] theorem State.setBus_ir (s : State) (w : Word) : (s.setBus w).ir = s.ir := rfl
@[simp] theorem State.setBus_r (s : State) (w : Word) : (s.setBus w).r = s.r := rfl
@[simp] theorem State.setBus_sStore (s : State) (w : Word) : (s.setBus w).sStore = s.sStore := rfl
@[simp] theorem State.setBus_rb (s : State) (w : Word) : (s.setBus w).rb = s.rb := rfl
@[simp] theorem State.setBus_aluCarry (s : State) (w : Word) : (s.setBus w).aluCarry = s.aluCarry := rfl
@[simp] theorem State.setBus_aluC0 (s : State) (w : Word) : (s.setBus w).aluC0 = s.aluC0 := rfl
@[simp] theorem State.setBus_skip (s : State) (w : Word) : (s.setBus w).skip = s.skip := rfl
@[simp] theorem State.setBus_novaCarry (s : State) (w : Word) : (s.setBus w).novaCarry = s.novaCarry := rfl
@[simp] theorem State.setBus_rmr (s : State) (w : Word) : (s.setBus w).rmr = s.rmr := rfl
@[simp] theorem State.setBus_bank (s : State) (w : Word) : (s.setBus w).bank = s.bank := rfl
@[simp] theorem State.setBus_cramAddr (s : State) (w : Word) : (s.setBus w).cramAddr = s.cramAddr := rfl
@[simp] theorem State.setBus_xmBanks (s : State) (w : Word) : (s.setBus w).xmBanks = s.xmBanks := rfl
@[simp] theorem State.setBus_mpc (s : State) (w : Word) : (s.setBus w).mpc = s.mpc := rfl
@[simp] theorem State.setBus_wakeup (s : State) (w : Word) : (s.setBus w).wakeup = s.wakeup := rfl
@[simp] theorem State.setBus_firstAfterSwitch (s : State) (w : Word) : (s.setBus w).firstAfterSwitch = s.firstAfterSwitch := rfl
@[simp] theorem State.setBus_currentTask (s : State) (w : Word) : (s.setBus w).currentTask = s.currentTask := rfl
@[simp] theorem State.setBus_nextTask (s : State) (w : Word) : (s.setBus w).nextTask = s.nextTask := rfl
@[simp] theorem State.setBus_rdRamPending (s : State) (w : Word) : (s.setBus w).rdRamPending = s.rdRamPending := rfl
@[simp] theorem State.setBus_wrtRamPending (s : State) (w : Word) : (s.setBus w).wrtRamPending = s.wrtRamPending := rfl
@[simp] theorem State.setBus_swModePending (s : State) (w : Word) : (s.setBus w).swModePending = s.swModePending := rfl
@[simp] theorem State.setBus_memActive (s : State) (w : Word) : (s.setBus w).memActive = s.memActive := rfl
@[simp] theorem State.setBus_memCycle (s : State) (w : Word) : (s.setBus w).memCycle = s.memCycle := rfl
@[simp] theorem State.setBus_memAddr (s : State) (w : Word) : (s.setBus w).memAddr = s.memAddr := rfl
@[simp] theorem State.setBus_memData (s : State) (w : Word) : (s.setBus w).memData = s.memData := rfl
@[simp] theorem State.setBus_memData2 (s : State) (w : Word) : (s.setBus w).memData2 = s.memData2 := rfl
@[simp] theorem State.setBus_dwStore (s : State) (w : Word) : (s.setBus w).dwStore = s.dwStore := rfl
@[simp] theorem State.setBus_dwMixed (s : State) (w : Word) : (s.setBus w).dwMixed = s.dwMixed := rfl
@[simp] theorem State.setBus_memXM (s : State) (w : Word) : (s.setBus w).memXM = s.memXM := rfl
@[simp] theorem State.setBus_memTask (s : State) (w : Word) : (s.setBus w).memTask = s.memTask := rfl
@[simp] theorem State.setBus_memRd5 (s : State) (w : Word) : (s.setBus w).memRd5 = s.memRd5 := rfl
@[simp] theorem State.setBus_main (s : State) (w : Word) : (s.setBus w).main = s.main := rfl
@[simp] theorem State.setBus_urom (s : State) (w : Word) : (s.setBus w).urom = s.urom := rfl
@[simp] theorem State.setBus_uram (s : State) (w : Word) : (s.setBus w).uram = s.uram := rfl
@[simp] theorem State.setBus_halted (s : State) (w : Word) : (s.setBus w).halted = s.halted := rfl
@[simp] theorem State.setBus_scratch (s : State) (w : Word) : (s.setBus w).scratch = { s.scratch with busData := w } := rfl
@[simp] theorem State.setBus_completion (s : State) (w : Word) : (s.setBus w).completion = s.completion := rfl
@[simp] theorem State.setBus_params (s : State) (w : Word) : (s.setBus w).params = s.params := rfl
@[simp] theorem State.setBus_external (s : State) (w : Word) : (s.setBus w).external = s.external := rfl
@[simp] theorem State.setBus_hookCalls (s : State) (w : Word) : (s.setBus w).hookCalls = s.hookCalls := rfl
@[simp] theorem State.setBus_deviceCalls (s : State) (w : Word) : (s.setBus w).deviceCalls = s.deviceCalls := rfl
@[simp] theorem State.setBus_ticks (s : State) (w : Word) : (s.setBus w).ticks = s.ticks := rfl

/-! ## `orModifier` -/

@[simp] theorem State.orModifier_t (s : State) (a : MicroAddr) : (s.orModifier a).t = s.t := rfl
@[simp] theorem State.orModifier_l (s : State) (a : MicroAddr) : (s.orModifier a).l = s.l := rfl
@[simp] theorem State.orModifier_m (s : State) (a : MicroAddr) : (s.orModifier a).m = s.m := rfl
@[simp] theorem State.orModifier_ir (s : State) (a : MicroAddr) : (s.orModifier a).ir = s.ir := rfl
@[simp] theorem State.orModifier_r (s : State) (a : MicroAddr) : (s.orModifier a).r = s.r := rfl
@[simp] theorem State.orModifier_sStore (s : State) (a : MicroAddr) : (s.orModifier a).sStore = s.sStore := rfl
@[simp] theorem State.orModifier_rb (s : State) (a : MicroAddr) : (s.orModifier a).rb = s.rb := rfl
@[simp] theorem State.orModifier_aluCarry (s : State) (a : MicroAddr) : (s.orModifier a).aluCarry = s.aluCarry := rfl
@[simp] theorem State.orModifier_aluC0 (s : State) (a : MicroAddr) : (s.orModifier a).aluC0 = s.aluC0 := rfl
@[simp] theorem State.orModifier_skip (s : State) (a : MicroAddr) : (s.orModifier a).skip = s.skip := rfl
@[simp] theorem State.orModifier_novaCarry (s : State) (a : MicroAddr) : (s.orModifier a).novaCarry = s.novaCarry := rfl
@[simp] theorem State.orModifier_rmr (s : State) (a : MicroAddr) : (s.orModifier a).rmr = s.rmr := rfl
@[simp] theorem State.orModifier_bank (s : State) (a : MicroAddr) : (s.orModifier a).bank = s.bank := rfl
@[simp] theorem State.orModifier_cramAddr (s : State) (a : MicroAddr) : (s.orModifier a).cramAddr = s.cramAddr := rfl
@[simp] theorem State.orModifier_xmBanks (s : State) (a : MicroAddr) : (s.orModifier a).xmBanks = s.xmBanks := rfl
@[simp] theorem State.orModifier_mpc (s : State) (a : MicroAddr) : (s.orModifier a).mpc = s.mpc := rfl
@[simp] theorem State.orModifier_wakeup (s : State) (a : MicroAddr) : (s.orModifier a).wakeup = s.wakeup := rfl
@[simp] theorem State.orModifier_firstAfterSwitch (s : State) (a : MicroAddr) : (s.orModifier a).firstAfterSwitch = s.firstAfterSwitch := rfl
@[simp] theorem State.orModifier_currentTask (s : State) (a : MicroAddr) : (s.orModifier a).currentTask = s.currentTask := rfl
@[simp] theorem State.orModifier_nextTask (s : State) (a : MicroAddr) : (s.orModifier a).nextTask = s.nextTask := rfl
@[simp] theorem State.orModifier_rdRamPending (s : State) (a : MicroAddr) : (s.orModifier a).rdRamPending = s.rdRamPending := rfl
@[simp] theorem State.orModifier_wrtRamPending (s : State) (a : MicroAddr) : (s.orModifier a).wrtRamPending = s.wrtRamPending := rfl
@[simp] theorem State.orModifier_swModePending (s : State) (a : MicroAddr) : (s.orModifier a).swModePending = s.swModePending := rfl
@[simp] theorem State.orModifier_memActive (s : State) (a : MicroAddr) : (s.orModifier a).memActive = s.memActive := rfl
@[simp] theorem State.orModifier_memCycle (s : State) (a : MicroAddr) : (s.orModifier a).memCycle = s.memCycle := rfl
@[simp] theorem State.orModifier_memAddr (s : State) (a : MicroAddr) : (s.orModifier a).memAddr = s.memAddr := rfl
@[simp] theorem State.orModifier_memData (s : State) (a : MicroAddr) : (s.orModifier a).memData = s.memData := rfl
@[simp] theorem State.orModifier_memData2 (s : State) (a : MicroAddr) : (s.orModifier a).memData2 = s.memData2 := rfl
@[simp] theorem State.orModifier_dwStore (s : State) (a : MicroAddr) : (s.orModifier a).dwStore = s.dwStore := rfl
@[simp] theorem State.orModifier_dwMixed (s : State) (a : MicroAddr) : (s.orModifier a).dwMixed = s.dwMixed := rfl
@[simp] theorem State.orModifier_memXM (s : State) (a : MicroAddr) : (s.orModifier a).memXM = s.memXM := rfl
@[simp] theorem State.orModifier_memTask (s : State) (a : MicroAddr) : (s.orModifier a).memTask = s.memTask := rfl
@[simp] theorem State.orModifier_memRd5 (s : State) (a : MicroAddr) : (s.orModifier a).memRd5 = s.memRd5 := rfl
@[simp] theorem State.orModifier_main (s : State) (a : MicroAddr) : (s.orModifier a).main = s.main := rfl
@[simp] theorem State.orModifier_urom (s : State) (a : MicroAddr) : (s.orModifier a).urom = s.urom := rfl
@[simp] theorem State.orModifier_uram (s : State) (a : MicroAddr) : (s.orModifier a).uram = s.uram := rfl
@[simp] theorem State.orModifier_halted (s : State) (a : MicroAddr) : (s.orModifier a).halted = s.halted := rfl
@[simp] theorem State.orModifier_scratch (s : State) (a : MicroAddr) : (s.orModifier a).scratch = { s.scratch with nextModifier := s.scratch.nextModifier ||| a } := rfl
@[simp] theorem State.orModifier_completion (s : State) (a : MicroAddr) : (s.orModifier a).completion = s.completion := rfl
@[simp] theorem State.orModifier_params (s : State) (a : MicroAddr) : (s.orModifier a).params = s.params := rfl
@[simp] theorem State.orModifier_external (s : State) (a : MicroAddr) : (s.orModifier a).external = s.external := rfl
@[simp] theorem State.orModifier_hookCalls (s : State) (a : MicroAddr) : (s.orModifier a).hookCalls = s.hookCalls := rfl
@[simp] theorem State.orModifier_deviceCalls (s : State) (a : MicroAddr) : (s.orModifier a).deviceCalls = s.deviceCalls := rfl
@[simp] theorem State.orModifier_ticks (s : State) (a : MicroAddr) : (s.orModifier a).ticks = s.ticks := rfl

/-! ## `logCall` -/

@[simp] theorem State.logCall_t (s : State) (c : DeviceCall) : (s.logCall c).t = s.t := rfl
@[simp] theorem State.logCall_l (s : State) (c : DeviceCall) : (s.logCall c).l = s.l := rfl
@[simp] theorem State.logCall_m (s : State) (c : DeviceCall) : (s.logCall c).m = s.m := rfl
@[simp] theorem State.logCall_ir (s : State) (c : DeviceCall) : (s.logCall c).ir = s.ir := rfl
@[simp] theorem State.logCall_r (s : State) (c : DeviceCall) : (s.logCall c).r = s.r := rfl
@[simp] theorem State.logCall_sStore (s : State) (c : DeviceCall) : (s.logCall c).sStore = s.sStore := rfl
@[simp] theorem State.logCall_rb (s : State) (c : DeviceCall) : (s.logCall c).rb = s.rb := rfl
@[simp] theorem State.logCall_aluCarry (s : State) (c : DeviceCall) : (s.logCall c).aluCarry = s.aluCarry := rfl
@[simp] theorem State.logCall_aluC0 (s : State) (c : DeviceCall) : (s.logCall c).aluC0 = s.aluC0 := rfl
@[simp] theorem State.logCall_skip (s : State) (c : DeviceCall) : (s.logCall c).skip = s.skip := rfl
@[simp] theorem State.logCall_novaCarry (s : State) (c : DeviceCall) : (s.logCall c).novaCarry = s.novaCarry := rfl
@[simp] theorem State.logCall_rmr (s : State) (c : DeviceCall) : (s.logCall c).rmr = s.rmr := rfl
@[simp] theorem State.logCall_bank (s : State) (c : DeviceCall) : (s.logCall c).bank = s.bank := rfl
@[simp] theorem State.logCall_cramAddr (s : State) (c : DeviceCall) : (s.logCall c).cramAddr = s.cramAddr := rfl
@[simp] theorem State.logCall_xmBanks (s : State) (c : DeviceCall) : (s.logCall c).xmBanks = s.xmBanks := rfl
@[simp] theorem State.logCall_mpc (s : State) (c : DeviceCall) : (s.logCall c).mpc = s.mpc := rfl
@[simp] theorem State.logCall_wakeup (s : State) (c : DeviceCall) : (s.logCall c).wakeup = s.wakeup := rfl
@[simp] theorem State.logCall_firstAfterSwitch (s : State) (c : DeviceCall) : (s.logCall c).firstAfterSwitch = s.firstAfterSwitch := rfl
@[simp] theorem State.logCall_currentTask (s : State) (c : DeviceCall) : (s.logCall c).currentTask = s.currentTask := rfl
@[simp] theorem State.logCall_nextTask (s : State) (c : DeviceCall) : (s.logCall c).nextTask = s.nextTask := rfl
@[simp] theorem State.logCall_rdRamPending (s : State) (c : DeviceCall) : (s.logCall c).rdRamPending = s.rdRamPending := rfl
@[simp] theorem State.logCall_wrtRamPending (s : State) (c : DeviceCall) : (s.logCall c).wrtRamPending = s.wrtRamPending := rfl
@[simp] theorem State.logCall_swModePending (s : State) (c : DeviceCall) : (s.logCall c).swModePending = s.swModePending := rfl
@[simp] theorem State.logCall_memActive (s : State) (c : DeviceCall) : (s.logCall c).memActive = s.memActive := rfl
@[simp] theorem State.logCall_memCycle (s : State) (c : DeviceCall) : (s.logCall c).memCycle = s.memCycle := rfl
@[simp] theorem State.logCall_memAddr (s : State) (c : DeviceCall) : (s.logCall c).memAddr = s.memAddr := rfl
@[simp] theorem State.logCall_memData (s : State) (c : DeviceCall) : (s.logCall c).memData = s.memData := rfl
@[simp] theorem State.logCall_memData2 (s : State) (c : DeviceCall) : (s.logCall c).memData2 = s.memData2 := rfl
@[simp] theorem State.logCall_dwStore (s : State) (c : DeviceCall) : (s.logCall c).dwStore = s.dwStore := rfl
@[simp] theorem State.logCall_dwMixed (s : State) (c : DeviceCall) : (s.logCall c).dwMixed = s.dwMixed := rfl
@[simp] theorem State.logCall_memXM (s : State) (c : DeviceCall) : (s.logCall c).memXM = s.memXM := rfl
@[simp] theorem State.logCall_memTask (s : State) (c : DeviceCall) : (s.logCall c).memTask = s.memTask := rfl
@[simp] theorem State.logCall_memRd5 (s : State) (c : DeviceCall) : (s.logCall c).memRd5 = s.memRd5 := rfl
@[simp] theorem State.logCall_main (s : State) (c : DeviceCall) : (s.logCall c).main = s.main := rfl
@[simp] theorem State.logCall_urom (s : State) (c : DeviceCall) : (s.logCall c).urom = s.urom := rfl
@[simp] theorem State.logCall_uram (s : State) (c : DeviceCall) : (s.logCall c).uram = s.uram := rfl
@[simp] theorem State.logCall_halted (s : State) (c : DeviceCall) : (s.logCall c).halted = s.halted := rfl
@[simp] theorem State.logCall_scratch (s : State) (c : DeviceCall) : (s.logCall c).scratch = s.scratch := rfl
@[simp] theorem State.logCall_completion (s : State) (c : DeviceCall) : (s.logCall c).completion = s.completion := rfl
@[simp] theorem State.logCall_params (s : State) (c : DeviceCall) : (s.logCall c).params = s.params := rfl
@[simp] theorem State.logCall_external (s : State) (c : DeviceCall) : (s.logCall c).external = s.external := rfl
@[simp] theorem State.logCall_hookCalls (s : State) (c : DeviceCall) : (s.logCall c).hookCalls = s.hookCalls := rfl
@[simp] theorem State.logCall_deviceCalls (s : State) (c : DeviceCall) : (s.logCall c).deviceCalls = c :: s.deviceCalls := rfl
@[simp] theorem State.logCall_ticks (s : State) (c : DeviceCall) : (s.logCall c).ticks = s.ticks := rfl

/-! ## `raise` -/

@[simp] theorem raise_t (s : State) (f : Fault) (i : FaultInfo) : (raise f i s).t = s.t := rfl
@[simp] theorem raise_l (s : State) (f : Fault) (i : FaultInfo) : (raise f i s).l = s.l := rfl
@[simp] theorem raise_m (s : State) (f : Fault) (i : FaultInfo) : (raise f i s).m = s.m := rfl
@[simp] theorem raise_ir (s : State) (f : Fault) (i : FaultInfo) : (raise f i s).ir = s.ir := rfl
@[simp] theorem raise_r (s : State) (f : Fault) (i : FaultInfo) : (raise f i s).r = s.r := rfl
@[simp] theorem raise_sStore (s : State) (f : Fault) (i : FaultInfo) : (raise f i s).sStore = s.sStore := rfl
@[simp] theorem raise_rb (s : State) (f : Fault) (i : FaultInfo) : (raise f i s).rb = s.rb := rfl
@[simp] theorem raise_aluCarry (s : State) (f : Fault) (i : FaultInfo) : (raise f i s).aluCarry = s.aluCarry := rfl
@[simp] theorem raise_aluC0 (s : State) (f : Fault) (i : FaultInfo) : (raise f i s).aluC0 = s.aluC0 := rfl
@[simp] theorem raise_skip (s : State) (f : Fault) (i : FaultInfo) : (raise f i s).skip = s.skip := rfl
@[simp] theorem raise_novaCarry (s : State) (f : Fault) (i : FaultInfo) : (raise f i s).novaCarry = s.novaCarry := rfl
@[simp] theorem raise_rmr (s : State) (f : Fault) (i : FaultInfo) : (raise f i s).rmr = s.rmr := rfl
@[simp] theorem raise_bank (s : State) (f : Fault) (i : FaultInfo) : (raise f i s).bank = s.bank := rfl
@[simp] theorem raise_cramAddr (s : State) (f : Fault) (i : FaultInfo) : (raise f i s).cramAddr = s.cramAddr := rfl
@[simp] theorem raise_xmBanks (s : State) (f : Fault) (i : FaultInfo) : (raise f i s).xmBanks = s.xmBanks := rfl
@[simp] theorem raise_mpc (s : State) (f : Fault) (i : FaultInfo) : (raise f i s).mpc = s.mpc := rfl
@[simp] theorem raise_wakeup (s : State) (f : Fault) (i : FaultInfo) : (raise f i s).wakeup = s.wakeup := rfl
@[simp] theorem raise_firstAfterSwitch (s : State) (f : Fault) (i : FaultInfo) : (raise f i s).firstAfterSwitch = s.firstAfterSwitch := rfl
@[simp] theorem raise_currentTask (s : State) (f : Fault) (i : FaultInfo) : (raise f i s).currentTask = s.currentTask := rfl
@[simp] theorem raise_nextTask (s : State) (f : Fault) (i : FaultInfo) : (raise f i s).nextTask = s.nextTask := rfl
@[simp] theorem raise_rdRamPending (s : State) (f : Fault) (i : FaultInfo) : (raise f i s).rdRamPending = s.rdRamPending := rfl
@[simp] theorem raise_wrtRamPending (s : State) (f : Fault) (i : FaultInfo) : (raise f i s).wrtRamPending = s.wrtRamPending := rfl
@[simp] theorem raise_swModePending (s : State) (f : Fault) (i : FaultInfo) : (raise f i s).swModePending = s.swModePending := rfl
@[simp] theorem raise_memActive (s : State) (f : Fault) (i : FaultInfo) : (raise f i s).memActive = s.memActive := rfl
@[simp] theorem raise_memCycle (s : State) (f : Fault) (i : FaultInfo) : (raise f i s).memCycle = s.memCycle := rfl
@[simp] theorem raise_memAddr (s : State) (f : Fault) (i : FaultInfo) : (raise f i s).memAddr = s.memAddr := rfl
@[simp] theorem raise_memData (s : State) (f : Fault) (i : FaultInfo) : (raise f i s).memData = s.memData := rfl
@[simp] theorem raise_memData2 (s : State) (f : Fault) (i : FaultInfo) : (raise f i s).memData2 = s.memData2 := rfl
@[simp] theorem raise_dwStore (s : State) (f : Fault) (i : FaultInfo) : (raise f i s).dwStore = s.dwStore := rfl
@[simp] theorem raise_dwMixed (s : State) (f : Fault) (i : FaultInfo) : (raise f i s).dwMixed = s.dwMixed := rfl
@[simp] theorem raise_memXM (s : State) (f : Fault) (i : FaultInfo) : (raise f i s).memXM = s.memXM := rfl
@[simp] theorem raise_memTask (s : State) (f : Fault) (i : FaultInfo) : (raise f i s).memTask = s.memTask := rfl
@[simp] theorem raise_memRd5 (s : State) (f : Fault) (i : FaultInfo) : (raise f i s).memRd5 = s.memRd5 := rfl
@[simp] theorem raise_main (s : State) (f : Fault) (i : FaultInfo) : (raise f i s).main = s.main := rfl
@[simp] theorem raise_urom (s : State) (f : Fault) (i : FaultInfo) : (raise f i s).urom = s.urom := rfl
@[simp] theorem raise_uram (s : State) (f : Fault) (i : FaultInfo) : (raise f i s).uram = s.uram := rfl
@[simp] theorem raise_halted (s : State) (f : Fault) (i : FaultInfo) : (raise f i s).halted = some ⟨f, s.currentTask, Bank.get s.mpc s.currentTask, i⟩ := rfl
@[simp] theorem raise_scratch (s : State) (f : Fault) (i : FaultInfo) : (raise f i s).scratch = s.scratch := rfl
@[simp] theorem raise_completion (s : State) (f : Fault) (i : FaultInfo) : (raise f i s).completion = s.completion := rfl
@[simp] theorem raise_params (s : State) (f : Fault) (i : FaultInfo) : (raise f i s).params = s.params := rfl
@[simp] theorem raise_external (s : State) (f : Fault) (i : FaultInfo) : (raise f i s).external = s.external := rfl
@[simp] theorem raise_hookCalls (s : State) (f : Fault) (i : FaultInfo) : (raise f i s).hookCalls = s.hookCalls := rfl
@[simp] theorem raise_deviceCalls (s : State) (f : Fault) (i : FaultInfo) : (raise f i s).deviceCalls = s.deviceCalls := rfl
@[simp] theorem raise_ticks (s : State) (f : Fault) (i : FaultInfo) : (raise f i s).ticks = s.ticks := rfl

/-! ## `queueCall` -/

@[simp] theorem queueCall_t (c : ExternalCall) (s : State) : (queueCall c s).t = s.t := rfl
@[simp] theorem queueCall_l (c : ExternalCall) (s : State) : (queueCall c s).l = s.l := rfl
@[simp] theorem queueCall_m (c : ExternalCall) (s : State) : (queueCall c s).m = s.m := rfl
@[simp] theorem queueCall_ir (c : ExternalCall) (s : State) : (queueCall c s).ir = s.ir := rfl
@[simp] theorem queueCall_r (c : ExternalCall) (s : State) : (queueCall c s).r = s.r := rfl
@[simp] theorem queueCall_sStore (c : ExternalCall) (s : State) : (queueCall c s).sStore = s.sStore := rfl
@[simp] theorem queueCall_rb (c : ExternalCall) (s : State) : (queueCall c s).rb = s.rb := rfl
@[simp] theorem queueCall_aluCarry (c : ExternalCall) (s : State) : (queueCall c s).aluCarry = s.aluCarry := rfl
@[simp] theorem queueCall_aluC0 (c : ExternalCall) (s : State) : (queueCall c s).aluC0 = s.aluC0 := rfl
@[simp] theorem queueCall_skip (c : ExternalCall) (s : State) : (queueCall c s).skip = s.skip := rfl
@[simp] theorem queueCall_novaCarry (c : ExternalCall) (s : State) : (queueCall c s).novaCarry = s.novaCarry := rfl
@[simp] theorem queueCall_rmr (c : ExternalCall) (s : State) : (queueCall c s).rmr = s.rmr := rfl
@[simp] theorem queueCall_bank (c : ExternalCall) (s : State) : (queueCall c s).bank = s.bank := rfl
@[simp] theorem queueCall_cramAddr (c : ExternalCall) (s : State) : (queueCall c s).cramAddr = s.cramAddr := rfl
@[simp] theorem queueCall_xmBanks (c : ExternalCall) (s : State) : (queueCall c s).xmBanks = s.xmBanks := rfl
@[simp] theorem queueCall_mpc (c : ExternalCall) (s : State) : (queueCall c s).mpc = s.mpc := rfl
@[simp] theorem queueCall_wakeup (c : ExternalCall) (s : State) : (queueCall c s).wakeup = s.wakeup := rfl
@[simp] theorem queueCall_firstAfterSwitch (c : ExternalCall) (s : State) : (queueCall c s).firstAfterSwitch = s.firstAfterSwitch := rfl
@[simp] theorem queueCall_currentTask (c : ExternalCall) (s : State) : (queueCall c s).currentTask = s.currentTask := rfl
@[simp] theorem queueCall_nextTask (c : ExternalCall) (s : State) : (queueCall c s).nextTask = s.nextTask := rfl
@[simp] theorem queueCall_rdRamPending (c : ExternalCall) (s : State) : (queueCall c s).rdRamPending = s.rdRamPending := rfl
@[simp] theorem queueCall_wrtRamPending (c : ExternalCall) (s : State) : (queueCall c s).wrtRamPending = s.wrtRamPending := rfl
@[simp] theorem queueCall_swModePending (c : ExternalCall) (s : State) : (queueCall c s).swModePending = s.swModePending := rfl
@[simp] theorem queueCall_memActive (c : ExternalCall) (s : State) : (queueCall c s).memActive = s.memActive := rfl
@[simp] theorem queueCall_memCycle (c : ExternalCall) (s : State) : (queueCall c s).memCycle = s.memCycle := rfl
@[simp] theorem queueCall_memAddr (c : ExternalCall) (s : State) : (queueCall c s).memAddr = s.memAddr := rfl
@[simp] theorem queueCall_memData (c : ExternalCall) (s : State) : (queueCall c s).memData = s.memData := rfl
@[simp] theorem queueCall_memData2 (c : ExternalCall) (s : State) : (queueCall c s).memData2 = s.memData2 := rfl
@[simp] theorem queueCall_dwStore (c : ExternalCall) (s : State) : (queueCall c s).dwStore = s.dwStore := rfl
@[simp] theorem queueCall_dwMixed (c : ExternalCall) (s : State) : (queueCall c s).dwMixed = s.dwMixed := rfl
@[simp] theorem queueCall_memXM (c : ExternalCall) (s : State) : (queueCall c s).memXM = s.memXM := rfl
@[simp] theorem queueCall_memTask (c : ExternalCall) (s : State) : (queueCall c s).memTask = s.memTask := rfl
@[simp] theorem queueCall_memRd5 (c : ExternalCall) (s : State) : (queueCall c s).memRd5 = s.memRd5 := rfl
@[simp] theorem queueCall_main (c : ExternalCall) (s : State) : (queueCall c s).main = s.main := rfl
@[simp] theorem queueCall_urom (c : ExternalCall) (s : State) : (queueCall c s).urom = s.urom := rfl
@[simp] theorem queueCall_uram (c : ExternalCall) (s : State) : (queueCall c s).uram = s.uram := rfl
@[simp] theorem queueCall_halted (c : ExternalCall) (s : State) : (queueCall c s).halted = s.halted := rfl
@[simp] theorem queueCall_scratch (c : ExternalCall) (s : State) : (queueCall c s).scratch = s.scratch := rfl
@[simp] theorem queueCall_completion (c : ExternalCall) (s : State) : (queueCall c s).completion = s.completion := rfl
@[simp] theorem queueCall_params (c : ExternalCall) (s : State) : (queueCall c s).params = s.params := rfl
@[simp] theorem queueCall_external (c : ExternalCall) (s : State) : (queueCall c s).external = s.external := rfl
@[simp] theorem queueCall_hookCalls (c : ExternalCall) (s : State) : (queueCall c s).hookCalls = s.hookCalls ++ [c] := rfl
@[simp] theorem queueCall_deviceCalls (c : ExternalCall) (s : State) : (queueCall c s).deviceCalls = s.deviceCalls := rfl
@[simp] theorem queueCall_ticks (c : ExternalCall) (s : State) : (queueCall c s).ticks = s.ticks := rfl

end Sys2Proof.Machine
end

