-- ==== Sys2Proof/Laws/Frames.lean ====
section
/-! SUPPORT. What each phase of a microinstruction can change: one equation per phase, of the form "the state after is the
state before, but for these fields". -/

namespace Sys2Proof.Machine

/-! ## Hooks and the memory bus -/

/-- What a hook of a task, and any function of the memory bus, can change (40_cycle.md R132, R133): eight fields of the scratch, the
bus operation, the stored word, the device log, the queued calls, the wakeups (at reset only) and the halt record. -/
def HookFrame (s t : State) : Prop :=
  t = { s with
    scratch := { s.scratch with
      loadR := t.scratch.loadR, rSelect := t.scratch.rSelect, shift := t.scratch.shift
      nextModifier := t.scratch.nextModifier, alu := t.scratch.alu, sh := t.scratch.sh
      taskFired := t.scratch.taskFired, blockFired := t.scratch.blockFired }
    memActive := t.memActive, memCycle := t.memCycle, memAddr := t.memAddr, memTask := t.memTask, memXM := t.memXM
    dwStore := t.dwStore, dwMixed := t.dwMixed, memRd5 := t.memRd5, main := t.main, xmBanks := t.xmBanks
    deviceCalls := t.deviceCalls, hookCalls := t.hookCalls, wakeup := t.wakeup, halted := t.halted }

theorem HookFrame.refl (s : State) : HookFrame s s := rfl

theorem HookFrame.trans {s t u : State} (h1 : HookFrame s t) (h2 : HookFrame t u) : HookFrame s u := by
  unfold HookFrame at h1 h2 ⊢
  rw [h1] at h2
  exact h2

theorem raise_frame (f : Fault) (i : FaultInfo) (s : State) : HookFrame s (raise f i s) := rfl

theorem loadMar_frame (a : Word) (k : TaskNum) (xm : Bool) (s : State) : HookFrame s (loadMar a k xm s) := by
  unfold loadMar
  split <;> rfl

theorem memWrite_frame (a v : Word) (s : State) : HookFrame s (memWrite a v s) := by
  unfold memWrite
  split
  · rfl
  · split <;> rfl

theorem storeMd_frame (v : Word) (s : State) : HookFrame s (storeMd v s) := by
  unfold storeMd
  split
  · rfl
  · split
    · rfl
    · exact (memWrite_frame (storeAddr s) v s).trans rfl

theorem readMd_ok_frame (s t : State) (w : Word) (h : readMd s = .ok (w, t)) : HookFrame s t := by
  unfold readMd at h
  split at h
  · cases h
  · split at h
    · cases h
      rfl
    · split at h
      · split at h <;> cases h
        rfl
      · cases h
        rfl

theorem readMd_error_frame (s t : State) (h : readMd s = .error t) : HookFrame s t := by
  unfold readMd at h
  split at h
  · cases h
    rfl
  · split at h
    · cases h
    · split at h
      · split at h <;> cases h
        rfl
      · cases h

theorem wakeupTask_frame (i : TaskNum) (s : State) : HookFrame s (wakeupTask i s) := by
  unfold wakeupTask
  split
  · rfl
  · split <;> rfl

theorem blockTask_frame (i : TaskNum) (s : State) : HookFrame s (blockTask i s) := by
  unfold blockTask
  split
  · rfl
  · split <;> rfl

theorem externalCall_frame (c : ExternalCall) (s : State) : HookFrame s (externalCall c s) := by
  cases c
  · exact wakeupTask_frame ..
  · exact blockTask_frame ..

theorem hookCall_frame (p : HookPoint) (c : ExternalCall) (s : State) : HookFrame s (hookCall p c s) := by
  unfold hookCall
  split
  · exact externalCall_frame ..
  · rfl

theorem hookAction_frame (k : TaskNum) (p : HookPoint) (a : HookAction) (s : State) : HookFrame s (hookAction k p a s) := by
  cases a with
  | setLoadR | setAlu | setSh | setTaskFired | setBlockFired | setShift | device => rfl
  | setRSelect | orNextModifier =>
    simp only [hookAction]
    split <;> rfl
  | loadMar => exact loadMar_frame ..
  | storeMd => exact storeMd_frame ..
  | wakeupTask => exact hookCall_frame ..
  | blockTask => exact hookCall_frame ..
  | readMd =>
    show HookFrame s (match readMd s with | .ok (_, s') => s' | .error s' => s')
    split
    · exact readMd_ok_frame _ _ _ ‹_›
    · exact readMd_error_frame _ _ ‹_›

theorem hookActions_frame (k : TaskNum) (p : HookPoint) (acts : List HookAction) (s : State) :
    HookFrame s (hookActions k p acts s) := by
  refine runPhases_keeps (HookFrame s) _ ?_ s (HookFrame.refl s)
  intro f hf u hu
  obtain ⟨a, -, rfl⟩ := List.mem_map.mp hf
  exact hu.trans (hookAction_frame k p a u)

theorem optionalHook_frame (k : TaskNum) (p : HookPoint) (s : State) : HookFrame s (optionalHook k p s) := by
  unfold optionalHook
  split
  · rfl
  · exact hookActions_frame ..

theorem codeHook_frame (k : TaskNum) (p : HookPoint) (f : Fault) (s : State) : HookFrame s (codeHook k p f s) := by
  unfold codeHook
  split
  · rfl
  · exact hookActions_frame ..

/-! ## The wakeups

A hook of a tick, as against one of the power-up reset, changes no wakeup: its calls wait for the end of the tick (R279). -/

theorem loadMar_wakeup (a : Word) (k : TaskNum) (xm : Bool) (s : State) : (loadMar a k xm s).wakeup = s.wakeup := by
  unfold loadMar
  split <;> rfl

theorem memWrite_wakeup (a v : Word) (s : State) : (memWrite a v s).wakeup = s.wakeup := by
  unfold memWrite
  split
  · rfl
  · split <;> rfl

theorem storeMd_wakeup (v : Word) (s : State) : (storeMd v s).wakeup = s.wakeup := by
  unfold storeMd
  split
  · rfl
  · split
    · rfl
    · exact memWrite_wakeup (storeAddr s) v s

theorem readMd_ok_wakeup (s t : State) (w : Word) (h : readMd s = .ok (w, t)) : t.wakeup = s.wakeup := by
  unfold readMd at h
  repeat' split at h
  all_goals first | cases h; rfl | cases h

theorem readMd_error_wakeup (s t : State) (h : readMd s = .error t) : t.wakeup = s.wakeup := by
  unfold readMd at h
  repeat' split at h
  all_goals first | cases h; rfl | cases h

theorem hookAction_wakeup (k : TaskNum) (p : HookPoint) (a : HookAction) (s : State) (hp : p ≠ .reset) :
    (hookAction k p a s).wakeup = s.wakeup := by
  cases a with
  | setLoadR | setAlu | setSh | setTaskFired | setBlockFired | setShift | device => rfl
  | setRSelect | orNextModifier =>
    simp only [hookAction]
    split <;> rfl
  | loadMar => exact loadMar_wakeup ..
  | storeMd => exact storeMd_wakeup ..
  | wakeupTask | blockTask =>
    simp only [hookAction, hookCall, if_neg hp]
    rfl
  | readMd =>
    show (match readMd s with | .ok (_, s') => s' | .error s' => s').wakeup = s.wakeup
    split
    · exact readMd_ok_wakeup _ _ _ ‹_›
    · exact readMd_error_wakeup _ _ ‹_›

theorem hookActions_wakeup (k : TaskNum) (p : HookPoint) (acts : List HookAction) (s : State) (hp : p ≠ .reset) :
    (hookActions k p acts s).wakeup = s.wakeup := by
  refine runPhases_keeps (fun x => x.wakeup = s.wakeup) _ ?_ s rfl
  intro f hf x hx
  obtain ⟨a, -, rfl⟩ := List.mem_map.mp hf
  exact (hookAction_wakeup k p a x hp).trans hx

theorem optionalHook_wakeup (k : TaskNum) (p : HookPoint) (s : State) (hp : p ≠ .reset) :
    (optionalHook k p s).wakeup = s.wakeup := by
  unfold optionalHook
  split
  · rfl
  · exact hookActions_wakeup _ _ _ _ hp

theorem codeHook_wakeup (k : TaskNum) (p : HookPoint) (f : Fault) (s : State) (hp : p ≠ .reset) :
    (codeHook k p f s).wakeup = s.wakeup := by
  unfold codeHook
  split
  · rfl
  · exact hookActions_wakeup _ _ _ _ hp

theorem hookBus_wakeup (b : HookBus) (s : State) : (hookBus b s).wakeup = s.wakeup := by
  unfold hookBus
  split
  · rfl
  · split
    · have h := readMd_ok_wakeup s _ _ ‹_›
      exact h
    · exact readMd_error_wakeup _ _ ‹_›

theorem busHook_wakeup (k : TaskNum) (p : HookPoint) (s : State) (hp : p ≠ .reset) : (busHook k p s).wakeup = s.wakeup := by
  unfold busHook
  split
  · rfl
  · refine runPhases_keeps (fun x => x.wakeup = s.wakeup) _ ?_ s rfl
    intro f hf x hx
    simp only [List.mem_cons, List.not_mem_nil, or_false] at hf
    rcases hf with rfl | rfl
    · exact (hookActions_wakeup _ _ _ _ hp).trans hx
    · exact (hookBus_wakeup _ _).trans hx

/-! ## The phases -/

theorem beginMicro_frame (u : Micro) (k : TaskNum) (s : State) :
    beginMicro u k s = { s with
      scratch := (beginMicro u k s).scratch, rdRamPending := Bank.put s.rdRamPending k false
      wrtRamPending := Bank.put s.wrtRamPending k false, swModePending := Bank.put s.swModePending k false } := rfl

theorem earlySelect_frame (u : Micro) (k : TaskNum) (s : State) : HookFrame s (earlySelect u k s) := by
  unfold earlySelect
  split
  · rfl
  · rfl
  · rfl
  · split
    · rfl
    · refine runPhases_keeps (HookFrame s) _ ?_ s (HookFrame.refl s)
      intro f hf t ht
      simp only [List.mem_cons, List.not_mem_nil, or_false] at hf
      rcases hf with rfl | rfl <;> exact ht.trans (optionalHook_frame ..)

/-- What a bus source can change: what a hook can, and the bus word and the S-store request. -/
def BusFrame (s t : State) : Prop :=
  t = { s with
    scratch := { s.scratch with
      busData := t.scratch.busData, loadS := t.scratch.loadS, loadR := t.scratch.loadR, rSelect := t.scratch.rSelect
      shift := t.scratch.shift, nextModifier := t.scratch.nextModifier, alu := t.scratch.alu, sh := t.scratch.sh
      taskFired := t.scratch.taskFired, blockFired := t.scratch.blockFired }
    memActive := t.memActive, memCycle := t.memCycle, memAddr := t.memAddr, memTask := t.memTask, memXM := t.memXM
    dwStore := t.dwStore, dwMixed := t.dwMixed, memRd5 := t.memRd5, main := t.main, xmBanks := t.xmBanks
    deviceCalls := t.deviceCalls, hookCalls := t.hookCalls, wakeup := t.wakeup, halted := t.halted }

theorem BusFrame.trans {s t u : State} (h1 : BusFrame s t) (h2 : BusFrame t u) : BusFrame s u := by
  unfold BusFrame at h1 h2 ⊢
  rw [h1] at h2
  exact h2

theorem HookFrame.toBus {s t : State} (h : HookFrame s t) : BusFrame s t := by
  unfold HookFrame at h
  unfold BusFrame
  rw [h]

theorem BusFrame.setBus {s t : State} (h : BusFrame s t) (w : Word) : BusFrame s (t.setBus w) := h.trans rfl

theorem hookBus_frame (b : HookBus) (s : State) : BusFrame s (hookBus b s) := by
  unfold hookBus
  split
  · rfl
  · split
    · exact (readMd_ok_frame _ _ _ ‹_›).toBus.setBus _
    · exact (readMd_error_frame _ _ ‹_›).toBus

theorem busHook_frame (k : TaskNum) (p : HookPoint) (s : State) : BusFrame s (busHook k p s) := by
  unfold busHook
  split
  · rfl
  · refine runPhases_keeps (BusFrame s) _ ?_ s rfl
    intro f hf t ht
    simp only [List.mem_cons, List.not_mem_nil, or_false] at hf
    rcases hf with rfl | rfl
    · exact ht.trans (hookActions_frame ..).toBus
    · exact ht.trans (hookBus_frame ..)

theorem bsReadMd_frame (s : State) : BusFrame s (bsReadMd s) := by
  unfold bsReadMd
  split
  · exact (readMd_ok_frame _ _ _ ‹_›).toBus.setBus _
  · exact (readMd_error_frame _ _ ‹_›).toBus

theorem busSource_frame (u : Micro) (k : TaskNum) (s : State) : BusFrame s (busSource u k s) := by
  unfold busSource
  split
  · rfl
  · rfl
  · rfl
  · exact bsReadMd_frame s
  · rfl
  · rfl
  · rfl
  · rfl
  · exact busHook_frame ..
  · exact busHook_frame ..

theorem maskConstant_frame (u : Micro) (s : State) :
    maskConstant u s = { s with scratch := { s.scratch with busData := (maskConstant u s).scratch.busData } } := by
  unfold maskConstant
  split <;> rfl

theorem cramRead_error (s t : State) (h : cramRead s = .error t) : t = { s with halted := t.halted } := by
  unfold cramRead at h
  split at h
  · cases h
    rfl
  · split at h
    · cases h
      rfl
    · cases h

theorem maskCram_frame (s : State) :
    maskCram s = { s with
      scratch := { s.scratch with busData := (maskCram s).scratch.busData }, halted := (maskCram s).halted } := by
  unfold maskCram
  split
  · split
    · rfl
    · have h := cramRead_error s _ ‹_›
      rw [h]
  · rfl

theorem earlyBus_frame (u : Micro) (s : State) :
    earlyBus u s = { s with
      scratch := { s.scratch with busData := (earlyBus u s).scratch.busData }
      deviceCalls := (earlyBus u s).deviceCalls } := by
  unfold earlyBus
  split <;> rfl

theorem runAlu_frame (u : Micro) (k : TaskNum) (s : State) :
    runAlu u k s = { s with
      scratch := { s.scratch with alu := (runAlu u k s).scratch.alu }, aluCarry := (runAlu u k s).aluCarry
      halted := (runAlu u k s).halted } := by
  unfold runAlu
  split <;> rfl

theorem deferredCramWrite_frame (s : State) :
    deferredCramWrite s = { s with uram := (deferredCramWrite s).uram, halted := (deferredCramWrite s).halted } := by
  unfold deferredCramWrite cramWrite
  split
  · split
    · rfl
    · split <;> rfl
  · rfl

/-- What F1 can change: what a hook can, the scheduling requests of the scratch, the carried flags, and what a soft reset
changes (70_reset_and_hazards.md R305). -/
def F1Frame (s t : State) : Prop :=
  t = { s with
    scratch := { s.scratch with
      loadR := t.scratch.loadR, rSelect := t.scratch.rSelect, shift := t.scratch.shift
      nextModifier := t.scratch.nextModifier, softReset := t.scratch.softReset, alu := t.scratch.alu, sh := t.scratch.sh
      blockFired := t.scratch.blockFired, taskFired := t.scratch.taskFired }
    memActive := t.memActive, memCycle := t.memCycle, memAddr := t.memAddr, memTask := t.memTask, memXM := t.memXM
    dwStore := t.dwStore, dwMixed := t.dwMixed, memRd5 := t.memRd5, main := t.main, xmBanks := t.xmBanks
    deviceCalls := t.deviceCalls, hookCalls := t.hookCalls, wakeup := t.wakeup, halted := t.halted
    rdRamPending := t.rdRamPending, wrtRamPending := t.wrtRamPending, swModePending := t.swModePending
    rmr := t.rmr, rb := t.rb, bank := t.bank, mpc := t.mpc, currentTask := t.currentTask, nextTask := t.nextTask }

theorem HookFrame.toF1 {s t : State} (h : HookFrame s t) : F1Frame s t := by
  unfold HookFrame at h
  unfold F1Frame
  rw [h]

theorem runF1_frame (u : Micro) (k : TaskNum) (s : State) : F1Frame s (runF1 u k s) := by
  unfold runF1
  split
  case h_2 => exact (loadMar_frame ..).toF1
  case h_3 => unfold f1Task; split <;> rfl
  case h_4 => unfold f1Block; split <;> rfl
  case h_16 =>
    unfold f1Startf
    split
    · rfl
    · split <;> rfl
  all_goals first | rfl | exact (codeHook_frame ..).toF1

/-- What F2 can change: what a hook can, IR and skip. -/
def F2Frame (s t : State) : Prop :=
  t = { s with
    scratch := { s.scratch with
      loadR := t.scratch.loadR, rSelect := t.scratch.rSelect, shift := t.scratch.shift
      nextModifier := t.scratch.nextModifier, alu := t.scratch.alu, sh := t.scratch.sh
      taskFired := t.scratch.taskFired, blockFired := t.scratch.blockFired }
    memActive := t.memActive, memCycle := t.memCycle, memAddr := t.memAddr, memTask := t.memTask, memXM := t.memXM
    dwStore := t.dwStore, dwMixed := t.dwMixed, memRd5 := t.memRd5, main := t.main, xmBanks := t.xmBanks
    deviceCalls := t.deviceCalls, hookCalls := t.hookCalls, wakeup := t.wakeup, halted := t.halted
    ir := t.ir, skip := t.skip, novaCarry := t.novaCarry }

theorem HookFrame.toF2 {s t : State} (h : HookFrame s t) : F2Frame s t := by
  unfold HookFrame at h
  unfold F2Frame
  rw [h]

theorem runF2_frame (u : Micro) (k : TaskNum) (s : State) : F2Frame s (runF2 u k s) := by
  unfold runF2
  split
  case h_7 =>
    unfold f2StoreMd
    split
    · rfl
    · exact (storeMd_frame ..).toF2
  all_goals first | rfl | exact (codeHook_frame ..).toF2

theorem runF2_novaCarry (u : Micro) (k : TaskNum) (s : State) : (runF2 u k s).novaCarry = s.novaCarry := by
  unfold runF2
  split
  case h_7 =>
    unfold f2StoreMd
    split
    · rfl
    · rw [storeMd_frame]
  all_goals first | rfl | (unfold f2TaskSpecific8; rw [codeHook_frame]) | (unfold f2TaskSpecific9; rw [codeHook_frame]) |
    (unfold f2TaskSpecific10; rw [codeHook_frame]) | (unfold f2TaskSpecific11; rw [codeHook_frame]) |
    (unfold f2TaskSpecific12; rw [codeHook_frame]) | (unfold f2TaskSpecific13; rw [codeHook_frame]) |
    (unfold f2TaskSpecific14; rw [codeHook_frame]) | (unfold f2TaskSpecific15; rw [codeHook_frame])

theorem runShifter_frame (u : Micro) (s : State) :
    runShifter u s = { s with
      scratch := { s.scratch with sh := (runShifter u s).scratch.sh, shift := (runShifter u s).scratch.shift }
      halted := (runShifter u s).halted } := by
  unfold runShifter
  split
  · split <;> rfl
  · rfl

theorem shifterBranch_frame (u : Micro) (s : State) :
    shifterBranch u s = { s with
      scratch := { s.scratch with nextModifier := (shifterBranch u s).scratch.nextModifier } } := by
  unfold shifterBranch
  split <;> rfl

theorem writeR_frame (s : State) : writeR s = { s with r := (writeR s).r } := by
  unfold writeR
  split <;> rfl

theorem writeS_frame (s : State) : writeS s = { s with sStore := (writeS s).sStore } := by
  unfold writeS
  split <;> rfl

theorem writeT_frame (u : Micro) (s : State) :
    writeT u s = { s with t := (writeT u s).t, cramAddr := (writeT u s).cramAddr } := by
  unfold writeT
  split <;> rfl

theorem writeL_frame (u : Micro) (k : TaskNum) (s : State) :
    writeL u k s = { s with l := (writeL u k s).l, m := (writeL u k s).m, aluC0 := (writeL u k s).aluC0 } := by
  unfold writeL
  split <;> rfl

theorem lateF2_frame (u : Micro) (k : TaskNum) (s : State) : F2Frame s (lateF2 u k s) := by
  unfold lateF2
  split
  · rfl
  · split
    · rfl
    · exact (optionalHook_frame ..).toF2

theorem switchBank_frame (u : Micro) (k : TaskNum) (s : State) :
    switchBank u k s = { s with bank := (switchBank u k s).bank, halted := (switchBank u k s).halted } := by
  unfold switchBank
  split
  · split <;> rfl
  · rfl

theorem blockHook_frame (k : TaskNum) (s : State) : HookFrame s (blockHook k s) := by
  unfold blockHook
  split
  · exact optionalHook_frame ..
  · rfl

theorem advance_frame (u : Micro) (k : TaskNum) (s : State) : advance u k s = { s with mpc := (advance u k s).mpc } := by
  unfold advance
  split <;> rfl

theorem finish_frame (k : TaskNum) (s : State) :
    finish k s = { s with
      firstAfterSwitch := Bank.put s.firstAfterSwitch k false, completion := (finish k s).completion } := rfl

end Sys2Proof.Machine
end

