-- ==== Sys2Proof/Laws/Cycle.lean ====
section
/-! SUPPORT. The microinstruction cycle as one composition of its phases: `exec` of every row is the cycle of the
microinstruction it stands for, and a cycle that does not wait or halt is its stages one after another. -/

namespace Sys2Proof.Machine

/-- Every row's meaning is the cycle of the microinstruction the row stands for. -/
theorem exec_eq (i : Instr) (s : State) : exec i s = .next (cpuStep i.micro s) := by
  cases i <;> rfl

/-- A run that is not halted is the composition of its phases. -/
theorem runPhases_eq_foldl (fs : List (State → State)) (s : State) (hs : s.halted = none)
    (h : (runPhases fs s).halted = none) : runPhases fs s = fs.foldl (fun x f => f x) s := by
  induction fs generalizing s with
  | nil => rfl
  | cons f fs ih =>
    rw [runPhases_cons] at h ⊢
    by_cases hf : (f s).halted = none
    · rw [if_pos hf] at h ⊢
      exact ih _ hf h
    · rw [if_neg hf] at h
      exact absurd h hf

/-! ## The stages -/

/-- After step 4a (40_cycle.md R113, R114). -/
def afterSelect (u : Micro) (s : State) : State := earlySelect u s.currentTask (beginMicro u s.currentTask s)

/-- After step 4b (R115, R116). -/
def afterBus (u : Micro) (s : State) : State :=
  earlyBus u (maskCram (maskConstant u (busSource u s.currentTask (afterSelect u s))))

/-- After step 6 (R117, R118). -/
def afterAlu (u : Micro) (s : State) : State := deferredCramWrite (runAlu u s.currentTask (afterBus u s))

/-- After step 7 (R119). -/
def afterF1 (u : Micro) (s : State) : State := runF1 u s.currentTask (afterAlu u s)

/-- After step 8 (R120). -/
def afterF2 (u : Micro) (s : State) : State := runF2 u s.currentTask (afterF1 u s)

/-- After step 10 (R121). -/
def afterShifter (u : Micro) (s : State) : State := shifterBranch u (runShifter u (afterF2 u s))

/-- After step 11 (R122 to R125). -/
def afterWrites (u : Micro) (s : State) : State := writeL u s.currentTask (writeT u (writeS (writeR (afterShifter u s))))

/-- After step 14 (R127 to R129). -/
def afterHooks (u : Micro) (s : State) : State :=
  blockHook s.currentTask (switchBank u s.currentTask (lateF2 u s.currentTask (afterWrites u s)))

/-- After step 16 (R130, R131). -/
def afterAll (u : Micro) (s : State) : State := finish s.currentTask (advance u s.currentTask (afterHooks u s))

/-- A cycle that neither waits nor halts is its stages. -/
theorem cpuStep_eq_afterAll (u : Micro) (s : State) (hr : allReady u s = true) (hs : s.halted = none)
    (h : (cpuStep u s).halted = none) : cpuStep u s = afterAll u s := by
  unfold cpuStep at h ⊢
  rw [if_pos hr] at h ⊢
  rw [runPhases_eq_foldl _ _ hs h]
  rfl

/-- A cycle that waits changes the completion code only (R112). -/
theorem cpuStep_wait (u : Micro) (s : State) (hr : allReady u s = false) :
    cpuStep u s = { s with completion := .memoryWait } := by
  unfold cpuStep
  rw [if_neg (by simp [hr])]

/-- What holds before the cycle and every phase keeps holds after it, halted or not. -/
theorem cpuStep_keeps (P : State → Prop) (u : Micro) (s : State) (hf : ∀ f ∈ cpuPhases u s.currentTask, ∀ x, P x → P (f x))
    (hw : P { s with completion := .memoryWait }) (h : P s) : P (cpuStep u s) := by
  unfold cpuStep
  split
  · exact runPhases_keeps P _ hf s h
  · exact hw

/-- A property of every phase of a cycle, phase by phase. -/
theorem forall_cpuPhases (Q : (State → State) → Prop) (u : Micro) (k : TaskNum)
    (h1 : Q (beginMicro u k)) (h2 : Q (earlySelect u k)) (h3 : Q (busSource u k)) (h4 : Q (maskConstant u)) (h5 : Q maskCram)
    (h6 : Q (earlyBus u)) (h7 : Q (runAlu u k)) (h8 : Q deferredCramWrite) (h9 : Q (runF1 u k)) (h10 : Q (runF2 u k))
    (h11 : Q (runShifter u)) (h12 : Q (shifterBranch u)) (h13 : Q writeR) (h14 : Q writeS) (h15 : Q (writeT u))
    (h16 : Q (writeL u k)) (h17 : Q (lateF2 u k)) (h18 : Q (switchBank u k)) (h19 : Q (blockHook k)) (h20 : Q (advance u k))
    (h21 : Q (finish k)) : ∀ f ∈ cpuPhases u k, Q f := by
  intro f hf
  simp only [cpuPhases, List.mem_cons, List.not_mem_nil, or_false] at hf
  rcases hf with rfl | rfl | rfl | rfl | rfl | rfl | rfl | rfl | rfl | rfl | rfl | rfl | rfl | rfl | rfl | rfl | rfl | rfl |
    rfl | rfl | rfl <;> assumption

end Sys2Proof.Machine
end

