-- ==== Sys2Proof/Laws/Hooks.lean ====
section
/-! SUPPORT. What a task's hooks do when only allowed actions are among theirs: the answer is the same in every state with
the same parameters, and a harmless hook is one change of the next address and of the device log. -/

namespace Sys2Proof.Machine

/-- What a hook that does allowed actions only answers: a plain word and allowed actions, whatever the state. -/
theorem hookAnswer_of_only (ok : HookAction → Bool) (k : TaskNum) (p : HookPoint) (s : State)
    (h : hooksOnly ok k s = true) :
    hookAnswer k p s = none ∨ ∃ w acts, acts.all ok = true ∧
      ∀ s' : State, s'.params = s.params → hookAnswer k p s' = some ⟨.word w, acts⟩ := by
  unfold hookAnswer
  cases hf : s.params.hooks.find? (fun e => e.task == k && e.point == p) with
  | none => exact .inl rfl
  | some e =>
    right
    have hm := List.mem_of_find?_eq_some hf
    have hp := List.find?_some hf
    have he : hookOnly ok e.hook = true := by
      have h1 := List.all_eq_true.mp h e hm
      simp only [Bool.and_eq_true, beq_iff_eq] at hp
      simpa [hp.1] using h1
    match hh : e.hook with
    | .free =>
      rw [hh] at he
      exact absurd he (by simp [hookOnly])
    | .fixed ⟨.readMd, acts⟩ =>
      rw [hh] at he
      exact absurd he (by simp [hookOnly])
    | .fixed ⟨.word w, acts⟩ =>
      rw [hh] at he
      refine ⟨w, acts, he, fun s' hs' => ?_⟩
      rw [hs', hf]
      simp [hh]

/-- A hook's answer does not depend on the state beyond its parameters. -/
theorem hookAnswer_congr (ok : HookAction → Bool) (k : TaskNum) (p : HookPoint) (s s' : State)
    (h : hooksOnly ok k s = true) (hs : s'.params = s.params) : hookAnswer k p s' = hookAnswer k p s := by
  rcases hookAnswer_of_only ok k p s h with hn | ⟨w, acts, -, hw⟩
  · rw [hn]
    unfold hookAnswer at hn ⊢
    rw [hs]
    cases hf : s.params.hooks.find? (fun e => e.task == k && e.point == p) with
    | none => rfl
    | some e =>
      rw [hf] at hn
      cases hn
  · rw [hw s' hs, hw s rfl]

/-- The change a list of harmless actions makes: the next-address bits they OR in, at a point that builds the modifier
(`build`), and the device calls they make. -/
def quietChange (k : TaskNum) (build : Bool) (acts : List HookAction) (s : State) : State :=
  { s with
    scratch := { s.scratch with
      nextModifier := if build then s.scratch.nextModifier ||| modifierOf acts else s.scratch.nextModifier }
    deviceCalls := callsOf k acts ++ s.deviceCalls }

theorem quietChange_nil (k : TaskNum) (build : Bool) (s : State) : quietChange k build [] s = s := by
  simp [quietChange, modifierOf, callsOf]

theorem quietChange_cons (k : TaskNum) (p : HookPoint) (a : HookAction) (rest : List HookAction) (s : State)
    (ha : harmlessAction a = true) :
    quietChange k (buildsModifier p) rest (hookAction k p a s) = quietChange k (buildsModifier p) (a :: rest) s := by
  cases a with
  | orNextModifier m =>
    cases hb : buildsModifier p <;>
      simp [quietChange, hookAction, State.orModifier, State.onScratch, modifierOf, callsOf, BitVec.or_assoc, hb]
  | device d =>
    simp only [quietChange, hookAction, State.logCall, modifierOf, callsOf, List.append_assoc, List.singleton_append]
  | setLoadR | setRSelect | setAlu | setSh | setTaskFired | setBlockFired | setShift | loadMar | storeMd | readMd | wakeupTask | blockTask =>
    exact absurd ha (by simp [harmlessAction])

/-- Harmless actions do their quiet change and nothing else. -/
theorem hookActions_harmless (k : TaskNum) (p : HookPoint) (acts : List HookAction) (s : State)
    (ha : acts.all harmlessAction = true) (hs : s.halted = none) :
    hookActions k p acts s = quietChange k (buildsModifier p) acts s := by
  induction acts generalizing s with
  | nil => exact (quietChange_nil k _ s).symm
  | cons a rest ih =>
    simp only [List.all_cons, Bool.and_eq_true] at ha
    have hh : (hookAction k p a s).halted = none := by
      cases a with
      | orNextModifier =>
        simp only [hookAction]
        split <;> exact hs
      | _ => first | exact hs | exact absurd ha.1 (by simp [harmlessAction])
    rw [← quietChange_cons k p a rest s ha.1, ← ih _ ha.2 hh]
    unfold hookActions
    rw [List.map_cons, runPhases_cons_of_running _ _ _ hh]

/-- Allowed actions keep what each of them keeps. -/
theorem hookActions_keeps (P : State → Prop) (ok : HookAction → Bool) (k : TaskNum) (p : HookPoint) (acts : List HookAction)
    (hok : ∀ a, ok a = true → ∀ s, P s → P (hookAction k p a s)) (ha : acts.all ok = true) (s : State) (h : P s) :
    P (hookActions k p acts s) := by
  refine runPhases_keeps P _ ?_ s h
  intro f hf x hx
  obtain ⟨a, hm, rfl⟩ := List.mem_map.mp hf
  exact hok a (List.all_eq_true.mp ha a hm) x hx

/-- The actions of a hook of a task with harmless hooks are harmless. -/
theorem hookActs_harmless (p : HookPoint) (s : State) (h : hooksHarmless s.currentTask s = true) :
    (hookActs p s).all harmlessAction = true := by
  unfold hookActs
  rcases hookAnswer_of_only harmlessAction s.currentTask p s h with hn | ⟨w, acts, ha, hw⟩
  · rw [hn]
    rfl
  · rw [hw s rfl]
    exact ha

/-- An optional hook of a task with harmless hooks is one quiet change. -/
theorem optionalHook_harmless (p : HookPoint) (s0 s : State) (h : hooksHarmless s0.currentTask s0 = true)
    (hp : s.params = s0.params) (hs : s.halted = none) :
    optionalHook s0.currentTask p s = quietChange s0.currentTask (buildsModifier p) (hookActs p s0) s := by
  have ha := hookActs_harmless p s0 h
  unfold optionalHook
  rw [hookAnswer_congr harmlessAction s0.currentTask p s0 s h hp]
  unfold hookActs at ha ⊢
  split
  · rw [‹hookAnswer s0.currentTask p s0 = none›]
    exact (quietChange_nil _ _ s).symm
  · rw [‹hookAnswer s0.currentTask p s0 = some _›] at ha ⊢
    exact hookActions_harmless _ _ _ _ ha hs

/-- A present hook of a field code of a task with harmless hooks is one quiet change. -/
theorem codeHook_harmless (p : HookPoint) (f : Fault) (s0 s : State) (h : hooksHarmless s0.currentTask s0 = true)
    (hp : s.params = s0.params) (hs : s.halted = none) (hpres : (hookAnswer s0.currentTask p s0).isSome = true) :
    codeHook s0.currentTask p f s = quietChange s0.currentTask (buildsModifier p) (hookActs p s0) s := by
  have ha := hookActs_harmless p s0 h
  unfold codeHook
  rw [hookAnswer_congr harmlessAction s0.currentTask p s0 s h hp]
  unfold hookActs at ha ⊢
  split
  · rw [‹hookAnswer s0.currentTask p s0 = none›] at hpres
    cases hpres
  · rw [‹hookAnswer s0.currentTask p s0 = some _›] at ha ⊢
    exact hookActions_harmless _ _ _ _ ha hs

/-- A bus hook of a task with harmless hooks is one quiet change and a word on the bus. -/
theorem busHook_harmless (p : HookPoint) (s0 s : State) (h : hooksHarmless s0.currentTask s0 = true)
    (hp : s.params = s0.params) (hs : s.halted = none) (hpres : (hookAnswer s0.currentTask p s0).isSome = true) :
    busHook s0.currentTask p s
      = (quietChange s0.currentTask (buildsModifier p) (hookActs p s0) s).setBus (hookWord p s0) := by
  have ha := hookActs_harmless p s0 h
  rcases hookAnswer_of_only harmlessAction s0.currentTask p s0 h with hn | ⟨w, acts, hacts, hw⟩
  · rw [hn] at hpres
    cases hpres
  · unfold busHook hookActs hookWord at *
    rw [hw s hp, hw s0 rfl]
    have he := hookActions_harmless s0.currentTask p acts s hacts hs
    have hh : (hookActions s0.currentTask p acts s).halted = none := by
      rw [he]
      exact hs
    show runPhases [hookActions s0.currentTask p acts, hookBus (.word w)] s = _
    rw [runPhases_cons_of_running _ _ _ hh, runPhases_cons, he]
    split <;> rfl

end Sys2Proof.Machine
end

