-- ==== Sys2Proof/Laws/Run.lean ====
section
/-! SUPPORT. The stages of a microinstruction of a task with harmless hooks, each as one explicit change of the state the tick
started with, up to the ALU, and that none of the later stages faults where `mayRun` says so. -/

namespace Sys2Proof.Machine

/-! ## The conditions, taken apart -/

theorem mayStart_iff (u : Micro) (s : State) :
    mayStart u s = true ↔ s.halted = none ∧ allReady u s = true ∧ u.fits (emulatorRuns s) = true
      ∧ hooksHarmless s.currentTask s = true := by
  unfold mayStart State.running
  simp [and_assoc]

theorem mayReachAlu_iff (u : Micro) (s : State) :
    mayReachAlu u s = true ↔ mayStart u s = true ∧ hooksPresent (busHooks u) s = true
      ∧ (u.bs = .readMd → mdReadable s = true) ∧ (Bank.get s.rdRamPending s.currentTask = true → cramReadable s = true) := by
  unfold mayReachAlu
  simp only [Bool.and_eq_true, Bool.or_eq_true, bne_iff_ne, Bool.not_eq_true', and_assoc, ← imp_iff_not_or, ne_eq]
  constructor <;> rintro ⟨a, b, c, d⟩ <;> refine ⟨a, b, c, ?_⟩
  · intro h
    exact d.resolve_left (by simp [h])
  · by_cases h : Bank.get s.rdRamPending s.currentTask = true
    · exact .inr (d h)
    · exact .inl (by simpa using h)

theorem mayReachF1_iff (u : Micro) (s : State) :
    mayReachF1 u s = true ↔ mayReachAlu u s = true ∧ u.aluf ≠ .reserved14 ∧ u.aluf ≠ .reserved15
      ∧ (Bank.get s.wrtRamPending s.currentTask = true → cramWritable s = true) := by
  unfold mayReachF1
  simp only [Bool.and_eq_true, Bool.or_eq_true, bne_iff_ne, Bool.not_eq_true', and_assoc, ne_eq]
  constructor <;> rintro ⟨a, b, c, d⟩ <;> refine ⟨a, b, c, ?_⟩
  · intro h
    exact d.resolve_left (by simp [h])
  · by_cases h : Bank.get s.wrtRamPending s.currentTask = true
    · exact .inr (d h)
    · exact .inl (by simpa using h)

theorem mayReachF2_iff (u : Micro) (s : State) :
    mayReachF2 u s = true ↔ mayReachF1 u s = true ∧ u.f1 ≠ .reserved12 ∧ hooksPresent (f1Hooks u) s = true
      ∧ (u.f1 = .block → s.currentTask ≠ 0) := by
  unfold mayReachF2
  simp only [Bool.and_eq_true, Bool.or_eq_true, bne_iff_ne, and_assoc, ne_eq, ← imp_iff_not_or]

theorem mayReachShifter_iff (u : Micro) (s : State) :
    mayReachShifter u s = true ↔ mayReachF2 u s = true ∧ u.f2 ≠ .reserved15 ∧ hooksPresent (f2Hooks u) s = true
      ∧ (u.f2 = .storeMd → isXmar s.params u = true ∨ (s.memActive = true ∧ u.f1 ≠ .loadMar)) := by
  unfold mayReachShifter
  simp only [Bool.and_eq_true, Bool.or_eq_true, bne_iff_ne, and_assoc, ne_eq]
  constructor <;> rintro ⟨a, b, c, d⟩ <;> refine ⟨a, b, c, ?_⟩ <;> tauto

theorem mayRun_iff (u : Micro) (s : State) :
    mayRun u s = true ↔ mayReachShifter u s = true ∧ ¬(u.f1 = .lLcy8 ∧ u.f2 = .magic ∧ u.bs = .loadR)
      ∧ (Bank.get s.swModePending s.currentTask = true → switchKnown u s = true) := by
  unfold mayRun
  simp only [Bool.and_eq_true, Bool.or_eq_true, Bool.not_eq_true', and_assoc]
  constructor <;> rintro ⟨a, b, c⟩ <;> refine ⟨a, ?_, ?_⟩
  · rintro ⟨h1, h2, h3⟩
    simp [h1, h2, h3] at b
  · intro h
    exact c.resolve_left (by simp [h])
  · by_contra hb
    simp only [Bool.not_eq_false, Bool.and_eq_true, beq_iff_eq] at hb
    exact b ⟨hb.1.1, hb.1.2, hb.2⟩
  · by_cases h : Bank.get s.swModePending s.currentTask = true
    · exact .inr (c h)
    · exact .inl (by simpa using h)

/-- The Emulator's early F2 functions are decoded in the Emulator only. -/
theorem fits_emulator_f2 (u : Micro) (s : State) (h : u.fits (emulatorRuns s) = true)
    (hf : u.f2 = .acdest ∨ u.f2 = .acsource ∨ u.f2 = .loadDns) : s.currentTask = 0 := by
  unfold Micro.fits at h
  simp only [Bool.and_eq_true] at h
  have h2 := h.2
  by_contra hk
  have : emulatorRuns s = false := by simp [emulatorRuns, hk]
  rw [this] at h2
  rcases hf with hf | hf | hf <;> rw [hf] at h2 <;> simp [F2Fn.fits] at h2

/-! ## Steps 3 and 4 -/

theorem modifierOf_append (a b : List HookAction) : modifierOf (a ++ b) = modifierOf a ||| modifierOf b := by
  induction a with
  | nil => simp [modifierOf]
  | cons x rest ih => cases x <;> simp [modifierOf, ih, BitVec.or_assoc]

theorem callsOf_append (k : TaskNum) (a b : List HookAction) : callsOf k (a ++ b) = callsOf k b ++ callsOf k a := by
  induction a with
  | nil => simp [callsOf]
  | cons x rest ih => cases x <;> simp [callsOf, ih]

theorem quietChange_append (k : TaskNum) (build : Bool) (a b : List HookAction) (s : State) :
    quietChange k build b (quietChange k build a s) = quietChange k build (a ++ b) s := by
  cases build <;> simp [quietChange, modifierOf_append, callsOf_append, BitVec.or_assoc]

/-- The hook points a task runs before its bus source. -/
def earlyPoints (k : TaskNum) : List HookPoint := if k = 0 then [] else [.f1Early, .f2Early]

/-- The actions of a list of the executing task's hook points. -/
def actsAt (points : List HookPoint) (s : State) : List HookAction := points.flatMap fun p => hookActs p s

/-- The state after step 4a: the scratch set up, the carried flags taken, the register selected, the early hooks run. -/
def selected (u : Micro) (s : State) : State :=
  quietChange s.currentTask false (actsAt (earlyPoints s.currentTask) s)
    { beginMicro u s.currentTask s with
      scratch := { (beginMicro u s.currentTask s).scratch with
        rSelect := selectedR u s
        loadR := u.f2 == .loadDns && (dnsEarly (beginMicro u s.currentTask s)).2.1
        shift := if u.f2 = .loadDns then { ShiftConfig.clear with dns := true, dnsCarry := dnsCarryIn u s }
          else ShiftConfig.clear } }

theorem afterSelect_eq (u : Micro) (s : State) (h : mayStart u s = true) : afterSelect u s = selected u s := by
  obtain ⟨hs, -, hfit, hh⟩ := (mayStart_iff u s).mp h
  unfold afterSelect selected
  have emu := fits_emulator_f2 u s hfit
  by_cases h1 : u.f2 = .acdest
  · have hk := emu (.inl h1)
    simp [earlySelect, hk, earlyPoints, actsAt, quietChange_nil, selectedR, h1, f2AcdestEarly, State.onScratch, beginMicro, Scratch.clear,
      ShiftConfig.clear]
  by_cases h2 : u.f2 = .acsource
  · have hk := emu (.inr (.inl h2))
    simp [earlySelect, hk, earlyPoints, actsAt, quietChange_nil, selectedR, h2, f2AcsourceEarly, State.onScratch, beginMicro, Scratch.clear,
      ShiftConfig.clear]
  by_cases h3 : u.f2 = .loadDns
  · have hk := emu (.inr (.inr h3))
    simp [earlySelect, hk, earlyPoints, actsAt, quietChange_nil, selectedR, h3, f2LoadDnsEarly, State.onScratch, beginMicro, Scratch.clear,
      ShiftConfig.clear, dnsCarryIn]
  have hmatch : earlySelect u s.currentTask (beginMicro u s.currentTask s)
      = if s.currentTask = 0 then beginMicro u s.currentTask s
        else runPhases [optionalHook s.currentTask .f1Early, optionalHook s.currentTask .f2Early]
          (beginMicro u s.currentTask s) := by
    unfold earlySelect
    split <;> simp_all
  rw [hmatch]
  have hbase : { beginMicro u s.currentTask s with
      scratch := { (beginMicro u s.currentTask s).scratch with
        rSelect := selectedR u s
        loadR := u.f2 == .loadDns && (dnsEarly (beginMicro u s.currentTask s)).2.1
        shift := if u.f2 = .loadDns then { ShiftConfig.clear with dns := true, dnsCarry := dnsCarryIn u s }
          else ShiftConfig.clear } } = beginMicro u s.currentTask s := by
    have hsel : selectedR u s = u.rselect := by
      unfold selectedR
      split <;> simp_all
    simp [hsel, h3, beginMicro, Scratch.clear]
  rw [hbase]
  split
  · rename_i hk
    simp [earlyPoints, hk, actsAt, quietChange_nil]
  · rename_i hk
    have hb : (beginMicro u s.currentTask s).halted = none := hs
    have e1 := optionalHook_harmless .f1Early s (beginMicro u s.currentTask s) hh rfl hb
    have hb1 : (optionalHook s.currentTask .f1Early (beginMicro u s.currentTask s)).halted = none := by
      rw [e1]
      exact hb
    have e2 := optionalHook_harmless .f2Early s (optionalHook s.currentTask .f1Early (beginMicro u s.currentTask s)) hh
      (by rw [e1]; rfl) hb1
    have hb2 : (optionalHook s.currentTask .f2Early
        (optionalHook s.currentTask .f1Early (beginMicro u s.currentTask s))).halted = none := by
      rw [e2]
      exact hb1
    rw [runPhases_cons_of_running _ _ _ hb1, runPhases_cons_of_running _ _ _ hb2, runPhases_nil, e2, e1]
    show quietChange _ false _ (quietChange _ false _ _) = _
    rw [quietChange_append]
    simp [earlyPoints, hk, actsAt]

/-! ## Steps 4 and 4b: the bus -/

theorem modifierOf_nil : modifierOf [] = 0#10 := rfl

theorem actsAt_nil (s : State) : actsAt [] s = [] := rfl

theorem actsAt_singleton (p : HookPoint) (s : State) : actsAt [p] s = hookActs p s := by simp [actsAt]

/-- A read of MD that does not fault: the word `sourceWord` names, and the mark of a read in cycle 5. -/
theorem readMd_readable (u : Micro) (s x : State) (hb : u.bs = .readMd) (hr : mdReadable s = true)
    (h1 : x.dwMixed = s.dwMixed) (h2 : x.memActive = s.memActive) (h3 : x.memCycle = s.memCycle)
    (h4 : x.memRd5 = s.memRd5) (h5 : x.memData = s.memData) (h6 : x.memData2 = s.memData2) :
    readMd x = .ok (sourceWord u s, { x with memRd5 := s.memRd5 || (s.memActive && s.memCycle == 5) }) := by
  unfold mdReadable at hr
  simp only [Bool.and_eq_true, Bool.not_eq_true'] at hr
  unfold readMd sourceWord
  rw [h1, h2, h3, h4, h5, h6, hb]
  simp only [hr.1, Bool.false_eq_true, if_false]
  by_cases ha : s.memActive = true
  · by_cases h5 : s.memCycle = 5
    · simp [ha, h5]
    · by_cases h6 : s.memCycle = 6
      · have h7 : s.memRd5 = true := by simpa [ha, h6] using hr.2
        cases x
        simp_all
      · cases x
        simp_all
  · cases x
    simp_all

/-- The state after the bus source of a microinstruction that reaches the ALU. -/
theorem busSource_running (u : Micro) (s : State) (h : mayReachAlu u s = true) :
    busSource u s.currentTask (selected u s) = { selected u s with
      scratch := { (selected u s).scratch with
        busData := sourceWord u s
        loadR := loadsR u s
        loadS := u.bs == .loadS }
      memRd5 := s.memRd5 || (u.bs == .readMd && s.memActive && s.memCycle == 5)
      deviceCalls := (busSource u s.currentTask (selected u s)).deviceCalls } := by
  obtain ⟨h0, hp, hmd, -⟩ := (mayReachAlu_iff u s).mp h
  obtain ⟨hs, -, -, hh⟩ := (mayStart_iff u s).mp h0
  have hsel : (selected u s).halted = none := hs
  unfold busSource
  cases hb : u.bs with
  | readR => simp [bsReadR, readR, loadsR, sourceWord, hb, selected, quietChange, State.setBus,
      State.onScratch, beginMicro, Scratch.clear]
  | loadR => simp [bsLoadR, loadsR, sourceWord, hb, selected, quietChange,
      State.onScratch, beginMicro, Scratch.clear]
  | none => simp [bsNone, loadsR, sourceWord, hb, selected, quietChange, State.setBus,
      State.onScratch, beginMicro, Scratch.clear]
  | readMd =>
    simp only [bsReadMd]
    rw [readMd_readable u s (selected u s) hb (hmd hb) rfl rfl rfl rfl rfl rfl]
    simp [loadsR, hb, selected, quietChange, State.setBus, State.onScratch, beginMicro,
      Scratch.clear]
  | readMouse =>
    simp [bsReadMouse, loadsR, sourceWord, hb, selected, quietChange, State.setBus,
      State.logCall, State.onScratch, beginMicro, Scratch.clear, callsBeforeBus, earlyPoints, actsAt]
  | readDisp => simp [bsReadDisp, loadsR, sourceWord, hb, selected, quietChange, State.setBus,
      State.onScratch, beginMicro, Scratch.clear]
  | readS => simp [bsReadS, readS, loadsR, sourceWord, hb, selected, quietChange, State.setBus,
      State.onScratch, beginMicro, Scratch.clear]
  | loadS => simp [bsLoadS, loadsR, sourceWord, hb, selected, quietChange,
      State.onScratch, beginMicro, Scratch.clear]
  | taskSpecific1 =>
    have hq : (hookAnswer s.currentTask .bs3 s).isSome = true := by simpa [hooksPresent, busHooks, hb] using hp
    simp only [bsTaskSpecific1]
    rw [busHook_harmless .bs3 s (selected u s) hh rfl hsel hq]
    simp [buildsModifier, loadsR, sourceWord, hb, selected, quietChange, State.setBus, State.onScratch, beginMicro,
      Scratch.clear]
  | taskSpecific2 =>
    have hq : (hookAnswer s.currentTask .bs4 s).isSome = true := by simpa [hooksPresent, busHooks, hb] using hp
    simp only [bsTaskSpecific2]
    rw [busHook_harmless .bs4 s (selected u s) hh rfl hsel hq]
    simp [buildsModifier, loadsR, sourceWord, hb, selected, quietChange, State.setBus, State.onScratch, beginMicro,
      Scratch.clear]

/-- The mask of all ones leaves a word as it is. -/
theorem and_ones (w : Word) : w &&& 0xFFFF#16 = w := BitVec.and_allOnes

/-- A control-RAM read that does not fault. -/
theorem cramRead_readable (s : State) (h : cramReadable s = true) : ∃ w, cramRead s = .ok w := by
  unfold cramReadable at h
  simp only [Bool.and_eq_true, Bool.not_eq_true', decide_eq_true_eq] at h
  unfold cramRead
  rw [if_neg (by rw [h.1]; decide), if_neg (by omega)]
  exact ⟨_, rfl⟩

/-- A control-RAM read that does not fault reads the same word in every state with the same address and control RAM. -/
theorem cramRead_congr (s x : State) (w : Word) (h : cramRead s = .ok w) (h1 : x.cramAddr = s.cramAddr)
    (h2 : x.params = s.params) (h3 : x.uram = s.uram) : cramRead x = .ok w := by
  unfold cramRead at h ⊢
  rw [h1, h2, h3]
  split at h
  · cases h
  · rename_i hc
    rw [if_neg hc]
    split at h
    · cases h
    · rename_i hd
      rw [if_neg hd]
      exact h

/-- RSNF is decoded in the Emulator only, whose early hooks make no call. -/
theorem rsnf_calls (u : Micro) (s : State) (h : mayStart u s = true) (hf : u.f1 = .rsnf) : callsBeforeBus s = s.deviceCalls := by
  obtain ⟨-, -, hfit, -⟩ := (mayStart_iff u s).mp h
  unfold Micro.fits at hfit
  simp only [Bool.and_eq_true, hf, F1Fn.fits, emulatorRuns, beq_iff_eq] at hfit
  simp [callsBeforeBus, hfit.1.2, callsOf]

/-- The state after step 4b of a microinstruction that reaches the ALU. -/
theorem afterBus_eq (u : Micro) (s : State) (h : mayReachAlu u s = true) :
    afterBus u s = { selected u s with
      scratch := { (selected u s).scratch with
        busData := sourceWord u s &&& busMask u s
        loadR := loadsR u s
        loadS := u.bs == .loadS }
      memRd5 := s.memRd5 || (u.bs == .readMd && s.memActive && s.memCycle == 5)
      deviceCalls := (afterBus u s).deviceCalls } := by
  obtain ⟨h0, -, -, hc⟩ := (mayReachAlu_iff u s).mp h
  unfold afterBus
  rw [afterSelect_eq u s h0]
  have hbus := busSource_running u s h
  generalize hx : busSource u s.currentTask (selected u s) = x at hbus ⊢
  have e1 : maskConstant u x = x.setBus (sourceWord u s &&& constMask u s) := by
    rw [hbus]
    unfold maskConstant constMask
    split
    · rfl
    · rw [and_ones]
      rfl
  have e2 : maskCram (maskConstant u x) = x.setBus (sourceWord u s &&& constMask u s &&& cramMask s) := by
    rw [e1]
    unfold maskCram cramMask
    have hrd : (x.setBus (sourceWord u s &&& constMask u s)).scratch.rdRam = Bank.get s.rdRamPending s.currentTask := by
      rw [hbus]
      rfl
    rw [hrd]
    split
    · rename_i hp
      obtain ⟨w, hw⟩ := cramRead_readable s (hc hp)
      rw [cramRead_congr s _ w hw (by rw [hbus]; rfl) (by rw [hbus]; rfl) (by rw [hbus]; rfl), hw]
      rfl
    · rw [and_ones]
  rw [e2]
  have e3 : earlyBus u (x.setBus (sourceWord u s &&& constMask u s &&& cramMask s))
      = { x.setBus (sourceWord u s &&& busMask u s) with
        deviceCalls := (earlyBus u (x.setBus (sourceWord u s &&& constMask u s &&& cramMask s))).deviceCalls } := by
    unfold earlyBus busMask nodeMask
    split
    · rename_i hf
      have hcalls := rsnf_calls u s h0 hf
      have hd : x.deviceCalls = if u.bs = .readMouse then .mouse :: s.deviceCalls else s.deviceCalls := by
        have hk : s.currentTask = 0 := by
          obtain ⟨-, -, hfit, -⟩ := (mayStart_iff u s).mp h0
          unfold Micro.fits at hfit
          simp only [Bool.and_eq_true, hf, F1Fn.fits, emulatorRuns, beq_iff_eq] at hfit
          exact hfit.1.2
        have hds : (selected u s).deviceCalls = s.deviceCalls := by
          rw [← hcalls]
          simp [selected, quietChange, callsBeforeBus, earlyPoints, actsAt, beginMicro]
        have hfitbs : u.bs ≠ .taskSpecific1 ∧ u.bs ≠ .taskSpecific2 := by
          obtain ⟨-, -, hfit, -⟩ := (mayStart_iff u s).mp h0
          unfold Micro.fits at hfit
          simp only [Bool.and_eq_true, emulatorRuns, hk, beq_self_eq_true] at hfit
          constructor <;> intro hb <;> simp [hb, BusSrc.fits] at hfit
        clear hbus e1 e2
        rw [← hx]
        unfold busSource
        cases hb : u.bs with
        | readMd =>
          have hmd := ((mayReachAlu_iff u s).mp h).2.2.1 hb
          simp only [bsReadMd]
          rw [readMd_readable u s (selected u s) hb hmd rfl rfl rfl rfl rfl rfl]
          exact hds
        | readMouse => simp [bsReadMouse, hds]
        | taskSpecific1 => exact absurd hb hfitbs.1
        | taskSpecific2 => exact absurd hb hfitbs.2
        | readR | loadR | none | readDisp | readS | loadS => exact hds
      have ht : x.ticks = s.ticks := by
        rw [hbus]
        rfl
      have e : ∀ w : Word, f1RsnfEarly (x.setBus w)
          = { x.setBus (w &&& (0xFF00#16 ||| (Config.nodeId x.ticks x.deviceCalls).setWidth 16)) with
            deviceCalls := (f1RsnfEarly (x.setBus w)).deviceCalls } := fun _ => rfl
      rw [e, hd, ht]
      simp only [BitVec.and_assoc]
    · rw [and_ones, BitVec.and_assoc]
  rw [e3, hbus]
  rfl

end Sys2Proof.Machine
end

