-- ==== Sys2Proof/Laws/Stages.lean ====
section
/-! SUPPORT. The later stages of a microinstruction of a task with harmless hooks, each as one explicit change: the ALU, F1, F2,
the shifter, the writebacks, and the end. -/

namespace Sys2Proof.Machine

/-! ## Steps 5 and 6: the ALU -/

/-- What the ALU of a microinstruction gives (41_alu.md R158); nothing is claimed of a code without a function. -/
def aluOut (u : Micro) (s : State) : AluResult :=
  match alu u.aluf (sourceWord u s &&& busMask u s) s.t (skipIn s.currentTask s) with
  | .ok a => a
  | .error _ => ⟨0#16, false⟩

/-- Every ALU code but 14 and 15 has a function. -/
theorem alu_ok (f : AluFn) (b t : Word) (skip : Bool) (h14 : f ≠ .reserved14) (h15 : f ≠ .reserved15) :
    ∃ a, alu f b t skip = .ok a := by
  cases f <;> first | exact ⟨_, rfl⟩ | exact absurd rfl h14 | exact absurd rfl h15

/-- A control-RAM write that does not fault changes the control RAM only. -/
theorem cramWrite_writable (s x : State) (a m : Word) (h : cramWritable s = true) (h1 : x.cramAddr = s.cramAddr)
    (h2 : x.params = s.params) : cramWrite a m x = { x with uram := (cramWrite a m x).uram } := by
  unfold cramWritable at h
  unfold cramWrite
  split
  · rfl
  · rename_i hr
    rw [h1] at hr
    rw [Bool.or_eq_true] at h
    have := of_decide_eq_true (h.resolve_left hr)
    rw [if_neg (by rw [h1, h2]; omega)]

/-- The state after step 6 of a microinstruction that reaches F1. -/
theorem afterAlu_eq (u : Micro) (s : State) (h : mayReachF1 u s = true) :
    afterAlu u s = { selected u s with
      scratch := { (selected u s).scratch with
        busData := sourceWord u s &&& busMask u s
        loadR := loadsR u s
        loadS := u.bs == .loadS
        alu := (aluOut u s).value }
      aluCarry := (aluOut u s).carry
      memRd5 := s.memRd5 || (u.bs == .readMd && s.memActive && s.memCycle == 5)
      uram := (afterAlu u s).uram
      deviceCalls := (afterAlu u s).deviceCalls } := by
  obtain ⟨h0, h14, h15, hw⟩ := (mayReachF1_iff u s).mp h
  have hb := afterBus_eq u s h0
  have e : runAlu u s.currentTask (afterBus u s)
      = { (afterBus u s).onScratch (fun c => { c with alu := (aluOut u s).value }) with aluCarry := (aluOut u s).carry } := by
    obtain ⟨a, ha⟩ := alu_ok u.aluf (sourceWord u s &&& busMask u s) s.t (skipIn s.currentTask s) h14 h15
    unfold runAlu aluOut
    have hs : skipIn s.currentTask (afterBus u s) = skipIn s.currentTask s := by
      rw [hb]
      rfl
    have h1 : (afterBus u s).scratch.busData = sourceWord u s &&& busMask u s := by rw [hb]
    have h2 : (afterBus u s).t = s.t := by
      rw [hb]
      rfl
    rw [hs, h1, h2, ha]
  unfold afterAlu
  rw [e]
  unfold deferredCramWrite
  have hwr : ({ (afterBus u s).onScratch (fun c => { c with alu := (aluOut u s).value }) with
      aluCarry := (aluOut u s).carry } : State).scratch.wrtRam = Bank.get s.wrtRamPending s.currentTask := by
    rw [hb]
    rfl
  rw [hwr]
  split
  · rename_i hp
    rw [cramWrite_writable s _ _ _ (hw hp) (by rw [hb]; rfl) (by rw [hb]; rfl), hb]
    rfl
  · rw [hb]
    rfl

/-! ## Step 7: F1 -/

/-- The shifter configuration F1 asks for (44_f1.md R199 to R201). -/
def f1Shift (u : Micro) (g : ShiftConfig) : ShiftConfig :=
  match u.f1 with
  | .lLsh1 => { g with op := .shiftLeft, count := 1 }
  | .lRsh1 => { g with op := .shiftRight, count := 1 }
  | .lLcy8 => { g with op := .rotateLeft, count := 8 }
  | _ => g

/-- Whether F1 does a soft reset (46_emulator.md R246). -/
def softResets (u : Micro) (x : State) : Bool := decide (u.f1 = .startf) && x.scratch.busData.getLsbD 15

/-- What F1 does, where it does not fault, to the state `x` of a microinstruction that started in `s`. -/
theorem runF1_running (u : Micro) (s x : State) (h : mayReachF2 u s = true) (hx : x.halted = none)
    (hp : x.params = s.params) (hm : x.memActive = s.memActive) :
    runF1 u s.currentTask x = { x with
      scratch := { x.scratch with
        shift := f1Shift u x.scratch.shift
        nextModifier := x.scratch.nextModifier ||| modifierOf (actsAt (f1Hooks u) s)
        softReset := x.scratch.softReset || softResets u x
        blockFired := x.scratch.blockFired || decide (u.f1 = .block)
        taskFired := x.scratch.taskFired || (decide (u.f1 = .task) && !Bank.get x.firstAfterSwitch s.currentTask) }
      memActive := x.memActive || decide (u.f1 = .loadMar)
      memCycle := if u.f1 = .loadMar then 1 else x.memCycle
      memAddr := if u.f1 = .loadMar then x.scratch.alu else x.memAddr
      memTask := if u.f1 = .loadMar then s.currentTask else x.memTask
      memXM := if u.f1 = .loadMar then isXmar s.params u else x.memXM
      dwStore := if u.f1 = .loadMar then false else x.dwStore
      dwMixed := if u.f1 = .loadMar then false else x.dwMixed
      memRd5 := if u.f1 = .loadMar then false else x.memRd5
      wakeup := if u.f1 = .block then Bank.put x.wakeup s.currentTask false
        else if softResets u x then (softReset x).wakeup else x.wakeup
      swModePending := if u.f1 = .swmode then Bank.put x.swModePending 0 true else x.swModePending
      wrtRamPending := if u.f1 = .wrtram then Bank.put x.wrtRamPending 0 true else x.wrtRamPending
      rdRamPending := if u.f1 = .rdram then Bank.put x.rdRamPending 0 true else x.rdRamPending
      rmr := if u.f1 = .loadRmr then x.scratch.busData else if softResets u x then 0#16 else x.rmr
      rb := if u.f1 = .loadEsrb then x.scratch.busData.extractLsb' 1 3 else x.rb
      bank := if softResets u x then banksOfRmr x.rmr else x.bank
      mpc := if softResets u x then (softReset x).mpc else x.mpc
      currentTask := if softResets u x then 0 else x.currentTask
      nextTask := if softResets u x then none else x.nextTask
      deviceCalls := (runF1 u s.currentTask x).deviceCalls } := by
  obtain ⟨h0, h12, hpres, hblk⟩ := (mayReachF2_iff u s).mp h
  obtain ⟨h1, -⟩ := (mayReachF1_iff u s).mp h0
  obtain ⟨h2, -⟩ := (mayReachAlu_iff u s).mp h1
  obtain ⟨hs, hr, -, hh⟩ := (mayStart_iff u s).mp h2
  have ones : ∀ w : MicroAddr, w ||| 0#10 = w := fun w => BitVec.or_zero
  unfold runF1
  cases hf : u.f1 with
  | loadMar =>
    have ha : x.memActive = false := by
      unfold allReady readyLoadAddress at hr
      simp only [Bool.and_eq_true, hf] at hr
      rw [hm]
      simpa using hr.1.1
    simp only [f1LoadMar, loadMar, ha, Bool.false_eq_true, if_false, softResets, f1Shift, f1Hooks, hf, actsAt_nil, modifierOf_nil,
      ones, hp]
    simp
  | block =>
    have hk := hblk hf
    simp only [f1Block, if_neg hk, softResets, f1Shift, f1Hooks, hf, actsAt_nil, modifierOf_nil, ones]
    simp [State.onScratch]
  | reserved12 => exact absurd hf h12
  | startf =>
    simp only [f1Startf, softResets, f1Shift, f1Hooks, hf, actsAt_nil, modifierOf_nil, ones]
    cases hb : x.scratch.busData.getLsbD 15
    · by_cases h0 : x.scratch.busData = 0#16
      · rw [if_neg Bool.false_ne_true, if_neg (not_not.mpr h0)]
        simp
      · rw [if_neg Bool.false_ne_true, if_pos h0]
        simp [State.logCall]
    · simp [State.onScratch, softReset]
  | task =>
    simp only [f1Task, softResets, f1Shift, f1Hooks, hf, actsAt_nil, modifierOf_nil, ones]
    cases hb : Bank.get x.firstAfterSwitch s.currentTask <;> simp [State.onScratch]
  | none | constant | rsnf | loadRmr | loadEsrb | swmode | wrtram | rdram =>
    simp only [f1None, f1Constant, f1Rsnf, f1LoadRmr, f1LoadEsrb, f1Swmode, f1Wrtram, f1Rdram, softResets, f1Shift, f1Hooks, hf,
      actsAt_nil, modifierOf_nil, ones]
    simp
  | lLsh1 | lRsh1 | lLcy8 =>
    simp only [f1LLsh1, f1LRsh1, f1LLcy8, setShiftOp, State.onScratch, softResets, f1Shift, f1Hooks, hf, actsAt_nil,
      modifierOf_nil, ones]
    simp
  | taskSpecific8 | taskSpecific9 | taskSpecific10 | taskSpecific11 | taskSpecific12 | taskSpecific13 | taskSpecific14 |
    taskSpecific15 =>
    have hq : ∀ p ∈ f1Hooks u, (hookAnswer s.currentTask p s).isSome = true := List.all_eq_true.mp hpres
    simp only [f1Hooks, hf, List.mem_singleton, forall_eq] at hq
    simp only [f1TaskSpecific8, f1TaskSpecific9, f1TaskSpecific10, f1TaskSpecific11, f1TaskSpecific12, f1TaskSpecific13,
      f1TaskSpecific14, f1TaskSpecific15]
    rw [codeHook_harmless _ .f1 s x hh hp hx hq]
    simp [buildsModifier, quietChange, softResets, f1Shift, f1Hooks, hf, actsAt_singleton]

/-! ## Step 8: F2 -/

/-- Whether F2 stores a word (45_f2.md R221). -/
def storesWord (u : Micro) : Bool := decide (u.f2 = .storeMd) && !decide (u.f1 = .loadMar)

/-- The next-address bits F2 ORs in at step 8 (45_f2.md R224, 46_emulator.md R250 to R255). -/
def f2Bits (u : Micro) (y : State) : MicroAddr :=
  match u.f2 with
  | .busEq0 => branchBit (y.scratch.busData == 0#16)
  | .bus => y.scratch.busData.extractLsb' 0 10
  | .alucy => branchBit y.scratch.aluC0Prev
  | .busodd => branchBit (y.scratch.busData.getLsbD 0)
  | .loadIr => loadIrModifier y.scratch.busData
  | .idisp => idispProm y.params y.ir
  | .acsource => acsourceProm y.params y.ir
  | _ => 0#10

/-- A write to the data space changes the main store, an XM bank register or the device log. -/
theorem memWrite_eq (a v : Word) (y : State) : memWrite a v y = { y with
    main := (memWrite a v y).main, xmBanks := (memWrite a v y).xmBanks, deviceCalls := (memWrite a v y).deviceCalls } := by
  unfold memWrite
  split
  · rfl
  · split <;> rfl

/-- A store that does not fault. -/
theorem storeMd_running (v : Word) (y : State) (ha : y.memActive = true) (hc : y.params.storeAfter < y.memCycle) :
    storeMd v y = { y with
      main := (memWrite (storeAddr y) v y).main, xmBanks := (memWrite (storeAddr y) v y).xmBanks
      deviceCalls := (memWrite (storeAddr y) v y).deviceCalls
      dwStore := y.dwStore || decide (y.memCycle = y.params.storeAfter + 1), dwMixed := true } := by
  unfold storeMd
  rw [if_neg (by simp [ha]), if_neg (by omega), memWrite_eq]

/-- What F2 does at step 8, where it does not fault, to the state `y` of a microinstruction that started in `s`. -/
theorem runF2_running (u : Micro) (s y : State) (h : mayReachShifter u s = true) (hy : y.halted = none)
    (hp : y.params = s.params) (hm : u.f1 ≠ .loadMar → y.memActive = s.memActive ∧ y.memCycle = s.memCycle) :
    runF2 u s.currentTask y = { y with
      scratch := { y.scratch with
        shift := { y.scratch.shift with magic := y.scratch.shift.magic || decide (u.f2 = .magic) }
        nextModifier := y.scratch.nextModifier ||| f2Bits u y ||| modifierOf (actsAt (f2Hooks u) s) }
      main := if storesWord u then (memWrite (storeAddr y) y.scratch.busData y).main else y.main
      xmBanks := if storesWord u then (memWrite (storeAddr y) y.scratch.busData y).xmBanks else y.xmBanks
      dwStore := y.dwStore || (storesWord u && decide (y.memCycle = y.params.storeAfter + 1))
      dwMixed := y.dwMixed || storesWord u
      ir := if u.f2 = .loadIr then y.scratch.busData else y.ir
      skip := if u.f2 = .loadIr ∧ y.params.irClearsSkip = true then false else y.skip
      deviceCalls := (runF2 u s.currentTask y).deviceCalls } := by
  obtain ⟨h0, h15, hpres, hst⟩ := (mayReachShifter_iff u s).mp h
  obtain ⟨h1, -⟩ := (mayReachF2_iff u s).mp h0
  obtain ⟨h2, -⟩ := (mayReachF1_iff u s).mp h1
  obtain ⟨h3, -⟩ := (mayReachAlu_iff u s).mp h2
  obtain ⟨hs, hr, -, hh⟩ := (mayStart_iff u s).mp h3
  have ones : ∀ w : MicroAddr, w ||| 0#10 = w := fun w => BitVec.or_zero
  unfold runF2
  cases hf : u.f2 with
  | storeMd =>
    by_cases hl : u.f1 = .loadMar
    · have hx : isXmar y.params u = true := by
        rw [hp]
        exact (hst hf).resolve_right (fun hc => hc.2 hl)
      simp only [f2StoreMd, hx, if_true, f2Bits, f2Hooks, hf, actsAt_nil, modifierOf_nil, ones, storesWord, hl]
      simp
    · obtain ⟨e1, e2⟩ := hm hl
      have hx : ∀ p, isXmar p u = false := by simp [isXmar, hl]
      have ha : s.memActive = true := by
        rcases hst hf with hc | hc
        · rw [hx] at hc
          cases hc
        · exact hc.1
      have hc : s.params.storeAfter < s.memCycle := by
        unfold allReady readyStore at hr
        simp only [hf, hx, ha, Bool.and_eq_true] at hr
        simpa using hr.2
      have hsw : storesWord u = true := by simp [storesWord, hf, hl]
      simp only [f2StoreMd, hx, Bool.false_eq_true, if_false]
      rw [storeMd_running _ y (by rw [e1, ha]) (by rw [e2, hp]; exact hc)]
      simp only [hsw, f2Bits, f2Hooks, hf, actsAt_nil, modifierOf_nil, ones]
      simp
  | loadIr =>
    have hsw : storesWord u = false := by simp [storesWord, hf]
    simp only [f2LoadIr, State.orModifier, State.onScratch, hsw, f2Bits, f2Hooks, hf, actsAt_nil, modifierOf_nil, ones]
    cases y.params.irClearsSkip <;> simp
  | reserved15 => exact absurd hf h15
  | magic =>
    have hsw : storesWord u = false := by simp [storesWord, hf]
    simp only [f2Magic, State.onScratch, hsw, f2Bits, f2Hooks, hf, actsAt_nil, modifierOf_nil, ones]
    simp
  | taskSpecific8 | taskSpecific9 | taskSpecific10 | taskSpecific11 | taskSpecific12 | taskSpecific13 | taskSpecific14 |
    taskSpecific15 =>
    have hsw : storesWord u = false := by simp [storesWord, hf]
    have hq : ∀ p ∈ f2Hooks u, (hookAnswer s.currentTask p s).isSome = true := List.all_eq_true.mp hpres
    simp only [f2Hooks, hf, List.mem_singleton, forall_eq] at hq
    simp only [f2TaskSpecific8, f2TaskSpecific9, f2TaskSpecific10, f2TaskSpecific11, f2TaskSpecific12, f2TaskSpecific13,
      f2TaskSpecific14, f2TaskSpecific15]
    rw [codeHook_harmless _ .f2 s y hh hp hy hq]
    simp only [hsw, f2Bits, f2Hooks, hf, actsAt_singleton, ones, quietChange, buildsModifier]
    simp
  | none | shLt0 | shEq0 | constant | loadDns | acdest =>
    have hsw : storesWord u = false := by simp [storesWord, hf]
    simp only [f2None, f2ShLt0, f2ShEq0, f2Constant, f2LoadDns, f2Acdest, hsw, f2Bits, f2Hooks, hf, actsAt_nil, modifierOf_nil,
      ones]
    simp
  | busEq0 | bus | alucy | busodd | idisp | acsource =>
    have hsw : storesWord u = false := by simp [storesWord, hf]
    simp only [f2BusEq0, f2Bus, f2Alucy, f2Busodd, f2Idisp, f2Acsource, State.orModifier, State.onScratch, hsw, f2Bits, f2Hooks,
      hf, actsAt_nil, modifierOf_nil, ones]
    simp

/-! ## Steps 9 and 10: the shifter -/

/-- The shifter's configuration when it runs (43_shifter.md R192). -/
def shiftOf (u : Micro) (s : State) : ShiftConfig :=
  { f1Shift u (if u.f2 = .loadDns then { ShiftConfig.clear with dns := true, dnsCarry := dnsCarryIn u s }
      else ShiftConfig.clear) with magic := decide (u.f2 = .magic) }

/-- The shifter of a microinstruction other than a magic rotate does not fault. -/
theorem shift_running (u : Micro) (s : State) (h : ¬(u.f1 = .lLcy8 ∧ u.f2 = .magic)) :
    shift (shiftOf u s) s.l s.t = .ok (shifterOut u s) := by
  have hd : u.f2 ≠ .loadDns → dnsCarryIn u s = false := by
    intro hn
    simp [dnsCarryIn, hn]
  unfold shiftOf shifterOut
  by_cases hm : u.f2 = .magic
  · have hc := hd (by rw [hm]; decide)
    cases hf : u.f1 with
    | lLcy8 => exact absurd ⟨hf, hm⟩ h
    | _ => simp [shift, shiftLeft, shiftRight, f1Shift, ShiftConfig.clear, hm, hf, hc]
  · by_cases hn : u.f2 = .loadDns
    · cases hf : u.f1 <;>
        simp [shift, shiftLeft, shiftRight, rotateLeft, f1Shift, ShiftConfig.clear, hn, hf]
    · have hc := hd hn
      cases hf : u.f1 <;>
        simp [shift, shiftLeft, shiftRight, rotateLeft, rotL, byteSwap, f1Shift, ShiftConfig.clear, hn, hm, hf, hc]

/-- The next-address bits of the branches on the shifter output (45_f2.md R217, R218). -/
def shifterBits (u : Micro) (s : State) : MicroAddr :=
  match u.f2 with
  | .shLt0 => branchBit ((shifterOut u s).1.getLsbD 15)
  | .shEq0 => branchBit ((shifterOut u s).1 == 0#16)
  | _ => 0#10

/-- Steps 9 and 10 on the state `z` of a microinstruction that started in `s`. -/
theorem runShifter_running (u : Micro) (s z : State) (hmag : ¬(u.f1 = .lLcy8 ∧ u.f2 = .magic ∧ u.bs = .loadR))
    (hl : z.scratch.loadR = loadsR u s)
    (hsh : z.scratch.shift = shiftOf u s) (hlp : z.scratch.lPrev = s.l) (ht : z.t = s.t) :
    shifterBranch u (runShifter u z) = { z with
      scratch := { z.scratch with
        sh := if needsShifter u s then (shifterOut u s).1 else 0#16
        shift := if needsShifter u s then { shiftOf u s with dnsCarry := (shifterOut u s).2 } else shiftOf u s
        nextModifier := z.scratch.nextModifier ||| shifterBits u s } } := by
  have hn : needShifterOutput u z = needsShifter u s := by
    unfold needShifterOutput needsShifter
    rw [hl]
  have e1 : runShifter u z = { z with
      scratch := { z.scratch with
        sh := if needsShifter u s then (shifterOut u s).1 else 0#16
        shift := if needsShifter u s then { shiftOf u s with dnsCarry := (shifterOut u s).2 } else shiftOf u s } } := by
    unfold runShifter
    rw [hn]
    by_cases hs : needsShifter u s = true
    · have hnm : ¬(u.f1 = .lLcy8 ∧ u.f2 = .magic) := by
        rintro ⟨h1, h2⟩
        have hb : u.bs = .loadR := by simpa [needsShifter, loadsR, h2] using hs
        exact hmag ⟨h1, h2, hb⟩
      have he : shift z.scratch.shift z.scratch.lPrev z.t = .ok (shifterOut u s) := by
        rw [hsh, hlp, ht, shift_running u s hnm]
      rw [if_pos hs, he]
      simp only [if_pos hs, ← hsh]
      rfl
    · rw [if_neg hs, if_neg hs, if_neg hs, ← hsh]
      rfl
  rw [e1]
  unfold shifterBranch shifterBits
  cases hf : u.f2 <;>
    simp [f2ShLt0Branch, f2ShEq0Branch, State.orModifier, State.onScratch, needsShifter, hf]

end Sys2Proof.Machine
end

