-- ==== Sys2Proof/Laws/Result.lean ====
section
/-! SUPPORT. A microinstruction that runs to its end, as one change of the state it started in: every field of the state after
it, from the state before. -/

namespace Sys2Proof.Machine

/-! ## What it computes -/

/-- The word on the bus: the source, masked. -/
def busWord (u : Micro) (s : State) : Word := sourceWord u s &&& busMask u s

/-- Whether it does a soft reset (46_emulator.md R246). -/
def softResetDue (u : Micro) (s : State) : Bool := decide (u.f1 = .startf) && (busWord u s).getLsbD 15

/-- The next-address bits its F2 ORs in at step 8. -/
def branchBits (u : Micro) (s : State) : MicroAddr :=
  match u.f2 with
  | .busEq0 => branchBit (busWord u s == 0#16)
  | .bus => (busWord u s).extractLsb' 0 10
  | .alucy => branchBit s.aluC0
  | .busodd => branchBit ((busWord u s).getLsbD 0)
  | .loadIr => loadIrModifier (busWord u s)
  | .idisp => idispProm s.params s.ir
  | .acsource => acsourceProm s.params s.ir
  | _ => 0#10

/-- The S-store bank after it (46_emulator.md R244). -/
def newRb (u : Micro) (s : State) : BitVec 3 := if u.f1 = .loadEsrb then (busWord u s).extractLsb' 1 3 else s.rb

/-- The microcode banks before a bank switch: those of a soft reset, if it does one. -/
def bankBefore (u : Micro) (s : State) : PerTask BankName := if softResetDue u s then banksOfRmr s.rmr else s.bank

/-- The carry and the skip flag LOAD_DNS leaves (46_emulator.md R257). -/
def dnsOut (u : Micro) (s : State) : Bool × Bool :=
  if s.params.emuDnsReplaced then Config.dnsLate s.ir s.novaCarry (shifterOut u s).2 (shifterOut u s).1
  else
    (if novaNoLoad s.ir then s.novaCarry else (shifterOut u s).2, novaSkip s.ir (shifterOut u s).2 (shifterOut u s).1)

/-! ## After the shifter -/

theorem dnsEarly_selected (u : Micro) (s : State) : dnsEarly (beginMicro u s.currentTask s)
    = if s.params.emuDnsReplaced then Config.dnsEarly s.ir s.novaCarry s.aluC0 u.rselect
      else (accumulatorSelect u.rselect (destField s.ir), !novaNoLoad s.ir, novaCarryIn s.ir s.novaCarry s.aluC0) := rfl

/-- Where the microinstruction stores, the address does not depend on what it did before F2. -/
theorem store_same (s y : State) (h1 : y.memCycle = s.memCycle) (h2 : y.params = s.params)
    (h3 : y.dwStore = s.dwStore) (h4 : y.memAddr = s.memAddr) (h5 : y.xmBanks = s.xmBanks) (h6 : y.main = s.main)
    (h7 : y.memTask = s.memTask) (h8 : y.memXM = s.memXM) (v : Word) :
    (memWrite (storeAddr y) v y).main = (memWrite (storeAddr s) v s).main
      ∧ (memWrite (storeAddr y) v y).xmBanks = (memWrite (storeAddr s) v s).xmBanks := by
  have ha : storeAddr y = storeAddr s := by
    unfold storeAddr
    rw [h1, h2, h3, h4]
  rw [ha]
  unfold memWrite physAddr
  rw [h2]
  split
  · exact ⟨h6, by rw [h5]⟩
  · split
    · exact ⟨h6, h5⟩
    · refine ⟨?_, h5⟩
      show y.main.writeWord _ v = s.main.writeWord _ v
      rw [h5, h6, h7, h8]

/-- The state after step 10 of a microinstruction that runs to its end. -/
theorem afterShifter_eq (u : Micro) (s : State) (h : mayRun u s = true) :
    afterShifter u s = { s with
      scratch := { (selected u s).scratch with
        busData := busWord u s
        loadR := loadsR u s
        loadS := u.bs == .loadS
        softReset := softResetDue u s
        blockFired := decide (u.f1 = .block)
        taskFired := decide (u.f1 = .task) && !Bank.get s.firstAfterSwitch s.currentTask
        nextModifier := modifierOf (actsAt (f1Hooks u) s) ||| branchBits u s ||| modifierOf (actsAt (f2Hooks u) s)
          ||| shifterBits u s
        alu := (aluOut u s).value
        sh := if needsShifter u s then (shifterOut u s).1 else 0#16
        shift := if needsShifter u s then { shiftOf u s with dnsCarry := (shifterOut u s).2 } else shiftOf u s }
      aluCarry := (aluOut u s).carry
      ir := if u.f2 = .loadIr then busWord u s else s.ir
      skip := if u.f2 = .loadIr ∧ s.params.irClearsSkip = true then false else s.skip
      rb := newRb u s
      rmr := if u.f1 = .loadRmr then busWord u s else if softResetDue u s then 0#16 else s.rmr
      bank := bankBefore u s
      mpc := if softResetDue u s then (softReset s).mpc else s.mpc
      currentTask := if softResetDue u s then 0 else s.currentTask
      nextTask := if softResetDue u s then none else s.nextTask
      wakeup := if u.f1 = .block then Bank.put s.wakeup s.currentTask false
        else if softResetDue u s then (softReset s).wakeup else s.wakeup
      swModePending := if u.f1 = .swmode then Bank.put (Bank.put s.swModePending s.currentTask false) 0 true
        else Bank.put s.swModePending s.currentTask false
      wrtRamPending := if u.f1 = .wrtram then Bank.put (Bank.put s.wrtRamPending s.currentTask false) 0 true
        else Bank.put s.wrtRamPending s.currentTask false
      rdRamPending := if u.f1 = .rdram then Bank.put (Bank.put s.rdRamPending s.currentTask false) 0 true
        else Bank.put s.rdRamPending s.currentTask false
      memActive := s.memActive || decide (u.f1 = .loadMar)
      memCycle := if u.f1 = .loadMar then 1 else s.memCycle
      memAddr := if u.f1 = .loadMar then (aluOut u s).value else s.memAddr
      memTask := if u.f1 = .loadMar then s.currentTask else s.memTask
      memXM := if u.f1 = .loadMar then isXmar s.params u else s.memXM
      dwStore := (if u.f1 = .loadMar then false else s.dwStore)
        || (storesWord u && decide (s.memCycle = s.params.storeAfter + 1))
      dwMixed := (if u.f1 = .loadMar then false else s.dwMixed) || storesWord u
      memRd5 := if u.f1 = .loadMar then false
        else s.memRd5 || (u.bs == .readMd && s.memActive && s.memCycle == 5)
      main := if storesWord u then (memWrite (storeAddr s) (busWord u s) s).main else s.main
      xmBanks := if storesWord u then (memWrite (storeAddr s) (busWord u s) s).xmBanks else s.xmBanks
      uram := (afterShifter u s).uram
      deviceCalls := (afterShifter u s).deviceCalls } := by
  obtain ⟨h4, hmag, -⟩ := (mayRun_iff u s).mp h
  obtain ⟨h3, h15, hpres, hst⟩ := (mayReachShifter_iff u s).mp h4
  obtain ⟨h2, -⟩ := (mayReachF2_iff u s).mp h3
  obtain ⟨h1, -⟩ := (mayReachF1_iff u s).mp h2
  obtain ⟨h0, -⟩ := (mayReachAlu_iff u s).mp h1
  obtain ⟨hs, hr, -, hh⟩ := (mayStart_iff u s).mp h0
  have hx := afterAlu_eq u s h2
  have hy := runF1_running u s (afterAlu u s) h3 (by rw [hx]; exact hs) (by rw [hx]; rfl) (by rw [hx]; rfl)
  have hsoft : softResets u (afterAlu u s) = softResetDue u s := by
    rw [hx]
    rfl
  have hf1 : runF1 u s.currentTask (afterAlu u s) = afterF1 u s := rfl
  rw [hf1] at hy
  rw [hsoft] at hy
  have hz := runF2_running u s (afterF1 u s) h4 (by rw [hy, hx]; exact hs) (by rw [hy, hx]; rfl)
    (fun hl => by rw [hy, hx]; exact ⟨by simp [hl, selected, quietChange, beginMicro], by simp [hl, selected, quietChange, beginMicro]⟩)
  have hf2 : runF2 u s.currentTask (afterF1 u s) = afterF2 u s := rfl
  rw [hf2] at hz
  have hw := runShifter_running u s (afterF2 u s) hmag (by rw [hz, hy, hx]) (by
    rw [hz, hy, hx]
    simp only [shiftOf, f1Shift, selected, quietChange]
    by_cases hd : u.f2 = .loadDns <;> cases hf : u.f1 <;> simp [hd, ShiftConfig.clear]) (by rw [hz, hy, hx]; rfl) (by rw [hz, hy, hx]; rfl)
  have hu : (afterShifter u s).uram = (afterAlu u s).uram := by
    show (shifterBranch u (runShifter u (afterF2 u s))).uram = _
    rw [hw]
    show (afterF2 u s).uram = _
    rw [hz]
    show (afterF1 u s).uram = _
    rw [hy]
  have hd : (afterShifter u s).deviceCalls = (afterF2 u s).deviceCalls := by
    show (shifterBranch u (runShifter u (afterF2 u s))).deviceCalls = _
    rw [hw]
  have hst : storesWord u = true → (memWrite (storeAddr (afterF1 u s)) (afterF1 u s).scratch.busData (afterF1 u s)).main
      = (memWrite (storeAddr s) (busWord u s) s).main
      ∧ (memWrite (storeAddr (afterF1 u s)) (afterF1 u s).scratch.busData (afterF1 u s)).xmBanks
      = (memWrite (storeAddr s) (busWord u s) s).xmBanks := by
    intro hsw
    have hl : u.f1 ≠ .loadMar := by
      intro hl
      simp [storesWord, hl] at hsw
    have hb : (afterF1 u s).scratch.busData = busWord u s := by
      rw [hy, hx]
      rfl
    rw [hb]
    refine store_same s (afterF1 u s) ?_ ?_ ?_ ?_ ?_ ?_ ?_ ?_ _ <;> rw [hy, hx] <;>
      simp [hl, selected, quietChange, beginMicro]
  rw [hu, hd]
  show shifterBranch u (runShifter u (afterF2 u s)) = _
  rw [hw]
  have hxb : (afterF2 u s).xmBanks
      = if storesWord u then (memWrite (storeAddr s) (busWord u s) s).xmBanks else s.xmBanks := by
    have e : (afterF2 u s).xmBanks
        = if storesWord u then (memWrite (storeAddr (afterF1 u s)) (afterF1 u s).scratch.busData (afterF1 u s)).xmBanks
          else (afterF1 u s).xmBanks := congrArg State.xmBanks hz
    rw [e]
    by_cases hsw : storesWord u = true
    · rw [if_pos hsw, if_pos hsw]
      exact (hst hsw).2
    · rw [if_neg hsw, if_neg hsw, hy, hx]
      rfl
  have hmain : (afterF2 u s).main = if storesWord u then (memWrite (storeAddr s) (busWord u s) s).main else s.main := by
    have e : (afterF2 u s).main
        = if storesWord u then (memWrite (storeAddr (afterF1 u s)) (afterF1 u s).scratch.busData (afterF1 u s)).main
          else (afterF1 u s).main := congrArg State.main hz
    rw [e]
    by_cases hsw : storesWord u = true
    · rw [if_pos hsw, if_pos hsw]
      exact (hst hsw).1
    · rw [if_neg hsw, if_neg hsw, hy, hx]
      rfl
  have hdws : (afterF2 u s).dwStore = ((if u.f1 = .loadMar then false else s.dwStore)
      || (storesWord u && decide (s.memCycle = s.params.storeAfter + 1))) := by
    rw [hz, hy, hx]
    by_cases hl : u.f1 = .loadMar
    · simp [storesWord, hl]
    · simp [hl, selected, quietChange, beginMicro]
  have hnm : (afterF2 u s).scratch.nextModifier
      = modifierOf (actsAt (f1Hooks u) s) ||| branchBits u s ||| modifierOf (actsAt (f2Hooks u) s) := by
    have hb : f2Bits u (afterF1 u s) = branchBits u s := by
      unfold f2Bits branchBits
      rw [hy, hx]
      rfl
    rw [hz]
    show (afterF1 u s).scratch.nextModifier ||| f2Bits u (afterF1 u s) ||| _ = _
    rw [hb, hy, hx]
    simp [selected, quietChange, beginMicro, Scratch.clear]
  simp only [State.mk.injEq, Scratch.mk.injEq, hxb, hmain, hdws, hnm, true_and, and_true]
  and_intros
  all_goals first
    | rfl
    | (rw [hz]; done)
    | (rw [hz, hy]; done)
    | (rw [hz, hy, hx]; done)
    | (rw [hz, hy, hx]; rfl)

/-! ## After the whole cycle -/

/-- The next-address bits of its functions: those of F2 at step 8 and those of the shifter branches. -/
def functionBits (u : Micro) (s : State) : MicroAddr := branchBits u s ||| shifterBits u s

theorem hookBits_eq (u : Micro) (s : State) :
    hookBits u s = modifierOf (actsAt (f1Hooks u) s) ||| modifierOf (actsAt (f2Hooks u) s) := by
  unfold hookBits
  rw [List.flatMap_append, modifierOf_append]
  rfl

/-- The microcode banks after it: a due bank switch moves the executing task's (20_memory.md R73). -/
def newBank (u : Micro) (s : State) : PerTask BankName :=
  if Bank.get s.swModePending s.currentTask then
    Bank.put (bankBefore u s) s.currentTask
      ((swModeTarget s.params (Bank.get (bankBefore u s) s.currentTask) u.next).getD .rom0)
  else bankBefore u s

/-- Step 11 as one change. -/
theorem writes_eq (u : Micro) (k : TaskNum) (w : State) :
    writeL u k (writeT u (writeS (writeR w))) = { w with
      r := if w.scratch.loadR then Bank.put w.r w.scratch.rSelect.toFin w.scratch.sh else w.r
      sStore := if w.scratch.loadS then Bank.put w.sStore (sIndex w.rb w.scratch.srSelect) w.scratch.mPrev else w.sStore
      t := if u.loadT then (if loadTFromAlu u.aluf then w.scratch.alu else w.scratch.busData) else w.t
      cramAddr := if u.loadT then w.scratch.alu else w.cramAddr
      l := if u.loadL then w.scratch.alu else w.l
      m := if u.loadL ∧ k = 0 then w.scratch.alu else w.m
      aluC0 := if u.loadL then w.aluCarry else w.aluC0 } := by
  unfold writeR
  cases w.scratch.loadR <;> simp only [Bool.false_eq_true, if_false, if_true] <;> unfold writeS <;>
    cases w.scratch.loadS <;> simp only [Bool.false_eq_true, if_false, if_true] <;> unfold writeT writeL <;>
    cases u.loadT <;> cases u.loadL <;> by_cases hk : k = 0 <;> simp [hk]

/-- The late F2 function as one change. -/
theorem lateF2_running (u : Micro) (s v : State) (h : mayStart u s = true) (hv : v.halted = none) (hp : v.params = s.params) :
    lateF2 u s.currentTask v = { v with
      novaCarry := if u.f2 = .loadDns then (dnsLate v).1 else v.novaCarry
      skip := if u.f2 = .loadDns then (dnsLate v).2 else v.skip
      deviceCalls := (lateF2 u s.currentTask v).deviceCalls } := by
  obtain ⟨-, -, hfit, hh⟩ := (mayStart_iff u s).mp h
  by_cases hd : u.f2 = .loadDns
  · have hk := fits_emulator_f2 u s hfit (.inr (.inr hd))
    unfold lateF2
    simp [hd, f2LoadDnsLate]
  · have e : lateF2 u s.currentTask v = if s.currentTask = 0 then v else optionalHook s.currentTask .f2Late v := by
      unfold lateF2
      split <;> simp_all
    rw [e]
    by_cases hk : s.currentTask = 0
    · simp [hk, hd]
    · rw [if_neg hk, optionalHook_harmless .f2Late s v hh hp hv]
      simp [hd, quietChange, buildsModifier]

/-- A bank switch that is due in a microinstruction that runs to its end has a target. -/
theorem swModeTarget_due (u : Micro) (s : State) (h : mayRun u s = true) (hp : Bank.get s.swModePending s.currentTask = true) :
    ∃ b, swModeTarget s.params (Bank.get (bankBefore u s) s.currentTask) u.next = some b := by
  obtain ⟨-, -, hk⟩ := (mayRun_iff u s).mp h
  have hknown := hk hp
  unfold switchKnown at hknown
  rw [← Option.isSome_iff_exists]
  simp only [Bool.and_eq_true, Bool.or_eq_true, bne_iff_ne] at hknown
  unfold bankBefore softResetDue
  by_cases hf : u.f1 = .startf
  · have h2 := hknown.2.resolve_left (not_not.mpr hf)
    cases hbit : (busWord u s).getLsbD 15
    · simpa [hf] using hknown.1
    · simp only [hf, decide_true, Bool.and_self, if_true, banksOfRmr]
      have : ∀ (f : TaskNum → BankName) (k : TaskNum), Bank.get (PerTask.tabulate f) k = f k := by
        intro f k
        fin_cases k <;> rfl
      rw [this]
      split
      · exact h2.1
      · exact h2.2
  · simpa [hf] using hknown.1

/-- The banks after a due bank switch, with the target of the map (20_memory.md R73, R74). -/
theorem newBank_due (u : Micro) (s : State) (h : mayRun u s = true) (hp : Bank.get s.swModePending s.currentTask = true) :
    ∃ b, swModeTarget s.params (Bank.get (bankBefore u s) s.currentTask) u.next = some b
      ∧ newBank u s = Bank.put (bankBefore u s) s.currentTask b := by
  obtain ⟨b, hb⟩ := swModeTarget_due u s h hp
  exact ⟨b, hb, by unfold newBank; rw [if_pos hp, hb]; rfl⟩

/-- The bank switch as one change. -/
theorem switchBank_running (u : Micro) (s v : State) (h : mayRun u s = true) (hp : v.params = s.params)
    (hb : v.bank = bankBefore u s) (hm : v.scratch.swMode = Bank.get s.swModePending s.currentTask) :
    switchBank u s.currentTask v = { v with bank := newBank u s } := by
  unfold switchBank
  rw [hm]
  split
  · rename_i hpend
    obtain ⟨b, e, hn⟩ := newBank_due u s h hpend
    rw [hp, hb, e, hn]
  · rename_i hpend
    unfold newBank
    rw [if_neg hpend, ← hb]

/-- The block hook as one change. -/
theorem blockHook_running (u : Micro) (s v : State) (h : mayStart u s = true) (hv : v.halted = none)
    (hp : v.params = s.params) (hf : v.scratch.blockFired = decide (u.f1 = .block)) :
    blockHook s.currentTask v = { v with
      deviceCalls := (blockHook s.currentTask v).deviceCalls } := by
  obtain ⟨-, -, -, hh⟩ := (mayStart_iff u s).mp h
  unfold blockHook
  rw [hf]
  by_cases hb : u.f1 = .block
  · simp only [hb, decide_true, if_true]
    rw [optionalHook_harmless .block s v hh hp hv]
    rfl
  · simp [hb]

/-- A control-RAM write of a halted machine leaves it halted. -/
theorem deferredCramWrite_running (s : State) (h : (deferredCramWrite s).halted = none) : s.halted = none := by
  unfold deferredCramWrite cramWrite at h
  split at h
  · split at h
    · exact h
    · split at h
      · cases h
      · exact h
  · exact h

/-- None of the phases up to the shifter faults. -/
theorem afterShifter_cycle (u : Micro) (s : State) (h : mayRun u s = true) :
    cpuStep u s = runPhases [writeR, writeS, writeT u, writeL u s.currentTask, lateF2 u s.currentTask,
      switchBank u s.currentTask, blockHook s.currentTask, advance u s.currentTask, finish s.currentTask]
      (afterShifter u s) := by
  obtain ⟨h4, -, -⟩ := (mayRun_iff u s).mp h
  obtain ⟨h3, -⟩ := (mayReachShifter_iff u s).mp h4
  obtain ⟨h2, -⟩ := (mayReachF2_iff u s).mp h3
  obtain ⟨h1, -⟩ := (mayReachF1_iff u s).mp h2
  obtain ⟨h0, -⟩ := (mayReachAlu_iff u s).mp h1
  obtain ⟨hs, hr, -, -⟩ := (mayStart_iff u s).mp h0
  have hbegin : (beginMicro u s.currentTask s).halted = none := hs
  have hsel : (earlySelect u s.currentTask (beginMicro u s.currentTask s)).halted = none := by
    show (afterSelect u s).halted = none
    rw [afterSelect_eq u s h0]
    exact hs
  have hsrc : (busSource u s.currentTask (afterSelect u s)).halted = none := by
    rw [afterSelect_eq u s h0, busSource_running u s h1]
    exact hs
  have hcon : (maskConstant u (busSource u s.currentTask (afterSelect u s))).halted = none := by
    rw [maskConstant_frame]
    exact hsrc
  have hbus : (afterBus u s).halted = none := by
    rw [afterBus_eq u s h1]
    exact hs
  have hcram : (maskCram (maskConstant u (busSource u s.currentTask (afterSelect u s)))).halted = none := by
    have e := hbus
    unfold afterBus at e
    rw [earlyBus_frame] at e
    exact e
  have hafterAlu : (afterAlu u s).halted = none := by
    rw [afterAlu_eq u s h2]
    exact hs
  have halu : (runAlu u s.currentTask (afterBus u s)).halted = none := deferredCramWrite_running _ hafterAlu
  have hx := afterAlu_eq u s h2
  have hy : afterF1 u s = _ :=
    runF1_running u s (afterAlu u s) h3 (by rw [hx]; exact hs) (by rw [hx]; rfl) (by rw [hx]; rfl)
  have hf1 : (afterF1 u s).halted = none := by
    rw [hy]
    exact hafterAlu
  have hz : afterF2 u s = _ := runF2_running u s (afterF1 u s) h4 (by rw [hy, hx]; exact hs) (by rw [hy, hx]; rfl)
    (fun hl => by rw [hy, hx]; exact ⟨by simp [hl, selected, quietChange, beginMicro], by simp [hl, selected, quietChange, beginMicro]⟩)
  have hf2 : (afterF2 u s).halted = none := by
    rw [hz]
    exact hf1
  have hafter : (afterShifter u s).halted = none := by
    rw [afterShifter_eq u s h]
    exact hs
  have hsh : (runShifter u (afterF2 u s)).halted = none := by
    have e := hafter
    unfold afterShifter at e
    rw [shifterBranch_frame] at e
    exact e
  unfold cpuStep
  rw [if_pos hr]
  unfold cpuPhases
  rw [runPhases_cons_of_running _ _ _ hbegin, runPhases_cons_of_running _ _ _ hsel]
  change runPhases _ (afterSelect u s) = _
  rw [runPhases_cons_of_running _ _ _ hsrc, runPhases_cons_of_running _ _ _ hcon, runPhases_cons_of_running _ _ _ hcram]
  rw [runPhases_cons_of_running _ _ _ (show (earlyBus u _).halted = none from hbus)]
  change runPhases _ (afterBus u s) = _
  rw [runPhases_cons_of_running _ _ _ halu,
    runPhases_cons_of_running _ _ _ (show (deferredCramWrite _).halted = none from hafterAlu)]
  change runPhases _ (afterAlu u s) = _
  rw [runPhases_cons_of_running _ _ _ (show (runF1 u _ _).halted = none from hf1)]
  change runPhases _ (afterF1 u s) = _
  rw [runPhases_cons_of_running _ _ _ (show (runF2 u _ _).halted = none from hf2)]
  change runPhases _ (afterF2 u s) = _
  rw [runPhases_cons_of_running _ _ _ hsh,
    runPhases_cons_of_running _ _ _ (show (shifterBranch u _).halted = none from hafter)]
  rfl

theorem mayRun_mayStart (u : Micro) (s : State) (h : mayRun u s = true) : mayStart u s = true := by
  obtain ⟨h4, -, -⟩ := (mayRun_iff u s).mp h
  obtain ⟨h3, -⟩ := (mayReachShifter_iff u s).mp h4
  obtain ⟨h2, -⟩ := (mayReachF2_iff u s).mp h3
  obtain ⟨h1, -⟩ := (mayReachF1_iff u s).mp h2
  exact ((mayReachAlu_iff u s).mp h1).1

theorem mayRun_block (u : Micro) (s : State) (h : mayRun u s = true) (hb : u.f1 = .block) : s.currentTask ≠ 0 := by
  obtain ⟨h4, -, -⟩ := (mayRun_iff u s).mp h
  obtain ⟨h3, -⟩ := (mayReachShifter_iff u s).mp h4
  exact ((mayReachF2_iff u s).mp h3).2.2.2 hb

/-- Steps 12 to 14 as one change of the state after the writebacks. -/
theorem afterHooks_eq (u : Micro) (s : State) (h : mayRun u s = true) :
    afterHooks u s = { afterWrites u s with
      scratch := { (afterWrites u s).scratch with nextModifier := functionBits u s ||| hookBits u s }
      novaCarry := if u.f2 = .loadDns then (dnsLate (afterWrites u s)).1 else (afterWrites u s).novaCarry
      skip := if u.f2 = .loadDns then (dnsLate (afterWrites u s)).2 else (afterWrites u s).skip
      bank := newBank u s
      deviceCalls := (afterHooks u s).deviceCalls }
    ∧ (lateF2 u s.currentTask (afterWrites u s)).halted = none
    ∧ (switchBank u s.currentTask (lateF2 u s.currentTask (afterWrites u s))).halted = none := by
  have h0 := mayRun_mayStart u s h
  have hs := ((mayStart_iff u s).mp h0).1
  have hw := afterShifter_eq u s h
  have hwr : afterWrites u s = _ := writes_eq u s.currentTask (afterShifter u s)
  have w1 : (afterWrites u s).halted = none := by rw [hwr, hw]; exact hs
  have w2 : (afterWrites u s).params = s.params := by rw [hwr, hw]
  have w3 : (afterWrites u s).bank = bankBefore u s := by rw [hwr, hw]
  have w4 : (afterWrites u s).scratch.swMode = Bank.get s.swModePending s.currentTask := by rw [hwr, hw]; rfl
  have w5 : (afterWrites u s).scratch.blockFired = decide (u.f1 = .block) := by rw [hwr, hw]
  have w6 : (afterWrites u s).scratch.nextModifier = functionBits u s ||| hookBits u s := by
    rw [hwr, hw, hookBits_eq]
    unfold functionBits
    ac_rfl
  have hv := lateF2_running u s (afterWrites u s) h0 w1 w2
  have hah : afterHooks u s
      = blockHook s.currentTask (switchBank u s.currentTask (lateF2 u s.currentTask (afterWrites u s))) := rfl
  rw [hah]
  generalize afterWrites u s = w at *
  generalize lateF2 u s.currentTask w = x at *
  have hx := switchBank_running u s x h (by rw [hv]; exact w2) (by rw [hv]; exact w3) (by rw [hv]; exact w4)
  generalize switchBank u s.currentTask x = y at *
  have hy := blockHook_running u s y h0 (by rw [hx, hv]; exact w1) (by rw [hx, hv]; exact w2) (by rw [hx, hv]; exact w5)
  generalize blockHook s.currentTask y = z at *
  refine ⟨?_, by rw [hv]; exact w1, by rw [hx, hv]; exact w1⟩
  rw [← w6, hy, hx, hv]

theorem cpuStep_eq_afterHooks (u : Micro) (s : State) (h : mayRun u s = true) :
    cpuStep u s = finish s.currentTask (advance u s.currentTask (afterHooks u s)) ∧ (cpuStep u s).halted = none := by
  have h0 := mayRun_mayStart u s h
  have hs := ((mayStart_iff u s).mp h0).1
  have n1 : (afterShifter u s).halted = none := by
    rw [afterShifter_eq u s h]
    exact hs
  have m1 : (writeR (afterShifter u s)).halted = none := by rw [writeR_frame]; exact n1
  have m2 : (writeS (writeR (afterShifter u s))).halted = none := by rw [writeS_frame]; exact m1
  have m3 : (writeT u (writeS (writeR (afterShifter u s)))).halted = none := by rw [writeT_frame]; exact m2
  have m4 : (writeL u s.currentTask (writeT u (writeS (writeR (afterShifter u s))))).halted = none := by
    rw [writeL_frame]; exact m3
  obtain ⟨ha, m5, m6⟩ := afterHooks_eq u s h
  have m7 : (afterHooks u s).halted = none := by
    rw [ha]
    exact m4
  have e : cpuStep u s = finish s.currentTask (advance u s.currentTask (afterHooks u s)) := by
    rw [afterShifter_cycle u s h, runPhases_cons_of_running _ _ _ m1, runPhases_cons_of_running _ _ _ m2,
      runPhases_cons_of_running _ _ _ m3, runPhases_cons_of_running _ _ _ m4]
    change runPhases _ (afterWrites u s) = _
    rw [runPhases_cons_of_running _ _ _ m5, runPhases_cons_of_running _ _ _ m6,
      runPhases_cons_of_running _ _ _ (show (blockHook _ _).halted = none from m7)]
    change runPhases _ (afterHooks u s) = _
    rw [runPhases_cons_of_running _ _ _ (by rw [advance_frame]; exact m7),
      runPhases_cons_of_running _ _ _ (by rw [finish_frame, advance_frame]; exact m7), runPhases_nil]
  refine ⟨e, ?_⟩
  rw [e, finish_frame, advance_frame]
  exact m7

/-- A microinstruction that runs to its end: the machine runs on, and every field is as its functions say. The control RAM and
the device log are left to their own lemmas. -/
theorem cpuStep_running (u : Micro) (s : State) (h : mayRun u s = true) :
    (cpuStep u s).halted = none
    ∧ (cpuStep u s).scratch = { (selected u s).scratch with
      busData := busWord u s
      loadR := loadsR u s
      loadS := u.bs == .loadS
      softReset := softResetDue u s
      blockFired := decide (u.f1 = .block)
      taskFired := decide (u.f1 = .task) && !Bank.get s.firstAfterSwitch s.currentTask
      nextModifier := functionBits u s ||| hookBits u s
      alu := (aluOut u s).value
      sh := if needsShifter u s then (shifterOut u s).1 else 0#16
      shift := if needsShifter u s then { shiftOf u s with dnsCarry := (shifterOut u s).2 } else shiftOf u s }
    ∧ cpuStep u s = { s with
      scratch := (cpuStep u s).scratch
      t := if u.loadT then (if loadTFromAlu u.aluf then (aluOut u s).value else busWord u s) else s.t
      cramAddr := if u.loadT then (aluOut u s).value else s.cramAddr
      l := if u.loadL then (aluOut u s).value else s.l
      m := if u.loadL ∧ s.currentTask = 0 then (aluOut u s).value else s.m
      aluC0 := if u.loadL then (aluOut u s).carry else s.aluC0
      aluCarry := (aluOut u s).carry
      r := if loadsR u s then Bank.put s.r (selectedR u s).toFin (shifterOut u s).1 else s.r
      sStore := if u.bs = .loadS then Bank.put s.sStore (sIndex (newRb u s) u.rselect) s.m else s.sStore
      ir := if u.f2 = .loadIr then busWord u s else s.ir
      skip := if u.f2 = .loadDns then (dnsOut u s).2
        else if u.f2 = .loadIr ∧ s.params.irClearsSkip = true then false else s.skip
      novaCarry := if u.f2 = .loadDns then (dnsOut u s).1 else s.novaCarry
      rb := newRb u s
      rmr := if u.f1 = .loadRmr then busWord u s else if softResetDue u s then 0#16 else s.rmr
      bank := newBank u s
      mpc := if softResetDue u s then (softReset s).mpc
        else Bank.put s.mpc s.currentTask (u.next ||| functionBits u s ||| hookBits u s)
      currentTask := if softResetDue u s then 0 else s.currentTask
      nextTask := if softResetDue u s then none else s.nextTask
      wakeup := if u.f1 = .block then Bank.put s.wakeup s.currentTask false
        else if softResetDue u s then (softReset s).wakeup else s.wakeup
      swModePending := if u.f1 = .swmode then Bank.put (Bank.put s.swModePending s.currentTask false) 0 true
        else Bank.put s.swModePending s.currentTask false
      wrtRamPending := if u.f1 = .wrtram then Bank.put (Bank.put s.wrtRamPending s.currentTask false) 0 true
        else Bank.put s.wrtRamPending s.currentTask false
      rdRamPending := if u.f1 = .rdram then Bank.put (Bank.put s.rdRamPending s.currentTask false) 0 true
        else Bank.put s.rdRamPending s.currentTask false
      firstAfterSwitch := Bank.put s.firstAfterSwitch s.currentTask false
      memActive := s.memActive || decide (u.f1 = .loadMar)
      memCycle := if u.f1 = .loadMar then 1 else s.memCycle
      memAddr := if u.f1 = .loadMar then (aluOut u s).value else s.memAddr
      memTask := if u.f1 = .loadMar then s.currentTask else s.memTask
      memXM := if u.f1 = .loadMar then isXmar s.params u else s.memXM
      dwStore := (if u.f1 = .loadMar then false else s.dwStore)
        || (storesWord u && decide (s.memCycle = s.params.storeAfter + 1))
      dwMixed := (if u.f1 = .loadMar then false else s.dwMixed) || storesWord u
      memRd5 := if u.f1 = .loadMar then false
        else s.memRd5 || (u.bs == .readMd && s.memActive && s.memCycle == 5)
      main := if storesWord u then (memWrite (storeAddr s) (busWord u s) s).main else s.main
      xmBanks := if storesWord u then (memWrite (storeAddr s) (busWord u s) s).xmBanks else s.xmBanks
      uram := (cpuStep u s).uram
      deviceCalls := (cpuStep u s).deviceCalls
      completion := if u.f1 = .task ∧ Bank.get s.firstAfterSwitch s.currentTask = false then .taskSwitch else .normal } := by
  obtain ⟨e, hdone⟩ := cpuStep_eq_afterHooks u s h
  obtain ⟨ha, -, -⟩ := afterHooks_eq u s h
  have hwr : afterWrites u s = _ := writes_eq u s.currentTask (afterShifter u s)
  have hw := afterShifter_eq u s h
  have hscr : (cpuStep u s).scratch = (afterHooks u s).scratch := by rw [e, finish_frame, advance_frame]
  have hs2 : (afterHooks u s).scratch
      = { (afterShifter u s).scratch with nextModifier := functionBits u s ||| hookBits u s } := by
    rw [ha, hwr]
  have hs3 : (afterHooks u s).scratch = { (selected u s).scratch with
      busData := busWord u s
      loadR := loadsR u s
      loadS := u.bs == .loadS
      softReset := softResetDue u s
      blockFired := decide (u.f1 = .block)
      taskFired := decide (u.f1 = .task) && !Bank.get s.firstAfterSwitch s.currentTask
      nextModifier := functionBits u s ||| hookBits u s
      alu := (aluOut u s).value
      sh := if needsShifter u s then (shifterOut u s).1 else 0#16
      shift := if needsShifter u s then { shiftOf u s with dnsCarry := (shifterOut u s).2 } else shiftOf u s } := by
    rw [hs2, hw]
  refine ⟨hdone, by rw [hscr, hs3], ?_⟩
  have hsoft : (afterHooks u s).scratch.softReset = softResetDue u s := by rw [hs3]
  have htask : (afterHooks u s).scratch.taskFired
      = (decide (u.f1 = .task) && !Bank.get s.firstAfterSwitch s.currentTask) := by rw [hs3]
  have hadv : advance u s.currentTask (afterHooks u s) = { afterHooks u s with
      mpc := if softResetDue u s then (afterHooks u s).mpc
        else Bank.put (afterHooks u s).mpc s.currentTask (u.next ||| (functionBits u s ||| hookBits u s)) } := by
    have hm : (afterHooks u s).scratch.nextModifier = functionBits u s ||| hookBits u s := by rw [hs3]
    unfold advance
    rw [hsoft, hm]
    split <;> rfl
  rw [e, hadv]
  unfold finish
  have hdns : u.f2 = .loadDns → dnsLate (afterWrites u s) = dnsOut u s := by
    intro hd
    have hn : needsShifter u s = true := by simp [needsShifter, hd]
    have w1 : (afterWrites u s).ir = s.ir := by rw [hwr, hw]; simp [hd]
    have w2 : (afterWrites u s).scratch.shift.dnsCarry = (shifterOut u s).2 := by rw [hwr, hw]; simp [hn]
    have w3 : (afterWrites u s).scratch.sh = (shifterOut u s).1 := by rw [hwr, hw]; simp [hn]
    have w4 : (afterWrites u s).params = s.params := by rw [hwr, hw]
    have w5 : (afterWrites u s).novaCarry = s.novaCarry := by rw [hwr, hw]
    unfold dnsLate dnsOut
    rw [w1, w2, w3, w4, w5]
  have hr : (if loadsR u s then Bank.put s.r (selectedR u s).toFin (if needsShifter u s then (shifterOut u s).1 else 0#16)
      else s.r) = if loadsR u s then Bank.put s.r (selectedR u s).toFin (shifterOut u s).1 else s.r := by
    by_cases hl : loadsR u s = true
    · simp [needsShifter, hl]
    · simp [hl]
  have hsst : (afterHooks u s).sStore
      = if u.bs = .loadS then Bank.put s.sStore (sIndex (newRb u s) u.rselect) s.m else s.sStore := by
    rw [ha, hwr, hw]
    by_cases hb : u.bs = .loadS <;> simp [hb, selected, quietChange, beginMicro]
  have hskip : (afterHooks u s).skip = if u.f2 = .loadDns then (dnsOut u s).2
      else if u.f2 = .loadIr ∧ s.params.irClearsSkip = true then false else s.skip := by
    have e1 : (afterHooks u s).skip = if u.f2 = .loadDns then (dnsLate (afterWrites u s)).2 else (afterWrites u s).skip :=
      congrArg State.skip ha
    rw [e1]
    by_cases hd : u.f2 = .loadDns
    · rw [if_pos hd, if_pos hd, hdns hd]
    · rw [if_neg hd, if_neg hd, hwr, hw]
  have hnc : (afterHooks u s).novaCarry = if u.f2 = .loadDns then (dnsOut u s).1 else s.novaCarry := by
    have e1 : (afterHooks u s).novaCarry
        = if u.f2 = .loadDns then (dnsLate (afterWrites u s)).1 else (afterWrites u s).novaCarry :=
      congrArg State.novaCarry ha
    rw [e1]
    by_cases hd : u.f2 = .loadDns
    · rw [if_pos hd, if_pos hd, hdns hd]
    · rw [if_neg hd, if_neg hd, hwr, hw]
  have hmpc : (afterHooks u s).mpc = if softResetDue u s then (softReset s).mpc else s.mpc := by rw [ha, hwr, hw]
  have hmpc2 : (if softResetDue u s then (if softResetDue u s then (softReset s).mpc else s.mpc)
      else Bank.put (if softResetDue u s then (softReset s).mpc else s.mpc) s.currentTask
        (u.next ||| (functionBits u s ||| hookBits u s)))
      = if softResetDue u s then (softReset s).mpc
        else Bank.put s.mpc s.currentTask (u.next ||| functionBits u s ||| hookBits u s) := by
    cases softResetDue u s <;> simp [BitVec.or_assoc]
  have hcomp : (if (decide (u.f1 = .task) && !Bank.get s.firstAfterSwitch s.currentTask) = true then Completion.taskSwitch
      else .normal) = if u.f1 = .task ∧ Bank.get s.firstAfterSwitch s.currentTask = false then .taskSwitch else .normal := by
    by_cases hf : u.f1 = .task <;> simp [hf]
  rw [← hr]
  simp only [htask, State.mk.injEq, hsst, hskip, hnc, hmpc, hmpc2, hcomp, true_and]
  and_intros
  all_goals first
    | rfl
    | (rw [ha, hwr, hw]; done)
    | (rw [ha, hwr, hw]; rfl)

/-- The control RAM after step 6: a due write is made at the old address, with M as it was (20_memory.md R76). -/
theorem afterAlu_uram (u : Micro) (s : State) (h : mayReachF1 u s = true) :
    (afterAlu u s).uram = if Bank.get s.wrtRamPending s.currentTask then (cramWrite (aluOut u s).value s.m s).uram
      else s.uram := by
  obtain ⟨h0, h14, h15, hw⟩ := (mayReachF1_iff u s).mp h
  have hb := afterBus_eq u s h0
  obtain ⟨a, ha⟩ := alu_ok u.aluf (sourceWord u s &&& busMask u s) s.t (skipIn s.currentTask s) h14 h15
  have e : runAlu u s.currentTask (afterBus u s)
      = { (afterBus u s).onScratch (fun c => { c with alu := (aluOut u s).value }) with aluCarry := (aluOut u s).carry } := by
    unfold runAlu aluOut
    have hs : skipIn s.currentTask (afterBus u s) = skipIn s.currentTask s := by
      rw [hb]
      rfl
    have h1 : (afterBus u s).scratch.busData = sourceWord u s &&& busMask u s := by rw [hb]
    have h2 : (afterBus u s).t = s.t := by
      rw [hb]
      rfl
    rw [hs, h1, h2, ha]
  have hcram : ∀ x : State, x.cramAddr = s.cramAddr → x.params = s.params → x.uram = s.uram →
      (cramWrite (aluOut u s).value s.m x).uram = (cramWrite (aluOut u s).value s.m s).uram := by
    intro x h1 h2 h3
    unfold cramWrite
    rw [h1, h2, h3]
    split
    · exact h3
    · split
      · exact h3
      · rfl
  unfold afterAlu
  rw [e]
  unfold deferredCramWrite
  have hwr : ({ (afterBus u s).onScratch (fun c => { c with alu := (aluOut u s).value }) with
      aluCarry := (aluOut u s).carry } : State).scratch.wrtRam = Bank.get s.wrtRamPending s.currentTask := by
    rw [hb]
    rfl
  have hm : ({ (afterBus u s).onScratch (fun c => { c with alu := (aluOut u s).value }) with
      aluCarry := (aluOut u s).carry } : State).scratch.mPrev = s.m := by
    rw [hb]
    rfl
  rw [hwr, hm]
  split
  · exact hcram _ (by rw [hb]; rfl) (by rw [hb]; rfl) (by rw [hb]; rfl)
  · rw [hb]
    rfl

/-- The control RAM after a microinstruction that runs to its end. -/
theorem cpuStep_uram (u : Micro) (s : State) (h : mayRun u s = true) :
    (cpuStep u s).uram = if Bank.get s.wrtRamPending s.currentTask then (cramWrite (aluOut u s).value s.m s).uram
      else s.uram := by
  obtain ⟨h4, -, -⟩ := (mayRun_iff u s).mp h
  obtain ⟨h3, -⟩ := (mayReachShifter_iff u s).mp h4
  obtain ⟨h2, -⟩ := (mayReachF2_iff u s).mp h3
  have e1 : (afterHooks u s).uram = (afterWrites u s).uram := by rw [(afterHooks_eq u s h).1]
  have e2 : (afterWrites u s).uram = (afterShifter u s).uram := by
    unfold afterWrites
    rw [writes_eq]
  have e3 : (afterShifter u s).uram = (afterF2 u s).uram := by
    have e4 : (runShifter u (afterF2 u s)).uram = (afterF2 u s).uram := by rw [runShifter_frame]
    rw [← e4]
    unfold afterShifter
    rw [shifterBranch_frame]
  have e5 : (afterF2 u s).uram = (afterF1 u s).uram := by
    unfold afterF2
    rw [runF2_frame]
  have e6 : (afterF1 u s).uram = (afterAlu u s).uram := by
    unfold afterF1
    rw [runF1_frame]
  have e7 : (advance u s.currentTask (afterHooks u s)).uram = (afterHooks u s).uram := by rw [advance_frame]
  rw [(cpuStep_eq_afterHooks u s h).1, finish_frame]
  show (advance u s.currentTask (afterHooks u s)).uram = _
  rw [e7, e1, e2, e3, e5, e6, afterAlu_uram u s h2]

end Sys2Proof.Machine
end

