-- ==== Sys2Proof/Laws/Calls.lean ====
section
/-! SUPPORT. The device log only grows: every phase keeps the calls made before it, so a call a microinstruction makes is in
the log after it; and no phase but STARTF's adds a call of STARTF. -/

namespace Sys2Proof.Machine

/-- A call STARTF makes (46_emulator.md R246). -/
def isStartf : DeviceCall → Bool
  | .startf _ => true
  | .read .. | .load .. | .mouse | .nodeId | .hook .. => false

/-- The calls already made stay in the log. -/
def Grows (s t : State) : Prop := s.deviceCalls <:+ t.deviceCalls

/-- The calls already made stay in the log, and the new ones are none of STARTF's. -/
def Logged (s t : State) : Prop := ∃ new, t.deviceCalls = new ++ s.deviceCalls ∧ ∀ c ∈ new, isStartf c = false

theorem Logged.refl (s : State) : Logged s s := ⟨[], rfl, by simp⟩

theorem Logged.of_eq {s t : State} (h : t.deviceCalls = s.deviceCalls) : Logged s t := ⟨[], h, by simp⟩

theorem Logged.trans {s t u : State} (h1 : Logged s t) (h2 : Logged t u) : Logged s u := by
  obtain ⟨a, ha, ka⟩ := h1
  obtain ⟨b, hb, kb⟩ := h2
  exact ⟨b ++ a, by rw [hb, ha, List.append_assoc], fun c hc => (List.mem_append.mp hc).elim (kb c) (ka c)⟩

theorem Logged.grows {s t : State} (h : Logged s t) : Grows s t := by
  obtain ⟨a, ha, -⟩ := h
  exact ⟨a, ha.symm⟩

theorem Grows.trans {s t u : State} (h1 : Grows s t) (h2 : Grows t u) : Grows s u := List.IsSuffix.trans h1 h2

theorem Grows.mem {s t : State} (h : Grows s t) {c : DeviceCall} (hc : c ∈ s.deviceCalls) : c ∈ t.deviceCalls :=
  h.subset hc

theorem Logged.mem {s t : State} (h : Logged s t) {c : DeviceCall} (hc : c ∈ s.deviceCalls) : c ∈ t.deviceCalls :=
  h.grows.mem hc

/-- None of STARTF's calls is new. -/
theorem Logged.startf_count {s t : State} (h : Logged s t) (d : Word) :
    t.deviceCalls.count (.startf d) = s.deviceCalls.count (.startf d) := by
  obtain ⟨a, ha, ka⟩ := h
  have : a.count (.startf d) = 0 := List.count_eq_zero.mpr fun hm => by simpa [isStartf] using ka _ hm
  rw [ha, List.count_append, this, Nat.zero_add]

theorem logCall_logged (s : State) (c : DeviceCall) (h : isStartf c = false) : Logged s (s.logCall c) :=
  ⟨[c], rfl, by simp [h]⟩

theorem memWrite_logged (a v : Word) (s : State) : Logged s (memWrite a v s) := by
  unfold memWrite
  split
  · exact Logged.refl s
  · split
    · exact logCall_logged _ _ rfl
    · exact Logged.refl s

theorem storeMd_logged (v : Word) (s : State) : Logged s (storeMd v s) := by
  unfold storeMd
  split
  · exact Logged.refl s
  · split
    · exact Logged.refl s
    · exact memWrite_logged (storeAddr s) v s

theorem readMd_ok_calls (s t : State) (w : Word) (h : readMd s = .ok (w, t)) : t.deviceCalls = s.deviceCalls := by
  unfold readMd at h
  split at h
  · cases h
  · split at h
    · cases h
      rfl
    · split at h
      · split at h <;> cases h
        rfl
      · cases h
        rfl

theorem readMd_error_calls (s t : State) (h : readMd s = .error t) : t.deviceCalls = s.deviceCalls := by
  unfold readMd at h
  split at h
  · cases h
    rfl
  · split at h
    · cases h
    · split at h
      · split at h <;> cases h
        rfl
      · cases h

theorem loadMar_calls (a : Word) (k : TaskNum) (xm : Bool) (s : State) : (loadMar a k xm s).deviceCalls = s.deviceCalls := by
  unfold loadMar
  split <;> rfl

theorem wakeupTask_calls (i : TaskNum) (s : State) : (wakeupTask i s).deviceCalls = s.deviceCalls := by
  unfold wakeupTask
  split
  · rfl
  · split <;> rfl

theorem blockTask_calls (i : TaskNum) (s : State) : (blockTask i s).deviceCalls = s.deviceCalls := by
  unfold blockTask
  split
  · rfl
  · split <;> rfl

theorem externalCall_calls (c : ExternalCall) (s : State) : (externalCall c s).deviceCalls = s.deviceCalls := by
  cases c
  · exact wakeupTask_calls ..
  · exact blockTask_calls ..

theorem hookCall_calls (p : HookPoint) (c : ExternalCall) (s : State) : (hookCall p c s).deviceCalls = s.deviceCalls := by
  unfold hookCall
  split
  · exact externalCall_calls ..
  · rfl

theorem hookAction_logged (k : TaskNum) (p : HookPoint) (a : HookAction) (s : State) : Logged s (hookAction k p a s) := by
  cases a with
  | setLoadR | setAlu | setSh | setTaskFired | setBlockFired | setShift => exact Logged.refl s
  | setRSelect | orNextModifier =>
    simp only [hookAction]
    split <;> exact Logged.refl s
  | device => exact logCall_logged _ _ rfl
  | loadMar => exact .of_eq (loadMar_calls ..)
  | storeMd => exact storeMd_logged ..
  | wakeupTask => exact .of_eq (hookCall_calls ..)
  | blockTask => exact .of_eq (hookCall_calls ..)
  | readMd =>
    show Logged s (match readMd s with | .ok (_, s') => s' | .error s' => s')
    split
    · exact .of_eq (readMd_ok_calls _ _ _ ‹_›)
    · exact .of_eq (readMd_error_calls _ _ ‹_›)

theorem hookActions_logged (k : TaskNum) (p : HookPoint) (acts : List HookAction) (s : State) :
    Logged s (hookActions k p acts s) := by
  refine runPhases_keeps (Logged s) _ ?_ s (Logged.refl s)
  intro f hf u hu
  obtain ⟨a, -, rfl⟩ := List.mem_map.mp hf
  exact hu.trans (hookAction_logged k p a u)

theorem optionalHook_logged (k : TaskNum) (p : HookPoint) (s : State) : Logged s (optionalHook k p s) := by
  unfold optionalHook
  split
  · exact Logged.refl s
  · exact hookActions_logged ..

theorem codeHook_logged (k : TaskNum) (p : HookPoint) (f : Fault) (s : State) : Logged s (codeHook k p f s) := by
  unfold codeHook
  split
  · exact Logged.refl s
  · exact hookActions_logged ..

theorem earlySelect_logged (u : Micro) (k : TaskNum) (s : State) : Logged s (earlySelect u k s) := by
  unfold earlySelect
  split
  · exact Logged.refl s
  · exact Logged.refl s
  · exact Logged.refl s
  · split
    · exact Logged.refl s
    · refine runPhases_keeps (Logged s) _ ?_ s (Logged.refl s)
      intro f hf t ht
      simp only [List.mem_cons, List.not_mem_nil, or_false] at hf
      rcases hf with rfl | rfl <;> exact ht.trans (optionalHook_logged ..)

theorem hookBus_logged (b : HookBus) (s : State) : Logged s (hookBus b s) := by
  unfold hookBus
  split
  · exact Logged.refl s
  · split
    · have h := readMd_ok_calls s _ _ ‹_›
      exact .of_eq h
    · exact .of_eq (readMd_error_calls _ _ ‹_›)

theorem busHook_logged (k : TaskNum) (p : HookPoint) (s : State) : Logged s (busHook k p s) := by
  unfold busHook
  split
  · exact Logged.refl s
  · refine runPhases_keeps (Logged s) _ ?_ s (Logged.refl s)
    intro f hf t ht
    simp only [List.mem_cons, List.not_mem_nil, or_false] at hf
    rcases hf with rfl | rfl
    · exact ht.trans (hookActions_logged ..)
    · exact ht.trans (hookBus_logged ..)

theorem bsReadMd_logged (s : State) : Logged s (bsReadMd s) := by
  unfold bsReadMd
  split
  · have h := readMd_ok_calls s _ _ ‹_›
    exact .of_eq h
  · exact .of_eq (readMd_error_calls _ _ ‹_›)

theorem busSource_logged (u : Micro) (k : TaskNum) (s : State) : Logged s (busSource u k s) := by
  unfold busSource
  split
  case h_4 => exact bsReadMd_logged s
  case h_5 => exact logCall_logged s .mouse rfl
  case h_9 => exact busHook_logged ..
  case h_10 => exact busHook_logged ..
  all_goals exact Logged.refl s

theorem maskCram_logged (s : State) : Logged s (maskCram s) := .of_eq (by rw [maskCram_frame])

theorem earlyBus_logged (u : Micro) (s : State) : Logged s (earlyBus u s) := by
  unfold earlyBus
  split
  · exact logCall_logged s .nodeId rfl
  · exact Logged.refl s

/-- F1 makes no call of STARTF but in the row STARTF. -/
theorem runF1_logged (u : Micro) (k : TaskNum) (s : State) (h : u.f1 ≠ .startf) : Logged s (runF1 u k s) := by
  unfold runF1
  split
  case h_2 => exact .of_eq (loadMar_calls ..)
  case h_3 =>
    unfold f1Task
    split <;> exact Logged.refl s
  case h_4 =>
    unfold f1Block
    split <;> exact Logged.refl s
  case h_16 => exact absurd ‹_› h
  all_goals first | exact codeHook_logged .. | exact Logged.refl s

theorem runF1_grows (u : Micro) (k : TaskNum) (s : State) : Grows s (runF1 u k s) := by
  by_cases h : u.f1 = .startf
  · simp only [runF1, h, f1Startf]
    split
    · exact List.suffix_refl _
    · split
      · exact List.suffix_cons ..
      · exact List.suffix_refl _
  · exact (runF1_logged u k s h).grows

theorem runF2_logged (u : Micro) (k : TaskNum) (s : State) : Logged s (runF2 u k s) := by
  unfold runF2
  split
  case h_7 =>
    unfold f2StoreMd
    split
    · exact Logged.refl s
    · exact storeMd_logged ..
  all_goals first | exact codeHook_logged .. | exact Logged.refl s

theorem lateF2_logged (u : Micro) (k : TaskNum) (s : State) : Logged s (lateF2 u k s) := by
  unfold lateF2
  split
  · exact Logged.refl s
  · split
    · exact Logged.refl s
    · exact optionalHook_logged ..

theorem blockHook_logged (k : TaskNum) (s : State) : Logged s (blockHook k s) := by
  unfold blockHook
  split
  · exact optionalHook_logged ..
  · exact Logged.refl s

/-! ## Along the stages -/

theorem afterBus_logged (u : Micro) (s : State) : Logged (busSource u s.currentTask (afterSelect u s)) (afterBus u s) :=
  (Logged.of_eq (by rw [maskConstant_frame])).trans ((maskCram_logged _).trans (earlyBus_logged _ _))

theorem afterAlu_logged (u : Micro) (s : State) : Logged (afterBus u s) (afterAlu u s) := by
  have h1 : Logged (afterBus u s) (runAlu u s.currentTask (afterBus u s)) := .of_eq (by rw [runAlu_frame])
  exact h1.trans (.of_eq (by unfold afterAlu; rw [deferredCramWrite_frame]))

theorem afterF1_grows (u : Micro) (s : State) : Grows (afterAlu u s) (afterF1 u s) := runF1_grows ..

theorem afterF2_logged (u : Micro) (s : State) : Logged (afterF1 u s) (afterF2 u s) := runF2_logged ..

theorem afterShifter_logged (u : Micro) (s : State) : Logged (afterF2 u s) (afterShifter u s) := by
  have h1 : Logged (afterF2 u s) (runShifter u (afterF2 u s)) := .of_eq (by rw [runShifter_frame])
  exact h1.trans (.of_eq (by unfold afterShifter; rw [shifterBranch_frame]))

theorem afterWrites_logged (u : Micro) (s : State) : Logged (afterShifter u s) (afterWrites u s) := by
  have h1 : Logged (afterShifter u s) (writeR (afterShifter u s)) := .of_eq (by rw [writeR_frame])
  have h2 : Logged (writeR (afterShifter u s)) (writeS (writeR (afterShifter u s))) := .of_eq (by rw [writeS_frame])
  have h3 : Logged (writeS (writeR (afterShifter u s))) (writeT u (writeS (writeR (afterShifter u s)))) :=
    .of_eq (by rw [writeT_frame])
  exact h1.trans (h2.trans (h3.trans (.of_eq (by unfold afterWrites; rw [writeL_frame]))))

theorem afterAll_logged (u : Micro) (s : State) : Logged (afterWrites u s) (afterAll u s) := by
  have h1 : Logged (lateF2 u s.currentTask (afterWrites u s))
      (switchBank u s.currentTask (lateF2 u s.currentTask (afterWrites u s))) := .of_eq (by rw [switchBank_frame])
  have h2 : Logged (afterHooks u s) (advance u s.currentTask (afterHooks u s)) := .of_eq (by rw [advance_frame])
  have h3 : Logged (advance u s.currentTask (afterHooks u s)) (afterAll u s) :=
    .of_eq (by unfold afterAll; rw [finish_frame])
  exact (lateF2_logged u s.currentTask _).trans (h1.trans ((blockHook_logged s.currentTask _).trans (h2.trans h3)))

/-- What is in the log after F2 is in it after the microinstruction. -/
theorem afterF2_all (u : Micro) (s : State) : Logged (afterF2 u s) (afterAll u s) :=
  (afterShifter_logged u s).trans ((afterWrites_logged u s).trans (afterAll_logged u s))

/-- The steps up to F1 make no call of STARTF. -/
theorem beforeF1_logged (u : Micro) (s : State) : Logged s (afterAlu u s) := by
  have h0 : Logged s (afterSelect u s) :=
    (Logged.of_eq (t := beginMicro u s.currentTask s) rfl).trans (earlySelect_logged ..)
  exact h0.trans ((busSource_logged ..).trans ((afterBus_logged u s).trans (afterAlu_logged u s)))

/-- A call in the log after F1 is in the log after the microinstruction, and no call of STARTF comes after it. -/
theorem afterF1_calls (u : Micro) (s : State) (h : mayRun u s = true) : Logged (afterF1 u s) (cpuStep u s) := by
  rw [(cpuStep_eq_afterHooks u s h).1]
  exact (afterF2_logged u s).trans (afterF2_all u s)

/-- A call in the log after F2 is in the log after the microinstruction. -/
theorem afterF2_calls (u : Micro) (s : State) (h : mayRun u s = true) : Logged (afterF2 u s) (cpuStep u s) := by
  rw [(cpuStep_eq_afterHooks u s h).1]
  exact afterF2_all u s

/-- A call in the log after the bus source is in the log after the microinstruction. -/
theorem busSource_calls (u : Micro) (s : State) (h : mayRun u s = true) :
    Grows (busSource u s.currentTask (afterSelect u s)) (cpuStep u s) :=
  ((afterBus_logged u s).trans (afterAlu_logged u s)).grows.trans ((afterF1_grows u s).trans (afterF1_calls u s h).grows)

/-! ## What a hook leaves behind -/

theorem mem_callsOf (k : TaskNum) (acts : List HookAction) (d : Word) (h : HookAction.device d ∈ acts) :
    DeviceCall.hook k d ∈ callsOf k acts := by
  induction acts with
  | nil => cases h
  | cons a rest ih =>
    cases a <;> simp only [List.mem_cons, reduceCtorEq, false_or, HookAction.device.injEq] at h <;>
      simp only [callsOf, List.mem_append, List.mem_singleton, DeviceCall.hook.injEq, true_and]
    case device => exact h.elim .inr (fun h => .inl (ih h))
    all_goals exact ih h

theorem mem_modifierOf (acts : List HookAction) (a : MicroAddr) (h : HookAction.orNextModifier a ∈ acts) :
    modifierOf acts &&& a = a := by
  induction acts with
  | nil => cases h
  | cons x rest ih =>
    cases x <;> simp only [List.mem_cons, reduceCtorEq, false_or, HookAction.orNextModifier.injEq] at h <;>
      simp only [modifierOf]
    case orNextModifier b =>
      rcases h with rfl | h
      · ext i hi
        simp
        tauto
      · have e := ih h
        ext i hi
        have ei := congrArg (fun w => w.getLsbD i) e
        simp only [BitVec.getLsbD_and] at ei
        simp only [← BitVec.getLsbD_eq_getElem, BitVec.getLsbD_and, BitVec.getLsbD_or]
        revert ei
        cases b.getLsbD i <;> cases (modifierOf rest).getLsbD i <;> cases a.getLsbD i <;> simp
    all_goals exact ih h

end Sys2Proof.Machine
end

