-- ==== Sys2Proof/Laws/Encoding.lean ====
section
/-! SUPPORT. Laws of the encoder and the decoder: every code of every field there and back, the encoded word as a number, the
fields of that number, and the microinstruction behind a row's name. -/

namespace Sys2Proof

/-! ## Codes -/

theorem aluOfCode_code (f : AluFn) : aluOfCode f.code = f := by cases f <;> decide

theorem code_aluOfCode (c : BitVec 4) : (aluOfCode c).code = c := by revert c; decide

theorem busOfCode_code (emu : Bool) (f : BusSrc) (h : f.fits emu = true) : busOfCode emu f.code = f := by
  revert h; cases emu <;> cases f <;> decide

theorem code_busOfCode (emu : Bool) (c : BitVec 3) : (busOfCode emu c).code = c ∧ (busOfCode emu c).fits emu = true := by
  revert emu c; decide

theorem f1OfCode_code (emu : Bool) (f : F1Fn) (h : f.fits emu = true) : f1OfCode emu f.code = f := by
  revert h; cases emu <;> cases f <;> decide

theorem code_f1OfCode (emu : Bool) (c : BitVec 4) : (f1OfCode emu c).code = c ∧ (f1OfCode emu c).fits emu = true := by
  revert emu c; decide

theorem f2OfCode_code (emu : Bool) (f : F2Fn) (h : f.fits emu = true) : f2OfCode emu f.code = f := by
  revert h; cases emu <;> cases f <;> decide

theorem code_f2OfCode (emu : Bool) (c : BitVec 4) : (f2OfCode emu c).code = c ∧ (f2OfCode emu c).fits emu = true := by
  revert emu c; decide

/-- What any word decodes to fits the kind of task it was decoded for. -/
theorem decodeMicro_fits (emu : Bool) (w : MicroWord) : (decodeMicro emu w).fits emu = true := by
  unfold Micro.fits decodeMicro
  simp [(code_busOfCode emu _).2, (code_f1OfCode emu _).2, (code_f2OfCode emu _).2]

/-! ## The encoded word as a number -/

theorem toNat_append_add {n m : Nat} (x : BitVec n) (y : BitVec m) : (x ++ y).toNat = x.toNat * 2 ^ m + y.toNat := by
  rw [BitVec.toNat_append, ← Nat.shiftLeft_add_eq_or_of_lt y.isLt, Nat.shiftLeft_eq]

theorem encodeMicro_toNat (u : Micro) : (encodeMicro u).toNat
    = ((((((u.rselect.toNat * 2 ^ 4 + u.aluf.code.toNat) * 2 ^ 3 + u.bs.code.toNat) * 2 ^ 4 + u.f1.code.toNat) * 2 ^ 4
      + u.f2.code.toNat) * 2 ^ 1 + u.loadT.toNat) * 2 ^ 1 + u.loadL.toNat) * 2 ^ 10 + u.next.toNat := by
  unfold encodeMicro
  simp only [toNat_append_add, BitVec.toNat_ofBool]

/-- The bounds of the fields of a microinstruction. -/
theorem micro_bounds (u : Micro) : u.rselect.toNat < 2 ^ 5 ∧ u.aluf.code.toNat < 2 ^ 4 ∧ u.bs.code.toNat < 2 ^ 3
    ∧ u.f1.code.toNat < 2 ^ 4 ∧ u.f2.code.toNat < 2 ^ 4 ∧ u.loadT.toNat < 2 ∧ u.loadL.toNat < 2 ∧ u.next.toNat < 2 ^ 10 :=
  ⟨u.rselect.isLt, u.aluf.code.isLt, u.bs.code.isLt, u.f1.code.isLt, u.f2.code.isLt, Bool.toNat_lt _, Bool.toNat_lt _,
    u.next.isLt⟩

theorem encodeMicro_aluf (u : Micro) : (encodeMicro u).toNat / 2 ^ 23 % 2 ^ 4 = u.aluf.code.toNat := by
  obtain ⟨h1, h2, h3, h4, h5, h6, h7, h8⟩ := micro_bounds u
  rw [encodeMicro_toNat]
  omega

theorem encodeMicro_bs (u : Micro) : (encodeMicro u).toNat / 2 ^ 20 % 2 ^ 3 = u.bs.code.toNat := by
  obtain ⟨h1, h2, h3, h4, h5, h6, h7, h8⟩ := micro_bounds u
  rw [encodeMicro_toNat]
  omega

theorem encodeMicro_f1 (u : Micro) : (encodeMicro u).toNat / 2 ^ 16 % 2 ^ 4 = u.f1.code.toNat := by
  obtain ⟨h1, h2, h3, h4, h5, h6, h7, h8⟩ := micro_bounds u
  rw [encodeMicro_toNat]
  omega

theorem encodeMicro_f2 (u : Micro) : (encodeMicro u).toNat / 2 ^ 12 % 2 ^ 4 = u.f2.code.toNat := by
  obtain ⟨h1, h2, h3, h4, h5, h6, h7, h8⟩ := micro_bounds u
  rw [encodeMicro_toNat]
  omega

theorem encodeMicro_loadT (u : Micro) : (encodeMicro u).toNat / 2 ^ 11 % 2 ^ 1 = u.loadT.toNat := by
  obtain ⟨h1, h2, h3, h4, h5, h6, h7, h8⟩ := micro_bounds u
  rw [encodeMicro_toNat]
  omega

theorem encodeMicro_loadL (u : Micro) : (encodeMicro u).toNat / 2 ^ 10 % 2 ^ 1 = u.loadL.toNat := by
  obtain ⟨h1, h2, h3, h4, h5, h6, h7, h8⟩ := micro_bounds u
  rw [encodeMicro_toNat]
  omega

/-! ## The rows -/

theorem rowOf_micro (u : Micro) : (rowOf u).micro = u := by
  unfold rowOf
  split
  · unfold rowOfAluf; split <;> simp_all [Instr.micro] <;> (cases u; simp_all)
  split
  · unfold rowOfBs; split <;> simp_all [Instr.micro] <;> (cases u; simp_all)
  split
  · unfold rowOfF1; split <;> simp_all [Instr.micro] <;> (cases u; simp_all)
  split
  · unfold rowOfF2; split <;> simp_all [Instr.micro] <;> (cases u; simp_all)
  split
  · simp only [Instr.micro]; cases u; simp_all
  split
  · simp only [Instr.micro]; cases u; simp_all
  · rfl

theorem rowOf_carried (u : Micro) : (rowOf u).carried = u := by
  unfold rowOf
  split
  · unfold rowOfAluf; split <;> rfl
  split
  · unfold rowOfBs; split <;> rfl
  split
  · unfold rowOfF1; split <;> rfl
  split
  · unfold rowOfF2; split <;> rfl
  split
  · rfl
  split <;> rfl

end Sys2Proof
end

