-- ==== Sys2Proof/Laws/Memory.lean ====
section
/-! SUPPORT. The laws of a store: a read after a write, the canonical form and the address bound that every write keeps,
and that equal contents are equal data. -/

namespace Sys2Proof.Machine

/-! ## Bytes -/

theorem Memory.readByte_filter_other (mem : Memory) (a b : Nat) (h : b ≠ a) :
    Memory.readByte (mem.filter fun c => c.1 != a) b = mem.readByte b := by
  induction mem with
  | nil => rfl
  | cons c rest ih =>
    obtain ⟨x, v⟩ := c
    rw [List.filter_cons]
    by_cases hx : x = a
    · have hxb : x ≠ b := fun e => h (e ▸ hx)
      rw [if_neg (by simp [hx]), ih, Memory.readByte, if_neg hxb]
    · rw [if_pos (by simpa using hx), Memory.readByte, Memory.readByte, ih]

theorem Memory.readByte_filter_same (mem : Memory) (a : Nat) :
    Memory.readByte (mem.filter fun c => c.1 != a) a = Memory.blank := by
  induction mem with
  | nil => rfl
  | cons c rest ih =>
    obtain ⟨x, v⟩ := c
    rw [List.filter_cons]
    by_cases hx : x = a
    · rw [if_neg (by simp [hx]), ih]
    · rw [if_pos (by simpa using hx), Memory.readByte, if_neg hx, ih]

theorem Memory.readByte_insertCell_other (c : Host.Cell) (mem : Memory) (b : Nat) (h : b ≠ c.1) :
    Memory.readByte (Memory.insertCell c mem) b = mem.readByte b := by
  have hc : c.1 ≠ b := fun e => h e.symm
  induction mem with
  | nil => simp [Memory.insertCell, Memory.readByte, hc]
  | cons d rest ih =>
    obtain ⟨x, v⟩ := c
    by_cases hd : x < d.1
    · simp only [Memory.insertCell, hd, if_true]
      rw [Memory.readByte, if_neg hc]
    · simp only [Memory.insertCell, hd, if_false, Memory.readByte, ih]

theorem Memory.readByte_insertCell_same (c : Host.Cell) (mem : Memory) (h : ∀ d ∈ mem, d.1 ≠ c.1) :
    Memory.readByte (Memory.insertCell c mem) c.1 = c.2 := by
  induction mem with
  | nil => simp [Memory.insertCell, Memory.readByte]
  | cons d rest ih =>
    have hd : d.1 ≠ c.1 := h d (by simp)
    have ih' := ih fun e he => h e (by simp [he])
    by_cases hlt : c.1 < d.1
    · simp [Memory.insertCell, hlt, Memory.readByte]
    · simp [Memory.insertCell, hlt, Memory.readByte, hd, ih']

/-- A read of the byte just written gives the byte. -/
theorem Memory.readByte_writeByte_same (mem : Memory) (a : Nat) (v : Byte) : (mem.writeByte a v).readByte a = v := by
  unfold Memory.writeByte
  by_cases hv : v = Memory.blank
  · simp only [hv, if_true]
    exact Memory.readByte_filter_same mem a
  · simp only [hv, if_false]
    exact Memory.readByte_insertCell_same (a, v) _ fun d hd => by simpa using (List.mem_filter.mp hd).2

/-- A write leaves every other byte. -/
theorem Memory.readByte_writeByte_other (mem : Memory) (a b : Nat) (v : Byte) (h : b ≠ a) :
    (mem.writeByte a v).readByte b = mem.readByte b := by
  unfold Memory.writeByte
  by_cases hv : v = Memory.blank
  · simp only [hv, if_true]
    exact Memory.readByte_filter_other mem a b h
  · simp only [hv, if_false]
    rw [Memory.readByte_insertCell_other (a, v) _ b h]
    exact Memory.readByte_filter_other mem a b h

/-- A read after a write, both cases at once. -/
theorem Memory.readByte_writeByte (mem : Memory) (a b : Nat) (v : Byte) :
    (mem.writeByte a v).readByte b = if b = a then v else mem.readByte b := by
  by_cases h : b = a
  · rw [h, if_pos rfl, Memory.readByte_writeByte_same]
  · rw [if_neg h, Memory.readByte_writeByte_other mem a b v h]

/-! ## The canonical form -/

theorem Memory.wf_cons (c : Host.Cell) (rest : Memory) :
    Memory.wf (c :: rest) = true ↔ c.2 ≠ Memory.blank ∧ (∀ d ∈ rest, c.1 < d.1) ∧ Memory.wf rest = true := by
  simp [Memory.wf, and_assoc]

theorem Memory.wf_filter (mem : Memory) (p : Host.Cell → Bool) (h : mem.wf = true) : Memory.wf (mem.filter p) = true := by
  induction mem with
  | nil => rfl
  | cons c rest ih =>
    rw [Memory.wf_cons] at h
    rw [List.filter_cons]
    split
    · rw [Memory.wf_cons]
      exact ⟨h.1, fun d hd => h.2.1 d (List.mem_filter.mp hd).1, ih h.2.2⟩
    · exact ih h.2.2

theorem Memory.mem_insertCell (c d : Host.Cell) (mem : Memory) : d ∈ Memory.insertCell c mem ↔ d = c ∨ d ∈ mem := by
  induction mem with
  | nil => simp [Memory.insertCell]
  | cons e rest ih =>
    by_cases h : c.1 < e.1
    · simp [Memory.insertCell, h]
    · simp only [Memory.insertCell, h, if_false, List.mem_cons, ih]
      tauto

theorem Memory.wf_insertCell (c : Host.Cell) (mem : Memory) (hv : c.2 ≠ Memory.blank) (hne : ∀ d ∈ mem, d.1 ≠ c.1)
    (h : mem.wf = true) : Memory.wf (Memory.insertCell c mem) = true := by
  induction mem with
  | nil => simp [Memory.insertCell, hv, Memory.wf]
  | cons d rest ih =>
    have h' := (Memory.wf_cons d rest).mp h
    by_cases hlt : c.1 < d.1
    · simp only [Memory.insertCell, hlt, if_true]
      rw [Memory.wf_cons]
      refine ⟨hv, fun e he => ?_, h⟩
      rcases List.mem_cons.mp he with rfl | he
      · exact hlt
      · exact lt_trans hlt (h'.2.1 e he)
    · simp only [Memory.insertCell, hlt, if_false]
      rw [Memory.wf_cons]
      refine ⟨h'.1, fun e he => ?_, ih (fun e he => hne e (by simp [he])) h'.2.2⟩
      rcases (Memory.mem_insertCell c e rest).mp he with rfl | he
      · have := hne d (by simp)
        omega
      · exact h'.2.1 e he

/-- A write keeps the canonical form. -/
theorem Memory.wf_writeByte (mem : Memory) (a : Nat) (v : Byte) (h : mem.wf = true) : (mem.writeByte a v).wf = true := by
  unfold Memory.writeByte
  by_cases hv : v = Memory.blank
  · simp only [hv, if_true]
    exact Memory.wf_filter mem _ h
  · simp only [hv, if_false]
    exact Memory.wf_insertCell (a, v) _ hv (fun d hd => by simpa using (List.mem_filter.mp hd).2) (Memory.wf_filter mem _ h)

/-- A write below a bound keeps every listed address below it. -/
theorem Memory.bounded_writeByte (mem : Memory) (a n : Nat) (v : Byte) (ha : a < n) (h : ∀ c ∈ mem, c.1 < n) :
    ∀ c ∈ mem.writeByte a v, c.1 < n := by
  intro c hc
  unfold Memory.writeByte at hc
  by_cases hv : v = Memory.blank
  · simp only [hv, if_true] at hc
    exact h c (List.mem_filter.mp hc).1
  · simp only [hv, if_false] at hc
    rcases (Memory.mem_insertCell _ c _).mp hc with rfl | hc
    · exact ha
    · exact h c (List.mem_filter.mp hc).1

theorem Memory.readByte_of_lt (mem : Memory) (a : Nat) (h : ∀ c ∈ mem, a < c.1) : mem.readByte a = Memory.blank := by
  induction mem with
  | nil => rfl
  | cons c rest ih =>
    have hc : c.1 ≠ a := Nat.ne_of_gt (h c (by simp))
    rw [Memory.readByte, if_neg hc]
    exact ih fun d hd => h d (by simp [hd])

/-- Stores in canonical form that read the same are the same data. -/
theorem Memory.ext (m n : Memory) (hm : m.wf = true) (hn : n.wf = true) (h : ∀ a, m.readByte a = n.readByte a) : m = n := by
  induction m generalizing n with
  | nil =>
    cases n with
    | nil => rfl
    | cons d rest =>
      have := h d.1
      simp only [Memory.readByte, if_true] at this
      exact absurd this.symm ((Memory.wf_cons d rest).mp hn).1
  | cons c mrest ih =>
    have hm' := (Memory.wf_cons c mrest).mp hm
    cases n with
    | nil =>
      have := h c.1
      simp only [Memory.readByte, if_true] at this
      exact absurd this hm'.1
    | cons d nrest =>
      have hn' := (Memory.wf_cons d nrest).mp hn
      have hcd : c.1 = d.1 := by
        rcases lt_trichotomy c.1 d.1 with hlt | heq | hgt
        · have h1 := h c.1
          rw [Memory.readByte_of_lt (d :: nrest) c.1 (by
            intro e he
            rcases List.mem_cons.mp he with rfl | he
            · exact hlt
            · exact lt_trans hlt (hn'.2.1 e he))] at h1
          simp only [Memory.readByte, if_true] at h1
          exact absurd h1 hm'.1
        · exact heq
        · have h1 := h d.1
          rw [Memory.readByte_of_lt (c :: mrest) d.1 (by
            intro e he
            rcases List.mem_cons.mp he with rfl | he
            · exact hgt
            · exact lt_trans hgt (hm'.2.1 e he))] at h1
          simp only [Memory.readByte, if_true] at h1
          exact absurd h1.symm hn'.1
      have hv : c.2 = d.2 := by
        have h1 := h c.1
        rw [Memory.readByte, Memory.readByte, if_pos rfl, if_pos hcd.symm] at h1
        exact h1
      have hrest : mrest = nrest := by
        refine ih nrest hm'.2.2 hn'.2.2 fun a => ?_
        by_cases ha : c.1 = a
        · rw [Memory.readByte_of_lt mrest a (fun e he => ha ▸ hm'.2.1 e he),
            Memory.readByte_of_lt nrest a (fun e he => ha ▸ hcd ▸ hn'.2.1 e he)]
        · have h1 := h a
          rw [Memory.readByte, Memory.readByte, if_neg ha, if_neg (hcd ▸ ha)] at h1
          exact h1
      rw [hrest, Prod.ext hcd hv]

/-! ## Words -/

/-- A read of the main-store word just written gives the word. -/
theorem Memory.readWord_writeWord_same (mem : Memory) (p : Nat) (v : Word) : (mem.writeWord p v).readWord p = v := by
  unfold Memory.readWord Memory.writeWord
  rw [Memory.readByte_writeByte_same, Memory.readByte_writeByte_other _ _ _ _ (by omega),
    Memory.readByte_writeByte_same]
  ext i hi
  simp only [BitVec.getElem_append, BitVec.getElem_extractLsb']
  split <;> simp_all [BitVec.getLsbD_eq_getElem]

/-- A word write leaves every byte outside the word. -/
theorem Memory.readByte_writeWord_other (mem : Memory) (p b : Nat) (v : Word) (h0 : b ≠ 2 * p) (h1 : b ≠ 2 * p + 1) :
    (mem.writeWord p v).readByte b = mem.readByte b := by
  unfold Memory.writeWord
  rw [Memory.readByte_writeByte_other _ _ _ _ h1, Memory.readByte_writeByte_other _ _ _ _ h0]

/-- A word write leaves every other word. -/
theorem Memory.readWord_writeWord_other (mem : Memory) (p q : Nat) (v : Word) (h : q ≠ p) :
    (mem.writeWord p v).readWord q = mem.readWord q := by
  unfold Memory.readWord
  rw [Memory.readByte_writeWord_other _ _ _ _ (by omega) (by omega),
    Memory.readByte_writeWord_other _ _ _ _ (by omega) (by omega)]

theorem Memory.wf_writeWord (mem : Memory) (p : Nat) (v : Word) (h : mem.wf = true) : (mem.writeWord p v).wf = true :=
  Memory.wf_writeByte _ _ _ (Memory.wf_writeByte _ _ _ h)

theorem Memory.bounded_writeWord (mem : Memory) (p n : Nat) (v : Word) (hp : 2 * p + 1 < n) (h : ∀ c ∈ mem, c.1 < n) :
    ∀ c ∈ mem.writeWord p v, c.1 < n :=
  Memory.bounded_writeByte _ _ _ _ hp (Memory.bounded_writeByte _ _ _ _ (by omega) h)

/-- A read of the microcode word just written gives the word. -/
theorem Memory.readMicro_writeMicro_same (mem : Memory) (p : Nat) (v : MicroWord) :
    (mem.writeMicro p v).readMicro p = v := by
  unfold Memory.readMicro Memory.writeMicro
  rw [Memory.readByte_writeByte_same, Memory.readByte_writeByte_other _ _ _ _ (by omega),
    Memory.readByte_writeByte_same, Memory.readByte_writeByte_other _ _ _ _ (by omega),
    Memory.readByte_writeByte_other _ _ _ _ (by omega), Memory.readByte_writeByte_same,
    Memory.readByte_writeByte_other _ _ _ _ (by omega), Memory.readByte_writeByte_other _ _ _ _ (by omega),
    Memory.readByte_writeByte_other _ _ _ _ (by omega), Memory.readByte_writeByte_same]
  ext i hi
  simp only [BitVec.getElem_append, BitVec.getElem_extractLsb']
  split
  · simp_all [BitVec.getLsbD_eq_getElem]
  · split
    · simp_all [BitVec.getLsbD_eq_getElem]
    · split
      · rw [BitVec.getLsbD_eq_getElem (by omega)]
        congr 1
        omega
      · rw [BitVec.getLsbD_eq_getElem (by omega)]
        congr 1
        omega

/-- A microcode write leaves every byte outside the word. -/
theorem Memory.readByte_writeMicro_other (mem : Memory) (p b : Nat) (v : MicroWord) (h : b / 4 ≠ p) :
    (mem.writeMicro p v).readByte b = mem.readByte b := by
  unfold Memory.writeMicro
  rw [Memory.readByte_writeByte_other _ _ _ _ (by omega), Memory.readByte_writeByte_other _ _ _ _ (by omega),
    Memory.readByte_writeByte_other _ _ _ _ (by omega), Memory.readByte_writeByte_other _ _ _ _ (by omega)]

/-- A microcode write leaves every other word. -/
theorem Memory.readMicro_writeMicro_other (mem : Memory) (p q : Nat) (v : MicroWord) (h : q ≠ p) :
    (mem.writeMicro p v).readMicro q = mem.readMicro q := by
  unfold Memory.readMicro
  rw [Memory.readByte_writeMicro_other _ _ _ _ (by omega), Memory.readByte_writeMicro_other _ _ _ _ (by omega),
    Memory.readByte_writeMicro_other _ _ _ _ (by omega), Memory.readByte_writeMicro_other _ _ _ _ (by omega)]

theorem Memory.wf_writeMicro (mem : Memory) (p : Nat) (v : MicroWord) (h : mem.wf = true) : (mem.writeMicro p v).wf = true :=
  Memory.wf_writeByte _ _ _ (Memory.wf_writeByte _ _ _ (Memory.wf_writeByte _ _ _ (Memory.wf_writeByte _ _ _ h)))

theorem Memory.bounded_writeMicro (mem : Memory) (p n : Nat) (v : MicroWord) (hp : 4 * p + 3 < n)
    (h : ∀ c ∈ mem, c.1 < n) : ∀ c ∈ mem.writeMicro p v, c.1 < n :=
  Memory.bounded_writeByte _ _ _ _ hp (Memory.bounded_writeByte _ _ _ _ (by omega)
    (Memory.bounded_writeByte _ _ _ _ (by omega) (Memory.bounded_writeByte _ _ _ _ (by omega) h)))

/-- The stores of the machine after reset are in canonical form. -/
theorem State.reset_stores_wf : State.reset.main.wf = true ∧ State.reset.urom.wf = true ∧ State.reset.uram.wf = true :=
  ⟨rfl, rfl, rfl⟩

end Sys2Proof.Machine
end

