-- ==== Sys2Proof/Laws/Invariant.lean ====
section
/-! SUPPORT. The operations keep the invariant of Sys2Proof/Safety.lean: one lemma per operation of the memory bus, of the tasks
and of the hooks. -/

namespace Sys2Proof.Machine

theorem inv_memWrite (a v : Word) (s : State) (h : Inv s) : Inv (memWrite a v s) := by
  unfold memWrite; split
  · exact ⟨h.1, h.2, h.3, h.4, h.5, h.6, h.7, h.8, h.9, h.10, h.11⟩
  · split
    · exact ⟨h.1, h.2, h.3, h.4, h.5, h.6, h.7, h.8, h.9, h.10, h.11⟩
    · refine ⟨Memory.wf_writeWord _ _ _ h.1, h.2, h.3, h.4, h.5, h.6, h.7, h.8, h.9,
        Memory.bounded_writeWord _ _ _ _ ?_ h.10, h.11⟩
      have := (physAddr a s.memTask s.memXM s).isLt; omega

theorem inv_loadMar (a : Word) (k : TaskNum) (xm : Bool) (s : State) (h : Inv s) : Inv (loadMar a k xm s) := by
  unfold loadMar; split
  · exact ⟨h.1, h.2, h.3, h.4, h.5, h.6, h.7, h.8, h.9, h.10, h.11⟩
  · exact ⟨h.1, h.2, h.3, by simp, h.5, h.6, h.7, h.8, by simp, h.10, h.11⟩

theorem inv_storeMd (v : Word) (s : State) (h : Inv s) : Inv (storeMd v s) := by
  unfold storeMd; split
  · exact ⟨h.1, h.2, h.3, h.4, h.5, h.6, h.7, h.8, h.9, h.10, h.11⟩
  · split
    · exact ⟨h.1, h.2, h.3, h.4, h.5, h.6, h.7, h.8, h.9, h.10, h.11⟩
    · have h := inv_memWrite (storeAddr s) v s h
      exact ⟨h.1, h.2, h.3, h.4, h.5, h.6, h.7, h.8, fun _ => rfl, h.10, h.11⟩

theorem inv_readMd_ok (s t : State) (w : Word) (e : readMd s = .ok (w, t)) (h : Inv s) : Inv t := by
  unfold readMd at e
  split at e
  · cases e
  · split at e
    · cases e; exact ⟨h.1, h.2, h.3, h.4, h.5, h.6, h.7, h.8, h.9, h.10, h.11⟩
    · split at e
      · split at e <;> cases e; exact h
      · cases e; exact h

theorem inv_with_halted (s : State) (x) (h : Inv s) : Inv { s with halted := x } :=
  ⟨h.1, h.2, h.3, h.4, h.5, h.6, h.7, h.8, h.9, h.10, h.11⟩

theorem inv_readMd_error (s t : State) (e : readMd s = .error t) (h : Inv s) : Inv t := by
  unfold readMd at e
  split at e
  · cases e; exact inv_with_halted _ _ h
  · split at e
    · cases e
    · split at e
      · split at e <;> cases e; exact inv_with_halted _ _ h
      · cases e

theorem inv_with_wakeup (s : State) (k : TaskNum) (b : Bool) (h : Inv s) (hk : k ≠ 0 ∨ b = true) :
    Inv { s with wakeup := Bank.put s.wakeup k b } := by
  refine ⟨h.1, h.2, h.3, h.4, ?_, h.6, h.7, h.8, h.9, h.10, h.11⟩
  show Bank.get (Bank.put s.wakeup k b) 0 = true
  rw [Bank.get_put]; split
  · rcases hk with hk | hk
    · exact absurd (by assumption : (0 : TaskNum) = k).symm hk
    · exact hk
  · exact h.5

theorem inv_wakeupTask (k : TaskNum) (s : State) (h : Inv s) : Inv (wakeupTask k s) := by
  unfold wakeupTask; split
  · exact inv_with_halted _ _ h
  · split
    · exact inv_with_halted _ _ h
    · exact inv_with_wakeup _ _ _ h (.inr rfl)

theorem inv_blockTask (k : TaskNum) (s : State) (h : Inv s) : Inv (blockTask k s) := by
  unfold blockTask; split
  · exact inv_with_halted _ _ h
  · split
    · exact inv_with_halted _ _ h
    · exact inv_with_wakeup _ _ _ h (.inl ‹_›)

theorem inv_hookCall (p : HookPoint) (c : ExternalCall) (s : State) (h : Inv s) : Inv (hookCall p c s) := by
  unfold hookCall; split
  · cases c
    · exact inv_wakeupTask _ _ h
    · exact inv_blockTask _ _ h
  · exact ⟨h.1, h.2, h.3, h.4, h.5, h.6, h.7, h.8, h.9, h.10, h.11⟩

theorem inv_hookAction (k : TaskNum) (p : HookPoint) (a : HookAction) (s : State) (h : Inv s) : Inv (hookAction k p a s) := by
  cases a with
  | setRSelect | orNextModifier =>
    simp only [hookAction]; split
    · exact ⟨h.1, h.2, h.3, h.4, h.5, h.6, h.7, h.8, h.9, h.10, h.11⟩
    · exact h
  | loadMar => exact inv_loadMar _ _ _ _ h
  | storeMd => exact inv_storeMd _ _ h
  | wakeupTask => exact inv_hookCall _ _ _ h
  | blockTask => exact inv_hookCall _ _ _ h
  | readMd =>
    show Inv (match readMd s with | .ok (_, s') => s' | .error s' => s')
    split
    · exact inv_readMd_ok _ _ _ ‹_› h
    · exact inv_readMd_error _ _ ‹_› h
  | _ => exact ⟨h.1, h.2, h.3, h.4, h.5, h.6, h.7, h.8, h.9, h.10, h.11⟩

theorem inv_hookActions (k : TaskNum) (p : HookPoint) (acts : List HookAction) (s : State) (h : Inv s) :
    Inv (hookActions k p acts s) :=
  runPhases_keeps Inv _ (fun f hf x hx => by obtain ⟨a, -, rfl⟩ := List.mem_map.mp hf; exact inv_hookAction _ _ _ _ hx) s h

theorem inv_optionalHook (k : TaskNum) (p : HookPoint) (s : State) (h : Inv s) : Inv (optionalHook k p s) := by
  unfold optionalHook; split
  · exact h
  · exact inv_hookActions _ _ _ _ h

theorem inv_codeHook (k : TaskNum) (p : HookPoint) (f : Fault) (s : State) (h : Inv s) : Inv (codeHook k p f s) := by
  unfold codeHook; split
  · exact inv_with_halted _ _ h
  · exact inv_hookActions _ _ _ _ h

theorem inv_busHook (k : TaskNum) (p : HookPoint) (s : State) (h : Inv s) : Inv (busHook k p s) := by
  unfold busHook; split
  · exact inv_with_halted _ _ h
  · refine runPhases_keeps Inv _ ?_ s h
    intro f hf t h
    simp only [List.mem_cons, List.not_mem_nil, or_false] at hf
    rcases hf with rfl | rfl
    · exact inv_hookActions _ _ _ _ h
    · unfold hookBus; split
      · exact ⟨h.1, h.2, h.3, h.4, h.5, h.6, h.7, h.8, h.9, h.10, h.11⟩
      · split
        · have h := inv_readMd_ok _ _ _ ‹_› h
          exact ⟨h.1, h.2, h.3, h.4, h.5, h.6, h.7, h.8, h.9, h.10, h.11⟩
        · exact inv_readMd_error _ _ ‹_› h

theorem inv_memRead (a : Word) (s : State) (h : Inv s) : Inv (memRead a s).2 := by
  unfold memRead; split
  · exact h
  · split
    · exact ⟨h.1, h.2, h.3, h.4, h.5, h.6, h.7, h.8, h.9, h.10, h.11⟩
    · exact h

theorem inv_busClock (s : State) (h : Inv s) : Inv (busClock s) := by
  have h4 := h.4
  unfold busClock; split
  · exact h
  · split
    · exact ⟨h.1, h.2, h.3, h.4, h.5, h.6, h.7, h.8, h.9, h.10, h.11⟩
    · have h' : Inv { s with memCycle := s.memCycle + 1 } := ⟨h.1, h.2, h.3, by simp only; omega, h.5, h.6, h.7, h.8, h.9, h.10, h.11⟩
      split
      · have h := inv_memRead s.memAddr _ h'
        exact ⟨h.1, h.2, h.3, h.4, h.5, h.6, h.7, h.8, h.9, h.10, h.11⟩
      · split
        · have h := inv_memRead (partner s.memAddr) _ h'
          exact ⟨h.1, h.2, h.3, h.4, h.5, h.6, h.7, h.8, h.9, h.10, h.11⟩
        · exact h'

end Sys2Proof.Machine
end

