-- ==== Sys2Proof/Laws/Keeps.lean ====
section
/-! SUPPORT. What hooks restricted to some actions keep, and what a whole cycle keeps when every phase does. -/

namespace Sys2Proof.Machine

theorem optionalHook_keeps (P : State → Prop) (ok : HookAction → Bool) (k : TaskNum) (p : HookPoint) (s x : State)
    (h : hooksOnly ok k s = true) (hok : ∀ a, ok a = true → ∀ s, P s → P (hookAction k p a s)) (hp : x.params = s.params) (hx : P x) :
    P (optionalHook k p x) := by
  unfold optionalHook
  rcases hookAnswer_of_only ok k p s h with hn | ⟨w, acts, ha, hw⟩
  · rw [hookAnswer_congr ok k p s x h hp, hn]; exact hx
  · rw [hw x hp]; exact hookActions_keeps P ok k p acts hok ha x hx

theorem codeHook_keeps (P : State → Prop) (ok : HookAction → Bool) (k : TaskNum) (p : HookPoint) (f : Fault) (s x : State)
    (h : hooksOnly ok k s = true) (hok : ∀ a, ok a = true → ∀ s, P s → P (hookAction k p a s)) (hp : x.params = s.params) (hx : P x)
    (hr : ∀ f i x, P x → P (raise f i x)) :
    P (codeHook k p f x) := by
  unfold codeHook
  rcases hookAnswer_of_only ok k p s h with hn | ⟨w, acts, ha, hw⟩
  · rw [hookAnswer_congr ok k p s x h hp, hn]; exact hr _ _ _ hx
  · rw [hw x hp]; exact hookActions_keeps P ok k p acts hok ha x hx

theorem busHook_keeps (P : State → Prop) (ok : HookAction → Bool) (k : TaskNum) (p : HookPoint) (s x : State)
    (h : hooksOnly ok k s = true) (hok : ∀ a, ok a = true → ∀ s, P s → P (hookAction k p a s)) (hp : x.params = s.params) (hx : P x)
    (hr : ∀ f i x, P x → P (raise f i x)) (hb : ∀ x w, P x → P (x.setBus w)) :
    P (busHook k p x) := by
  unfold busHook
  rcases hookAnswer_of_only ok k p s h with hn | ⟨w, acts, ha, hw⟩
  · rw [hookAnswer_congr ok k p s x h hp, hn]; exact hr _ _ _ hx
  · rw [hw x hp]
    refine runPhases_keeps P _ ?_ x hx
    intro f hf y hy
    simp only [List.mem_cons, List.not_mem_nil, or_false] at hf
    rcases hf with rfl | rfl
    · exact hookActions_keeps P ok k p acts hok ha y hy
    · exact hb y w hy

/-- What every phase keeps, every row keeps. -/
theorem exec_keeps (P : State → Prop) (i : Instr) (s t : State) (h : exec i s = .next t)
    (hf : ∀ f ∈ cpuPhases i.micro s.currentTask, ∀ x, P x → P (f x)) (hw : P { s with completion := .memoryWait })
    (h0 : P s) : P t := by
  rw [exec_eq] at h
  cases h
  exact cpuStep_keeps P i.micro s hf hw h0

end Sys2Proof.Machine
end

