-- ==== Sys2Proof/Laws/PerInstr.lean ====
section
/-! SUPPORT. The family RowOfWord: the word of every instruction carries its row's bits of the opcode table. -/

namespace Sys2Proof.Laws

/-- The bits of a row in spec/opcode_table.json: the lowest bit of its field, the field's width and the field's value. The
plain microinstruction fixes no bit. -/
def RowOfWord.bits : Instr → Nat × Nat × Nat
  | .microinstruction _ => (0, 0, 0)
  | .aluBus _ => (23, 4, 0)
  | .aluT _ => (23, 4, 1)
  | .aluBusOrT _ => (23, 4, 2)
  | .aluBusAndT _ => (23, 4, 3)
  | .aluBusXorT _ => (23, 4, 4)
  | .aluBusPlus1 _ => (23, 4, 5)
  | .aluBusMinus1 _ => (23, 4, 6)
  | .aluBusPlusT _ => (23, 4, 7)
  | .aluBusMinusT _ => (23, 4, 8)
  | .aluBusMinusTMinus1 _ => (23, 4, 9)
  | .aluBusPlusTPlus1 _ => (23, 4, 10)
  | .aluBusPlusSkip _ => (23, 4, 11)
  | .aluAluBusAndT _ => (23, 4, 12)
  | .aluBusAndNotT _ => (23, 4, 13)
  | .aluReserved14 _ => (23, 4, 14)
  | .aluReserved15 _ => (23, 4, 15)
  | .bsReadR _ => (20, 3, 0)
  | .bsLoadR _ => (20, 3, 1)
  | .bsNone _ => (20, 3, 2)
  | .bsReadMd _ => (20, 3, 5)
  | .bsReadMouse _ => (20, 3, 6)
  | .bsReadDisp _ => (20, 3, 7)
  | .bsReadS _ => (20, 3, 3)
  | .bsLoadS _ => (20, 3, 4)
  | .bsTaskSpecific1 _ => (20, 3, 3)
  | .bsTaskSpecific2 _ => (20, 3, 4)
  | .f1None _ => (16, 4, 0)
  | .f1LoadMar _ => (16, 4, 1)
  | .f1Task _ => (16, 4, 2)
  | .f1Block _ => (16, 4, 3)
  | .f1LLsh1 _ => (16, 4, 4)
  | .f1LRsh1 _ => (16, 4, 5)
  | .f1LLcy8 _ => (16, 4, 6)
  | .f1Constant _ => (16, 4, 7)
  | .f1Swmode _ => (16, 4, 8)
  | .f1Wrtram _ => (16, 4, 9)
  | .f1Rdram _ => (16, 4, 10)
  | .f1LoadRmr _ => (16, 4, 11)
  | .f1Reserved12 _ => (16, 4, 12)
  | .f1LoadEsrb _ => (16, 4, 13)
  | .f1Rsnf _ => (16, 4, 14)
  | .f1Startf _ => (16, 4, 15)
  | .f1TaskSpecific8 _ => (16, 4, 8)
  | .f1TaskSpecific9 _ => (16, 4, 9)
  | .f1TaskSpecific10 _ => (16, 4, 10)
  | .f1TaskSpecific11 _ => (16, 4, 11)
  | .f1TaskSpecific12 _ => (16, 4, 12)
  | .f1TaskSpecific13 _ => (16, 4, 13)
  | .f1TaskSpecific14 _ => (16, 4, 14)
  | .f1TaskSpecific15 _ => (16, 4, 15)
  | .f2None _ => (12, 4, 0)
  | .f2BusEq0 _ => (12, 4, 1)
  | .f2ShLt0 _ => (12, 4, 2)
  | .f2ShEq0 _ => (12, 4, 3)
  | .f2Bus _ => (12, 4, 4)
  | .f2Alucy _ => (12, 4, 5)
  | .f2StoreMd _ => (12, 4, 6)
  | .f2Constant _ => (12, 4, 7)
  | .f2Busodd _ => (12, 4, 8)
  | .f2Magic _ => (12, 4, 9)
  | .f2LoadDns _ => (12, 4, 10)
  | .f2Acdest _ => (12, 4, 11)
  | .f2LoadIr _ => (12, 4, 12)
  | .f2Idisp _ => (12, 4, 13)
  | .f2Acsource _ => (12, 4, 14)
  | .f2Reserved15 _ => (12, 4, 15)
  | .f2TaskSpecific8 _ => (12, 4, 8)
  | .f2TaskSpecific9 _ => (12, 4, 9)
  | .f2TaskSpecific10 _ => (12, 4, 10)
  | .f2TaskSpecific11 _ => (12, 4, 11)
  | .f2TaskSpecific12 _ => (12, 4, 12)
  | .f2TaskSpecific13 _ => (12, 4, 13)
  | .f2TaskSpecific14 _ => (12, 4, 14)
  | .f2TaskSpecific15 _ => (12, 4, 15)
  | .lt _ => (11, 1, 1)
  | .ll _ => (10, 1, 1)

/-- The word of `i` has its row's value in its row's field. -/
def RowOfWord.Statement (i : Instr) : Prop :=
  (encode i).toNat / 2 ^ (RowOfWord.bits i).1 % 2 ^ (RowOfWord.bits i).2.1 = (RowOfWord.bits i).2.2

theorem RowOfWord.microinstruction (u : Micro) : RowOfWord.Statement (.microinstruction u) := Nat.mod_one _

theorem RowOfWord.aluBus (u : Micro) : RowOfWord.Statement (.aluBus u) := encodeMicro_aluf _

theorem RowOfWord.aluT (u : Micro) : RowOfWord.Statement (.aluT u) := encodeMicro_aluf _

theorem RowOfWord.aluBusOrT (u : Micro) : RowOfWord.Statement (.aluBusOrT u) := encodeMicro_aluf _

theorem RowOfWord.aluBusAndT (u : Micro) : RowOfWord.Statement (.aluBusAndT u) := encodeMicro_aluf _

theorem RowOfWord.aluBusXorT (u : Micro) : RowOfWord.Statement (.aluBusXorT u) := encodeMicro_aluf _

theorem RowOfWord.aluBusPlus1 (u : Micro) : RowOfWord.Statement (.aluBusPlus1 u) := encodeMicro_aluf _

theorem RowOfWord.aluBusMinus1 (u : Micro) : RowOfWord.Statement (.aluBusMinus1 u) := encodeMicro_aluf _

theorem RowOfWord.aluBusPlusT (u : Micro) : RowOfWord.Statement (.aluBusPlusT u) := encodeMicro_aluf _

theorem RowOfWord.aluBusMinusT (u : Micro) : RowOfWord.Statement (.aluBusMinusT u) := encodeMicro_aluf _

theorem RowOfWord.aluBusMinusTMinus1 (u : Micro) : RowOfWord.Statement (.aluBusMinusTMinus1 u) := encodeMicro_aluf _

theorem RowOfWord.aluBusPlusTPlus1 (u : Micro) : RowOfWord.Statement (.aluBusPlusTPlus1 u) := encodeMicro_aluf _

theorem RowOfWord.aluBusPlusSkip (u : Micro) : RowOfWord.Statement (.aluBusPlusSkip u) := encodeMicro_aluf _

theorem RowOfWord.aluAluBusAndT (u : Micro) : RowOfWord.Statement (.aluAluBusAndT u) := encodeMicro_aluf _

theorem RowOfWord.aluBusAndNotT (u : Micro) : RowOfWord.Statement (.aluBusAndNotT u) := encodeMicro_aluf _

theorem RowOfWord.aluReserved14 (u : Micro) : RowOfWord.Statement (.aluReserved14 u) := encodeMicro_aluf _

theorem RowOfWord.aluReserved15 (u : Micro) : RowOfWord.Statement (.aluReserved15 u) := encodeMicro_aluf _

theorem RowOfWord.bsReadR (u : Micro) : RowOfWord.Statement (.bsReadR u) := encodeMicro_bs _

theorem RowOfWord.bsLoadR (u : Micro) : RowOfWord.Statement (.bsLoadR u) := encodeMicro_bs _

theorem RowOfWord.bsNone (u : Micro) : RowOfWord.Statement (.bsNone u) := encodeMicro_bs _

theorem RowOfWord.bsReadMd (u : Micro) : RowOfWord.Statement (.bsReadMd u) := encodeMicro_bs _

theorem RowOfWord.bsReadMouse (u : Micro) : RowOfWord.Statement (.bsReadMouse u) := encodeMicro_bs _

theorem RowOfWord.bsReadDisp (u : Micro) : RowOfWord.Statement (.bsReadDisp u) := encodeMicro_bs _

theorem RowOfWord.bsReadS (u : Micro) : RowOfWord.Statement (.bsReadS u) := encodeMicro_bs _

theorem RowOfWord.bsLoadS (u : Micro) : RowOfWord.Statement (.bsLoadS u) := encodeMicro_bs _

theorem RowOfWord.bsTaskSpecific1 (u : Micro) : RowOfWord.Statement (.bsTaskSpecific1 u) := encodeMicro_bs _

theorem RowOfWord.bsTaskSpecific2 (u : Micro) : RowOfWord.Statement (.bsTaskSpecific2 u) := encodeMicro_bs _

theorem RowOfWord.f1None (u : Micro) : RowOfWord.Statement (.f1None u) := encodeMicro_f1 _

theorem RowOfWord.f1LoadMar (u : Micro) : RowOfWord.Statement (.f1LoadMar u) := encodeMicro_f1 _

theorem RowOfWord.f1Task (u : Micro) : RowOfWord.Statement (.f1Task u) := encodeMicro_f1 _

theorem RowOfWord.f1Block (u : Micro) : RowOfWord.Statement (.f1Block u) := encodeMicro_f1 _

theorem RowOfWord.f1LLsh1 (u : Micro) : RowOfWord.Statement (.f1LLsh1 u) := encodeMicro_f1 _

theorem RowOfWord.f1LRsh1 (u : Micro) : RowOfWord.Statement (.f1LRsh1 u) := encodeMicro_f1 _

theorem RowOfWord.f1LLcy8 (u : Micro) : RowOfWord.Statement (.f1LLcy8 u) := encodeMicro_f1 _

theorem RowOfWord.f1Constant (u : Micro) : RowOfWord.Statement (.f1Constant u) := encodeMicro_f1 _

theorem RowOfWord.f1Swmode (u : Micro) : RowOfWord.Statement (.f1Swmode u) := encodeMicro_f1 _

theorem RowOfWord.f1Wrtram (u : Micro) : RowOfWord.Statement (.f1Wrtram u) := encodeMicro_f1 _

theorem RowOfWord.f1Rdram (u : Micro) : RowOfWord.Statement (.f1Rdram u) := encodeMicro_f1 _

theorem RowOfWord.f1LoadRmr (u : Micro) : RowOfWord.Statement (.f1LoadRmr u) := encodeMicro_f1 _

theorem RowOfWord.f1Reserved12 (u : Micro) : RowOfWord.Statement (.f1Reserved12 u) := encodeMicro_f1 _

theorem RowOfWord.f1LoadEsrb (u : Micro) : RowOfWord.Statement (.f1LoadEsrb u) := encodeMicro_f1 _

theorem RowOfWord.f1Rsnf (u : Micro) : RowOfWord.Statement (.f1Rsnf u) := encodeMicro_f1 _

theorem RowOfWord.f1Startf (u : Micro) : RowOfWord.Statement (.f1Startf u) := encodeMicro_f1 _

theorem RowOfWord.f1TaskSpecific8 (u : Micro) : RowOfWord.Statement (.f1TaskSpecific8 u) := encodeMicro_f1 _

theorem RowOfWord.f1TaskSpecific9 (u : Micro) : RowOfWord.Statement (.f1TaskSpecific9 u) := encodeMicro_f1 _

theorem RowOfWord.f1TaskSpecific10 (u : Micro) : RowOfWord.Statement (.f1TaskSpecific10 u) := encodeMicro_f1 _

theorem RowOfWord.f1TaskSpecific11 (u : Micro) : RowOfWord.Statement (.f1TaskSpecific11 u) := encodeMicro_f1 _

theorem RowOfWord.f1TaskSpecific12 (u : Micro) : RowOfWord.Statement (.f1TaskSpecific12 u) := encodeMicro_f1 _

theorem RowOfWord.f1TaskSpecific13 (u : Micro) : RowOfWord.Statement (.f1TaskSpecific13 u) := encodeMicro_f1 _

theorem RowOfWord.f1TaskSpecific14 (u : Micro) : RowOfWord.Statement (.f1TaskSpecific14 u) := encodeMicro_f1 _

theorem RowOfWord.f1TaskSpecific15 (u : Micro) : RowOfWord.Statement (.f1TaskSpecific15 u) := encodeMicro_f1 _

theorem RowOfWord.f2None (u : Micro) : RowOfWord.Statement (.f2None u) := encodeMicro_f2 _

theorem RowOfWord.f2BusEq0 (u : Micro) : RowOfWord.Statement (.f2BusEq0 u) := encodeMicro_f2 _

theorem RowOfWord.f2ShLt0 (u : Micro) : RowOfWord.Statement (.f2ShLt0 u) := encodeMicro_f2 _

theorem RowOfWord.f2ShEq0 (u : Micro) : RowOfWord.Statement (.f2ShEq0 u) := encodeMicro_f2 _

theorem RowOfWord.f2Bus (u : Micro) : RowOfWord.Statement (.f2Bus u) := encodeMicro_f2 _

theorem RowOfWord.f2Alucy (u : Micro) : RowOfWord.Statement (.f2Alucy u) := encodeMicro_f2 _

theorem RowOfWord.f2StoreMd (u : Micro) : RowOfWord.Statement (.f2StoreMd u) := encodeMicro_f2 _

theorem RowOfWord.f2Constant (u : Micro) : RowOfWord.Statement (.f2Constant u) := encodeMicro_f2 _

theorem RowOfWord.f2Busodd (u : Micro) : RowOfWord.Statement (.f2Busodd u) := encodeMicro_f2 _

theorem RowOfWord.f2Magic (u : Micro) : RowOfWord.Statement (.f2Magic u) := encodeMicro_f2 _

theorem RowOfWord.f2LoadDns (u : Micro) : RowOfWord.Statement (.f2LoadDns u) := encodeMicro_f2 _

theorem RowOfWord.f2Acdest (u : Micro) : RowOfWord.Statement (.f2Acdest u) := encodeMicro_f2 _

theorem RowOfWord.f2LoadIr (u : Micro) : RowOfWord.Statement (.f2LoadIr u) := encodeMicro_f2 _

theorem RowOfWord.f2Idisp (u : Micro) : RowOfWord.Statement (.f2Idisp u) := encodeMicro_f2 _

theorem RowOfWord.f2Acsource (u : Micro) : RowOfWord.Statement (.f2Acsource u) := encodeMicro_f2 _

theorem RowOfWord.f2Reserved15 (u : Micro) : RowOfWord.Statement (.f2Reserved15 u) := encodeMicro_f2 _

theorem RowOfWord.f2TaskSpecific8 (u : Micro) : RowOfWord.Statement (.f2TaskSpecific8 u) := encodeMicro_f2 _

theorem RowOfWord.f2TaskSpecific9 (u : Micro) : RowOfWord.Statement (.f2TaskSpecific9 u) := encodeMicro_f2 _

theorem RowOfWord.f2TaskSpecific10 (u : Micro) : RowOfWord.Statement (.f2TaskSpecific10 u) := encodeMicro_f2 _

theorem RowOfWord.f2TaskSpecific11 (u : Micro) : RowOfWord.Statement (.f2TaskSpecific11 u) := encodeMicro_f2 _

theorem RowOfWord.f2TaskSpecific12 (u : Micro) : RowOfWord.Statement (.f2TaskSpecific12 u) := encodeMicro_f2 _

theorem RowOfWord.f2TaskSpecific13 (u : Micro) : RowOfWord.Statement (.f2TaskSpecific13 u) := encodeMicro_f2 _

theorem RowOfWord.f2TaskSpecific14 (u : Micro) : RowOfWord.Statement (.f2TaskSpecific14 u) := encodeMicro_f2 _

theorem RowOfWord.f2TaskSpecific15 (u : Micro) : RowOfWord.Statement (.f2TaskSpecific15 u) := encodeMicro_f2 _

theorem RowOfWord.lt (u : Micro) : RowOfWord.Statement (.lt u) := encodeMicro_loadT _

theorem RowOfWord.ll (u : Micro) : RowOfWord.Statement (.ll u) := encodeMicro_loadL _

end Sys2Proof.Laws
end

