-- ==== Sys2Proof/Laws/Reset.lean ====
section
/-! SUPPORT. The laws of the power-up reset: what its loop over the tasks leaves in every cell, with any hooks and with none,
and what it keeps. -/

namespace Sys2Proof.Machine

@[simp] theorem absentCells_get {α : Type} (p : Params) (v : PerTask α) (x : TaskNum → α) (k : TaskNum) :
    Bank.get (absentCells p v x) k = if p.present k then Bank.get v k else x k := by
  simp [absentCells]

/-- The cells a reset task holds, but for those a hook can write through the memory bus or the wakeups. -/
structure SeedCells (k : TaskNum) (s : State) : Prop where
  mpc : Bank.get s.mpc k = BitVec.ofNat 10 k.val
  firstAfterSwitch : Bank.get s.firstAfterSwitch k = false
  rdRamPending : Bank.get s.rdRamPending k = false
  wrtRamPending : Bank.get s.wrtRamPending k = false
  swModePending : Bank.get s.swModePending k = false

/-- What no round of the loop changes: all but the cells of its tasks and what a hook changes (`HookFrame`). -/
def LoopFrame (s t : State) : Prop :=
  HookFrame { s with
    mpc := t.mpc, firstAfterSwitch := t.firstAfterSwitch, rdRamPending := t.rdRamPending
    wrtRamPending := t.wrtRamPending, swModePending := t.swModePending } t

theorem LoopFrame.refl (s : State) : LoopFrame s s := rfl

theorem LoopFrame.trans {s t u : State} (h1 : LoopFrame s t) (h2 : LoopFrame t u) : LoopFrame s u := by
  unfold LoopFrame HookFrame at *
  rw [h1] at h2
  exact h2

theorem resetTask_frame (k : TaskNum) (s : State) : LoopFrame s (resetTask k s) := by
  have h := optionalHook_frame k .reset (resetCells k s)
  unfold LoopFrame HookFrame resetTask at *
  rw [h]
  rfl

/-- A round seeds its own task. -/
theorem resetTask_seeds (k : TaskNum) (s : State) : SeedCells k (resetTask k s) := by
  have h := optionalHook_frame k .reset (resetCells k s)
  constructor <;> (unfold resetTask; rw [h]; simp [resetCells])

/-- A round leaves the cells of the other tasks. -/
theorem resetTask_keeps_seed (j k : TaskNum) (s : State) (h : SeedCells k s) : SeedCells k (resetTask j s) := by
  by_cases e : k = j
  · exact e ▸ resetTask_seeds j s
  · have f := optionalHook_frame j .reset (resetCells j s)
    constructor <;> (unfold resetTask; rw [f]; simp only [resetCells, Bank.get_put_other _ _ _ _ e])
    exacts [h.mpc, h.firstAfterSwitch, h.rdRamPending, h.wrtRamPending, h.swModePending]

/-- A loop that no hook's fault ends seeds each of its tasks. -/
theorem loop_seeds (ks : List TaskNum) (s : State) (k : TaskNum) (hk : k ∈ ks)
    (h : (runPhases (ks.map resetTask) s).halted = none) : SeedCells k (runPhases (ks.map resetTask) s) := by
  induction ks generalizing s with
  | nil => cases hk
  | cons j rest ih =>
    rw [List.map_cons, runPhases_cons] at h ⊢
    split at h
    · rename_i hj
      rw [if_pos hj]
      rcases List.mem_cons.mp hk with rfl | hm
      · refine runPhases_keeps (SeedCells k) _ ?_ _ (resetTask_seeds k s)
        intro f hf x hx
        obtain ⟨i, -, rfl⟩ := List.mem_map.mp hf
        exact resetTask_keeps_seed i k x hx
      · exact ih _ hm h
    · exact absurd h ‹_›

theorem loop_keeps_seed (ks : List TaskNum) (s : State) (k : TaskNum) (h : SeedCells k s) :
    SeedCells k (runPhases (ks.map resetTask) s) := by
  refine runPhases_keeps (SeedCells k) _ ?_ _ h
  intro f hf x hx
  obtain ⟨i, -, rfl⟩ := List.mem_map.mp hf
  exact resetTask_keeps_seed i k x hx

theorem resetTasks_frame (s : State) : LoopFrame s (resetTasks s) := by
  refine runPhases_keeps (LoopFrame s) _ ?_ s (LoopFrame.refl s)
  intro f hf x hx
  obtain ⟨k, -, rfl⟩ := List.mem_map.mp hf
  exact hx.trans (resetTask_frame k x)

theorem mem_tasksDown (k : TaskNum) : k ∈ tasksDown := by
  revert k
  decide

/-- After the loop every task holds its seed: the tasks that exist by the loop, the others by what comes before it. -/
theorem resetTasks_seeds (s : State) (h : (resetTasks (resetShared s)).halted = none) (k : TaskNum) :
    SeedCells k (resetTasks (resetShared s)) := by
  by_cases hk : s.params.present k = true
  · refine loop_seeds _ _ k ?_ h
    rw [List.mem_filter]
    exact ⟨List.mem_reverse.mpr (mem_tasksDown k), hk⟩
  · refine loop_keeps_seed _ _ k ?_
    constructor <;> simp [resetShared, hk]

/-! ## No hook at reset -/

theorem hookAnswer_none_of_point (s : State) (k : TaskNum) (p : HookPoint) (h : ∀ e ∈ s.params.hooks, e.point ≠ p) :
    hookAnswer k p s = none := by
  unfold hookAnswer
  rw [Option.map_eq_none_iff, List.find?_eq_none]
  intro e he
  simp [h e he]

/-- Without a hook at reset a round is the cells of its task and nothing else. -/
theorem resetTask_without_hook (k : TaskNum) (s : State) (h : ∀ e ∈ s.params.hooks, e.point ≠ .reset) :
    resetTask k s = resetCells k s := by
  unfold resetTask optionalHook
  rw [hookAnswer_none_of_point (resetCells k s) k .reset h]

/-- Every cell of every task at its value of 10_state.md R45, in a state that is otherwise `s`. -/
def seeded (s : State) : State :=
  { s with
    mpc := State.reset.mpc, wakeup := State.reset.wakeup, firstAfterSwitch := State.reset.firstAfterSwitch
    rdRamPending := State.reset.rdRamPending, wrtRamPending := State.reset.wrtRamPending
    swModePending := State.reset.swModePending, xmBanks := State.reset.xmBanks }

/-- The cells of task `k` at their values of R45. -/
def cellsSeeded (k : TaskNum) (s : State) : Prop :=
  SeedCells k s ∧ Bank.get s.wakeup k = (k == 0) ∧ Bank.get s.xmBanks k = 0#4

theorem cellsSeeded_resetCells (j k : TaskNum) (s : State) (h : k = j ∨ cellsSeeded k s) :
    cellsSeeded k (resetCells j s) := by
  by_cases e : k = j
  · subst e
    exact ⟨by constructor <;> simp [resetCells], by simp [resetCells], by simp [resetCells]⟩
  · have h := h.resolve_left e
    refine ⟨?_, ?_, ?_⟩
    · constructor <;> simp only [resetCells, Bank.get_put_other _ _ _ _ e]
      exacts [h.1.mpc, h.1.firstAfterSwitch, h.1.rdRamPending, h.1.wrtRamPending, h.1.swModePending]
    · simp only [resetCells, Bank.get_put_other _ _ _ _ e]; exact h.2.1
    · simp only [resetCells, Bank.get_put_other _ _ _ _ e]; exact h.2.2

/-- A state whose cells are all seeded is its own `seeded`. -/
theorem eq_seeded (s : State) (h : ∀ k, cellsSeeded k s) : s = seeded s := by
  have e1 : s.mpc = State.reset.mpc := Bank.ext _ _ fun k => by
    rw [(h k).1.mpc]; exact (Bank.get_tabulate (fun k => BitVec.ofNat 10 k.val) k).symm
  have e2 : s.wakeup = State.reset.wakeup := Bank.ext _ _ fun k => by
    rw [(h k).2.1]; exact (Bank.get_tabulate (fun k => k == 0) k).symm
  have e3 : s.firstAfterSwitch = State.reset.firstAfterSwitch := Bank.ext _ _ fun k => by
    rw [(h k).1.firstAfterSwitch]; exact (Bank.get_replicate ..).symm
  have e4 : s.rdRamPending = State.reset.rdRamPending := Bank.ext _ _ fun k => by
    rw [(h k).1.rdRamPending]; exact (Bank.get_replicate ..).symm
  have e5 : s.wrtRamPending = State.reset.wrtRamPending := Bank.ext _ _ fun k => by
    rw [(h k).1.wrtRamPending]; exact (Bank.get_replicate ..).symm
  have e6 : s.swModePending = State.reset.swModePending := Bank.ext _ _ fun k => by
    rw [(h k).1.swModePending]; exact (Bank.get_replicate ..).symm
  have e7 : s.xmBanks = State.reset.xmBanks := Bank.ext _ _ fun k => by
    rw [(h k).2.2]; exact (Bank.get_replicate ..).symm
  unfold seeded
  rw [← e1, ← e2, ← e3, ← e4, ← e5, ← e6, ← e7]

/-- Without a hook at reset the loop seeds its tasks and changes nothing else. -/
theorem loop_without_hook (ks : List TaskNum) (s : State) (hs : s.halted = none)
    (h : ∀ e ∈ s.params.hooks, e.point ≠ .reset) (hk : ∀ k, k ∉ ks → cellsSeeded k s) :
    runPhases (ks.map resetTask) s = seeded s := by
  induction ks generalizing s with
  | nil => exact eq_seeded s fun k => hk k (by simp)
  | cons j rest ih =>
    rw [List.map_cons, runPhases_cons, resetTask_without_hook j s h,
      if_pos (show (resetCells j s).halted = none from hs)]
    refine ih (resetCells j s) hs h fun k hn => cellsSeeded_resetCells j k s ?_
    by_cases e : k = j
    · exact .inl e
    · exact .inr (hk k (by simp [e, hn]))

theorem resetTasks_without_hook (s : State) (h : ∀ e ∈ s.params.hooks, e.point ≠ .reset) :
    resetTasks (resetShared s) = seeded (resetShared s) := by
  refine loop_without_hook _ _ rfl h fun k hk => ?_
  have hp : ¬ s.params.present k = true := fun hp => hk (by
    rw [List.mem_filter]
    exact ⟨List.mem_reverse.mpr (mem_tasksDown k), hp⟩)
  exact ⟨by constructor <;> simp [resetShared, hp], by simp [resetShared, hp], by simp [resetShared, hp]⟩

/-- The scan of a state in which only the Emulator is woken. -/
theorem highestWoken_emulator (s : State) (h : s.wakeup = State.reset.wakeup) : highestWoken s = 0 := by
  have e : ∀ k : TaskNum, Bank.get s.wakeup k = (k == 0) := fun k => by rw [h]; exact Bank.get_tabulate (fun k => k == 0) k
  have h1 : ∀ k : TaskNum, k ≠ 0 → eligible s k = false := fun k hk => by simp [eligible, e, hk]
  have h0 : eligible s 0 = true := by simp [eligible, Params.present, e]
  simp [highestWoken, tasksDown, h1, h0]

/-- A reset that no hook's fault ends went through its four parts. -/
theorem powerUp_running (s : State) (h : (powerUp s).halted = none) :
    (resetTasks (resetShared s)).halted = none ∧ powerUp s = promote (resetBus (resetTasks (resetShared s))) := by
  unfold powerUp at h ⊢
  rw [runPhases_cons] at h ⊢
  split at h
  · rename_i h1
    rw [if_pos h1]
    exact ⟨h1, by
      rw [runPhases_cons_of_running _ _ _ (by exact h1), runPhases_cons_of_running _ _ _ (by exact h1)]
      rfl⟩
  · exact absurd h ‹_›

/-- The reset without a hook, as one state. -/
theorem powerUp_without_hook (s : State) (h : ∀ e ∈ s.params.hooks, e.point ≠ .reset) :
    powerUp s = promote (resetBus (seeded (resetShared s))) := by
  have e := resetTasks_without_hook s h
  have hr : (powerUp s).halted = none := by
    unfold powerUp
    rw [runPhases_cons_of_running _ _ _ (by rw [e]; rfl), runPhases_cons_of_running _ _ _ (by rw [e]; rfl),
      runPhases_cons_of_running _ _ _ (by rw [e]; rfl), e]
    rfl
  rw [(powerUp_running s hr).2, e]

end Sys2Proof.Machine
end

