-- ==== Sys2Proof/Laws/Step.lean ====
section
/-! SUPPORT. The two ends of a tick: what the bus clock and the external events can change, what the scheduler keeps, and the
three ways a step ends. -/

namespace Sys2Proof.Machine

/-- A read of the data space can only add a device call. -/
theorem memRead_frame (a : Word) (x : State) :
    (memRead a x).2 = { x with deviceCalls := (memRead a x).2.deviceCalls } := by
  unfold memRead; split
  · rfl
  · split <;> rfl

/-- What the bus clock can change. -/
theorem busClock_frame (s : State) :
    busClock s = { s with
      memActive := (busClock s).memActive, memCycle := (busClock s).memCycle, memData := (busClock s).memData
      memData2 := (busClock s).memData2, deviceCalls := (busClock s).deviceCalls } := by
  unfold busClock latchFirst latchSecond
  split
  · rfl
  split
  · rfl
  split
  · rw [memRead_frame]
  split
  · rw [memRead_frame]
  · rfl

/-- What the start of a tick can change. -/
theorem startTick_frame (s : State) :
    startTick s = { s with
      memActive := (startTick s).memActive, memCycle := (startTick s).memCycle, memData := (startTick s).memData
      memData2 := (startTick s).memData2, deviceCalls := (startTick s).deviceCalls, ticks := s.ticks + 1 } := by
  unfold startTick
  rw [busClock_frame]

theorem startTick_halted (s : State) : (startTick s).halted = s.halted := by rw [startTick_frame]

theorem emulatorRuns_startTick (s : State) : emulatorRuns (startTick s) = emulatorRuns s := by
  unfold emulatorRuns
  rw [startTick_frame]

/-- A step of a halted machine answers the same state; of a running one it halts for want of the bank, or it is the cycle of
the fetched microinstruction between the two ends of the tick. -/
theorem step_cases (s t : State) (h : step s = .next t) :
    (s.halted ≠ none ∧ t = s)
    ∨ (s.halted = none ∧ fetchWord (startTick s) = none ∧ t = noBank (startTick s))
    ∨ ∃ w, s.halted = none ∧ fetchWord (startTick s) = some w
        ∧ t = endTick (cpuStep (decodeMicro (emulatorRuns s) w) (startTick s)) := by
  unfold step at h
  split at h
  · rename_i r hr
    exact .inl ⟨by rw [hr]; simp, (Host.Outcome.next.inj h).symm⟩
  · rename_i hs
    refine .inr ?_
    cases hw : fetchWord (startTick s) with
    | none =>
      simp only [fetch, hw, Option.map_none] at h
      exact .inl ⟨hs, rfl, (Host.Outcome.next.inj h).symm⟩
    | some w =>
      simp only [fetch, hw, Option.map_some, exec_eq, emulatorRuns_startTick, decode, rowOf_micro] at h
      exact .inr ⟨w, hs, rfl, (Host.Outcome.next.inj h).symm⟩

/-- The calls due change wakeups and the halt record only, after the schedule has moved on and the hooks' calls are taken. -/
theorem applyExternal_frame (s : State) :
    HookFrame { s with external := s.external.tail } (applyExternal s) := by
  unfold applyExternal
  refine runPhases_keeps (HookFrame _) _ ?_ _ rfl
  intro f hf u hu
  obtain ⟨a, -, rfl⟩ := List.mem_map.mp hf
  exact hu.trans (externalCall_frame a u)

/-- The end of a tick in which no task-switch hook faults. -/
theorem endTick_running (t : State) (h : t.halted = none) (hs : (schedule t).halted = none) :
    endTick t = applyExternal (schedule t) := by
  unfold endTick
  simp only [h]
  rw [runPhases_cons_of_running _ _ _ hs, runPhases_cons]
  split <;> rfl

/-- The end of a tick keeps what hooks, a switch and the schedule keep. -/
theorem endTick_keeps (P : State → Prop) (h1 : ∀ x y, P x → HookFrame x y → P y)
    (h2 : ∀ x n, P x → P { x with nextTask := n })
    (h3 : ∀ x i, P x → x.nextTask = some i →
      P { x with currentTask := i, nextTask := none, firstAfterSwitch := Bank.put x.firstAfterSwitch i true })
    (h4 : ∀ x, P x → P { x with external := x.external.tail }) (v : State) (hv : P v) : P (endTick v) := by
  unfold endTick; split
  · exact hv
  · refine runPhases_keeps P _ ?_ v hv
    intro f hf x hx
    simp only [List.mem_cons, List.not_mem_nil, or_false] at hf
    rcases hf with rfl | rfl
    · unfold schedule; split
      · exact h2 x _ hx
      · exact hx
      · split
        · exact hx
        · exact h1 _ _ (h3 x _ hx ‹_›) (optionalHook_frame ..)
    · exact h1 _ _ (h4 x hx) (applyExternal_frame x)

end Sys2Proof.Machine
end

