-- ==== Sys2Proof/Laws/Stops.lean ====
section
/-! SUPPORT. A microinstruction up to the stage it reaches: the cycle from that stage on, and the cycle that stops in it. -/

namespace Sys2Proof.Machine

/-- The cycle from the bus source on. -/
theorem cpuStep_from_bus (u : Micro) (s : State) (h : mayStart u s = true) :
    cpuStep u s = runPhases [busSource u s.currentTask, maskConstant u, maskCram, earlyBus u, runAlu u s.currentTask,
      deferredCramWrite, runF1 u s.currentTask, runF2 u s.currentTask, runShifter u, shifterBranch u, writeR, writeS, writeT u,
      writeL u s.currentTask, lateF2 u s.currentTask, switchBank u s.currentTask, blockHook s.currentTask,
      advance u s.currentTask, finish s.currentTask] (selected u s) := by
  obtain ⟨hs, hr, -, -⟩ := (mayStart_iff u s).mp h
  have hbegin : (beginMicro u s.currentTask s).halted = none := hs
  have hsel : (earlySelect u s.currentTask (beginMicro u s.currentTask s)).halted = none := by
    show (afterSelect u s).halted = none
    rw [afterSelect_eq u s h]
    exact hs
  unfold cpuStep
  rw [if_pos hr]
  unfold cpuPhases
  rw [runPhases_cons_of_running _ _ _ hbegin, runPhases_cons_of_running _ _ _ hsel]
  change runPhases _ (afterSelect u s) = _
  rw [afterSelect_eq u s h]

/-- The cycle from the control-RAM mask on, for a bus source that does not fault. -/
theorem cpuStep_from_mask (u : Micro) (s : State) (h : mayStart u s = true)
    (hb : (busSource u s.currentTask (selected u s)).halted = none) :
    cpuStep u s = runPhases [maskCram, earlyBus u, runAlu u s.currentTask,
      deferredCramWrite, runF1 u s.currentTask, runF2 u s.currentTask, runShifter u, shifterBranch u, writeR, writeS, writeT u,
      writeL u s.currentTask, lateF2 u s.currentTask, switchBank u s.currentTask, blockHook s.currentTask,
      advance u s.currentTask, finish s.currentTask] (maskConstant u (busSource u s.currentTask (selected u s))) := by
  have hc : (maskConstant u (busSource u s.currentTask (selected u s))).halted = none := by
    rw [maskConstant_frame]
    exact hb
  rw [cpuStep_from_bus u s h, runPhases_cons_of_running _ _ _ hb, runPhases_cons_of_running _ _ _ hc]

/-- The cycle from the ALU on. -/
theorem cpuStep_from_alu (u : Micro) (s : State) (h : mayReachAlu u s = true) :
    cpuStep u s = runPhases [runAlu u s.currentTask,
      deferredCramWrite, runF1 u s.currentTask, runF2 u s.currentTask, runShifter u, shifterBranch u, writeR, writeS, writeT u,
      writeL u s.currentTask, lateF2 u s.currentTask, switchBank u s.currentTask, blockHook s.currentTask,
      advance u s.currentTask, finish s.currentTask] (afterBus u s) := by
  obtain ⟨h0, -⟩ := (mayReachAlu_iff u s).mp h
  have hs := ((mayStart_iff u s).mp h0).1
  have hsrc : (busSource u s.currentTask (selected u s)).halted = none := by
    rw [busSource_running u s h]
    exact hs
  have hbus : (afterBus u s).halted = none := by
    rw [afterBus_eq u s h]
    exact hs
  have hdef : afterBus u s = earlyBus u (maskCram (maskConstant u (busSource u s.currentTask (selected u s)))) := by
    unfold afterBus
    rw [afterSelect_eq u s h0]
  have hcram : (maskCram (maskConstant u (busSource u s.currentTask (selected u s)))).halted = none := by
    have e := hbus
    rw [hdef, earlyBus_frame] at e
    exact e
  rw [cpuStep_from_mask u s h0 hsrc, runPhases_cons_of_running _ _ _ hcram,
    runPhases_cons_of_running _ _ _ (by rw [← hdef]; exact hbus), ← hdef]

/-- The cycle from the deferred control-RAM write on. -/
theorem cpuStep_from_cram (u : Micro) (s : State) (h : mayReachAlu u s = true) (h14 : u.aluf ≠ .reserved14)
    (h15 : u.aluf ≠ .reserved15) : (runAlu u s.currentTask (afterBus u s)).halted = none
    ∧ cpuStep u s = runPhases [deferredCramWrite, runF1 u s.currentTask, runF2 u s.currentTask, runShifter u, shifterBranch u,
      writeR, writeS, writeT u, writeL u s.currentTask, lateF2 u s.currentTask, switchBank u s.currentTask,
      blockHook s.currentTask, advance u s.currentTask, finish s.currentTask] (runAlu u s.currentTask (afterBus u s)) := by
  obtain ⟨h0, -⟩ := (mayReachAlu_iff u s).mp h
  have hs := ((mayStart_iff u s).mp h0).1
  have hbus : (afterBus u s).halted = none := by
    rw [afterBus_eq u s h]
    exact hs
  have halu : (runAlu u s.currentTask (afterBus u s)).halted = none := by
    obtain ⟨a, ha⟩ := alu_ok u.aluf (afterBus u s).scratch.busData (afterBus u s).t
      (skipIn s.currentTask (afterBus u s)) h14 h15
    unfold runAlu
    rw [ha]
    exact hbus
  exact ⟨halu, by rw [cpuStep_from_alu u s h, runPhases_cons_of_running _ _ _ halu]⟩

/-- The cycle from F1 on. -/
theorem cpuStep_from_f1 (u : Micro) (s : State) (h : mayReachF1 u s = true) : (afterAlu u s).halted = none
    ∧ cpuStep u s = runPhases [runF1 u s.currentTask, runF2 u s.currentTask, runShifter u, shifterBranch u, writeR, writeS,
      writeT u, writeL u s.currentTask, lateF2 u s.currentTask, switchBank u s.currentTask, blockHook s.currentTask,
      advance u s.currentTask, finish s.currentTask] (afterAlu u s) := by
  obtain ⟨h0, h14, h15, -⟩ := (mayReachF1_iff u s).mp h
  have hs := ((mayStart_iff u s).mp ((mayReachAlu_iff u s).mp h0).1).1
  have ha : (afterAlu u s).halted = none := by
    rw [afterAlu_eq u s h]
    exact hs
  refine ⟨ha, ?_⟩
  rw [(cpuStep_from_cram u s h0 h14 h15).2, runPhases_cons_of_running _ _ _ (show (deferredCramWrite _).halted = none from ha)]
  rfl

/-- The state after F1, from the state after the ALU. -/
theorem afterF1_running (u : Micro) (s : State) (h : mayReachF2 u s = true) : (afterF1 u s).halted = none
    ∧ (afterF1 u s).params = s.params ∧ (afterF1 u s).t = s.t ∧ (afterF1 u s).scratch.lPrev = s.l
    ∧ (afterF1 u s).scratch.loadR = loadsR u s
    ∧ (u.f1 ≠ .loadMar → (afterF1 u s).memActive = s.memActive ∧ (afterF1 u s).memCycle = s.memCycle) := by
  obtain ⟨h1, -⟩ := (mayReachF2_iff u s).mp h
  obtain ⟨h0, -⟩ := (mayReachF1_iff u s).mp h1
  have hs := ((mayStart_iff u s).mp ((mayReachAlu_iff u s).mp h0).1).1
  have hx := afterAlu_eq u s h1
  have hy : afterF1 u s = _ :=
    runF1_running u s (afterAlu u s) h (by rw [hx]; exact hs) (by rw [hx]; rfl) (by rw [hx]; rfl)
  refine ⟨by rw [hy, hx]; exact hs, by rw [hy, hx]; rfl, by rw [hy, hx]; rfl, by rw [hy, hx]; rfl, by rw [hy, hx],
    fun hl => ?_⟩
  rw [hy, hx]
  exact ⟨by simp [hl, selected, quietChange, beginMicro], by simp [hl, selected, quietChange, beginMicro]⟩

/-- The cycle from F2 on. -/
theorem cpuStep_from_f2 (u : Micro) (s : State) (h : mayReachF2 u s = true) :
    cpuStep u s = runPhases [runF2 u s.currentTask, runShifter u, shifterBranch u, writeR, writeS,
      writeT u, writeL u s.currentTask, lateF2 u s.currentTask, switchBank u s.currentTask, blockHook s.currentTask,
      advance u s.currentTask, finish s.currentTask] (afterF1 u s) := by
  obtain ⟨h1, -⟩ := (mayReachF2_iff u s).mp h
  obtain ⟨ha, e⟩ := cpuStep_from_f1 u s h1
  rw [e, runPhases_cons_of_running _ _ _ (show (runF1 u _ _).halted = none from (afterF1_running u s h).1)]
  rfl

/-- The cycle from the shifter on. -/
theorem cpuStep_from_shifter (u : Micro) (s : State) (h : mayReachShifter u s = true) : (afterF2 u s).halted = none
    ∧ cpuStep u s = runPhases [runShifter u, shifterBranch u, writeR, writeS,
      writeT u, writeL u s.currentTask, lateF2 u s.currentTask, switchBank u s.currentTask, blockHook s.currentTask,
      advance u s.currentTask, finish s.currentTask] (afterF2 u s) := by
  obtain ⟨h2, -⟩ := (mayReachShifter_iff u s).mp h
  obtain ⟨y1, y2, -, -, -, y6⟩ := afterF1_running u s h2
  have hz : afterF2 u s = _ := runF2_running u s (afterF1 u s) h y1 y2 y6
  have hf2 : (afterF2 u s).halted = none := by
    rw [hz]
    exact y1
  refine ⟨hf2, ?_⟩
  rw [cpuStep_from_f2 u s h2, runPhases_cons_of_running _ _ _ (show (runF2 u _ _).halted = none from hf2)]
  rfl

end Sys2Proof.Machine
end

