-- ==== Sys2Proof/Tests/Slice0.lean ====
section
/-! SUPPORT. Tests on fixed words and small states. Every expected result is from spec/: the words of the decoding tests are
the `match` words of spec/opcode_table.json and words of 95_test_vectors.md, the results are those of 95_test_vectors.md (V1 to
V2.11). The witnesses at the end show states that meet the hypotheses of the obligations, clause by clause. -/

namespace Sys2Proof.Tests

open Sys2Proof.Machine

/-! ## Well-formedness: an ill-formed term for each check -/

/-- The microinstruction of the word 0. -/
def plain : Micro := ⟨0#5, .bus, .readR, .none, .none, false, false, 0#10⟩

theorem test_wellFormed_accepts : (Instr.microinstruction plain).wellFormed = true
    ∧ (Instr.bsReadS { plain with bs := .readS }).wellFormed = true
    ∧ (Instr.f2TaskSpecific8 { plain with f2 := .taskSpecific8 }).wellFormed = true := by
  decide

theorem test_wellFormed_refuses_other_row : (Instr.aluT plain).wellFormed = false ∧ (Instr.bsNone plain).wellFormed = false
    ∧ (Instr.f1Task plain).wellFormed = false ∧ (Instr.f2Bus plain).wellFormed = false ∧ (Instr.lt plain).wellFormed = false
    ∧ (Instr.ll plain).wellFormed = false := by
  decide

theorem test_wellFormed_refuses_two_kinds :
    (Instr.bsReadS { plain with bs := .readS, f1 := .taskSpecific8 }).wellFormed = false
    ∧ (Instr.bsTaskSpecific1 { plain with bs := .taskSpecific1, f2 := .busodd }).wellFormed = false
    ∧ (Instr.f1Rsnf { plain with f1 := .rsnf, f2 := .taskSpecific15 }).wellFormed = false := by
  decide

theorem test_fits_refuses_other_task : ({ plain with bs := .readS } : Micro).fits false = false
    ∧ ({ plain with f1 := .taskSpecific8 } : Micro).fits true = false
    ∧ ({ plain with f2 := .taskSpecific15 } : Micro).fits true = false := by
  decide

theorem test_decode_refuses_truncated : decodeBytes true [0x00#8, 0x08#8, 0x70#8] = .error .truncated
    ∧ decodeBytes true [0x00#8, 0x08#8, 0x70#8, 0x00#8, 0x12#8]
      = .ok (.bsReadDisp ⟨0#5, .bus, .readDisp, .none, .none, true, false, 0#10⟩, [0x12#8]) := by
  decide

/-! ## Decoding: the word of every row (spec/opcode_table.json) -/

theorem test_decode_alu :
    decode true 0x00800000#32 = .aluT ⟨0#5, .t, .readR, .none, .none, false, false, 0#10⟩
    ∧ decode true 0x01000000#32 = .aluBusOrT ⟨0#5, .busOrT, .readR, .none, .none, false, false, 0#10⟩
    ∧ decode true 0x01800000#32 = .aluBusAndT ⟨0#5, .busAndT, .readR, .none, .none, false, false, 0#10⟩
    ∧ decode true 0x02000000#32 = .aluBusXorT ⟨0#5, .busXorT, .readR, .none, .none, false, false, 0#10⟩
    ∧ decode true 0x02800000#32 = .aluBusPlus1 ⟨0#5, .busPlus1, .readR, .none, .none, false, false, 0#10⟩
    ∧ decode true 0x03000000#32 = .aluBusMinus1 ⟨0#5, .busMinus1, .readR, .none, .none, false, false, 0#10⟩
    ∧ decode true 0x03800000#32 = .aluBusPlusT ⟨0#5, .busPlusT, .readR, .none, .none, false, false, 0#10⟩
    ∧ decode true 0x04000000#32 = .aluBusMinusT ⟨0#5, .busMinusT, .readR, .none, .none, false, false, 0#10⟩
    ∧ decode true 0x04800000#32 = .aluBusMinusTMinus1 ⟨0#5, .busMinusTMinus1, .readR, .none, .none, false, false, 0#10⟩
    ∧ decode true 0x05000000#32 = .aluBusPlusTPlus1 ⟨0#5, .busPlusTPlus1, .readR, .none, .none, false, false, 0#10⟩
    ∧ decode true 0x05800000#32 = .aluBusPlusSkip ⟨0#5, .busPlusSkip, .readR, .none, .none, false, false, 0#10⟩
    ∧ decode true 0x06000000#32 = .aluAluBusAndT ⟨0#5, .aluBusAndT, .readR, .none, .none, false, false, 0#10⟩
    ∧ decode true 0x06800000#32 = .aluBusAndNotT ⟨0#5, .busAndNotT, .readR, .none, .none, false, false, 0#10⟩
    ∧ decode true 0x07000000#32 = .aluReserved14 ⟨0#5, .reserved14, .readR, .none, .none, false, false, 0#10⟩
    ∧ decode true 0x07800000#32 = .aluReserved15 ⟨0#5, .reserved15, .readR, .none, .none, false, false, 0#10⟩ := by
  decide

theorem test_decode_bs :
    decode true 0x00100000#32 = .bsLoadR ⟨0#5, .bus, .loadR, .none, .none, false, false, 0#10⟩
    ∧ decode true 0x00200000#32 = .bsNone ⟨0#5, .bus, .none, .none, .none, false, false, 0#10⟩
    ∧ decode true 0x00500000#32 = .bsReadMd ⟨0#5, .bus, .readMd, .none, .none, false, false, 0#10⟩
    ∧ decode true 0x00600000#32 = .bsReadMouse ⟨0#5, .bus, .readMouse, .none, .none, false, false, 0#10⟩
    ∧ decode true 0x00700000#32 = .bsReadDisp ⟨0#5, .bus, .readDisp, .none, .none, false, false, 0#10⟩
    ∧ decode true 0x00300000#32 = .bsReadS ⟨0#5, .bus, .readS, .none, .none, false, false, 0#10⟩
    ∧ decode true 0x00400000#32 = .bsLoadS ⟨0#5, .bus, .loadS, .none, .none, false, false, 0#10⟩
    ∧ decode false 0x00300000#32 = .bsTaskSpecific1 ⟨0#5, .bus, .taskSpecific1, .none, .none, false, false, 0#10⟩
    ∧ decode false 0x00400000#32 = .bsTaskSpecific2 ⟨0#5, .bus, .taskSpecific2, .none, .none, false, false, 0#10⟩ := by
  decide

theorem test_decode_f1 :
    decode true 0x00010000#32 = .f1LoadMar ⟨0#5, .bus, .readR, .loadMar, .none, false, false, 0#10⟩
    ∧ decode true 0x00020000#32 = .f1Task ⟨0#5, .bus, .readR, .task, .none, false, false, 0#10⟩
    ∧ decode true 0x00030000#32 = .f1Block ⟨0#5, .bus, .readR, .block, .none, false, false, 0#10⟩
    ∧ decode true 0x00040000#32 = .f1LLsh1 ⟨0#5, .bus, .readR, .lLsh1, .none, false, false, 0#10⟩
    ∧ decode true 0x00050000#32 = .f1LRsh1 ⟨0#5, .bus, .readR, .lRsh1, .none, false, false, 0#10⟩
    ∧ decode true 0x00060000#32 = .f1LLcy8 ⟨0#5, .bus, .readR, .lLcy8, .none, false, false, 0#10⟩
    ∧ decode true 0x00070000#32 = .f1Constant ⟨0#5, .bus, .readR, .constant, .none, false, false, 0#10⟩
    ∧ decode true 0x00080000#32 = .f1Swmode ⟨0#5, .bus, .readR, .swmode, .none, false, false, 0#10⟩
    ∧ decode true 0x00090000#32 = .f1Wrtram ⟨0#5, .bus, .readR, .wrtram, .none, false, false, 0#10⟩
    ∧ decode true 0x000A0000#32 = .f1Rdram ⟨0#5, .bus, .readR, .rdram, .none, false, false, 0#10⟩
    ∧ decode true 0x000B0000#32 = .f1LoadRmr ⟨0#5, .bus, .readR, .loadRmr, .none, false, false, 0#10⟩
    ∧ decode true 0x000C0000#32 = .f1Reserved12 ⟨0#5, .bus, .readR, .reserved12, .none, false, false, 0#10⟩
    ∧ decode true 0x000D0000#32 = .f1LoadEsrb ⟨0#5, .bus, .readR, .loadEsrb, .none, false, false, 0#10⟩
    ∧ decode true 0x000E0000#32 = .f1Rsnf ⟨0#5, .bus, .readR, .rsnf, .none, false, false, 0#10⟩
    ∧ decode true 0x000F0000#32 = .f1Startf ⟨0#5, .bus, .readR, .startf, .none, false, false, 0#10⟩
    ∧ decode false 0x00080000#32 = .f1TaskSpecific8 ⟨0#5, .bus, .readR, .taskSpecific8, .none, false, false, 0#10⟩
    ∧ decode false 0x00090000#32 = .f1TaskSpecific9 ⟨0#5, .bus, .readR, .taskSpecific9, .none, false, false, 0#10⟩
    ∧ decode false 0x000A0000#32 = .f1TaskSpecific10 ⟨0#5, .bus, .readR, .taskSpecific10, .none, false, false, 0#10⟩
    ∧ decode false 0x000B0000#32 = .f1TaskSpecific11 ⟨0#5, .bus, .readR, .taskSpecific11, .none, false, false, 0#10⟩
    ∧ decode false 0x000C0000#32 = .f1TaskSpecific12 ⟨0#5, .bus, .readR, .taskSpecific12, .none, false, false, 0#10⟩
    ∧ decode false 0x000D0000#32 = .f1TaskSpecific13 ⟨0#5, .bus, .readR, .taskSpecific13, .none, false, false, 0#10⟩
    ∧ decode false 0x000E0000#32 = .f1TaskSpecific14 ⟨0#5, .bus, .readR, .taskSpecific14, .none, false, false, 0#10⟩
    ∧ decode false 0x000F0000#32 = .f1TaskSpecific15 ⟨0#5, .bus, .readR, .taskSpecific15, .none, false, false, 0#10⟩ := by
  decide

theorem test_decode_f2 :
    decode true 0x00001000#32 = .f2BusEq0 ⟨0#5, .bus, .readR, .none, .busEq0, false, false, 0#10⟩
    ∧ decode true 0x00002000#32 = .f2ShLt0 ⟨0#5, .bus, .readR, .none, .shLt0, false, false, 0#10⟩
    ∧ decode true 0x00003000#32 = .f2ShEq0 ⟨0#5, .bus, .readR, .none, .shEq0, false, false, 0#10⟩
    ∧ decode true 0x00004000#32 = .f2Bus ⟨0#5, .bus, .readR, .none, .bus, false, false, 0#10⟩
    ∧ decode true 0x00005000#32 = .f2Alucy ⟨0#5, .bus, .readR, .none, .alucy, false, false, 0#10⟩
    ∧ decode true 0x00006000#32 = .f2StoreMd ⟨0#5, .bus, .readR, .none, .storeMd, false, false, 0#10⟩
    ∧ decode true 0x00007000#32 = .f2Constant ⟨0#5, .bus, .readR, .none, .constant, false, false, 0#10⟩
    ∧ decode true 0x00008000#32 = .f2Busodd ⟨0#5, .bus, .readR, .none, .busodd, false, false, 0#10⟩
    ∧ decode true 0x00009000#32 = .f2Magic ⟨0#5, .bus, .readR, .none, .magic, false, false, 0#10⟩
    ∧ decode true 0x0000A000#32 = .f2LoadDns ⟨0#5, .bus, .readR, .none, .loadDns, false, false, 0#10⟩
    ∧ decode true 0x0000B000#32 = .f2Acdest ⟨0#5, .bus, .readR, .none, .acdest, false, false, 0#10⟩
    ∧ decode true 0x0000C000#32 = .f2LoadIr ⟨0#5, .bus, .readR, .none, .loadIr, false, false, 0#10⟩
    ∧ decode true 0x0000D000#32 = .f2Idisp ⟨0#5, .bus, .readR, .none, .idisp, false, false, 0#10⟩
    ∧ decode true 0x0000E000#32 = .f2Acsource ⟨0#5, .bus, .readR, .none, .acsource, false, false, 0#10⟩
    ∧ decode true 0x0000F000#32 = .f2Reserved15 ⟨0#5, .bus, .readR, .none, .reserved15, false, false, 0#10⟩
    ∧ decode false 0x00008000#32 = .f2TaskSpecific8 ⟨0#5, .bus, .readR, .none, .taskSpecific8, false, false, 0#10⟩
    ∧ decode false 0x00009000#32 = .f2TaskSpecific9 ⟨0#5, .bus, .readR, .none, .taskSpecific9, false, false, 0#10⟩
    ∧ decode false 0x0000A000#32 = .f2TaskSpecific10 ⟨0#5, .bus, .readR, .none, .taskSpecific10, false, false, 0#10⟩
    ∧ decode false 0x0000B000#32 = .f2TaskSpecific11 ⟨0#5, .bus, .readR, .none, .taskSpecific11, false, false, 0#10⟩
    ∧ decode false 0x0000C000#32 = .f2TaskSpecific12 ⟨0#5, .bus, .readR, .none, .taskSpecific12, false, false, 0#10⟩
    ∧ decode false 0x0000D000#32 = .f2TaskSpecific13 ⟨0#5, .bus, .readR, .none, .taskSpecific13, false, false, 0#10⟩
    ∧ decode false 0x0000E000#32 = .f2TaskSpecific14 ⟨0#5, .bus, .readR, .none, .taskSpecific14, false, false, 0#10⟩
    ∧ decode false 0x0000F000#32 = .f2TaskSpecific15 ⟨0#5, .bus, .readR, .none, .taskSpecific15, false, false, 0#10⟩ := by
  decide

theorem test_decode_load :
    decode true 0x00000000#32 = .microinstruction ⟨0#5, .bus, .readR, .none, .none, false, false, 0#10⟩
    ∧ decode true 0x00000800#32 = .lt ⟨0#5, .bus, .readR, .none, .none, true, false, 0#10⟩
    ∧ decode true 0x00000400#32 = .ll ⟨0#5, .bus, .readR, .none, .none, false, true, 0#10⟩ := by
  decide

/-- The rows of code 0 share the word 0, which the decoder names by the plain microinstruction (log 1); it stands for them. -/
theorem test_decode_code_zero : decode true 0x00000000#32 = .microinstruction plain
    ∧ (decode true 0x00000000#32).micro = (Instr.aluBus plain).micro
    ∧ (decode true 0x00000000#32).micro = (Instr.bsReadR plain).micro
    ∧ (decode true 0x00000000#32).micro = (Instr.f1None plain).micro
    ∧ (decode true 0x00000000#32).micro = (Instr.f2None plain).micro := by
  decide

/-- Words with every field in use (V1.1, V2.1, P1, P3, V2.3), field by field from bit 31. -/
theorem test_decode_whole_words :
    decode true 0b00001_0010_110_0010_0011_1_0_0100000011#32
      = .aluBusOrT ⟨1#5, .busOrT, .readMouse, .task, .shEq0, true, false, 0x103#10⟩
    ∧ decode true 0b00001_0111_010_0000_0111_0_1_0000000010#32
      = .aluBusPlusT ⟨1#5, .busPlusT, .none, .none, .constant, false, true, 2#10⟩
    ∧ decode true 0b00010_0000_001_0100_0101_0_0_0000000100#32
      = .bsLoadR ⟨2#5, .bus, .loadR, .lLsh1, .alucy, false, false, 4#10⟩
    ∧ decode true 0b00000_0000_001_0110_1001_0_0_0000000000#32
      = .bsLoadR ⟨0#5, .bus, .loadR, .lLcy8, .magic, false, false, 0#10⟩
    ∧ decode false 0b00011_0001_010_0010_0000_0_1_0000100000#32
      = .aluT ⟨3#5, .t, .none, .task, .none, false, true, 0x20#10⟩ := by
  decide

theorem test_encode_example :
    encode (.aluBusOrT ⟨1#5, .busOrT, .readMouse, .task, .shEq0, true, false, 0x103#10⟩) = 0x09623903#32 := by
  decide

theorem test_decodeTableWord : decodeTableWord 32 0x00206000 = some (.bsNone ⟨0#5, .bus, .none, .none, .storeMd, false, false, 0#10⟩)
    ∧ decodeTableWord 16 0xF000 = some (.f2Reserved15 ⟨0#5, .bus, .readR, .none, .reserved15, false, false, 0#10⟩) := by
  decide

/-! ## One step -/

/-- The state a step gives. -/
def after (s : State) : State :=
  match step s with
  | .next t => t
  | .fault _ | .refused _ => s

/-- The reset state with some words of the constant ROM. -/
def known (rom : List (BitVec 8 × Word)) : State := { State.reset with params := { Params.default with constRom := rom } }

/-- `s` with one R register. -/
def withR (i : Fin 32) (w : Word) (s : State) : State := { s with r := Bank.put s.r i w }

/-- The state after one step of a word. -/
def run1 (s : State) (w : Nat) : State := after (s.withFetchWord 32 w)

/-- `alu` against V2.1. -/
def aluIs (f : AluFn) (b t : Word) (skip : Bool) (r : Word) (c : Bool) : Bool :=
  match alu f b t skip with
  | .ok x => x.value == r && x.carry == c
  | .error _ => false

theorem test_alu_logic : aluIs .bus 0x1234#16 0xFFFF#16 false 0x1234#16 false ∧ aluIs .t 0x1234#16 0xABCD#16 false 0xABCD#16 false
    ∧ aluIs .busOrT 0x0F0F#16 0x00FF#16 false 0x0FFF#16 false ∧ aluIs .busAndT 0x0F0F#16 0x00FF#16 false 0x000F#16 false
    ∧ aluIs .busXorT 0x0F0F#16 0x00FF#16 false 0x0FF0#16 false ∧ aluIs .aluBusAndT 0x0F0F#16 0x00FF#16 false 0x000F#16 false
    ∧ aluIs .busAndNotT 0x0F0F#16 0x00FF#16 false 0x0F00#16 false := by
  decide

theorem test_alu_arithmetic : aluIs .busPlus1 0xFFFF#16 0#16 false 0#16 true ∧ aluIs .busMinus1 0#16 0#16 false 0xFFFF#16 false
    ∧ aluIs .busMinus1 1#16 0#16 false 0#16 true ∧ aluIs .busPlusT 0xFFFF#16 1#16 false 0#16 true
    ∧ aluIs .busPlusT 0x7FFF#16 1#16 false 0x8000#16 false ∧ aluIs .busMinusT 5#16 5#16 false 0#16 true
    ∧ aluIs .busMinusT 3#16 5#16 false 0xFFFE#16 false ∧ aluIs .busMinusTMinus1 6#16 5#16 false 0#16 true
    ∧ aluIs .busMinusTMinus1 5#16 5#16 false 0xFFFF#16 false ∧ aluIs .busPlusTPlus1 0xFFFE#16 1#16 false 0#16 true
    ∧ aluIs .busPlusSkip 0xFFFF#16 0#16 true 0#16 true ∧ aluIs .busPlusSkip 0x1000#16 0#16 false 0x1000#16 false := by
  decide

/-- V2.8: read before write, the old L in the shifter, T from the bus or the ALU. -/
theorem test_cycle_order :
    (run1 (withR 5 7#16 State.reset) 0x2A800400).l = 8#16
    ∧ Bank.get (run1 { State.reset with l := 3#16, t := 9#16 } 0x28940400).r 5 = 6#16
    ∧ (run1 { State.reset with l := 3#16, t := 9#16 } 0x28940400).l = 9#16
    ∧ (run1 { State.reset with t := 0x00FF#16 } 0x01A00800).t = 0xFFFF#16
    ∧ (run1 { State.reset with t := 0x00FF#16 } 0x06200800).t = 0x00FF#16
    ∧ (run1 { State.reset with t := 0x00FF#16 } 0x01A00800).cramAddr = 0x00FF#16 := by
  decide

/-- V2.2. -/
theorem test_bus_generic : (run1 (withR 5 0x1234#16 State.reset) 0x28000800).t = 0x1234#16
    ∧ (run1 (known [(42#8, 0x00FF#16)]) 0x28270800).t = 0x00FF#16
    ∧ (run1 (withR 5 0x1234#16 (known [(40#8, 0x0FF0#16)])) 0x28007800).t = 0x0230#16
    ∧ (run1 State.reset 0x00200800).t = 0xFFFF#16 := by
  decide

theorem test_bus_read_disp : (run1 { known [(7#8, 0xFFFF#16)] with ir := 0x0180#16 } 0x00700800).t = 0xFF80#16
    ∧ (run1 { known [(7#8, 0x00FF#16)] with ir := 0x0180#16 } 0x00700800).t = 0x0080#16
    ∧ displacement 0x0080#16 = 0x0080#16 ∧ displacement 0x017F#16 = 0x007F#16 ∧ displacement 0x0380#16 = 0xFF80#16 := by
  decide

theorem test_bus_s_store :
    (run1 { State.reset with rb := 2#3, sStore := Bank.put State.reset.sStore 67 0xBEEF#16 } 0x18300800).t = 0xBEEF#16
    ∧ (run1 { State.reset with m := 0x1111#16 } 0x00300800).t = 0x1111#16
    ∧ Bank.get (run1 { State.reset with m := 0x1111#16, rb := 1#3 } 0x1AC00400).sStore 35 = 0x1111#16
    ∧ (run1 { State.reset with m := 0x1111#16, rb := 1#3 } 0x1AC00400).m = 0x0001#16 := by
  decide

/-- V2.3. -/
theorem test_shifter_values : shift ⟨.shiftLeft, 1, false, false, false⟩ 0x8001#16 0#16 = .ok (0x0002#16, false)
    ∧ shift ⟨.rotateLeft, 8, false, false, false⟩ 0x1234#16 0#16 = .ok (0x3412#16, false)
    ∧ shift ⟨.shiftRight, 1, true, false, false⟩ 0x8001#16 1#16 = .ok (0xC000#16, false)
    ∧ shift ⟨.shiftLeft, 1, false, true, true⟩ 0x4000#16 0#16 = .ok (0x8001#16, false)
    ∧ shift ⟨.shiftRight, 1, false, true, true⟩ 0x8001#16 0#16 = .ok (0xC000#16, true)
    ∧ shift ⟨.shiftRight, 17, false, false, false⟩ 0xFFFF#16 0#16 = .ok (0#16, false)
    ∧ shift ⟨.rotateRight, 4, false, false, false⟩ 0x1234#16 0#16 = .ok (0x4123#16, false)
    ∧ shift ⟨.none, 0, true, true, false⟩ 0x1234#16 0#16 = .ok (0x1234#16, false) := by
  decide

theorem test_shifter_faults : shift ⟨.shiftLeft, 2, true, false, false⟩ 0#16 0#16 = .error .magicCount
    ∧ shift ⟨.rotateLeft, 8, true, false, false⟩ 0#16 0#16 = .error .shifterMode
    ∧ shift ⟨.shiftLeft, 1, true, true, false⟩ 0#16 0#16 = .error .shifterMode
    ∧ shift ⟨.rotateRight, 1, false, true, false⟩ 0#16 0#16 = .error .dnsRotateRight
    ∧ shift ⟨.shiftLeft, 2, false, true, false⟩ 0#16 0#16 = .error .shifterMode := by
  decide

/-- V2.4. -/
theorem test_f1_shifts : Bank.get (run1 { State.reset with l := 0x8001#16 } 0x10140000).r 2 = 0x0002#16
    ∧ Bank.get (run1 { State.reset with l := 0x8001#16 } 0x10150000).r 2 = 0x4000#16
    ∧ Bank.get (run1 { State.reset with l := 0x8001#16 } 0x10160000).r 2 = 0x0180#16 := by
  decide

theorem test_f1_load_mar : (run1 (known [(2#8, 0x0100#16)]) 0x00217001).memAddr = 0x0100#16
    ∧ (run1 (known [(2#8, 0x0100#16)]) 0x00217001).memCycle = 1 ∧ (run1 (known [(2#8, 0x0100#16)]) 0x00217001).memXM = false
    ∧ (run1 State.reset 0x00216000).memXM = true ∧ (run1 State.reset 0x00216000).halted = none := by
  decide

theorem test_f1_task_block : (run1 State.reset 0x00020002).nextTask = some 0
    ∧ (run1 { State.reset with firstAfterSwitch := Bank.put State.reset.firstAfterSwitch 0 true } 0x00020002).nextTask = none
    ∧ Bank.get (run1 { State.reset with currentTask := 4, wakeup := Bank.put State.reset.wakeup 4 true } 0x00030021).wakeup 4
      = false := by
  decide

/-- V2.5: the next micro-address. -/
theorem test_f2_branches : Bank.get (run1 State.reset 0x00101020).mpc 0 = 0x021#10
    ∧ Bank.get (run1 State.reset 0x00201020).mpc 0 = 0x020#10 ∧ Bank.get (run1 State.reset 0x00101021).mpc 0 = 0x021#10
    ∧ Bank.get (run1 { State.reset with l := 0x4000#16 } 0x00042020).mpc 0 = 0x021#10
    ∧ Bank.get (run1 { State.reset with l := 0x7FFF#16 } 0x00002020).mpc 0 = 0x020#10
    ∧ Bank.get (run1 { State.reset with l := 0x0001#16 } 0x00053020).mpc 0 = 0x021#10
    ∧ Bank.get (run1 (known [(2#8, 0xFD23#16)]) 0x00274200).mpc 0 = 0x323#10
    ∧ Bank.get (run1 { State.reset with aluC0 := true } 0x00005010).mpc 0 = 0x011#10
    ∧ Bank.get (run1 State.reset 0x02A05410).mpc 0 = 0x010#10 ∧ (run1 State.reset 0x02A05410).aluC0 = true
    ∧ Bank.get (run1 (known [(2#8, 0x0003#16)]) 0x00278040).mpc 0 = 0x041#10 := by
  decide

/-- V2.6. -/
theorem test_emulator_magic : Bank.get (run1 { State.reset with l := 0x8000#16, t := 0x8000#16 } 0x10149000).r 2 = 0x0001#16
    ∧ Bank.get (run1 { State.reset with l := 0x0001#16, t := 0x0001#16 } 0x10159000).r 2 = 0x8000#16 := by
  decide

theorem test_emulator_load_ir : (run1 (known [(34#8, 0x8E04#16)]) 0x2027C010).ir = 0x8E04#16
    ∧ Bank.get (run1 (known [(34#8, 0x8E04#16)]) 0x2027C010).mpc 0 = 0x01E#10
    ∧ (run1 { known [(34#8, 0x8E04#16)] with skip := true } 0x2027C010).skip = false := by
  decide

theorem test_emulator_accumulators : accumulatorSelect 3#5 (destField 0x0800#16) = 2#5
    ∧ accumulatorSelect 0x1C#5 (destField 0x1800#16) = 0x1C#5 ∧ accumulatorSelect 1#5 (sourceField 0x6000#16) = 0#5
    ∧ Bank.get (run1 { known [] with ir := 0x0020#16, params := { Params.default with idispProm := [(0x0020#16, 0x025#10)] } }
      0x0000D100).mpc 0 = 0x125#10 := by
  decide

/-- V2.6, rows 2, 4, 8 and 14 of the LOAD_DNS table. -/
theorem test_emulator_load_dns :
    let row := fun ir l nc c0 w => run1 { State.reset with ir := ir, l := l, novaCarry := nc, aluC0 := c0, r := Vector.replicate 32 0xAAAA#16 } w
    (Bank.get (row 0x8E04#16 0#16 false true 0x0020A040).r 2 = 0#16 ∧ (row 0x8E04#16 0#16 false true 0x0020A040).novaCarry = true
      ∧ (row 0x8E04#16 0#16 false true 0x0020A040).skip = true)
    ∧ (Bank.get (row 0x8E08#16 0#16 false true 0x0020A040).r 2 = 0xAAAA#16
      ∧ (row 0x8E08#16 0#16 false true 0x0020A040).novaCarry = false)
    ∧ (Bank.get (row 0x8E40#16 0x8001#16 false false 0x0024A040).r 2 = 0x0002#16
      ∧ (row 0x8E40#16 0x8001#16 false false 0x0024A040).novaCarry = true)
    ∧ (row 0x8E06#16 0x0005#16 false false 0x0020A040).skip = true := by
  decide

theorem test_emulator_control : (run1 (known [(2#8, 0x000E#16)]) 0x002D7001).rb = 7#3
    ∧ (run1 (known [(2#8, 0xFFFE#16)]) 0x002B7001).rmr = 0xFFFE#16
    ∧ Bank.get (run1 State.reset 0x00090003).wrtRamPending 0 = true ∧ Bank.get (run1 State.reset 0x00080005).swModePending 0 = true
    ∧ Bank.get (run1 State.reset 0x000A0002).rdRamPending 0 = true := by
  decide

theorem test_emulator_startf :
    let t := run1 { known [(10#8, 0x8000#16)] with rmr := 0xFFFE#16 } 0x082F7002
    Bank.get t.bank 0 = .ram0 ∧ Bank.get t.bank 15 = .rom0 ∧ t.rmr = 0#16 ∧ Bank.get t.mpc 0 = 0#10
      ∧ Bank.get t.wakeup 4 = true ∧ t.nextTask = none := by
  decide

/-- V2.6 and P5: the microinstruction after RDRAM, WRTRAM and SWMODE. -/
theorem test_emulator_carried :
    (run1 { State.reset with
      cramAddr := 0x0410#16, uram := Memory.writeMicro [] 0x10 0x00A00410#32
      rdRamPending := Bank.put State.reset.rdRamPending 0 true } 0x00200403).l = 0x00A0#16
    ∧ (run1 { known [(18#8, 0x0410#16)] with
      cramAddr := 0x0010#16, m := 0x00A0#16, wrtRamPending := Bank.put State.reset.wrtRamPending 0 true }
      0x10270004).uram.readMicro 0x10 = 0x00A00410#32
    ∧ Bank.get (run1 { State.reset with swModePending := Bank.put State.reset.swModePending 0 true } 0x00000010).bank 0 = .ram0 := by
  decide

/-- V2.7: a memory operation of task 0 as it stands before a tick. -/
def busAt (cycle : Nat) (a : Word) (s : State) : State := { s with memActive := true, memCycle := cycle, memAddr := a }

theorem test_memory_read :
    (run1 (busAt 4 0x0101#16 { known [(37#8, 0xFFFF#16)] with main := Memory.writeWord [] 0x0101 0x5678#16 }) 0x20500805).t = 0x5678#16
    ∧ (run1 { busAt 5 0x0101#16 (known [(45#8, 0xFFFF#16)]) with main := Memory.writeWord [] 0x0100 0x1234#16, memRd5 := true }
      0x28500406).l = 0x1234#16
    ∧ (run1 (busAt 3 0x0101#16 State.reset) 0x20500805).completion = .memoryWait := by
  decide

theorem test_memory_store :
    (run1 (busAt 2 0x0100#16 (known [(10#8, 0x1234#16)])) 0x08276002).main.readWord 0x0100 = 0x1234#16
    ∧ (run1 { busAt 3 0x0100#16 (known [(18#8, 0x5678#16)]) with dwStore := true, dwMixed := true } 0x10276003).main.readWord 0x0101
      = 0x5678#16
    ∧ (run1 (busAt 1 0x0100#16 (known [(10#8, 0x1234#16)])) 0x08276002).completion = .memoryWait
    ∧ Bank.get (run1 (busAt 2 0xFFE0#16 (known [(10#8, 0x0006#16)])) 0x08276002).xmBanks 0 = 0x6#4 := by
  decide

theorem test_memory_physical :
    physAddr 0x0100#16 0 false { State.reset with xmBanks := Bank.put State.reset.xmBanks 0 0x6#4 } = 0x10100#18
    ∧ physAddr 0x0100#16 0 true { State.reset with xmBanks := Bank.put State.reset.xmBanks 0 0x6#4 } = 0x20100#18
    ∧ physAddr 0x0100#16 0 false { State.reset with xmBanks := Bank.put State.reset.xmBanks 0 0xF#4 } = 0x30100#18
    ∧ (memRead 0xFFE0#16 { State.reset with xmBanks := Bank.put State.reset.xmBanks 0 0x6#4 }).1 = 0xFFF6#16 := by
  decide

/-- V2.9. -/
def woken (ks : List TaskNum) : State := { State.reset with wakeup := PerTask.tabulate fun k => ks.contains k }

theorem test_scheduler : highestWoken (woken [0, 4, 7]) = 7 ∧ highestWoken (woken [0]) = 0 ∧ highestWoken (woken [0, 5]) = 0
    ∧ (schedule { woken [0, 4, 9] with nextTask := some 4, completion := .taskSwitch }).nextTask = some 9
    ∧ (schedule { woken [0] with nextTask := some 4 }).currentTask = 4
    ∧ (schedule { woken [0] with nextTask := some 4, completion := .memoryWait }).currentTask = 0 := by
  decide

/-- V2.11. -/
def haltIs (s : State) (f : Fault) (k : TaskNum) (a : MicroAddr) : Bool :=
  match s.halted with
  | some r => r.fault == f && r.task == k && r.mpc == a
  | none => false

theorem test_faults_emulator : haltIs (run1 State.reset 0x07000000) .aluFn 0 0#10 ∧ haltIs (run1 State.reset 0x07800000) .aluFn 0 0#10
    ∧ haltIs (run1 State.reset 0x000C0000) .f1 0 0#10 ∧ haltIs (run1 State.reset 0x0000F000) .f2 0 0#10
    ∧ haltIs (run1 State.reset 0x00030000) .protectedTask 0 0#10 ∧ haltIs (run1 State.reset 0x00206000) .storeNoOp 0 0#10
    ∧ haltIs (run1 State.reset 0x00169000) .shifterMode 0 0#10 := by
  decide

theorem test_faults_task :
    haltIs (run1 { State.reset with currentTask := 4 } 0x00300000) .busSource 4 4#10
    ∧ haltIs (run1 { State.reset with currentTask := 4 } 0x00080000) .f1 4 4#10
    ∧ haltIs (run1 { State.reset with external := [[.wakeupTask 0]] } 0) .protectedTask 0 0#10
    ∧ haltIs (run1 { State.reset with external := [[.wakeupTask 5]] } 0) .noTask 0 0#10
    ∧ haltIs (run1 { State.reset with
        bank := Bank.put State.reset.bank 0 .ram0, params := { Params.default with ramBanks := 0 } } 0) .noBank 0 0#10 := by
  decide

/-! ## Witnesses: states that meet the hypotheses of the obligations -/

/-! ## Hooks and the power-up reset -/

/-- One written-down hook of a task, the machine reset but for it and for the task that runs. -/
def withHooks (k : TaskNum) (hs : List (TaskNum × HookPoint × List HookAction)) : State :=
  { State.reset with
    currentTask := k
    params := { Params.default with hooks := hs.map fun h => ⟨h.1, h.2.1, .fixed ⟨.word 0#16, h.2.2⟩⟩ } }

/-- A hook of step 7 that writes the scratch (R132): L takes the ALU result at writeback, and the completion code follows
`taskFired` (R125, R131). -/
theorem test_hook_writes_scratch :
    let s := cpuStep { plain with f1 := .taskSpecific8, loadL := true }
      (withHooks 4 [(4, .f1 8, [.setAlu 0x1234#16, .setTaskFired true])])
    s.halted = none ∧ s.l = 0x1234#16 ∧ s.completion = .taskSwitch := by
  decide

/-- A change of `rSelect` counts in an early hook and has no effect in a later one (R122, D32). -/
theorem test_hook_selects_r :
    let r := fun p => (cpuStep { plain with f1 := .taskSpecific8, bs := .loadR, rselect := 3#5 }
      { withHooks 4 [(4, p, [.setRSelect 9#5]), (4, .f1 8, [])] with l := 0x1234#16 }).r
    Bank.get (r .f1Early) 9 = 0x1234#16 ∧ Bank.get (r .f1Early) 3 = 0#16
      ∧ Bank.get (r .f2Late) 3 = 0x1234#16 ∧ Bank.get (r .f2Late) 9 = 0#16
      ∧ (let s := cpuStep { plain with f1 := .taskSpecific8, bs := .loadR, rselect := 3#5 }
          { withHooks 4 [(4, .f1 8, [.setRSelect 9#5])] with l := 0x1234#16 };
        Bank.get s.r 3 = 0x1234#16 ∧ Bank.get s.r 9 = 0#16) := by
  decide

/-- A next-address bit counts in the hooks of steps 7 and 8 and in no other (45_f2.md R225). -/
theorem test_hook_modifier :
    let m := fun p => Bank.get (cpuStep { plain with f1 := .taskSpecific8, bs := .taskSpecific1 }
      (withHooks 4 [(4, p, [.orNextModifier 4#10]), (4, .bs3, []), (4, .f1 8, [])])).mpc 4
    m (.f1 8) = 4#10 ∧ m .bs3 = 0#10 ∧ m .f1Early = 0#10 ∧ m .f2Early = 0#10 ∧ m .f2Late = 0#10 := by
  decide

/-- A hook's wakeup waits for the end of its tick (R279, D41): the scan of the same tick does not see it. -/
theorem test_hook_wakeup_waits :
    let s := run1 (withHooks 4 [(4, .f2 8, [.wakeupTask 7])]) 0x00028000
    s.completion = .taskSwitch ∧ s.nextTask = some 0 ∧ Bank.get s.wakeup 7 = true ∧ s.hookCalls = [] := by
  decide

/-- The last call on a task decides, the hooks' calls coming first; a call on the Emulator faults at the end of the tick. -/
theorem test_hook_calls_order :
    let s := withHooks 4 [(4, .f2 8, [.wakeupTask 7, .wakeupTask 8])]
    let t := run1 { s with external := [[.blockTask 7]] } 0x00008000
    Bank.get t.wakeup 7 = false ∧ Bank.get t.wakeup 8 = true ∧ t.external = []
    ∧ haltIs (run1 (withHooks 4 [(4, .f2 8, [.blockTask 0])]) 0x00008005) .protectedTask 4 5#10 := by
  decide

/-- On ALTO_I a reference is never extended (R55). -/
theorem test_hook_loadmar_alto_i :
    let s := withHooks 4 [(4, .f1 8, [.loadMar 0x0100#16 true])]
    (cpuStep { plain with f1 := .taskSpecific8 } s).memXM = true
    ∧ (cpuStep { plain with f1 := .taskSpecific8 } { s with params := { s.params with system := .altoI } }).memXM = false := by
  decide

/-- R300 clears the memory bus after the hooks, resets the wakeup a hook gave to a later task of the loop and keeps the one it
gave to an earlier task, which then wins the scan. -/
theorem test_power_up_order :
    let s := powerUp (withHooks 9 [(4, .reset, [.loadMar 0x0100#16 false, .wakeupTask 7]), (9, .reset, [.wakeupTask 8])])
    s.halted = none ∧ s.memActive = false ∧ s.memAddr = 0#16 ∧ Bank.get s.wakeup 7 = false ∧ Bank.get s.wakeup 8 = true
      ∧ s.currentTask = 8 ∧ s.nextTask = none := by
  decide

/-- A second LoadMAR of the reset hooks faults (R57), and the reset ends there (R270). -/
theorem test_power_up_fault :
    let s := powerUp (withHooks 0 [(4, .reset, [.loadMar 0x0100#16 false]), (7, .reset, [.loadMar 0x0200#16 false])])
    haltIs s .marActive 0 0#10 ∧ s.memAddr = 0x0100#16 := by
  decide

/-- Every hook of task 4, each with one next-address bit and one device call. -/
def hooked : State :=
  { State.reset with
    currentTask := 4
    params := { Params.default with
      hooks := ([.bs3, .bs4, .f1 8, .f1 9, .f1 10, .f1 11, .f1 12, .f1 13, .f1 14, .f1 15, .f2 8, .f2 9, .f2 10, .f2 11, .f2 12,
        .f2 13, .f2 14, .f2 15, .block] : List HookPoint).map fun p => ⟨4, p, .fixed ⟨.word 0xBEEF#16, [.orNextModifier 1#10, .device 7#16]⟩⟩ } }

/-- The rows the Emulator runs on an idle memory bus. -/
def emulatorRows (u : Micro) : List Instr :=
  [.microinstruction u, .aluBus u, .aluT u, .aluBusOrT u, .aluBusAndT u, .aluBusXorT u, .aluBusPlus1 u,
    .aluBusMinus1 u, .aluBusPlusT u, .aluBusMinusT u, .aluBusMinusTMinus1 u, .aluBusPlusTPlus1 u, .aluBusPlusSkip u,
    .aluAluBusAndT u, .aluBusAndNotT u, .bsReadR u, .bsLoadR u, .bsNone u, .bsReadMd u, .bsReadMouse u,
    .bsReadDisp u, .bsReadS u, .bsLoadS u, .f1None u, .f1LoadMar u, .f1Task u, .f1LLsh1 u, .f1LRsh1 u, .f1LLcy8 u,
    .f1Constant u, .f1Swmode u, .f1Wrtram u, .f1Rdram u, .f1LoadRmr u, .f1LoadEsrb u, .f1Rsnf u, .f1Startf u,
    .f2None u, .f2BusEq0 u, .f2ShLt0 u, .f2ShEq0 u, .f2Bus u, .f2Alucy u, .f2Constant u, .f2Busodd u, .f2Magic u,
    .f2LoadDns u, .f2Acdest u, .f2LoadIr u, .f2Idisp u, .f2Acsource u, .lt u, .ll u]

/-- The rows a task with hooks runs. -/
def taskRows (u : Micro) : List Instr :=
  [.bsTaskSpecific1 u, .bsTaskSpecific2 u, .f1TaskSpecific8 u, .f1TaskSpecific9 u, .f1TaskSpecific10 u,
    .f1TaskSpecific11 u, .f1TaskSpecific12 u, .f1TaskSpecific13 u, .f1TaskSpecific14 u, .f1TaskSpecific15 u,
    .f2TaskSpecific8 u, .f2TaskSpecific9 u, .f2TaskSpecific10 u, .f2TaskSpecific11 u, .f2TaskSpecific12 u,
    .f2TaskSpecific13 u, .f2TaskSpecific14 u, .f2TaskSpecific15 u, .f1Block u]

theorem witness_emulator_rows_run : ∀ i ∈ emulatorRows plain, mayRun i.micro State.reset = true := by decide

theorem witness_task_rows_run : ∀ i ∈ taskRows plain, mayRun i.micro hooked = true := by decide

theorem witness_fits : (∀ i ∈ emulatorRows plain, i.micro.fits true = true) ∧ (∀ i ∈ taskRows plain, i.micro.fits false = true)
    ∧ rowOf (Instr.f2StoreMd { plain with f2 := .storeMd }).micro = .f2StoreMd { plain with f2 := .storeMd } := by
  decide

theorem witness_step : State.reset.halted = none ∧ fetchWord (startTick State.reset) = some 0#32
    ∧ bankExists (woken [0]).params .ram1 = false ∧ (run1 State.reset 0x07000000).halted ≠ none := by
  decide

theorem witness_no_bank :
    let s : State := { State.reset with bank := Bank.put State.reset.bank 0 .ram1 }
    s.halted = none ∧ bankExists s.params (Bank.get s.bank s.currentTask) = false := by
  decide

/-- The three waits, each at the last cycle that still waits. -/
theorem witness_memory_wait :
    ((Instr.f1LoadMar plain).micro.f1 = .loadMar ∧ (busAt 6 0#16 State.reset).memActive = true)
    ∧ ((Instr.bsReadMd plain).micro.bs = .readMd ∧ (busAt 4 0#16 State.reset).memCycle ≤ (busAt 4 0#16 State.reset).params.readAfter)
    ∧ ((Instr.f2StoreMd plain).micro.f2 = .storeMd
      ∧ ¬((busAt 2 0#16 State.reset).params.system = .altoII ∧ (Instr.f2StoreMd plain).micro.f1 = .loadMar)
      ∧ (busAt 2 0#16 State.reset).memCycle ≤ (busAt 2 0#16 State.reset).params.storeAfter) := by
  decide

/-- LT, LL, carried flags, waiting hooks: the row statements' inner hypotheses. -/
theorem witness_alu_loads : mayRun (Instr.aluBusPlus1 { plain with loadT := true, loadL := true }).micro State.reset = true
    ∧ mayRun (Instr.aluBusPlusSkip plain).micro { State.reset with skip := true } = true := by
  decide

theorem witness_shift_rows :
    (∀ f ∈ [F2Fn.none, .magic, .loadDns, .shEq0], mayRun (Instr.f1LLsh1 { plain with bs := .loadR, f2 := f }).micro State.reset = true
      ∧ needsShifter (Instr.f1LLsh1 { plain with bs := .loadR, f2 := f }).micro State.reset = true
      ∧ mayRun (Instr.f1LRsh1 { plain with bs := .loadR, f2 := f }).micro State.reset = true)
    ∧ mayRun (Instr.f1LLcy8 { plain with bs := .loadR }).micro State.reset = true
    ∧ needsShifter (Instr.f1LLcy8 { plain with bs := .loadR }).micro State.reset = true
    ∧ needsShifter (Instr.f1None { plain with f2 := .shLt0 }).micro State.reset = true := by
  decide

/-- READ_MD while idle, in cycle 5 and in cycle 6. -/
theorem witness_read_md : mayRun (Instr.bsReadMd plain).micro State.reset = true
    ∧ mayRun (Instr.bsReadMd plain).micro (busAt 5 0#16 State.reset) = true
    ∧ mayRun (Instr.bsReadMd plain).micro { busAt 6 0#16 State.reset with memRd5 := true } = true := by
  decide

/-- STORE_MD at the first word of the device page's lower neighbour, at both ends of the XM bank registers and of the device page
before them, and with LOAD_MAR. -/
theorem witness_store_md :
    ([0x0000#16, 0xFDFF#16, 0xFE00#16, 0xFFDF#16, 0xFFE0#16, 0xFFEF#16, 0xFFF0#16].all fun a =>
      mayRun (Instr.f2StoreMd plain).micro (busAt 3 a State.reset)) = true
    ∧ mayRun (Instr.f2StoreMd { plain with f1 := .loadMar }).micro State.reset = true
    ∧ xmIndex Params.default 0xFFDF#16 = none ∧ xmIndex Params.default 0xFFE0#16 = some 0 ∧ xmIndex Params.default 0xFFEF#16 = some 15
    ∧ xmIndex Params.default 0xFFF0#16 = none ∧ (0xFDFF#16).toNat < Params.default.ioBase.toNat
    ∧ Params.default.ioBase.toNat ≤ (0xFE00#16).toNat := by
  decide

/-- STARTF with a bus word of each kind, and the carried flags clear. -/
theorem witness_startf : ([0x8000#16, 0x0001#16, 0x7FFF#16, 0x0000#16].all fun w =>
      mayRun (Instr.f1Startf plain).micro (withR 0 w State.reset)
      && sourceWord (Instr.f1Startf plain).micro (withR 0 w State.reset) &&& constMask (Instr.f1Startf plain).micro State.reset == w) = true
    ∧ Bank.get State.reset.swModePending 0 = false ∧ Bank.get State.reset.wrtRamPending 0 = false
    ∧ Params.default.present Params.default.diskSectorTask = true := by
  decide

theorem witness_load_dns : ([0x8E00#16, 0x8E08#16].all fun ir => mayRun (Instr.f2LoadDns plain).micro { State.reset with ir := ir }) = true
    ∧ Params.default.emuDnsReplaced = false ∧ mayRun (Instr.f2LoadDns { plain with bs := .loadR }).micro State.reset = true := by
  decide

/-- Every value of the carry-control, function and skip fields of IR. -/
theorem witness_load_dns_tables : ((List.range 8).all fun f => (List.range 8).all fun k => (List.range 4).all fun c =>
      mayRun (Instr.f2LoadDns plain).micro { State.reset with ir := BitVec.ofNat 16 (f * 256 + c * 16 + k) }) = true := by
  decide

/-- A due control-RAM write, and a due bank switch without and with a soft reset. -/
theorem witness_carried_due :
    (let s : State := { State.reset with cramAddr := 0x0010#16, wrtRamPending := Bank.put State.reset.wrtRamPending 0 true };
      mayRun plain s = true ∧ cramWord s = some 0x10)
    ∧ (let s : State := { State.reset with swModePending := Bank.put State.reset.swModePending 0 true };
      mayRun plain s = true ∧ Bank.get s.swModePending s.currentTask = true ∧ Bank.get s.bank s.currentTask = .rom0
        ∧ s.params.romBanks = 1 ∧ s.params.ramBanks = 1 ∧ (cpuStep plain s).scratch.softReset = false
        ∧ mayRun plain { s with bank := Bank.put s.bank 0 .ram0 } = true
        ∧ mayRun (Instr.f1Startf plain).micro (withR 0 0x8000#16 s) = true) := by
  decide

theorem witness_magic : (∀ f ∈ [F1Fn.none, .lLsh1, .lRsh1], mayRun (Instr.f2Magic { plain with bs := .loadR, f1 := f }).micro State.reset = true)
    ∧ mayRun (Instr.f2Magic { plain with f1 := .lLcy8 }).micro State.reset = true := by
  decide

theorem witness_task_block : mayRun (Instr.f1Task plain).micro { State.reset with firstAfterSwitch := Bank.put State.reset.firstAfterSwitch 0 true } = true
    ∧ HookAction.device 7#16 ∈ hookActs .block hooked ∧ HookAction.device 7#16 ∈ hookActs .bs3 hooked
    ∧ HookAction.orNextModifier 1#10 ∈ hookActs (.f1 8) hooked ∧ HookAction.device 7#16 ∈ hookActs (.f1 8) hooked := by
  decide

/-- The codes without a function, and BLOCK of the Emulator. -/
theorem witness_reserved : mayReachAlu (Instr.aluReserved14 plain).micro State.reset = true
    ∧ mayReachAlu (Instr.aluReserved15 plain).micro State.reset = true ∧ mayReachF1 (Instr.f1Reserved12 plain).micro State.reset = true
    ∧ mayReachF2 (Instr.f2Reserved15 plain).micro State.reset = true ∧ mayReachF1 (Instr.f1Block plain).micro State.reset = true := by
  decide

/-- Task 4 without hooks. -/
theorem witness_missing_hooks :
    let s : State := { State.reset with currentTask := 4 }
    (mayStart (Instr.bsTaskSpecific1 plain).micro s = true ∧ hookAnswer s.currentTask .bs3 s = none)
    ∧ (mayStart (Instr.bsTaskSpecific2 plain).micro s = true ∧ hookAnswer s.currentTask .bs4 s = none)
    ∧ (mayReachF1 (Instr.f1TaskSpecific8 plain).micro s = true ∧ hookAnswer s.currentTask (.f1 8) s = none)
    ∧ (mayReachF1 (Instr.f1TaskSpecific15 plain).micro s = true ∧ hookAnswer s.currentTask (.f1 15) s = none)
    ∧ (mayReachF2 (Instr.f2TaskSpecific8 plain).micro s = true ∧ hookAnswer s.currentTask (.f2 8) s = none)
    ∧ (mayReachF2 (Instr.f2TaskSpecific15 plain).micro s = true ∧ hookAnswer s.currentTask (.f2 15) s = none) := by
  decide

theorem witness_memory_faults :
    mayStart (Instr.bsReadMd plain).micro { busAt 5 0#16 State.reset with dwMixed := true } = true
    ∧ mayStart (Instr.bsReadMd plain).micro (busAt 6 0#16 State.reset) = true
    ∧ mayReachF2 (Instr.f2StoreMd plain).micro State.reset = true
    ∧ mayReachF2 (Instr.f2StoreMd { plain with f1 := .loadMar }).micro
      { State.reset with params := { Params.default with system := .altoI } } = true := by
  decide

theorem witness_deferred_faults :
    ([0x0800#16, 0x1000#16].all fun a =>
      mayStart plain { State.reset with cramAddr := a, rdRamPending := Bank.put State.reset.rdRamPending 0 true }
      && mayReachAlu plain { State.reset with cramAddr := a, wrtRamPending := Bank.put State.reset.wrtRamPending 0 true }) = true
    ∧ (0x0800#16).getLsbD 11 = true ∧ (0x1000#16).getLsbD 11 = false ∧ Params.default.ramBanks ≤ cramBankOf 0x1000#16
    ∧ mayReachShifter { plain with f1 := .lLcy8, f2 := .magic, bs := .loadR } State.reset = true
    ∧ mayReachShifter plain { State.reset with
        swModePending := Bank.put State.reset.swModePending 0 true, params := { Params.default with ramBanks := 2 } } = true
    ∧ swModeTarget { Params.default with ramBanks := 2 } .rom0 0#10 = none := by
  decide

/-- Every row answers a next state; the frames' other hypotheses. -/
theorem witness_frames : exec (.microinstruction plain) State.reset = .next (cpuStep plain State.reset)
    ∧ loadsR plain State.reset = false ∧ hooksOnly harmlessAction 4 hooked = true ∧ hooksOnly offBusAction 4 hooked = true
    ∧ storedWord plain State.reset = none ∧ cramWord State.reset = none
    ∧ storedWord (Instr.f2StoreMd plain).micro (busAt 3 0x0100#16 State.reset) = some 0x0100
    ∧ cramWord { State.reset with cramAddr := 0x0010#16, wrtRamPending := Bank.put State.reset.wrtRamPending 0 true } = some 0x10 := by
  refine ⟨rfl, ?_⟩
  decide

/-- The invariant of a machine that runs another task, and its step. -/
theorem witness_invariant : ∃ s t : State, Inv s ∧ s.currentTask ≠ 0 ∧ step s = .next t := by
  refine ⟨hooked, after hooked, ⟨by decide, by decide, by decide, by decide, by decide, by decide, by decide, by decide, by decide,
    ?_, ?_⟩, by decide, rfl⟩
  · intro c hc
    cases hc
  · intro c hc
    cases hc

theorem witness_hooks_at_reset : (∀ e ∈ hooked.params.hooks, e.point ≠ .reset) ∧ (∀ e ∈ hooked.params.hooks, e.point ≠ .onTaskSwitch) := by
  decide

/-- Resets that no fault ends: without hooks at reset, and with hooks that use the bus and the wakeups. -/
theorem witness_power_up : (powerUp hooked).halted = none
    ∧ (powerUp (withHooks 4 [(4, .reset, [.loadMar 0x0100#16 false, .setAlu 1#16]), (7, .reset, [.wakeupTask 4])])).halted = none := by
  decide

theorem witness_soft_reset : Params.default.present 4 = true ∧ Params.default.present 5 = false ∧ Params.default.present 0 = true := by
  decide

/-- The data space: the last main-store word, both ends of the XM bank registers. -/
theorem witness_data_space : (xmIndex Params.default 0xFDFF#16 = none ∧ (0xFDFF#16).toNat < Params.default.ioBase.toNat)
    ∧ xmIndex Params.default 0xFFE0#16 = some 0 ∧ xmIndex Params.default 0xFFEF#16 = some 15
    ∧ xmIndex { Params.default with system := .altoI } 0xFFE0#16 = none
    ∧ 0x1FDFF ≠ (physAddr 0xFDFF#16 0 false State.reset).toNat := by
  decide

theorem witness_bus_timeline : State.reset.memActive = false ∧ State.reset.params.readAfter = 4
    ∧ xmIndex Params.default 0xFDFF#16 = none ∧ (0xFDFF#16).toNat < Params.default.ioBase.toNat
    ∧ xmIndex Params.default (partner 0xFDFF#16) = none ∧ (partner 0xFDFF#16).toNat < Params.default.ioBase.toNat := by
  decide

theorem witness_double_store : ([0x0000#16, 0xFDFF#16].map (busAt 3 · State.reset)).all (fun s =>
    s.memActive && s.memCycle == s.params.storeAfter + 1 && xmIndex s.params s.memAddr == none
      && s.memAddr.toNat < s.params.ioBase.toNat && xmIndex s.params (partner s.memAddr) == none
      && (partner s.memAddr).toNat < s.params.ioBase.toNat && !s.dwStore) = true := by
  decide

theorem witness_scheduler : Bank.get (woken [0, 4]).wakeup 0 = true
    ∧ (run1 State.reset 0x00020002).completion = .taskSwitch ∧ (run1 (busAt 3 0#16 State.reset) 0x00500403).completion = .memoryWait
    ∧ State.reset.completion = .normal ∧ State.reset.nextTask = none := by
  decide

/-- Calls due at the end of a tick, of its hooks and of the environment. -/
theorem witness_calls_due :
    let s := { State.reset with hookCalls := [.wakeupTask 4], external := [[.blockTask 4, .wakeupTask 7]] }
    s.halted = none ∧ ∀ c ∈ callsDue s, callTask c ≠ 0 ∧ s.params.present (callTask c) = true := by
  decide

theorem witness_task_switch_deferred : State.reset.halted = none
    ∧ fetch (startTick (State.reset.withFetchWord 32 0x00020002)) = some (.f1Task { plain with f1 := .task, next := 2#10 })
    ∧ (cpuStep { plain with f1 := .task, next := 2#10 } State.reset).halted = none
    ∧ (cpuStep { plain with f1 := .task, next := 2#10 } State.reset).completion = .taskSwitch
    ∧ (cpuStep { plain with bs := .readMd } (busAt 3 0#16 State.reset)).completion = .memoryWait := by
  decide

theorem witness_control_ram : [0x0000#16, 0x07FF#16].all (fun a => !a.getLsbD 11 && cramBankOf a < Params.default.ramBanks
    && bankParts .ram0 == (false, cramBankOf a)) = true := by
  decide

end Sys2Proof.Tests
end

/-! PROOFS. The decoder and the encoder are inverse to each other (30_encoding.md R91, R103, R104). Decoding an encoded word
goes through the word as a number, whose fields are the quotients given in Sys2Proof/Laws/Encoding.lean; encoding a decoded
word puts the slices of the word side by side again. -/

namespace Sys2Proof

/-! ## The fields of a word as numbers -/

theorem extractLsb'_eq_iff {n : Nat} (w : MicroWord) (start : Nat) (c : BitVec n) :
    w.extractLsb' start n = c ↔ w.toNat / 2 ^ start % 2 ^ n = c.toNat := by
  rw [BitVec.toNat_eq, BitVec.extractLsb'_toNat, Nat.shiftRight_eq_div_pow]

theorem getLsbD_toNat (w : MicroWord) (i : Nat) : (w.getLsbD i).toNat = w.toNat / 2 ^ i % 2 ^ 1 := by
  rw [BitVec.getLsbD, Nat.toNat_testBit, Nat.pow_one]

theorem getLsbD_eq_iff (w : MicroWord) (i : Nat) (b : Bool) :
    w.getLsbD i = b ↔ w.toNat / 2 ^ i % 2 ^ 1 = b.toNat := by
  rw [← getLsbD_toNat, (Function.LeftInverse.injective Bool.ofNat_toNat).eq_iff]

/-! ## Decoding what was encoded -/

theorem encodeMicro_rselect (u : Micro) : (encodeMicro u).toNat / 2 ^ 27 % 2 ^ 5 = u.rselect.toNat := by
  obtain ⟨hrselect, haluf, hbs, hf1, hf2, hloadT, hloadL, hnext⟩ := micro_bounds u
  rw [encodeMicro_toNat]
  omega

theorem encodeMicro_next (u : Micro) : (encodeMicro u).toNat / 2 ^ 0 % 2 ^ 10 = u.next.toNat := by
  obtain ⟨hrselect, haluf, hbs, hf1, hf2, hloadT, hloadL, hnext⟩ := micro_bounds u
  rw [encodeMicro_toNat]
  omega

theorem Micro.fits_iff (emu : Bool) (u : Micro) :
    u.fits emu = true ↔ u.bs.fits emu = true ∧ u.f1.fits emu = true ∧ u.f2.fits emu = true := by
  simp [Micro.fits, and_assoc]

/-- Every field is read back from its place, and the code in it names the function it was written for: the executing
task's kind settles the codes that two functions share (R98). -/
theorem decodeMicro_encodeMicro (emu : Bool) (u : Micro) (h : u.fits emu = true) :
    decodeMicro emu (encodeMicro u) = u := by
  obtain ⟨hbs, hf1, hf2⟩ := (Micro.fits_iff emu u).mp h
  unfold decodeMicro
  rw [(extractLsb'_eq_iff _ 27 u.rselect).mpr (encodeMicro_rselect u),
    (extractLsb'_eq_iff _ 23 u.aluf.code).mpr (encodeMicro_aluf u), aluOfCode_code,
    (extractLsb'_eq_iff _ 20 u.bs.code).mpr (encodeMicro_bs u), busOfCode_code emu u.bs hbs,
    (extractLsb'_eq_iff _ 16 u.f1.code).mpr (encodeMicro_f1 u), f1OfCode_code emu u.f1 hf1,
    (extractLsb'_eq_iff _ 12 u.f2.code).mpr (encodeMicro_f2 u), f2OfCode_code emu u.f2 hf2,
    (getLsbD_eq_iff _ 11 u.loadT).mpr (encodeMicro_loadT u),
    (getLsbD_eq_iff _ 10 u.loadL).mpr (encodeMicro_loadL u),
    (extractLsb'_eq_iff _ 0 u.next).mpr (encodeMicro_next u)]

/-! ## Encoding what was decoded -/

theorem ofBool_getLsbD (w : MicroWord) (i : Nat) : BitVec.ofBool (w.getLsbD i) = w.extractLsb' i 1 := by
  apply BitVec.eq_of_toNat_eq
  rw [BitVec.toNat_ofBool, getLsbD_toNat, BitVec.extractLsb'_toNat, Nat.shiftRight_eq_div_pow]

/-- The codes of a decoded word are the bits they were decoded from, and the slices of R90 leave no bit of the word out, so
that put side by side they make up the word again. -/
theorem encodeMicro_decodeMicro (emu : Bool) (w : MicroWord) : encodeMicro (decodeMicro emu w) = w := by
  calc encodeMicro (decodeMicro emu w)
      = w.extractLsb' 27 5 ++ w.extractLsb' 23 4 ++ w.extractLsb' 20 3 ++ w.extractLsb' 16 4 ++ w.extractLsb' 12 4
          ++ w.extractLsb' 11 1 ++ w.extractLsb' 10 1 ++ w.extractLsb' 0 10 := by
        simp only [encodeMicro, decodeMicro, code_aluOfCode, (code_busOfCode emu _).1, (code_f1OfCode emu _).1,
          (code_f2OfCode emu _).1, ofBool_getLsbD]
    _ = w.extractLsb' 0 32 := by simp only [BitVec.extractLsb'_append_extractLsb'_eq_extractLsb']
    _ = w := BitVec.extractLsb'_eq_self

/-! ## The places of the fields in the encoded word -/

/-- `encodeMicro_toNat` with its products multiplied out: each field stands at the place R90 gives it. -/
theorem encodeMicro_toNat_places (u : Micro) : (encodeMicro u).toNat
    = u.rselect.toNat * 2 ^ 27 + u.aluf.code.toNat * 2 ^ 23 + u.bs.code.toNat * 2 ^ 20 + u.f1.code.toNat * 2 ^ 16
      + u.f2.code.toNat * 2 ^ 12 + u.loadT.toNat * 2 ^ 11 + u.loadL.toNat * 2 ^ 10 + u.next.toNat := by
  rw [encodeMicro_toNat]
  omega

/-! ## The obligations -/

/-- Settles O3: decoding undoes encoding for every microinstruction that fits the task, encoding undoes decoding for every
word, and the fields stand at the places of R90. -/
theorem encodingInvertsDecoding : Obligations.EncodingInvertsDecoding :=
  ⟨decodeMicro_encodeMicro, fun emu w => ⟨decodeMicro_fits emu w, encodeMicro_decodeMicro emu w⟩,
    encodeMicro_toNat_places⟩

/-- The fields of the example of R104; none of its codes depends on the task. -/
def specExample : Micro :=
  { rselect := 1#5, aluf := .busOrT, bs := .readMouse, f1 := .task, f2 := .shEq0, loadT := true, loadL := false,
    next := 0x103#10 }

theorem specExample_fits (emu : Bool) : specExample.fits emu = true := by
  cases emu <;> rfl

theorem encodeMicro_specExample : encodeMicro specExample = 0x09623903#32 := by decide

/-- Settles O1: the word of R104 is the encoding of the fields given there, so in any task it decodes to them. -/
theorem specExampleDecodes : Obligations.SpecExampleDecodes := by
  intro emu
  calc decodeMicro emu 0x09623903#32
      = decodeMicro emu (encodeMicro specExample) := by rw [encodeMicro_specExample]
    _ = specExample := decodeMicro_encodeMicro emu specExample (specExample_fits emu)

end Sys2Proof

/-! PROOFS. The load of L (40_cycle.md R125), read off the state a whole microinstruction leaves: `cpuStep_running` gives that
state field by field, and the lemmas here are the fields the ALU result and its carry go to. -/

namespace Sys2Proof.Machine

/-! ## A row that runs to its end -/

theorem cpuStep_completion_ne_wait (u : Micro) (s : State) (h : mayRun u s = true) :
    (cpuStep u s).completion ≠ .memoryWait := by
  obtain ⟨-, -, hstep⟩ := cpuStep_running u s h
  rw [hstep]
  dsimp only
  split <;> decide

/-- A row that may run completes, so what is left to show of it is about the state of its cycle. -/
theorem completesWith_of_cpuStep (i : Instr) (s : State) (P : State → Prop) (h : mayRun i.micro s = true)
    (hP : P (cpuStep i.micro s)) : completesWith i s P :=
  ⟨cpuStep i.micro s, exec_eq i s, (cpuStep_running i.micro s h).1, cpuStep_completion_ne_wait i.micro s h, hP⟩

/-! ## Where the ALU result and its carry go -/

theorem cpuStep_alu (u : Micro) (s : State) (h : mayRun u s = true) : (cpuStep u s).scratch.alu = (aluOut u s).value := by
  rw [(cpuStep_running u s h).2.1]

theorem cpuStep_aluCarry (u : Micro) (s : State) (h : mayRun u s = true) : (cpuStep u s).aluCarry = (aluOut u s).carry :=
  congrArg State.aluCarry (cpuStep_running u s h).2.2

theorem cpuStep_l (u : Micro) (s : State) (h : mayRun u s = true) :
    (cpuStep u s).l = if u.loadL then (aluOut u s).value else s.l :=
  congrArg State.l (cpuStep_running u s h).2.2

theorem cpuStep_m (u : Micro) (s : State) (h : mayRun u s = true) :
    (cpuStep u s).m = if u.loadL ∧ s.currentTask = 0 then (aluOut u s).value else s.m :=
  congrArg State.m (cpuStep_running u s h).2.2

theorem cpuStep_aluC0 (u : Micro) (s : State) (h : mayRun u s = true) :
    (cpuStep u s).aluC0 = if u.loadL then (aluOut u s).carry else s.aluC0 :=
  congrArg State.aluC0 (cpuStep_running u s h).2.2

/-- A microinstruction that loads L: L and the carry latch take what this tick's ALU left, and M does with the Emulator. -/
theorem cpuStep_loadL (u : Micro) (s : State) (h : mayRun u s = true) (hl : u.loadL = true) :
    (cpuStep u s).l = (cpuStep u s).scratch.alu
    ∧ (cpuStep u s).aluC0 = (cpuStep u s).aluCarry
    ∧ (cpuStep u s).m = if s.currentTask = 0 then (cpuStep u s).scratch.alu else s.m := by
  refine ⟨?_, ?_, ?_⟩
  · rw [cpuStep_l u s h, if_pos hl, cpuStep_alu u s h]
  · rw [cpuStep_aluC0 u s h, if_pos hl, cpuStep_aluCarry u s h]
  · rw [cpuStep_m u s h, cpuStep_alu u s h]
    simp only [hl, true_and]

end Sys2Proof.Machine

namespace Sys2Proof

open Sys2Proof.Machine

/-- Settles O32: the row LL carries a microinstruction with its load bit of L set, so it loads as `cpuStep_loadL` says. -/
theorem loadLRow : Obligations.LoadLRow := by
  intro u s h
  exact completesWith_of_cpuStep (.ll u) s _ h (cpuStep_loadL (Instr.ll u).micro s h rfl)

end Sys2Proof

/-! PROOFS. The ALU rows (41_alu.md R140 to R154). A row of a code with a function is reduced once to what the function
computes (`aluRow_of_alu`), the two reserved codes to the cycle that ends at step 5 (`reservedAlu_halts`); the rest is the
arithmetic of the functions. -/

namespace Sys2Proof.Machine

/-! ## Where the ALU takes its operands, and where a load of T takes its value -/

theorem cpuStep_busData (u : Micro) (s : State) (h : mayRun u s = true) : (cpuStep u s).scratch.busData = busWord u s := by
  rw [(cpuStep_running u s h).2.1]

theorem cpuStep_t (u : Micro) (s : State) (h : mayRun u s = true) :
    (cpuStep u s).t = if u.loadT then (if loadTFromAlu u.aluf then (aluOut u s).value else busWord u s) else s.t :=
  congrArg State.t (cpuStep_running u s h).2.2

theorem cpuStep_cramAddr (u : Micro) (s : State) (h : mayRun u s = true) :
    (cpuStep u s).cramAddr = if u.loadT then (aluOut u s).value else s.cramAddr :=
  congrArg State.cramAddr (cpuStep_running u s h).2.2

theorem aluOut_of_alu (u : Micro) (s : State) (a : AluResult)
    (h : alu u.aluf (busWord u s) s.t (skipIn s.currentTask s) = .ok a) : aluOut u s = a := by
  unfold busWord at h
  unfold aluOut
  rw [h]

/-- A microinstruction that loads T: `cramAddr` takes the ALU result whichever of the two T takes (30_encoding.md R94). -/
theorem cpuStep_loadT (u : Micro) (s : State) (h : mayRun u s = true) (hl : u.loadT = true) :
    (cpuStep u s).t = (if loadTFromAlu u.aluf then (cpuStep u s).scratch.alu else (cpuStep u s).scratch.busData)
    ∧ (cpuStep u s).cramAddr = (cpuStep u s).scratch.alu := by
  refine ⟨?_, ?_⟩
  · rw [cpuStep_t u s h, if_pos hl, cpuStep_alu u s h, cpuStep_busData u s h]
  · rw [cpuStep_cramAddr u s h, if_pos hl, cpuStep_alu u s h]

/-- A row computes what the function of its code computes. -/
theorem aluRow_of_alu (i : Instr) (f : Word → Word → Bool → Word × Bool) (s : State)
    (hf : ∀ b t skip, alu i.micro.aluf b t skip = .ok ⟨(f b t skip).1, (f b t skip).2⟩) :
    aluRow i (loadTFromAlu i.micro.aluf) f s := by
  intro h
  have hout := aluOut_of_alu i.micro s _ (hf (busWord i.micro s) s.t (skipIn s.currentTask s))
  refine completesWith_of_cpuStep i s _ h ⟨?_, ?_, cpuStep_loadT i.micro s h, fun hl => ?_⟩
  · rw [cpuStep_alu i.micro s h, cpuStep_busData i.micro s h, hout]
  · rw [cpuStep_aluCarry i.micro s h, cpuStep_busData i.micro s h, hout]
  · obtain ⟨htoL, htoC0, -⟩ := cpuStep_loadL i.micro s h hl
    exact ⟨htoL, htoC0⟩

/-! ## The arithmetic functions modulo 2^16 -/

/-- A sum is its residue, with the carry of a sum that does not fit in 16 bits. -/
theorem ofSum_eq (raw : Nat) (w : Word) (c : Bool) (hw : BitVec.ofNat 16 raw = w) (hc : c = true ↔ 2 ^ 16 ≤ raw) :
    ofSum raw = ⟨w, c⟩ := by
  have hcarry : carryOfSum raw = c := by
    rw [Bool.eq_iff_iff, hc, carryOfSum, decide_eq_true_iff]
    omega
  rw [ofSum, hw, hcarry]

/-- A difference is its residue, with the inverted borrow as carry. -/
theorem ofDifference_eq (raw : Int) (w : Word) (c : Bool) (hw : BitVec.ofInt 16 raw = w) (hc : c = true ↔ 0 ≤ raw) :
    ofDifference raw = ⟨w, c⟩ := by
  have hcarry : carryOfDifference raw = c := by
    rw [Bool.eq_iff_iff, hc, carryOfDifference, decide_eq_true_iff]
  rw [ofDifference, hw, hcarry]

theorem ofNat_toNat_add (b t : Word) : BitVec.ofNat 16 (b.toNat + t.toNat) = b + t := by
  rw [BitVec.ofNat_add, BitVec.ofNat_toNat, BitVec.ofNat_toNat, BitVec.setWidth_eq, BitVec.setWidth_eq]

/-- `BitVec.ofInt` is the integer cast of the ring of words. -/
theorem ofInt_sub (x y : Int) : BitVec.ofInt 16 (x - y) = BitVec.ofInt 16 x - BitVec.ofInt 16 y :=
  Int.cast_sub (R := Word) x y

theorem ofInt_toNat_sub (b t : Word) : BitVec.ofInt 16 ((b.toNat : Int) - t.toNat) = b - t := by
  rw [ofInt_sub, BitVec.ofInt_natCast, BitVec.ofInt_natCast, BitVec.ofNat_toNat, BitVec.ofNat_toNat,
    BitVec.setWidth_eq, BitVec.setWidth_eq]

theorem eq_ones_iff (b : Word) : b = 0xFFFF#16 ↔ 2 ^ 16 ≤ b.toNat + 1 := by
  have hb := b.isLt
  rw [BitVec.toNat_eq, BitVec.toNat_ofNat]
  omega

theorem ne_zero_iff (b : Word) : b ≠ 0#16 ↔ 0 ≤ (b.toNat : Int) - 1 := by
  rw [ne_eq, BitVec.toNat_eq, BitVec.toNat_ofNat]
  omega

/-- R145. -/
theorem aluBusPlus1_eq (b : Word) : aluBusPlus1 b = ⟨b + 1#16, decide (b = 0xFFFF#16)⟩ :=
  ofSum_eq _ _ _ (ofNat_toNat_add b 1#16) (by rw [decide_eq_true_iff, eq_ones_iff])

/-- R146. -/
theorem aluBusMinus1_eq (b : Word) : aluBusMinus1 b = ⟨b - 1#16, decide (b ≠ 0#16)⟩ :=
  ofDifference_eq _ _ _ (ofInt_toNat_sub b 1#16) (by rw [decide_eq_true_iff, ne_zero_iff])

/-- R147. -/
theorem aluBusPlusT_eq (b t : Word) : aluBusPlusT b t = ⟨b + t, decide (2 ^ 16 ≤ b.toNat + t.toNat)⟩ :=
  ofSum_eq _ _ _ (ofNat_toNat_add b t) decide_eq_true_iff

/-- R148. -/
theorem aluBusMinusT_eq (b t : Word) : aluBusMinusT b t = ⟨b - t, decide (t.toNat ≤ b.toNat)⟩ :=
  ofDifference_eq _ _ _ (ofInt_toNat_sub b t) (by rw [decide_eq_true_iff]; omega)

/-- R149. -/
theorem aluBusMinusTMinus1_eq (b t : Word) :
    aluBusMinusTMinus1 b t = ⟨b - t - 1#16, decide (t.toNat < b.toNat)⟩ :=
  ofDifference_eq _ _ _ (by rw [ofInt_sub, ofInt_toNat_sub]; rfl) (by rw [decide_eq_true_iff]; omega)

/-- R150. -/
theorem aluBusPlusTPlus1_eq (b t : Word) :
    aluBusPlusTPlus1 b t = ⟨b + t + 1#16, decide (2 ^ 16 - 1 ≤ b.toNat + t.toNat)⟩ :=
  ofSum_eq _ _ _ (by rw [BitVec.ofNat_add, ofNat_toNat_add]) (by rw [decide_eq_true_iff]; omega)

/-- R151: without the skip the function is BUS with carry 0, with it BUS_PLUS_1. -/
theorem aluBusPlusSkip_eq (b : Word) (skip : Bool) :
    aluBusPlusSkip b skip = ⟨if skip then b + 1#16 else b, skip && decide (b = 0xFFFF#16)⟩ := by
  cases skip with
  | false =>
    have hfits : ¬2 ^ 16 ≤ b.toNat := Nat.not_le.mpr b.isLt
    exact ofSum_eq _ _ _ ((ofNat_toNat_add b 0#16).trans (BitVec.add_zero b)) (iff_of_false Bool.false_ne_true hfits)
  | true => exact aluBusPlus1_eq b

theorem skipIn_eq (k : TaskNum) (s : State) : skipIn k s = if k = 0 then s.skip else false := by
  by_cases hk : k = 0 <;> simp [skipIn, hk]

/-! ## The reserved codes -/

/-- A code without a function ends the cycle at step 5, in the state the bus was left in (R154). -/
theorem cpuStep_aluFn (u : Micro) (s : State) (code : Nat) (h : mayReachAlu u s = true)
    (hcode : ∀ b t skip, alu u.aluf b t skip = .error code) :
    cpuStep u s = raise .aluFn (.code code) (afterBus u s) := by
  have halu : runAlu u s.currentTask (afterBus u s) = raise .aluFn (.code code) (afterBus u s) := by
    unfold runAlu
    rw [hcode]
  have hhalt : (runAlu u s.currentTask (afterBus u s)).halted ≠ none := by
    rw [halu, raise_halted]
    exact Option.some_ne_none _
  rw [cpuStep_from_alu u s h, runPhases_cons_of_halted _ _ _ hhalt, halu]

/-- A row whose code has no function: the fault names the code, the bus holds its word, and nothing is written back. -/
theorem reservedAlu_halts (i : Instr) (s : State) (code : Nat)
    (hcode : ∀ b t skip, alu i.micro.aluf b t skip = .error code) (h : mayReachAlu i.micro s = true) :
    stopsWith i s .aluFn ∧ ∃ t, exec i s = .next t
      ∧ t.halted = some ⟨.aluFn, s.currentTask, Bank.get s.mpc s.currentTask, .code code⟩ ∧ t.aluCarry = s.aluCarry
      ∧ t.scratch.busData = sourceWord i.micro s &&& busMask i.micro s := by
  have hexec : exec i s = .next (raise .aluFn (.code code) (afterBus i.micro s)) := by
    rw [exec_eq, cpuStep_aluFn i.micro s code h hcode]
  rw [afterBus_eq i.micro s h] at hexec
  exact ⟨⟨_, hexec, ⟨_, rfl⟩, rfl, rfl, rfl, rfl, rfl, rfl, rfl, rfl⟩, _, hexec, rfl, rfl, rfl⟩

end Sys2Proof.Machine

namespace Sys2Proof

open Sys2Proof.Machine

/-! ## The obligations -/

/-- Settles O9: the logic functions of the model are those of the rows as they stand, and `loadTFromAlu` gives the operand
a load of T takes. -/
theorem aluLogicRows : Obligations.AluLogicRows := by
  intro u s
  exact ⟨aluRow_of_alu (.aluBus u) _ s fun _ _ _ => rfl,
    aluRow_of_alu (.aluT u) _ s fun _ _ _ => rfl,
    aluRow_of_alu (.aluBusOrT u) _ s fun _ _ _ => rfl,
    aluRow_of_alu (.aluBusAndT u) _ s fun _ _ _ => rfl,
    aluRow_of_alu (.aluBusXorT u) _ s fun _ _ _ => rfl,
    aluRow_of_alu (.aluBusAndNotT u) _ s fun _ _ _ => rfl⟩

/-- Settles O10: the functions are over unbounded numbers, and their residues and carries are those of `ofSum_eq` and
`ofDifference_eq`. -/
theorem aluArithmeticRows : Obligations.AluArithmeticRows := by
  intro u s
  exact ⟨aluRow_of_alu (.aluBusPlus1 u) _ s fun b _ _ => congrArg Except.ok (aluBusPlus1_eq b),
    aluRow_of_alu (.aluBusMinus1 u) _ s fun b _ _ => congrArg Except.ok (aluBusMinus1_eq b),
    aluRow_of_alu (.aluBusPlusT u) _ s fun b t _ => congrArg Except.ok (aluBusPlusT_eq b t),
    aluRow_of_alu (.aluBusMinusT u) _ s fun b t _ => congrArg Except.ok (aluBusMinusT_eq b t),
    aluRow_of_alu (.aluBusMinusTMinus1 u) _ s fun b t _ => congrArg Except.ok (aluBusMinusTMinus1_eq b t),
    aluRow_of_alu (.aluBusPlusTPlus1 u) _ s fun b t _ => congrArg Except.ok (aluBusPlusTPlus1_eq b t),
    aluRow_of_alu (.aluBusPlusSkip u) _ s fun b _ skip => congrArg Except.ok (aluBusPlusSkip_eq b skip),
    skipIn_eq s.currentTask s⟩

/-- Settles O34: neither code 14 nor code 15 has a function. -/
theorem reservedAluCodesHalt : Obligations.ReservedAluCodesHalt := by
  intro u s
  exact ⟨reservedAlu_halts (.aluReserved14 u) s 14 fun _ _ _ => rfl,
    reservedAlu_halts (.aluReserved15 u) s 15 fun _ _ _ => rfl⟩

end Sys2Proof

/-! PROOFS. The F1 row TASK (44_f1.md R197): the completion code of a microinstruction that runs to its end, and what such a
microinstruction leaves of the scheduler's state. -/

namespace Sys2Proof.Machine

/-! ## The completion code and the scheduler's state -/

theorem cpuStep_completion (u : Micro) (s : State) (h : mayRun u s = true) :
    (cpuStep u s).completion
      = if u.f1 = .task ∧ Bank.get s.firstAfterSwitch s.currentTask = false then .taskSwitch else .normal :=
  congrArg State.completion (cpuStep_running u s h).2.2

theorem softResetDue_of_ne_startf (u : Micro) (s : State) (hf : u.f1 ≠ .startf) : softResetDue u s = false := by
  rw [softResetDue, decide_eq_false hf, Bool.false_and]

/-- The current task and the task to switch to are the scheduler's; of the functions only a STARTF, by its soft reset
(46_emulator.md R246), writes them. -/
theorem cpuStep_tasks (u : Micro) (s : State) (h : mayRun u s = true) (hf : u.f1 ≠ .startf) :
    (cpuStep u s).currentTask = s.currentTask ∧ (cpuStep u s).nextTask = s.nextTask := by
  obtain ⟨-, -, hstep⟩ := cpuStep_running u s h
  have hreset := softResetDue_of_ne_startf u s hf
  rw [hstep, hreset]
  exact ⟨rfl, rfl⟩

/-- A microinstruction wakes and blocks no task but by BLOCK (44_f1.md R198) and a soft reset. -/
theorem cpuStep_wakeup (u : Micro) (s : State) (h : mayRun u s = true) (hb : u.f1 ≠ .block) (hf : u.f1 ≠ .startf) :
    (cpuStep u s).wakeup = s.wakeup := by
  rw [(cpuStep_running u s h).2.2, if_neg hb, softResetDue_of_ne_startf u s hf]
  rfl

/-- TASK asks for a switch but in the first microinstruction after one. -/
theorem cpuStep_completion_task (u : Micro) (s : State) (h : mayRun u s = true) (ht : u.f1 = .task) :
    (cpuStep u s).completion = if Bank.get s.firstAfterSwitch s.currentTask then .normal else .taskSwitch := by
  rw [cpuStep_completion u s h]
  cases hfirst : Bank.get s.firstAfterSwitch s.currentTask with
  | true => exact if_neg fun ⟨_, hfalse⟩ => Bool.noConfusion hfalse
  | false => exact if_pos ⟨ht, rfl⟩

end Sys2Proof.Machine

namespace Sys2Proof

open Sys2Proof.Machine

/-- Settles O19: the request is the completion code alone; a row whose F1 is TASK is neither BLOCK nor STARTF, so it leaves the
wakeups and both tasks to the scheduler. -/
theorem taskRow : Obligations.TaskRow := by
  intro u s h
  have hcompletion := cpuStep_completion_task (Instr.f1Task u).micro s h rfl
  have hwakeup := cpuStep_wakeup (Instr.f1Task u).micro s h nofun nofun
  have htasks := cpuStep_tasks (Instr.f1Task u).micro s h nofun
  exact completesWith_of_cpuStep (.f1Task u) s _ h ⟨hcompletion, hwakeup, htasks⟩

end Sys2Proof

/-! PROOFS. A row and its word (30_encoding.md R98, R100, R103). The decoder names a word after one of the rows the word carries,
and a row's meaning is that of the microinstruction it stands for, so the name chosen changes neither the meaning nor the
well-formedness. -/

namespace Sys2Proof

open Sys2Proof.Machine

/-- Any instruction encodes the microinstruction it stands for, so its word decodes to the row that one is named by. -/
theorem decode_encode (emu : Bool) (i : Instr) (h : i.micro.fits emu = true) : decode emu (encode i) = rowOf i.micro := by
  unfold decode encode
  rw [decodeMicro_encodeMicro emu i.micro h]

theorem fits_some_kind {emu : Bool} {u : Micro} (h : u.fits emu = true) : (u.fits true || u.fits false) = true := by
  cases emu with
  | true => rw [h, Bool.true_or]
  | false => rw [h, Bool.or_true]

/-- A row named by the decoder carries the microinstruction it stands for. -/
theorem rowOf_wellFormed (emu : Bool) (u : Micro) (h : u.fits emu = true) : (rowOf u).wellFormed = true := by
  have hagrees : (rowOf u).rowAgrees = true := by
    rw [Instr.rowAgrees, rowOf_carried, rowOf_micro, beq_self_eq_true]
  have hkind : (rowOf u).oneKind = true := by
    rw [Instr.oneKind, rowOf_micro, fits_some_kind h]
  rw [Instr.wellFormed, hagrees, hkind, Bool.and_self]

theorem decode_wellFormed (emu : Bool) (w : MicroWord) : (decode emu w).wellFormed = true :=
  rowOf_wellFormed emu (decodeMicro emu w) (decodeMicro_fits emu w)

/-- Rows that stand for the same microinstruction have the same meaning. -/
theorem exec_congr {i j : Instr} (h : i.micro = j.micro) (s : State) : exec i s = exec j s := by
  rw [exec_eq, exec_eq, h]

/-- Settles O4: the word of an instruction decodes to the row its microinstruction is named by (`decode_encode`), which
stands for that microinstruction again. -/
theorem everyInstructionRoundTrips : Obligations.EveryInstructionRoundTrips := by
  intro emu i hfits
  have hrow := decode_encode emu i hfits
  have hmicro : (decode emu (encode i)).micro = i.micro := by rw [hrow, rowOf_micro]
  exact ⟨hmicro, decode_wellFormed emu (encode i), exec_congr hmicro, hrow.trans⟩

/-- A word with the code of a row decodes to that row, where the naming of log 1 chooses it. -/
theorem decode_of_encode {emu : Bool} {w : MicroWord} {i : Instr} (hw : encode i = w) (hfits : i.micro.fits emu = true)
    (hname : rowOf i.micro = i) : decode emu w = i := by
  rw [← hw, decode_encode emu i hfits, hname]

/-- Settles O2: each word is the encoding of the row it is written for, and that row is the one its word is named by. -/
theorem vectorWordsDecode : Obligations.VectorWordsDecode :=
  ⟨decode_of_encode (by decide) rfl rfl, decode_of_encode (by decide) rfl rfl, decode_of_encode (by decide) rfl rfl,
    decode_of_encode (by decide) rfl rfl, decode_of_encode (by decide) rfl rfl, decode_of_encode (by decide) rfl rfl,
    decode_of_encode (by decide) rfl rfl, decode_of_encode (by decide) rfl rfl, decode_of_encode (by decide) rfl rfl,
    decode_of_encode (by decide) rfl rfl⟩

end Sys2Proof

/-! PROOFS. The tick (40_cycle.md R110 to R112, 60_exceptions.md R270): what a step of a running machine runs, and the two
ways a tick changes nothing of the machine. -/

namespace Sys2Proof.Machine

theorem step_of_halted (s : State) (h : s.halted ≠ none) : step s = .next s := by
  unfold step
  split
  · rfl
  · exact absurd ‹s.halted = none› h

/-- A step of a running machine, where the fetch finds a word. -/
theorem step_of_fetchWord (s : State) (w : MicroWord) (hs : s.halted = none) (hw : fetchWord (startTick s) = some w) :
    step s = .next (endTick (cpuStep (decodeMicro (emulatorRuns s) w) (startTick s))) := by
  unfold step
  simp only [hs, fetch, hw, Option.map_some, exec_eq, emulatorRuns_startTick, decode, rowOf_micro]

/-- The fetch looks at parameters, banks and micro-program counters, which the bus clock leaves alone. -/
theorem fetchWord_startTick_of_noBank (s : State) (h : bankExists s.params (Bank.get s.bank s.currentTask) = false) :
    fetchWord (startTick s) = none := by
  unfold fetchWord uFetch
  rw [startTick_frame]
  exact if_neg (Bool.eq_false_iff.mp h)

/-- A step of a running machine, where the configuration lacks the bank (20_memory.md R71). -/
theorem step_of_noBank (s : State) (hs : s.halted = none) (hw : fetchWord (startTick s) = none) :
    step s = .next (noBank (startTick s)) := by
  unfold step
  simp only [hs, fetch, hw, Option.map_none]

theorem allReady_of_memoryWait (u : Micro) (s : State)
    (h : (u.f1 = .loadMar ∧ s.memActive = true)
      ∨ (u.bs = .readMd ∧ s.memActive = true ∧ s.memCycle ≤ s.params.readAfter)
      ∨ (u.f2 = .storeMd ∧ ¬(s.params.system = .altoII ∧ u.f1 = .loadMar) ∧ s.memActive = true
          ∧ s.memCycle ≤ s.params.storeAfter)) : allReady u s = false := by
  unfold allReady
  rcases h with ⟨hf1, hactive⟩ | ⟨hbs, hactive, hcycle⟩ | ⟨hf2, hxmar, hactive, hcycle⟩
  · simp [hf1, readyLoadAddress, hactive]
  · simp [hbs, readyRead, hactive, Nat.not_lt.mpr hcycle]
  · have hx : isXmar s.params u = false := by
      rw [Bool.eq_false_iff]
      intro hx
      simp only [isXmar, Bool.and_eq_true, beq_iff_eq] at hx
      exact hxmar ⟨hx.2, hx.1.1⟩
    simp [hf2, hx, readyStore, hactive, Nat.not_lt.mpr hcycle]

end Sys2Proof.Machine

namespace Sys2Proof

open Sys2Proof.Machine

/-- Settles O5: `step_of_fetchWord` and `step_of_noBank`. -/
theorem stepRunsDecodedInstruction : Obligations.StepRunsDecodedInstruction := by
  intro s hs
  refine ⟨fun w hw => ⟨decode_wellFormed _ w, _, ?_, step_of_fetchWord s w hs hw⟩, fun hbank => ?_⟩
  · rw [exec_eq, decode, rowOf_micro]
  · refine ⟨_, step_of_noBank s hs (fetchWord_startTick_of_noBank s hbank), ⟨_, rfl⟩, ?_⟩
    unfold noBank
    rw [startTick_frame]
    exact ⟨rfl, rfl, rfl, rfl⟩

/-- Settles O6: by induction on the number of ticks. -/
theorem haltedMachineStandsStill : Obligations.HaltedMachineStandsStill := by
  intro s n hs
  induction n with
  | zero => rfl
  | succ n ih =>
    have hstep : Sys2Proof.core.step s = .next s := step_of_halted s hs
    simp only [Host.Core.run, hstep]
    exact ih

/-- Settles O7: none of the three requests is ready, and a cycle that waits only says so. -/
theorem memoryWaitChangesNothing : Obligations.MemoryWaitChangesNothing := by
  intro i s h
  rw [exec_eq, cpuStep_wait i.micro s (allReady_of_memoryWait i.micro s h)]

end Sys2Proof

/-! PROOFS. What a microinstruction leaves alone, on every path of its cycle: it may wait, halt in any phase or run to its end
(40_cycle.md R110 to R131). Each phase changes the fields its frame of Sys2Proof/Laws/Frames.lean names, so a field is followed
through the phases by naming the few that can change it. -/

namespace Sys2Proof.Machine

/-! ## Following a field through the cycle -/

/-- A field that is `v` after the start of execution and that every later phase keeps at `v` is `v` after the cycle, unless the
cycle waits. A phase that is not named keeps the field because its frame does not have it. -/
theorem cpuStep_field {α : Type} (F : State → α) (v : α) (u : Micro) (s : State)
    (hbegin : F (beginMicro u s.currentTask s) = v)
    (hselect : ∀ x, F x = v → F (earlySelect u s.currentTask x) = v := by intro x hx; rw [earlySelect_frame]; exact hx)
    (hbus : ∀ x, F x = v → F (busSource u s.currentTask x) = v := by intro x hx; rw [busSource_frame]; exact hx)
    (hconstant : ∀ x, F x = v → F (maskConstant u x) = v := by intro x hx; rw [maskConstant_frame]; exact hx)
    (hcram : ∀ x, F x = v → F (maskCram x) = v := by intro x hx; rw [maskCram_frame]; exact hx)
    (hearly : ∀ x, F x = v → F (earlyBus u x) = v := by intro x hx; rw [earlyBus_frame]; exact hx)
    (halu : ∀ x, F x = v → F (runAlu u s.currentTask x) = v := by intro x hx; rw [runAlu_frame]; exact hx)
    (hwrite : ∀ x, F x = v → F (deferredCramWrite x) = v := by intro x hx; rw [deferredCramWrite_frame]; exact hx)
    (hf1 : ∀ x, F x = v → F (runF1 u s.currentTask x) = v := by intro x hx; rw [runF1_frame]; exact hx)
    (hf2 : ∀ x, F x = v → F (runF2 u s.currentTask x) = v := by intro x hx; rw [runF2_frame]; exact hx)
    (hshifter : ∀ x, F x = v → F (runShifter u x) = v := by intro x hx; rw [runShifter_frame]; exact hx)
    (hbranch : ∀ x, F x = v → F (shifterBranch u x) = v := by intro x hx; rw [shifterBranch_frame]; exact hx)
    (hr : ∀ x, F x = v → F (writeR x) = v := by intro x hx; rw [writeR_frame]; exact hx)
    (hs : ∀ x, F x = v → F (writeS x) = v := by intro x hx; rw [writeS_frame]; exact hx)
    (ht : ∀ x, F x = v → F (writeT u x) = v := by intro x hx; rw [writeT_frame]; exact hx)
    (hl : ∀ x, F x = v → F (writeL u s.currentTask x) = v := by intro x hx; rw [writeL_frame]; exact hx)
    (hlate : ∀ x, F x = v → F (lateF2 u s.currentTask x) = v := by intro x hx; rw [lateF2_frame]; exact hx)
    (hswitch : ∀ x, F x = v → F (switchBank u s.currentTask x) = v := by intro x hx; rw [switchBank_frame]; exact hx)
    (hblock : ∀ x, F x = v → F (blockHook s.currentTask x) = v := by intro x hx; rw [blockHook_frame]; exact hx)
    (hadvance : ∀ x, F x = v → F (advance u s.currentTask x) = v := by intro x hx; rw [advance_frame]; exact hx)
    (hfinish : ∀ x, F x = v → F (finish s.currentTask x) = v := by intro x hx; rw [finish_frame]; exact hx) :
    F (cpuStep u s) = v ∨ cpuStep u s = { s with completion := .memoryWait } := by
  unfold cpuStep
  split
  · left
    unfold cpuPhases
    rw [runPhases_cons]
    split
    · refine runPhases_keeps (fun x => F x = v) _ ?_ _ hbegin
      simp only [List.forall_mem_cons]
      exact ⟨hselect, hbus, hconstant, hcram, hearly, halu, hwrite, hf1, hf2, hshifter, hbranch, hr, hs, ht, hl, hlate, hswitch,
        hblock, hadvance, hfinish, by simp⟩
    · exact hbegin
  · exact .inr rfl

/-- A field the wait does not have is the same after the cycle too, if `cpuStep_field` says so of a cycle that does not wait. -/
theorem field_of_wait {α : Type} {F : State → α} {s t : State} (h : F t = F s ∨ t = { s with completion := .memoryWait })
    (hwait : F { s with completion := .memoryWait } = F s) : F t = F s := by
  rcases h with h | rfl
  · exact h
  · exact hwait

/-! ## What the functions of a field can do -/

/-- F1 does what a hook can, or it is one of the six functions of the Emulator that write a field no hook reaches. -/
theorem runF1_cases (u : Micro) (k : TaskNum) (s : State) :
    HookFrame s (runF1 u k s)
    ∨ (u.f1 = .swmode ∧ runF1 u k s = f1Swmode s) ∨ (u.f1 = .wrtram ∧ runF1 u k s = f1Wrtram s)
    ∨ (u.f1 = .rdram ∧ runF1 u k s = f1Rdram s) ∨ (u.f1 = .loadRmr ∧ runF1 u k s = f1LoadRmr s)
    ∨ (u.f1 = .loadEsrb ∧ runF1 u k s = f1LoadEsrb s) ∨ (u.f1 = .startf ∧ runF1 u k s = f1Startf s) := by
  unfold runF1
  cases hf : u.f1 with
  | swmode => exact .inr (.inl ⟨rfl, rfl⟩)
  | wrtram => exact .inr (.inr (.inl ⟨rfl, rfl⟩))
  | rdram => exact .inr (.inr (.inr (.inl ⟨rfl, rfl⟩)))
  | loadRmr => exact .inr (.inr (.inr (.inr (.inl ⟨rfl, rfl⟩))))
  | loadEsrb => exact .inr (.inr (.inr (.inr (.inr (.inl ⟨rfl, rfl⟩)))))
  | startf => exact .inr (.inr (.inr (.inr (.inr (.inr ⟨rfl, rfl⟩)))))
  | loadMar => exact .inl (loadMar_frame ..)
  | task =>
    left
    simp only [f1Task]
    split <;> rfl
  | block =>
    left
    simp only [f1Block]
    split <;> rfl
  | none | lLsh1 | lRsh1 | lLcy8 | constant | reserved12 | rsnf => exact .inl rfl
  | taskSpecific8 | taskSpecific9 | taskSpecific10 | taskSpecific11 | taskSpecific12 | taskSpecific13 | taskSpecific14 |
    taskSpecific15 => exact .inl (codeHook_frame ..)

/-- STARTF changes what a soft reset does (70_reset_and_hazards.md R305), and the device log. -/
theorem f1Startf_frame (s : State) :
    f1Startf s = { s with
      scratch := (f1Startf s).scratch, bank := (f1Startf s).bank, rmr := (f1Startf s).rmr, mpc := (f1Startf s).mpc
      currentTask := (f1Startf s).currentTask, nextTask := (f1Startf s).nextTask, wakeup := (f1Startf s).wakeup
      deviceCalls := (f1Startf s).deviceCalls } := by
  unfold f1Startf
  split
  · rfl
  · split <;> rfl

/-- The registers F1 can write are those of LOAD_RMR, LOAD_ESRB and the soft reset of STARTF. -/
theorem runF1_rb (u : Micro) (k : TaskNum) (s : State) (h : u.f1 ≠ .loadEsrb) : (runF1 u k s).rb = s.rb := by
  rcases runF1_cases u k s with e | ⟨-, e⟩ | ⟨-, e⟩ | ⟨-, e⟩ | ⟨-, e⟩ | ⟨hf, -⟩ | ⟨-, e⟩
  case inr.inr.inr.inr.inr.inl => exact absurd hf h
  case inr.inr.inr.inr.inr.inr => rw [e, f1Startf_frame]
  case inl => rw [e]
  all_goals rw [e]; rfl

theorem runF1_rmr (u : Micro) (k : TaskNum) (s : State) (h : u.f1 ≠ .loadRmr) (h' : u.f1 ≠ .startf) :
    (runF1 u k s).rmr = s.rmr := by
  rcases runF1_cases u k s with e | ⟨-, e⟩ | ⟨-, e⟩ | ⟨-, e⟩ | ⟨hf, -⟩ | ⟨-, e⟩ | ⟨hf, -⟩
  case inr.inr.inr.inr.inl => exact absurd hf h
  case inr.inr.inr.inr.inr.inr => exact absurd hf h'
  case inl => rw [e]
  all_goals rw [e]; rfl

/-- The scheduler's state, the micro-program counters and the banks change by a soft reset only. -/
theorem runF1_tasks (u : Micro) (k : TaskNum) (s : State) (h : u.f1 ≠ .startf) :
    (runF1 u k s).currentTask = s.currentTask ∧ (runF1 u k s).nextTask = s.nextTask ∧ (runF1 u k s).mpc = s.mpc
      ∧ (runF1 u k s).bank = s.bank := by
  rcases runF1_cases u k s with e | ⟨-, e⟩ | ⟨-, e⟩ | ⟨-, e⟩ | ⟨-, e⟩ | ⟨-, e⟩ | ⟨hf, -⟩
  case inr.inr.inr.inr.inr.inr => exact absurd hf h
  all_goals rw [e]; exact ⟨rfl, rfl, rfl, rfl⟩

/-- The carried flags F1 can write are the Emulator's. -/
theorem runF1_pending (u : Micro) (k : TaskNum) (s : State) (j : TaskNum) (h : j ≠ 0) :
    Bank.get (runF1 u k s).rdRamPending j = Bank.get s.rdRamPending j
      ∧ Bank.get (runF1 u k s).wrtRamPending j = Bank.get s.wrtRamPending j
      ∧ Bank.get (runF1 u k s).swModePending j = Bank.get s.swModePending j := by
  rcases runF1_cases u k s with e | ⟨-, e⟩ | ⟨-, e⟩ | ⟨-, e⟩ | ⟨-, e⟩ | ⟨-, e⟩ | ⟨-, e⟩
  case inr.inl => rw [e]; exact ⟨rfl, rfl, Bank.get_put_other _ _ _ _ h⟩
  case inr.inr.inl => rw [e]; exact ⟨rfl, Bank.get_put_other _ _ _ _ h, rfl⟩
  case inr.inr.inr.inl => rw [e]; exact ⟨Bank.get_put_other _ _ _ _ h, rfl, rfl⟩
  case inr.inr.inr.inr.inr.inr => rw [e, f1Startf_frame]; exact ⟨rfl, rfl, rfl⟩
  all_goals rw [e]; exact ⟨rfl, rfl, rfl⟩

/-- F2 does what a hook can, or it is LOAD_IR. -/
theorem runF2_hookFrame (u : Micro) (k : TaskNum) (s : State) (h : u.f2 ≠ .loadIr) : HookFrame s (runF2 u k s) := by
  unfold runF2
  cases hf : u.f2 with
  | loadIr => exact absurd hf h
  | storeMd =>
    simp only [f2StoreMd]
    split
    · rfl
    · exact storeMd_frame ..
  | none | busEq0 | shLt0 | shEq0 | bus | alucy | constant | busodd | magic | loadDns | acdest | idisp | acsource |
    reserved15 => rfl
  | taskSpecific8 | taskSpecific9 | taskSpecific10 | taskSpecific11 | taskSpecific12 | taskSpecific13 | taskSpecific14 |
    taskSpecific15 => exact codeHook_frame ..

theorem lateF2_of_loadDns (u : Micro) (k : TaskNum) (s : State) (h : u.f2 = .loadDns) : lateF2 u k s = f2LoadDnsLate s := by
  simp only [lateF2, h]

/-- The late F2 function is LOAD_DNS's, or another task's late hook. -/
theorem lateF2_of_ne_loadDns (u : Micro) (k : TaskNum) (s : State) (h : u.f2 ≠ .loadDns) :
    lateF2 u k s = if k = 0 then s else optionalHook k .f2Late s := by
  unfold lateF2
  split
  · exact absurd ‹u.f2 = .loadDns› h
  · rfl

theorem lateF2_hookFrame (u : Micro) (k : TaskNum) (s : State) (h : u.f2 ≠ .loadDns) : HookFrame s (lateF2 u k s) := by
  rw [lateF2_of_ne_loadDns u k s h]
  split
  · rfl
  · exact optionalHook_frame ..

theorem lateF2_ir (u : Micro) (k : TaskNum) (s : State) : (lateF2 u k s).ir = s.ir := by
  by_cases h : u.f2 = .loadDns
  · rw [lateF2_of_loadDns u k s h]
    rfl
  · rw [lateF2_hookFrame u k s h]

/-- Only the row LOAD_S asks for the S store to be written (46_emulator.md R237). -/
theorem busSource_loadS (u : Micro) (k : TaskNum) (s : State) (h : u.bs ≠ .loadS) :
    (busSource u k s).scratch.loadS = s.scratch.loadS := by
  have hookBus_loadS : ∀ b x, (hookBus b x).scratch.loadS = x.scratch.loadS := by
    intro b x
    cases b with
    | word w => rfl
    | readMd =>
      simp only [hookBus]
      split
      · exact congrArg (fun y => y.scratch.loadS) (readMd_ok_frame x _ _ ‹_›)
      · exact congrArg (fun y => y.scratch.loadS) (readMd_error_frame x _ ‹_›)
  have busHook_loadS : ∀ p, (busHook k p s).scratch.loadS = s.scratch.loadS := by
    intro p
    unfold busHook
    split
    · rfl
    · refine runPhases_keeps (fun x => x.scratch.loadS = s.scratch.loadS) _ ?_ s rfl
      simp only [List.forall_mem_cons]
      refine ⟨fun x hx => ?_, fun x hx => (hookBus_loadS _ x).trans hx, by simp⟩
      rw [hookActions_frame]
      exact hx
  unfold busSource
  cases hb : u.bs with
  | loadS => exact absurd hb h
  | readMd =>
    simp only [bsReadMd]
    split
    · exact congrArg (fun y => y.scratch.loadS) (readMd_ok_frame s _ _ ‹_›)
    · exact congrArg (fun y => y.scratch.loadS) (readMd_error_frame s _ ‹_›)
  | taskSpecific1 | taskSpecific2 => exact busHook_loadS _
  | readR | loadR | none | readMouse | readDisp | readS => rfl

end Sys2Proof.Machine

/-! PROOFS. The microinstruction seen as its phases before F1, F1, F2 and the phases after, for what one of them changes and the
others keep, and for tasks whose hooks are restricted to some actions. -/

namespace Sys2Proof.Machine

/-! ## The phases in four parts -/

/-- Steps 4b to 6, from the bus source to the deferred control-RAM write. -/
def phasesToF1 (u : Micro) (k : TaskNum) : List (State → State) :=
  [busSource u k, maskConstant u, maskCram, earlyBus u, runAlu u k, deferredCramWrite]

/-- Steps 9 to 16. -/
def phasesAfterF2 (u : Micro) (k : TaskNum) : List (State → State) :=
  [runShifter u, shifterBranch u, writeR, writeS, writeT u, writeL u k, lateF2 u k, switchBank u k, blockHook k, advance u k,
    finish k]

theorem cpuPhases_eq (u : Micro) (k : TaskNum) :
    cpuPhases u k = beginMicro u k :: earlySelect u k :: (phasesToF1 u k ++ runF1 u k :: runF2 u k :: phasesAfterF2 u k) := rfl

/-- A run through a phase `f` that turns `P`, which the phases before it keep, into `Q`, which those after it keep. -/
theorem runPhases_through (P Q R : State → Prop) (fs gs : List (State → State)) (f : State → State)
    (hfs : ∀ g ∈ fs, ∀ x, P x → P (g x)) (hf : ∀ x, P x → Q (f x)) (hgs : ∀ g ∈ gs, ∀ x, Q x → Q (g x))
    (hPR : ∀ x, P x → R x) (hQR : ∀ x, Q x → R x) (s : State) (h : P s) : R (runPhases (fs ++ f :: gs) s) := by
  induction fs generalizing s with
  | nil =>
    rw [List.nil_append, runPhases_cons]
    split
    · exact hQR _ (runPhases_keeps Q gs hgs _ (hf s h))
    · exact hQR _ (hf s h)
  | cons g fs ih =>
    rw [List.forall_mem_cons] at hfs
    rw [List.cons_append, runPhases_cons]
    split
    · exact ih hfs.2 _ (hfs.1 s h)
    · exact hPR _ (hfs.1 s h)

/-- A cycle through a phase `f`, on every path. -/
theorem cpuStep_through (P Q R : State → Prop) (u : Micro) (s : State) (fs gs : List (State → State)) (f : State → State)
    (hphases : cpuPhases u s.currentTask = beginMicro u s.currentTask :: (fs ++ f :: gs))
    (hwait : R { s with completion := .memoryWait }) (hbegin : allReady u s = true → P (beginMicro u s.currentTask s))
    (hfs : ∀ g ∈ fs, ∀ x, P x → P (g x)) (hf : ∀ x, P x → Q (f x)) (hgs : ∀ g ∈ gs, ∀ x, Q x → Q (g x))
    (hPR : ∀ x, P x → R x) (hQR : ∀ x, Q x → R x) : R (cpuStep u s) := by
  unfold cpuStep
  split
  · rename_i hr
    rw [hphases, runPhases_cons]
    split
    · exact runPhases_through P Q R fs gs f hfs hf hgs hPR hQR _ (hbegin hr)
    · exact hPR _ (hbegin hr)
  · exact hwait

/-! ## What most phases leave alone -/

/-- `t` is `s` but for what the phases change that touch neither the memory bus, nor the parameters, nor R and the request to
write it. -/
def QuietFrame (s t : State) : Prop :=
  t = { t with
    scratch := { t.scratch with loadR := s.scratch.loadR, rSelect := s.scratch.rSelect }, r := s.r
    memActive := s.memActive, memCycle := s.memCycle, memAddr := s.memAddr, memTask := s.memTask, memXM := s.memXM
    dwStore := s.dwStore, dwMixed := s.dwMixed, memRd5 := s.memRd5, main := s.main, xmBanks := s.xmBanks, params := s.params }

/-- `t` is `s` but for what a function of the memory bus changes, and the word on the bus. -/
def MemFrame (s t : State) : Prop :=
  t = { s with
    scratch := { s.scratch with busData := t.scratch.busData }
    memActive := t.memActive, memCycle := t.memCycle, memAddr := t.memAddr, memTask := t.memTask, memXM := t.memXM
    dwStore := t.dwStore, dwMixed := t.dwMixed, memRd5 := t.memRd5, main := t.main, xmBanks := t.xmBanks
    deviceCalls := t.deviceCalls, halted := t.halted }

theorem loadMar_memFrame (a : Word) (k : TaskNum) (xm : Bool) (s : State) : MemFrame s (loadMar a k xm s) := by
  unfold loadMar
  split <;> rfl

/-- A store changes the word it is made to, the two store flags, the device log or the halt record. -/
theorem storeMd_eq (v : Word) (s : State) :
    storeMd v s = { s with
      main := (storeMd v s).main, xmBanks := (storeMd v s).xmBanks, deviceCalls := (storeMd v s).deviceCalls
      dwStore := (storeMd v s).dwStore, dwMixed := (storeMd v s).dwMixed, halted := (storeMd v s).halted } := by
  unfold storeMd
  split
  · rfl
  · split
    · rfl
    · rw [memWrite_eq]

theorem storeMd_memFrame (v : Word) (s : State) : MemFrame s (storeMd v s) := by
  unfold MemFrame
  rw [storeMd_eq]

/-- A read of MD marks itself in cycle 5, or halts. -/
theorem readMd_ok_eq (s t : State) (w : Word) (h : readMd s = .ok (w, t)) : t = { s with memRd5 := t.memRd5 } := by
  unfold readMd at h
  split at h
  · cases h
  · split at h
    · cases h
      rfl
    · split at h
      · split at h <;> cases h
        rfl
      · cases h
        rfl

theorem readMd_error_eq (s t : State) (h : readMd s = .error t) : t = { s with halted := t.halted } := by
  unfold readMd at h
  split at h
  · cases h
    rfl
  · split at h
    · cases h
    · split at h
      · split at h <;> cases h
        rfl
      · cases h

/-- READ_MD puts a word on the bus and changes what a read of MD changes. -/
theorem bsReadMd_eq (s : State) :
    bsReadMd s = { s with
      scratch := { s.scratch with busData := (bsReadMd s).scratch.busData }, memRd5 := (bsReadMd s).memRd5
      halted := (bsReadMd s).halted } := by
  unfold bsReadMd
  split
  · rename_i w t h
    rw [readMd_ok_eq s t w h]
    rfl
  · rename_i t h
    rw [readMd_error_eq s t h]

/-! ## Hooks restricted to some actions -/

/-- A property of states that the phases keep which are quiet, and the hooks of the task that executes in `s` where these are
restricted to the actions `ok`. -/
structure Steady (ok : HookAction → Bool) (s : State) (P : State → Prop) : Prop where
  hooks : hooksOnly ok s.currentTask s = true
  params : ∀ x, P x → x.params = s.params
  action : ∀ p a x, ok a = true → P x → P (hookAction s.currentTask p a x)
  quiet : ∀ x y, QuietFrame x y → P x → P y

namespace Steady

variable {ok : HookAction → Bool} {s : State} {P : State → Prop} (st : Steady ok s P)
include st

theorem optionalHook (p : HookPoint) (x : State) (hx : P x) : P (optionalHook s.currentTask p x) :=
  optionalHook_keeps P ok s.currentTask p s x st.hooks (fun a ha y hy => st.action p a y ha hy) (st.params x hx) hx

theorem codeHook (p : HookPoint) (f : Fault) (x : State) (hx : P x) : P (codeHook s.currentTask p f x) :=
  codeHook_keeps P ok s.currentTask p f s x st.hooks (fun a ha y hy => st.action p a y ha hy) (st.params x hx) hx
    fun _ _ y hy => st.quiet y _ rfl hy

theorem busHook (p : HookPoint) (x : State) (hx : P x) : P (busHook s.currentTask p x) :=
  busHook_keeps P ok s.currentTask p s x st.hooks (fun a ha y hy => st.action p a y ha hy) (st.params x hx) hx
    (fun _ _ y hy => st.quiet y _ rfl hy) fun y _ hy => st.quiet y _ rfl hy

/-- The early hooks, where no F2 function of the Emulator selects the register. -/
theorem earlySelect (u : Micro) (hacdest : u.f2 = .acdest → ∀ x, P x → P (f2AcdestEarly x))
    (hacsource : u.f2 = .acsource → ∀ x, P x → P (f2AcsourceEarly x))
    (hdns : u.f2 = .loadDns → ∀ x, P x → P (f2LoadDnsEarly x)) (x : State) (hx : P x) :
    P (earlySelect u s.currentTask x) := by
  unfold Machine.earlySelect
  split
  · exact hacdest ‹_› x hx
  · exact hacsource ‹_› x hx
  · exact hdns ‹_› x hx
  · split
    · exact hx
    · refine runPhases_keeps P _ ?_ x hx
      simp only [List.forall_mem_cons]
      exact ⟨st.optionalHook .f1Early, st.optionalHook .f2Early, by simp⟩

theorem busSource (u : Micro) (hloadR : u.bs = .loadR → ∀ x, P x → P (bsLoadR x))
    (hreadMd : u.bs = .readMd → ∀ x, P x → P (bsReadMd x)) (x : State) (hx : P x) : P (busSource u s.currentTask x) := by
  unfold Machine.busSource
  cases hb : u.bs with
  | loadR => exact hloadR hb x hx
  | readMd => exact hreadMd hb x hx
  | taskSpecific1 => exact st.busHook .bs3 x hx
  | taskSpecific2 => exact st.busHook .bs4 x hx
  | readR | none | readMouse | readDisp | readS | loadS => exact st.quiet x _ rfl hx

theorem toF1 (u : Micro) (hbus : ∀ x, P x → P (Machine.busSource u s.currentTask x)) :
    ∀ f ∈ phasesToF1 u s.currentTask, ∀ x, P x → P (f x) := by
  simp only [phasesToF1, List.forall_mem_cons]
  refine ⟨hbus, fun x => st.quiet x _ ?_, fun x => st.quiet x _ ?_, fun x => st.quiet x _ ?_, fun x => st.quiet x _ ?_,
    fun x => st.quiet x _ ?_, by simp⟩
  · rw [maskConstant_frame]; rfl
  · rw [maskCram_frame]; rfl
  · rw [earlyBus_frame]; rfl
  · rw [runAlu_frame]; rfl
  · rw [deferredCramWrite_frame]; rfl

theorem runF1 (u : Micro) (hmar : u.f1 = .loadMar → ∀ x, P x → P (f1LoadMar u s.currentTask x)) (x : State) (hx : P x) :
    P (runF1 u s.currentTask x) := by
  unfold Machine.runF1
  cases hf : u.f1 with
  | loadMar => exact hmar hf x hx
  | task =>
    refine st.quiet x _ ?_ hx
    simp only [f1Task]
    split <;> rfl
  | block =>
    refine st.quiet x _ ?_ hx
    simp only [f1Block]
    split <;> rfl
  | startf =>
    refine st.quiet x _ ?_ hx
    simp only [f1Startf]
    split
    · rfl
    · split <;> rfl
  | none | lLsh1 | lRsh1 | lLcy8 | constant | swmode | wrtram | rdram | loadRmr | reserved12 | loadEsrb | rsnf =>
    exact st.quiet x _ rfl hx
  | taskSpecific8 | taskSpecific9 | taskSpecific10 | taskSpecific11 | taskSpecific12 | taskSpecific13 | taskSpecific14 |
    taskSpecific15 => exact st.codeHook _ .f1 x hx

theorem runF2 (u : Micro) (hstore : u.f2 = .storeMd → ∀ x, P x → P (f2StoreMd u x)) (x : State) (hx : P x) :
    P (runF2 u s.currentTask x) := by
  unfold Machine.runF2
  cases hf : u.f2 with
  | storeMd => exact hstore hf x hx
  | none | busEq0 | shLt0 | shEq0 | bus | alucy | constant | busodd | magic | loadDns | acdest | loadIr | idisp | acsource |
    reserved15 => exact st.quiet x _ rfl hx
  | taskSpecific8 | taskSpecific9 | taskSpecific10 | taskSpecific11 | taskSpecific12 | taskSpecific13 | taskSpecific14 |
    taskSpecific15 => exact st.codeHook _ .f2 x hx

theorem lateF2 (u : Micro) (x : State) (hx : P x) : P (lateF2 u s.currentTask x) := by
  by_cases h : u.f2 = .loadDns
  · rw [lateF2_of_loadDns u _ x h]
    exact st.quiet x _ rfl hx
  · rw [lateF2_of_ne_loadDns u _ x h]
    split
    · exact hx
    · exact st.optionalHook .f2Late x hx

theorem blockHook (x : State) (hx : P x) : P (blockHook s.currentTask x) := by
  unfold Machine.blockHook
  split
  · exact st.optionalHook .block x hx
  · exact hx

theorem afterF2 (u : Micro) (hr : ∀ x, P x → P (writeR x)) :
    ∀ f ∈ phasesAfterF2 u s.currentTask, ∀ x, P x → P (f x) := by
  simp only [phasesAfterF2, List.forall_mem_cons]
  refine ⟨fun x => st.quiet x _ ?_, fun x => st.quiet x _ ?_, hr, fun x => st.quiet x _ ?_, fun x => st.quiet x _ ?_,
    fun x => st.quiet x _ ?_, st.lateF2 u, fun x => st.quiet x _ ?_, st.blockHook, fun x => st.quiet x _ ?_,
    fun x => st.quiet x _ ?_, by simp⟩
  · rw [runShifter_frame]; rfl
  · rw [shifterBranch_frame]; rfl
  · rw [writeS_frame]; rfl
  · rw [writeT_frame]; rfl
  · rw [writeL_frame]; rfl
  · rw [switchBank_frame]; rfl
  · rw [advance_frame]; rfl
  · rw [finish_frame]; rfl

end Steady

/-- A harmless action leaves R and the request to write it alone. -/
theorem hookAction_harmless_quiet (k : TaskNum) (p : HookPoint) (a : HookAction) (x : State) (ha : harmlessAction a = true) :
    QuietFrame x (hookAction k p a x) := by
  cases a with
  | orNextModifier m =>
    simp only [hookAction]
    split <;> rfl
  | device d => rfl
  | setLoadR | setRSelect | setAlu | setSh | setTaskFired | setBlockFired | setShift | loadMar | storeMd | readMd | wakeupTask |
    blockTask => exact absurd ha (by simp [harmlessAction])

end Sys2Proof.Machine

/-! PROOFS. The frames of the registers (40_cycle.md R122 to R127), of the microcode stores (20_memory.md R76) and of the tasks'
own state (60_exceptions.md R276 to R281), on every path of every row. -/

namespace Sys2Proof.Machine

/-! ## T, L, M and the carry latch -/

theorem writeT_of_noLoad (u : Micro) (x : State) (h : u.loadT = false) : writeT u x = x := by
  simp [writeT, h]

theorem writeL_of_noLoad (u : Micro) (k : TaskNum) (x : State) (h : u.loadL = false) : writeL u k x = x := by
  simp [writeL, h]

/-- M is the Emulator's (R125). -/
theorem writeL_m (u : Micro) (k : TaskNum) (x : State) (h : k ≠ 0) : (writeL u k x).m = x.m := by
  unfold writeL
  split <;> rfl

theorem cpuStep_noLoadT (u : Micro) (s : State) (h : u.loadT = false) :
    (cpuStep u s).t = s.t ∧ (cpuStep u s).cramAddr = s.cramAddr :=
  ⟨field_of_wait (cpuStep_field State.t s.t u s rfl (ht := fun x hx => by rw [writeT_of_noLoad u x h, hx])) rfl,
    field_of_wait (cpuStep_field State.cramAddr s.cramAddr u s rfl
      (ht := fun x hx => by rw [writeT_of_noLoad u x h, hx])) rfl⟩

theorem cpuStep_noLoadL (u : Micro) (s : State) (h : u.loadL = false) :
    (cpuStep u s).l = s.l ∧ (cpuStep u s).m = s.m ∧ (cpuStep u s).aluC0 = s.aluC0 :=
  ⟨field_of_wait (cpuStep_field State.l s.l u s rfl (hl := fun x hx => by rw [writeL_of_noLoad u _ x h, hx])) rfl,
    field_of_wait (cpuStep_field State.m s.m u s rfl (hl := fun x hx => by rw [writeL_of_noLoad u _ x h, hx])) rfl,
    field_of_wait (cpuStep_field State.aluC0 s.aluC0 u s rfl
      (hl := fun x hx => by rw [writeL_of_noLoad u _ x h, hx])) rfl⟩

theorem cpuStep_m_of_task (u : Micro) (s : State) (h : s.currentTask ≠ 0) : (cpuStep u s).m = s.m :=
  field_of_wait (cpuStep_field State.m s.m u s rfl (hl := fun x hx => by rw [writeL_m u _ x h, hx])) rfl

/-! ## IR, the flip-flops, `rb` and `rmr` -/

theorem cpuStep_ir_of_ne (u : Micro) (s : State) (h : u.f2 ≠ .loadIr) : (cpuStep u s).ir = s.ir :=
  field_of_wait (cpuStep_field State.ir s.ir u s rfl (hf2 := fun x hx => by rw [runF2_hookFrame u _ x h]; exact hx)
    (hlate := fun x hx => by rw [lateF2_ir, hx])) rfl

theorem cpuStep_skip_of_ne (u : Micro) (s : State) (h : u.f2 ≠ .loadIr) (h' : u.f2 ≠ .loadDns) : (cpuStep u s).skip = s.skip :=
  field_of_wait (cpuStep_field State.skip s.skip u s rfl (hf2 := fun x hx => by rw [runF2_hookFrame u _ x h]; exact hx)
    (hlate := fun x hx => by rw [lateF2_hookFrame u _ x h']; exact hx)) rfl

theorem cpuStep_novaCarry_of_ne (u : Micro) (s : State) (h : u.f2 ≠ .loadDns) : (cpuStep u s).novaCarry = s.novaCarry :=
  field_of_wait (cpuStep_field State.novaCarry s.novaCarry u s rfl (hf2 := fun x hx => by rw [runF2_novaCarry, hx])
    (hlate := fun x hx => by rw [lateF2_hookFrame u _ x h]; exact hx)) rfl

theorem cpuStep_rb_of_ne (u : Micro) (s : State) (h : u.f1 ≠ .loadEsrb) : (cpuStep u s).rb = s.rb :=
  field_of_wait (cpuStep_field State.rb s.rb u s rfl (hf1 := fun x hx => by rw [runF1_rb u _ x h, hx])) rfl

theorem cpuStep_rmr_of_ne (u : Micro) (s : State) (h : u.f1 ≠ .loadRmr) (h' : u.f1 ≠ .startf) : (cpuStep u s).rmr = s.rmr :=
  field_of_wait (cpuStep_field State.rmr s.rmr u s rfl (hf1 := fun x hx => by rw [runF1_rmr u _ x h h', hx])) rfl

/-! ## The S store -/

/-- Without LOAD_S nothing asks for a write of the S store. -/
theorem cpuStep_sStore_of_ne (u : Micro) (s : State) (h : u.bs ≠ .loadS) : (cpuStep u s).sStore = s.sStore := by
  have hkept := cpuStep_field (fun x => (x.sStore, x.scratch.loadS)) (s.sStore, false) u s rfl
    (hbus := fun x hx => by rw [busSource_loadS u _ x h, busSource_frame]; exact hx)
    (hs := fun x hx => by
      obtain ⟨hstore, hload⟩ := Prod.mk.inj hx
      simp only [writeS, hload, Bool.false_eq_true, if_false, hstore])
  refine field_of_wait (F := State.sStore) (hkept.imp_left fun e => ?_) rfl
  exact (Prod.mk.inj e).1

/-- LOAD_S writes the cell its S register has in the bank of `rb`, which is settled when step 11 comes (46_emulator.md R237). -/
theorem cpuStep_sStore_other (u : Micro) (s : State) (c : Fin 256) (h : c ≠ ((cpuStep u s).rb ++ u.rselect).toFin) :
    Bank.get (cpuStep u s).sStore c = Bank.get s.sStore c := by
  refine cpuStep_through (fun x => (x.sStore, x.scratch.srSelect) = (s.sStore, u.rselect))
    (fun x => c ≠ (x.rb ++ u.rselect).toFin → Bank.get x.sStore c = Bank.get s.sStore c)
    (fun x => c ≠ (x.rb ++ u.rselect).toFin → Bank.get x.sStore c = Bank.get s.sStore c) u s
    (earlySelect u s.currentTask :: (phasesToF1 u s.currentTask
      ++ [runF1 u s.currentTask, runF2 u s.currentTask, runShifter u, shifterBranch u, writeR]))
    [writeT u, writeL u s.currentTask, lateF2 u s.currentTask, switchBank u s.currentTask, blockHook s.currentTask,
      advance u s.currentTask, finish s.currentTask] writeS rfl (fun _ => rfl) (fun _ => rfl) ?_ ?_ ?_ ?_ (fun _ => id) h
  · simp only [phasesToF1, List.cons_append, List.nil_append, List.forall_mem_cons]
    refine ⟨fun x hx => ?_, fun x hx => ?_, fun x hx => ?_, fun x hx => ?_, fun x hx => ?_, fun x hx => ?_, fun x hx => ?_,
      fun x hx => ?_, fun x hx => ?_, fun x hx => ?_, fun x hx => ?_, fun x hx => ?_, by simp⟩
    · rw [earlySelect_frame]; exact hx
    · rw [busSource_frame]; exact hx
    · rw [maskConstant_frame]; exact hx
    · rw [maskCram_frame]; exact hx
    · rw [earlyBus_frame]; exact hx
    · rw [runAlu_frame]; exact hx
    · rw [deferredCramWrite_frame]; exact hx
    · rw [runF1_frame]; exact hx
    · rw [runF2_frame]; exact hx
    · rw [runShifter_frame]; exact hx
    · rw [shifterBranch_frame]; exact hx
    · rw [writeR_frame]; exact hx
  · intro x hx hc
    obtain ⟨hstore, hsel⟩ := Prod.mk.inj hx
    unfold writeS at hc ⊢
    split at hc
    · rename_i hload
      rw [if_pos hload, ← hstore]
      refine Bank.get_put_other _ _ _ _ ?_
      rw [hsel]
      exact hc
    · rename_i hload
      rw [if_neg hload, hstore]
  · simp only [List.forall_mem_cons]
    refine ⟨fun x hx => ?_, fun x hx => ?_, fun x hx => ?_, fun x hx => ?_, fun x hx => ?_, fun x hx => ?_, fun x hx => ?_,
      by simp⟩
    · rw [writeT_frame]; exact hx
    · rw [writeL_frame]; exact hx
    · rw [lateF2_frame]; exact hx
    · rw [switchBank_frame]; exact hx
    · rw [blockHook_frame]; exact hx
    · rw [advance_frame]; exact hx
    · rw [finish_frame]; exact hx
  · intro x hx _
    rw [(Prod.mk.inj hx).1]

/-! ## R -/

/-- R is written, if at all, where the microinstruction selects, and only if it loads R; and the request says so. -/
structure LoadsSelectedR (u : Micro) (s x : State) : Prop where
  params : x.params = s.params
  request : x.scratch.loadR = true → loadsR u s = true
  selected : x.scratch.rSelect = selectedR u s
  unloaded : loadsR u s = false → x.r = s.r
  others : ∀ c : Fin 32, c ≠ (selectedR u s).toFin → Bank.get x.r c = Bank.get s.r c

theorem LoadsSelectedR.of_quiet {u : Micro} {s x y : State} (h : LoadsSelectedR u s x) (e : QuietFrame x y) :
    LoadsSelectedR u s y := by
  constructor <;> rw [e]
  exacts [h.params, h.request, h.selected, h.unloaded, h.others]

theorem LoadsSelectedR.of_mem {u : Micro} {s x y : State} (h : LoadsSelectedR u s x) (e : MemFrame x y) :
    LoadsSelectedR u s y := by
  constructor <;> rw [e]
  exacts [h.params, h.request, h.selected, h.unloaded, h.others]

theorem LoadsSelectedR.writeR {u : Micro} {s x : State} (h : LoadsSelectedR u s x) : LoadsSelectedR u s (writeR x) := by
  unfold Machine.writeR
  split
  · rename_i hload
    refine ⟨h.params, h.request, h.selected, fun hn => absurd (h.request hload) (by simp [hn]), fun c hc => ?_⟩
    rw [← h.selected] at hc
    exact (Bank.get_put_other _ _ _ _ hc).trans (h.others c (h.selected ▸ hc))
  · exact h

theorem loadsSelectedR_steady (u : Micro) (s : State) (h : hooksOnly harmlessAction s.currentTask s = true) :
    Steady harmlessAction s (LoadsSelectedR u s) where
  hooks := h
  params := fun _ hx => hx.params
  action := fun p a x ha hx => hx.of_quiet (hookAction_harmless_quiet s.currentTask p a x ha)
  quiet := fun _ _ e hx => hx.of_quiet e

/-- Step 4a selects the register, and LOAD_DNS asks for its write (46_emulator.md R254 to R256). -/
theorem loadsSelectedR_earlySelect (u : Micro) (s : State) (h : hooksOnly harmlessAction s.currentTask s = true) :
    LoadsSelectedR u s (earlySelect u s.currentTask (beginMicro u s.currentTask s)) := by
  by_cases hearly : u.f2 = .acdest ∨ u.f2 = .acsource ∨ u.f2 = .loadDns
  · rcases hearly with hf | hf | hf
    · have hsel : selectedR u s = accumulatorSelect u.rselect (destField s.ir) := by simp [selectedR, hf]
      simp only [earlySelect, hf]
      exact ⟨rfl, nofun, hsel.symm, fun _ => rfl, fun _ _ => rfl⟩
    · have hsel : selectedR u s = accumulatorSelect u.rselect (sourceField s.ir) := by simp [selectedR, hf]
      simp only [earlySelect, hf]
      exact ⟨rfl, nofun, hsel.symm, fun _ => rfl, fun _ _ => rfl⟩
    · have hsel : selectedR u s = (dnsEarly (beginMicro u s.currentTask s)).1 := by simp [selectedR, hf]
      have hload : (dnsEarly (beginMicro u s.currentTask s)).2.1 = true → loadsR u s = true := by
        intro e
        simp [loadsR, hf, e]
      simp only [earlySelect, hf]
      exact ⟨rfl, hload, hsel.symm, fun _ => rfl, fun _ _ => rfl⟩
  · simp only [not_or] at hearly
    obtain ⟨hacdest, hacsource, hdns⟩ := hearly
    have hsel : selectedR u s = u.rselect := by
      unfold selectedR
      split <;> simp_all
    exact (loadsSelectedR_steady u s h).earlySelect u (absurd · hacdest) (absurd · hacsource) (absurd · hdns) _
      ⟨rfl, nofun, hsel.symm, fun _ => rfl, fun _ _ => rfl⟩

/-- R on every path of a task with harmless hooks (40_cycle.md R122). -/
theorem cpuStep_r_frame (u : Micro) (s : State) (h : hooksOnly harmlessAction s.currentTask s = true) :
    (loadsR u s = false → (cpuStep u s).r = s.r)
    ∧ ∀ c : Fin 32, c ≠ (selectedR u s).toFin → Bank.get (cpuStep u s).r c = Bank.get s.r c := by
  have st := loadsSelectedR_steady u s h
  have hbus := st.busSource u
    (fun hb x hx => ⟨hx.params, fun _ => by simp [loadsR, hb], hx.selected, hx.unloaded, hx.others⟩)
    (fun _ x hx => hx.of_mem (by unfold MemFrame; rw [bsReadMd_eq]))
  refine cpuStep_through (fun x => x = beginMicro u s.currentTask s) (LoadsSelectedR u s)
    (fun x => (loadsR u s = false → x.r = s.r) ∧ ∀ c : Fin 32, c ≠ (selectedR u s).toFin → Bank.get x.r c = Bank.get s.r c)
    u s [] (phasesToF1 u s.currentTask ++ runF1 u s.currentTask :: runF2 u s.currentTask :: phasesAfterF2 u s.currentTask)
    (earlySelect u s.currentTask) (cpuPhases_eq u s.currentTask) ⟨fun _ => rfl, fun _ _ => rfl⟩ (fun _ => rfl) (by simp) ?_ ?_
    ?_ ?_
  · rintro x rfl
    exact loadsSelectedR_earlySelect u s h
  · simp only [List.forall_mem_append, List.forall_mem_cons]
    exact ⟨st.toF1 u hbus, st.runF1 u fun _ x hx => hx.of_mem (loadMar_memFrame ..),
      st.runF2 u fun _ x hx => by
        unfold f2StoreMd
        split
        · exact hx
        · exact hx.of_mem (storeMd_memFrame ..),
      st.afterF2 u fun _ hx => hx.writeR⟩
  · rintro x rfl
    exact ⟨fun _ => rfl, fun _ _ => rfl⟩
  · exact fun x hx => ⟨hx.unloaded, hx.others⟩

end Sys2Proof.Machine

namespace Sys2Proof.Machine

/-! ## The microcode stores and the parameters -/

theorem cpuStep_params (u : Micro) (s : State) : (cpuStep u s).params = s.params :=
  field_of_wait (cpuStep_field State.params s.params u s rfl) rfl

theorem cpuStep_urom (u : Micro) (s : State) : (cpuStep u s).urom = s.urom :=
  field_of_wait (cpuStep_field State.urom s.urom u s rfl) rfl

/-- Step 6 leaves the control RAM as it is, or writes the word at its address (20_memory.md R76). -/
theorem deferredCramWrite_uram (x : State) :
    (deferredCramWrite x).uram = x.uram
    ∨ (x.scratch.wrtRam = true ∧ x.cramAddr.getLsbD 11 = false ∧ cramBankOf x.cramAddr < x.params.ramBanks
      ∧ ∃ w, (deferredCramWrite x).uram
        = x.uram.writeMicro (microIndex (cramBankOf x.cramAddr) (x.cramAddr.extractLsb' 0 10)) w) := by
  unfold deferredCramWrite cramWrite
  split
  · rename_i hdue
    split
    · exact .inl rfl
    · rename_i hram
      split
      · exact .inl rfl
      · rename_i hbank
        exact .inr ⟨hdue, by simpa using hram, by omega, _, rfl⟩
  · exact .inl rfl

/-- The control RAM differs from that of `s` in the word a due WRTRAM writes, if one is due, and nowhere else. -/
def CramFrame (s x : State) : Prop :=
  (cramWord s = none → x.uram = s.uram)
  ∧ ∀ p, cramWord s = some p → ∀ a : Nat, a / 4 ≠ p → x.uram.readByte a = s.uram.readByte a

theorem CramFrame.of_eq {s x : State} (h : x.uram = s.uram) : CramFrame s x :=
  ⟨fun _ => h, fun _ _ _ _ => by rw [h]⟩

theorem CramFrame.congr {s x y : State} (h : CramFrame s x) (e : y.uram = x.uram) : CramFrame s y := by
  unfold CramFrame
  rw [e]
  exact h

theorem CramFrame.deferredCramWrite {s x : State} (huram : x.uram = s.uram) (haddr : x.cramAddr = s.cramAddr)
    (hparams : x.params = s.params) (hdue : x.scratch.wrtRam = Bank.get s.wrtRamPending s.currentTask) :
    CramFrame s (deferredCramWrite x) := by
  rcases deferredCramWrite_uram x with e | ⟨hwrt, hram, hbank, w, e⟩
  · exact .of_eq (e.trans huram)
  · rw [haddr, hparams] at hbank
    rw [haddr] at hram e
    have hword : cramWord s = some (microIndex (cramBankOf s.cramAddr) (s.cramAddr.extractLsb' 0 10)) :=
      if_pos ⟨hdue.symm.trans hwrt, hram, hbank⟩
    refine ⟨fun hn => ?_, fun p hp a ha => ?_⟩
    · rw [hword] at hn
      cases hn
    · obtain rfl := Option.some.inj (hword.symm.trans hp)
      rw [e, huram]
      exact Memory.readByte_writeMicro_other _ _ _ _ ha

theorem cpuStep_cramFrame (u : Micro) (s : State) : CramFrame s (cpuStep u s) := by
  refine cpuStep_through
    (fun x => (x.uram, x.cramAddr, x.params, x.scratch.wrtRam)
      = (s.uram, s.cramAddr, s.params, Bank.get s.wrtRamPending s.currentTask))
    (CramFrame s) (CramFrame s) u s
    [earlySelect u s.currentTask, busSource u s.currentTask, maskConstant u, maskCram, earlyBus u, runAlu u s.currentTask]
    (runF1 u s.currentTask :: runF2 u s.currentTask :: phasesAfterF2 u s.currentTask) deferredCramWrite rfl (.of_eq rfl)
    (fun _ => rfl) ?_ ?_ ?_ ?_ (fun _ => id)
  · simp only [List.forall_mem_cons]
    refine ⟨fun x hx => ?_, fun x hx => ?_, fun x hx => ?_, fun x hx => ?_, fun x hx => ?_, fun x hx => ?_, by simp⟩
    · rw [earlySelect_frame]; exact hx
    · rw [busSource_frame]; exact hx
    · rw [maskConstant_frame]; exact hx
    · rw [maskCram_frame]; exact hx
    · rw [earlyBus_frame]; exact hx
    · rw [runAlu_frame]; exact hx
  · intro x hx
    simp only [Prod.mk.injEq] at hx
    obtain ⟨huram, haddr, hparams, hdue⟩ := hx
    exact .deferredCramWrite huram haddr hparams hdue
  · simp only [phasesAfterF2, List.forall_mem_cons]
    refine ⟨fun x hx => hx.congr ?_, fun x hx => hx.congr ?_, fun x hx => hx.congr ?_, fun x hx => hx.congr ?_,
      fun x hx => hx.congr ?_, fun x hx => hx.congr ?_, fun x hx => hx.congr ?_, fun x hx => hx.congr ?_,
      fun x hx => hx.congr ?_, fun x hx => hx.congr ?_, fun x hx => hx.congr ?_, fun x hx => hx.congr ?_,
      fun x hx => hx.congr ?_, by simp⟩
    · rw [runF1_frame]
    · rw [runF2_frame]
    · rw [runShifter_frame]
    · rw [shifterBranch_frame]
    · rw [writeR_frame]
    · rw [writeS_frame]
    · rw [writeT_frame]
    · rw [writeL_frame]
    · rw [lateF2_frame]
    · rw [switchBank_frame]
    · rw [blockHook_frame]
    · rw [advance_frame]
    · rw [finish_frame]
  · intro x hx
    exact .of_eq (Prod.mk.inj hx).1

/-! ## The scheduler's state, the micro-program counters and the banks -/

theorem cpuStep_currentTask (u : Micro) (s : State) (h : u.f1 ≠ .startf) : (cpuStep u s).currentTask = s.currentTask :=
  field_of_wait (cpuStep_field State.currentTask s.currentTask u s rfl
    (hf1 := fun x hx => (runF1_tasks u _ x h).1.trans hx)) rfl

theorem cpuStep_nextTask (u : Micro) (s : State) (h : u.f1 ≠ .startf) : (cpuStep u s).nextTask = s.nextTask :=
  field_of_wait (cpuStep_field State.nextTask s.nextTask u s rfl
    (hf1 := fun x hx => (runF1_tasks u _ x h).2.1.trans hx)) rfl

theorem advance_mpc_other (u : Micro) (k j : TaskNum) (x : State) (h : j ≠ k) :
    Bank.get (advance u k x).mpc j = Bank.get x.mpc j := by
  unfold advance
  split
  · rfl
  · exact Bank.get_put_other _ _ _ _ h

theorem switchBank_bank_other (u : Micro) (k j : TaskNum) (x : State) (h : j ≠ k) :
    Bank.get (switchBank u k x).bank j = Bank.get x.bank j := by
  unfold switchBank
  split
  · split
    · exact Bank.get_put_other _ _ _ _ h
    · rfl
  · rfl

theorem switchBank_of_not_due (u : Micro) (k : TaskNum) (x : State) (h : x.scratch.swMode = false) : switchBank u k x = x := by
  unfold switchBank
  rw [h]
  rfl

theorem cpuStep_mpc_other (u : Micro) (s : State) (j : TaskNum) (h : u.f1 ≠ .startf) (hj : j ≠ s.currentTask) :
    Bank.get (cpuStep u s).mpc j = Bank.get s.mpc j :=
  field_of_wait (F := fun x => Bank.get x.mpc j) (cpuStep_field (fun x => Bank.get x.mpc j) (Bank.get s.mpc j) u s rfl
    (hf1 := fun x hx => by rw [(runF1_tasks u _ x h).2.2.1]; exact hx)
    (hadvance := fun x hx => by rw [advance_mpc_other u _ j x hj]; exact hx)) rfl

theorem cpuStep_bank_other (u : Micro) (s : State) (j : TaskNum) (h : u.f1 ≠ .startf) (hj : j ≠ s.currentTask) :
    Bank.get (cpuStep u s).bank j = Bank.get s.bank j :=
  field_of_wait (F := fun x => Bank.get x.bank j) (cpuStep_field (fun x => Bank.get x.bank j) (Bank.get s.bank j) u s rfl
    (hf1 := fun x hx => by rw [(runF1_tasks u _ x h).2.2.2]; exact hx)
    (hswitch := fun x hx => by rw [switchBank_bank_other u _ j x hj]; exact hx)) rfl

/-- Without a due SWMODE and without a soft reset the banks stay. -/
theorem cpuStep_bank_of_not_due (u : Micro) (s : State) (h : u.f1 ≠ .startf)
    (hdue : Bank.get s.swModePending s.currentTask = false) : (cpuStep u s).bank = s.bank := by
  have hkept := cpuStep_field (fun x => (x.bank, x.scratch.swMode)) (s.bank, false) u s (by rw [← hdue]; rfl)
    (hf1 := fun x hx => by
      rw [(runF1_tasks u _ x h).2.2.2, runF1_frame]
      exact hx)
    (hswitch := fun x hx => by rw [switchBank_of_not_due u _ x (Prod.mk.inj hx).2]; exact hx)
  refine field_of_wait (F := State.bank) (hkept.imp_left fun e => ?_) rfl
  exact (Prod.mk.inj e).1

theorem cpuStep_firstAfterSwitch_other (u : Micro) (s : State) (j : TaskNum) (hj : j ≠ s.currentTask) :
    Bank.get (cpuStep u s).firstAfterSwitch j = Bank.get s.firstAfterSwitch j :=
  field_of_wait (F := fun x => Bank.get x.firstAfterSwitch j)
    (cpuStep_field (fun x => Bank.get x.firstAfterSwitch j) (Bank.get s.firstAfterSwitch j) u s rfl
      (hfinish := fun x hx => by rw [finish_frame]; exact (Bank.get_put_other _ _ _ _ hj).trans hx)) rfl

/-! ## The carried flags -/

/-- The carried flags of task `j`. -/
def pendingFlags (j : TaskNum) (x : State) : Bool × Bool × Bool :=
  (Bank.get x.rdRamPending j, Bank.get x.wrtRamPending j, Bank.get x.swModePending j)

theorem runF1_pendingFlags (u : Micro) (k j : TaskNum) (x : State) (h : j ≠ 0) :
    pendingFlags j (runF1 u k x) = pendingFlags j x := by
  obtain ⟨hrd, hwrt, hsw⟩ := runF1_pending u k x j h
  unfold pendingFlags
  rw [hrd, hwrt, hsw]

theorem beginMicro_pendingFlags (u : Micro) (k j : TaskNum) (x : State) (h : j ≠ k) :
    pendingFlags j (beginMicro u k x) = pendingFlags j x := by
  unfold pendingFlags beginMicro
  rw [Bank.get_put_other _ _ _ _ h, Bank.get_put_other _ _ _ _ h, Bank.get_put_other _ _ _ _ h]

theorem cpuStep_pendingFlags (u : Micro) (s : State) (j : TaskNum) (hj : j ≠ s.currentTask) (h0 : j ≠ 0) :
    pendingFlags j (cpuStep u s) = pendingFlags j s :=
  field_of_wait (F := pendingFlags j) (cpuStep_field (pendingFlags j) (pendingFlags j s) u s
    (beginMicro_pendingFlags u s.currentTask j s hj)
    (hf1 := fun x hx => (runF1_pendingFlags u _ j x h0).trans hx)) rfl

/-! ## The wakeups -/

theorem earlySelect_wakeup (u : Micro) (k : TaskNum) (x : State) : (earlySelect u k x).wakeup = x.wakeup := by
  unfold earlySelect
  split
  · rfl
  · rfl
  · rfl
  · split
    · rfl
    · refine runPhases_keeps (fun y => y.wakeup = x.wakeup) _ ?_ x rfl
      simp only [List.forall_mem_cons]
      exact ⟨fun y hy => (optionalHook_wakeup k _ y (by decide)).trans hy,
        fun y hy => (optionalHook_wakeup k _ y (by decide)).trans hy, by simp⟩

theorem busSource_wakeup (u : Micro) (k : TaskNum) (x : State) : (busSource u k x).wakeup = x.wakeup := by
  unfold busSource
  cases u.bs with
  | readMd => exact congrArg (fun y => y.wakeup) (bsReadMd_eq x)
  | taskSpecific1 | taskSpecific2 => exact busHook_wakeup k _ x (by decide)
  | readR | loadR | none | readMouse | readDisp | readS | loadS => rfl

theorem runF2_wakeup (u : Micro) (k : TaskNum) (x : State) : (runF2 u k x).wakeup = x.wakeup := by
  unfold runF2
  cases u.f2 with
  | storeMd =>
    simp only [f2StoreMd]
    split
    · rfl
    · exact storeMd_wakeup ..
  | taskSpecific8 | taskSpecific9 | taskSpecific10 | taskSpecific11 | taskSpecific12 | taskSpecific13 | taskSpecific14 |
    taskSpecific15 => exact codeHook_wakeup k _ _ x (by decide)
  | none | busEq0 | shLt0 | shEq0 | bus | alucy | constant | busodd | magic | loadDns | acdest | loadIr | idisp | acsource |
    reserved15 => rfl

theorem lateF2_wakeup (u : Micro) (k : TaskNum) (x : State) : (lateF2 u k x).wakeup = x.wakeup := by
  by_cases h : u.f2 = .loadDns
  · rw [lateF2_of_loadDns u k x h]
    rfl
  · rw [lateF2_of_ne_loadDns u k x h]
    split
    · rfl
    · exact optionalHook_wakeup k _ x (by decide)

theorem blockHook_wakeup (k : TaskNum) (x : State) : (blockHook k x).wakeup = x.wakeup := by
  unfold blockHook
  split
  · exact optionalHook_wakeup k _ x (by decide)
  · rfl

/-- F1 changes another task's wakeup by a soft reset only, and the executing task's by BLOCK too. -/
theorem runF1_wakeup (u : Micro) (k j : TaskNum) (x : State) (h : u.f1 ≠ .startf) (hb : u.f1 = .block → j ≠ k) :
    Bank.get (runF1 u k x).wakeup j = Bank.get x.wakeup j := by
  unfold runF1
  cases hf : u.f1 with
  | startf => exact absurd hf h
  | block =>
    simp only [f1Block]
    split
    · rfl
    · exact Bank.get_put_other _ _ _ _ (hb hf)
  | loadMar =>
    simp only [f1LoadMar]
    rw [loadMar_wakeup]
  | task =>
    simp only [f1Task]
    split <;> rfl
  | taskSpecific8 | taskSpecific9 | taskSpecific10 | taskSpecific11 | taskSpecific12 | taskSpecific13 | taskSpecific14 |
    taskSpecific15 => exact congrArg (Bank.get · j) (codeHook_wakeup k _ _ x (by decide))
  | none | lLsh1 | lRsh1 | lLcy8 | constant | swmode | wrtram | rdram | loadRmr | reserved12 | loadEsrb | rsnf => rfl

theorem cpuStep_wakeup_get (u : Micro) (s : State) (j : TaskNum) (h : u.f1 ≠ .startf)
    (hb : u.f1 = .block → j ≠ s.currentTask) : Bank.get (cpuStep u s).wakeup j = Bank.get s.wakeup j :=
  field_of_wait (F := fun x => Bank.get x.wakeup j) (cpuStep_field (fun x => Bank.get x.wakeup j) (Bank.get s.wakeup j) u s rfl
    (hselect := fun x hx => by rw [earlySelect_wakeup]; exact hx)
    (hbus := fun x hx => by rw [busSource_wakeup]; exact hx)
    (hf1 := fun x hx => (runF1_wakeup u _ j x h hb).trans hx)
    (hf2 := fun x hx => by rw [runF2_wakeup]; exact hx)
    (hlate := fun x hx => by rw [lateF2_wakeup]; exact hx)
    (hblock := fun x hx => by rw [blockHook_wakeup]; exact hx)) rfl

/-! ## The model's own fields -/

theorem cpuStep_external (u : Micro) (s : State) : (cpuStep u s).external = s.external :=
  field_of_wait (cpuStep_field State.external s.external u s rfl) rfl

theorem cpuStep_ticks (u : Micro) (s : State) : (cpuStep u s).ticks = s.ticks :=
  field_of_wait (cpuStep_field State.ticks s.ticks u s rfl) rfl

end Sys2Proof.Machine

namespace Sys2Proof

open Sys2Proof.Machine

/-- Settles O38: each clause is the frame of its register. -/
theorem registerFrame : Obligations.RegisterFrame := by
  intro i s t h
  rw [exec_eq] at h
  obtain rfl := Host.Outcome.next.inj h
  exact ⟨cpuStep_noLoadT _ s, cpuStep_noLoadL _ s, cpuStep_m_of_task _ s, cpuStep_ir_of_ne _ s, cpuStep_skip_of_ne _ s,
    cpuStep_novaCarry_of_ne _ s, cpuStep_rb_of_ne _ s, cpuStep_rmr_of_ne _ s, cpuStep_sStore_of_ne _ s,
    fun c _ => cpuStep_sStore_other _ s c, fun hh => (cpuStep_r_frame _ s hh).1, fun hh => (cpuStep_r_frame _ s hh).2⟩

/-- Settles O40: nothing writes the ROM and the parameters, and step 6 is the one phase that writes the control RAM. -/
theorem microcodeStoreFrame : Obligations.MicrocodeStoreFrame := by
  intro i s t h
  rw [exec_eq] at h
  obtain rfl := Host.Outcome.next.inj h
  exact ⟨cpuStep_urom _ s, cpuStep_params _ s, cpuStep_cramFrame _ s⟩

/-- Settles O42: each clause is the frame of its field; a hook of a tick changes none of them. -/
theorem taskStateFrame : Obligations.TaskStateFrame := by
  intro i s t h
  rw [exec_eq] at h
  obtain rfl := Host.Outcome.next.inj h
  refine ⟨fun hf => ⟨cpuStep_currentTask _ s hf, cpuStep_nextTask _ s hf,
      fun k hk => ⟨cpuStep_mpc_other _ s k hf hk, cpuStep_bank_other _ s k hf hk⟩⟩,
    fun hdue hf => cpuStep_bank_of_not_due _ s hf hdue, cpuStep_firstAfterSwitch_other _ s, fun k hk h0 => ?_,
    fun hb hf => Bank.ext _ _ fun k => cpuStep_wakeup_get _ s k hf fun hb' => absurd hb' hb, fun hb k hk => ?_,
    cpuStep_external _ s, cpuStep_ticks _ s⟩
  · have hflags := cpuStep_pendingFlags i.micro s k hk h0
    simp only [pendingFlags, Prod.mk.injEq] at hflags
    exact hflags
  · exact cpuStep_wakeup_get _ s k (by rw [hb]; decide) fun _ => hk

end Sys2Proof

/-! PROOFS. The frames of the memory bus and of the main store (20_memory.md R56 to R64), on every path of every row of a task
whose hooks leave the memory bus alone. -/

namespace Sys2Proof.Machine

/-! ## The memory bus -/

/-- An action off the bus leaves the bus, the stored words and the parameters alone. -/
theorem hookAction_offBus (k : TaskNum) (p : HookPoint) (a : HookAction) (x : State) (ha : offBusAction a = true) :
    hookAction k p a x = { hookAction k p a x with
      memActive := x.memActive, memCycle := x.memCycle, memAddr := x.memAddr, memTask := x.memTask, memXM := x.memXM
      dwStore := x.dwStore, dwMixed := x.dwMixed, memRd5 := x.memRd5, main := x.main, xmBanks := x.xmBanks
      params := x.params } := by
  have hookCall_offBus : ∀ c, hookCall p c x = { hookCall p c x with
      memActive := x.memActive, memCycle := x.memCycle, memAddr := x.memAddr, memTask := x.memTask, memXM := x.memXM
      dwStore := x.dwStore, dwMixed := x.dwMixed, memRd5 := x.memRd5, main := x.main, xmBanks := x.xmBanks
      params := x.params } := by
    intro c
    unfold hookCall
    split
    · cases c with
      | wakeupTask i =>
        simp only [externalCall, wakeupTask]
        split
        · rfl
        · split <;> rfl
      | blockTask i =>
        simp only [externalCall, blockTask]
        split
        · rfl
        · split <;> rfl
    · rfl
  cases a with
  | wakeupTask i => exact hookCall_offBus (.wakeupTask i)
  | blockTask i => exact hookCall_offBus (.blockTask i)
  | setRSelect | orNextModifier =>
    simp only [hookAction]
    split <;> rfl
  | setLoadR | setAlu | setSh | setTaskFired | setBlockFired | setShift | device => rfl
  | loadMar | storeMd | readMd => exact absurd ha (by simp [offBusAction])

/-- `t` is `s` but for what leaves the memory bus, the stored words and the parameters alone. -/
def OffBusFrame (s t : State) : Prop :=
  t = { t with
    memActive := s.memActive, memCycle := s.memCycle, memAddr := s.memAddr, memTask := s.memTask, memXM := s.memXM
    dwStore := s.dwStore, dwMixed := s.dwMixed, memRd5 := s.memRd5, main := s.main, xmBanks := s.xmBanks, params := s.params }

theorem QuietFrame.offBus {s t : State} (h : QuietFrame s t) : OffBusFrame s t := by
  unfold OffBusFrame
  rw [h]

/-- What depends on the memory bus, the stored words and the parameters only is steady. -/
theorem steady_of_offBus {s : State} {P : State → Prop} (h : hooksOnly offBusAction s.currentTask s = true)
    (hparams : ∀ x, P x → x.params = s.params) (hP : ∀ x y, OffBusFrame x y → P x → P y) : Steady offBusAction s P where
  hooks := h
  params := hparams
  action := fun p a x ha => hP x _ (hookAction_offBus s.currentTask p a x ha)
  quiet := fun x y e => hP x y e.offBus

/-- The phases a microinstruction goes through before F1, for what depends on the bus only. -/
theorem offBus_toF1 {s : State} {P : State → Prop} (u : Micro) (h : hooksOnly offBusAction s.currentTask s = true)
    (hparams : ∀ x, P x → x.params = s.params) (hP : ∀ x y, OffBusFrame x y → P x → P y)
    (hread : u.bs = .readMd → ∀ x, P x → P (bsReadMd x)) :
    ∀ f ∈ earlySelect u s.currentTask :: phasesToF1 u s.currentTask, ∀ x, P x → P (f x) := by
  have st := steady_of_offBus h hparams hP
  rw [List.forall_mem_cons]
  exact ⟨st.earlySelect u (fun _ x => hP x _ rfl) (fun _ x => hP x _ rfl) (fun _ x => hP x _ rfl),
    st.toF1 u (st.busSource u (fun _ x => hP x _ rfl) hread)⟩

/-- And the phases after F2. -/
theorem offBus_afterF2 {s : State} {P : State → Prop} (u : Micro) (h : hooksOnly offBusAction s.currentTask s = true)
    (hparams : ∀ x, P x → x.params = s.params) (hP : ∀ x y, OffBusFrame x y → P x → P y) :
    ∀ f ∈ phasesAfterF2 u s.currentTask, ∀ x, P x → P (f x) :=
  (steady_of_offBus h hparams hP).afterF2 u fun x => hP x _ (by
    unfold OffBusFrame
    rw [writeR_frame])

/-- A part of the memory bus that the functions of a microinstruction leave alone. -/
theorem cpuStep_offBus {α : Type} (F : State → α) (u : Micro) (s : State)
    (h : hooksOnly offBusAction s.currentTask s = true) (hF : ∀ x y, OffBusFrame x y → F y = F x)
    (hread : u.bs = .readMd → ∀ x, F (bsReadMd x) = F x) (hmar : u.f1 = .loadMar → ∀ x, F (f1LoadMar u s.currentTask x) = F x)
    (hstore : u.f2 = .storeMd → ∀ x v, F (storeMd v x) = F x) : F (cpuStep u s) = F s := by
  have hP : ∀ x y, OffBusFrame x y → x.params = s.params ∧ F x = F s → y.params = s.params ∧ F y = F s := by
    rintro x y e ⟨hparams, hx⟩
    exact ⟨by rw [e]; exact hparams, (hF x y e).trans hx⟩
  have st := steady_of_offBus h (fun _ hx => hx.1) hP
  have hphases : ∀ f ∈ cpuPhases u s.currentTask, ∀ x, x.params = s.params ∧ F x = F s →
      (f x).params = s.params ∧ F (f x) = F s := by
    rw [cpuPhases_eq, ← List.cons_append]
    refine List.forall_mem_cons.mpr ⟨fun x => hP x _ rfl, List.forall_mem_append.mpr
      ⟨offBus_toF1 u h (fun _ hx => hx.1) hP fun hb x hx => ⟨?_, (hread hb x).trans hx.2⟩,
        List.forall_mem_cons.mpr ⟨st.runF1 u fun hf x hx => ⟨?_, (hmar hf x).trans hx.2⟩,
          List.forall_mem_cons.mpr ⟨st.runF2 u fun hf x hx => ?_, offBus_afterF2 u h (fun _ hx => hx.1) hP⟩⟩⟩⟩
    · rw [bsReadMd_eq]
      exact hx.1
    · simp only [f1LoadMar]
      rw [loadMar_memFrame]
      exact hx.1
    · unfold f2StoreMd
      split
      · exact hx
      · exact ⟨by rw [storeMd_memFrame]; exact hx.1, (hstore hf x _).trans hx.2⟩
  exact (cpuStep_keeps (fun x => x.params = s.params ∧ F x = F s) u s hphases (hP s _ rfl ⟨rfl, rfl⟩) ⟨rfl, rfl⟩).2

theorem cpuStep_memData (u : Micro) (s : State) : (cpuStep u s).memData = s.memData ∧ (cpuStep u s).memData2 = s.memData2 :=
  ⟨field_of_wait (cpuStep_field State.memData s.memData u s rfl) rfl,
    field_of_wait (cpuStep_field State.memData2 s.memData2 u s rfl) rfl⟩

/-! ## The main store -/

/-- What the bus and the main store were at the start of the tick: all of them but the mark of a read. -/
structure BusUntouched (s x : State) : Prop where
  active : x.memActive = s.memActive
  cycle : x.memCycle = s.memCycle
  addr : x.memAddr = s.memAddr
  task : x.memTask = s.memTask
  xm : x.memXM = s.memXM
  store : x.dwStore = s.dwStore
  main : x.main = s.main
  banks : x.xmBanks = s.xmBanks
  params : x.params = s.params

theorem BusUntouched.of_offBus {s x y : State} (h : BusUntouched s x) (e : OffBusFrame x y) : BusUntouched s y := by
  constructor <;> rw [e]
  exacts [h.active, h.cycle, h.addr, h.task, h.xm, h.store, h.main, h.banks, h.params]

theorem BusUntouched.readMd {s x : State} (h : BusUntouched s x) : BusUntouched s (bsReadMd x) := by
  constructor <;> rw [bsReadMd_eq]
  exacts [h.active, h.cycle, h.addr, h.task, h.xm, h.store, h.main, h.banks, h.params]

theorem BusUntouched.storeAddr {s x : State} (h : BusUntouched s x) : storeAddr x = storeAddr s := by
  unfold Machine.storeAddr
  rw [h.cycle, h.addr, h.store, h.params]

theorem BusUntouched.physAddr {s x : State} (h : BusUntouched s x) (a : Word) :
    physAddr a x.memTask x.memXM x = physAddr a s.memTask s.memXM s := by
  unfold Machine.physAddr
  rw [h.task, h.xm, h.banks, h.params]

/-- The main store differs from that of `s` in the word the microinstruction stores to, if it stores to one. -/
structure StoredFrame (u : Micro) (s x : State) : Prop where
  params : x.params = s.params
  same : storedWord u s = none → x.main = s.main
  others : ∀ p, storedWord u s = some p → ∀ a : Nat, a ≠ 2 * p → a ≠ 2 * p + 1 → x.main.readByte a = s.main.readByte a

theorem StoredFrame.of_main {u : Micro} {s x : State} (hparams : x.params = s.params) (h : x.main = s.main) :
    StoredFrame u s x :=
  ⟨hparams, fun _ => h, fun _ _ _ _ _ => by rw [h]⟩

theorem StoredFrame.of_offBus {u : Micro} {s x y : State} (h : StoredFrame u s x) (e : OffBusFrame x y) :
    StoredFrame u s y := by
  constructor <;> rw [e]
  exacts [h.params, h.same, h.others]

/-- A write to the data space writes the main store below the I/O page and outside the XM registers only. -/
theorem memWrite_main (a v : Word) (x : State) :
    (memWrite a v x).main = if xmIndex x.params a = none ∧ a.toNat < x.params.ioBase.toNat then
      x.main.writeWord (physAddr a x.memTask x.memXM x).toNat v else x.main := by
  unfold memWrite
  split
  · rename_i hxm
    rw [if_neg (by simp [hxm])]
  · rename_i hxm
    split
    · rw [if_neg (by omega)]
      rfl
    · rw [if_pos ⟨hxm, by omega⟩]

/-- The store of a microinstruction without LOAD_MAR (R62). -/
theorem storedFrame_storeMd (u : Micro) (s x : State) (v : Word) (hf2 : u.f2 = .storeMd) (hf1 : u.f1 ≠ .loadMar)
    (h : BusUntouched s x) : StoredFrame u s (storeMd v x) := by
  have hkept : (storeMd v x).params = s.params := by
    rw [storeMd_memFrame]
    exact h.params
  by_cases hactive : x.memActive = true
  · by_cases hcycle : x.params.storeAfter < x.memCycle
    · have hmain : (storeMd v x).main = _ :=
        (congrArg State.main (storeMd_running v x hactive hcycle)).trans (memWrite_main (storeAddr x) v x)
      rw [h.storeAddr, h.physAddr, h.params, h.main] at hmain
      rw [h.active] at hactive
      rw [h.cycle, h.params] at hcycle
      by_cases hplace : xmIndex s.params (storeAddr s) = none ∧ (storeAddr s).toNat < s.params.ioBase.toNat
      · have hword : storedWord u s = some (physAddr (storeAddr s) s.memTask s.memXM s).toNat :=
          if_pos ⟨hf2, hf1, hactive, hcycle, hplace⟩
        rw [if_pos hplace] at hmain
        refine ⟨hkept, fun hn => ?_, fun p hp a h0 h1 => ?_⟩
        · rw [hword] at hn
          cases hn
        · obtain rfl := Option.some.inj (hword.symm.trans hp)
          rw [hmain]
          exact Memory.readByte_writeWord_other _ _ _ _ h0 h1
      · rw [if_neg hplace] at hmain
        exact .of_main hkept hmain
    · have hearly : storeMd v x = raise .storeEarly (.cycle x.memCycle) x := by
        unfold storeMd
        rw [if_neg (by simp [hactive]), if_pos (by omega)]
      exact .of_main hkept (by rw [hearly]; exact h.main)
  · have hidle : storeMd v x = raise .storeNoOp (.word v) x := by
      unfold storeMd
      rw [if_pos (by simpa using hactive)]
    exact .of_main hkept (by rw [hidle]; exact h.main)

/-- LOAD_MAR on an idle bus starts an operation in cycle 1 (R57). -/
theorem loadMar_idle (a : Word) (k : TaskNum) (xm : Bool) (x : State) (h : x.memActive = false) :
    loadMar a k xm x = { x with
      memActive := true, memCycle := 1, memAddr := a, memTask := k, memXM := xm,
      dwStore := false, dwMixed := false, memRd5 := false } := by
  unfold loadMar
  rw [if_neg (by simp [h])]

/-- A store in cycle 1 is too early, whichever the system (R62). -/
theorem storeMd_firstCycle (v : Word) (x : State) (h : x.memCycle = 1) : (storeMd v x).main = x.main
    ∧ (storeMd v x).memCycle = 1 := by
  refine ⟨?_, ?_⟩
  · unfold storeMd
    split
    · rfl
    · have hafter : 0 < x.params.storeAfter := by
        unfold Params.storeAfter
        split <;> decide
      rw [if_pos (by omega)]
      rfl
  · rw [storeMd_eq]
    exact h

/-- With LOAD_MAR the microinstruction stores nothing: its operation has only begun. -/
theorem cpuStep_main_of_loadMar (u : Micro) (s : State) (h : hooksOnly offBusAction s.currentTask s = true)
    (hf : u.f1 = .loadMar) : (cpuStep u s).main = s.main := by
  have hP : ∀ x y, OffBusFrame x y → x.params = s.params ∧ x.main = s.main ∧ x.memActive = false →
      y.params = s.params ∧ y.main = s.main ∧ y.memActive = false := by
    intro x y e hx
    rw [e]
    exact hx
  have hQ : ∀ x y, OffBusFrame x y → x.params = s.params ∧ x.main = s.main ∧ x.memCycle = 1 →
      y.params = s.params ∧ y.main = s.main ∧ y.memCycle = 1 := by
    intro x y e hx
    rw [e]
    exact hx
  refine cpuStep_through (fun x => x.params = s.params ∧ x.main = s.main ∧ x.memActive = false)
    (fun x => x.params = s.params ∧ x.main = s.main ∧ x.memCycle = 1) (fun x => x.main = s.main) u s
    (earlySelect u s.currentTask :: phasesToF1 u s.currentTask) (runF2 u s.currentTask :: phasesAfterF2 u s.currentTask)
    (runF1 u s.currentTask) (cpuPhases_eq u s.currentTask) rfl (fun hr => ?_)
    (offBus_toF1 u h (fun _ hx => hx.1) hP fun _ x hx => by rw [bsReadMd_eq]; exact hx) ?_ ?_ (fun _ hx => hx.2.1)
    (fun _ hx => hx.2.1)
  · refine ⟨rfl, rfl, ?_⟩
    have hidle : s.memActive = false := by
      simp only [allReady, readyLoadAddress, hf, Bool.and_eq_true] at hr
      simpa using hr.1.1
    exact hidle
  · rintro x ⟨hparams, hmain, hidle⟩
    simp only [runF1, hf, f1LoadMar]
    rw [loadMar_idle _ _ _ x hidle]
    exact ⟨hparams, hmain, rfl⟩
  · rw [List.forall_mem_cons]
    refine ⟨(steady_of_offBus h (fun _ hx => hx.1) hQ).runF2 u fun _ x hx => ?_, offBus_afterF2 u h (fun _ hx => hx.1) hQ⟩
    unfold f2StoreMd
    split
    · exact hx
    · obtain ⟨hparams, hmain, hcycle⟩ := hx
      obtain ⟨hkept, hcycle'⟩ := storeMd_firstCycle x.scratch.busData x hcycle
      exact ⟨by rw [storeMd_memFrame]; exact hparams, hkept.trans hmain, hcycle'⟩

/-- Without LOAD_MAR the operation is the one the tick found, and F2 the one function that stores. -/
theorem cpuStep_storedFrame (u : Micro) (s : State) (h : hooksOnly offBusAction s.currentTask s = true)
    (hf : u.f1 ≠ .loadMar) : StoredFrame u s (cpuStep u s) := by
  have st := steady_of_offBus h (P := BusUntouched s) (fun _ hx => hx.params) fun _ _ e hx => hx.of_offBus e
  have st' := steady_of_offBus h (P := StoredFrame u s) (fun _ hx => hx.params) fun _ _ e hx => hx.of_offBus e
  refine cpuStep_through (BusUntouched s) (StoredFrame u s) (StoredFrame u s) u s
    (earlySelect u s.currentTask :: (phasesToF1 u s.currentTask ++ [runF1 u s.currentTask])) (phasesAfterF2 u s.currentTask)
    (runF2 u s.currentTask) rfl (.of_main rfl rfl) (fun _ => ⟨rfl, rfl, rfl, rfl, rfl, rfl, rfl, rfl, rfl⟩) ?_ ?_
    (offBus_afterF2 u h (fun _ hx => hx.params) fun _ _ e hx => hx.of_offBus e)
    (fun x hx => .of_main hx.params hx.main) (fun _ => id)
  · rw [← List.cons_append, List.forall_mem_append]
    refine ⟨offBus_toF1 u h (fun _ hx => hx.params) (fun _ _ e hx => hx.of_offBus e) fun _ x hx => hx.readMd, ?_⟩
    rw [List.forall_mem_singleton]
    exact st.runF1 u fun hmar => absurd hmar hf
  · intro x hx
    by_cases hstore : u.f2 = .storeMd
    · have hxmar : isXmar x.params u = false := by simp [isXmar, hf]
      simp only [runF2, hstore, f2StoreMd, hxmar, Bool.false_eq_true, if_false]
      exact storedFrame_storeMd u s x _ hstore hf hx
    · exact st'.runF2 u (fun e => absurd e hstore) x (.of_main hx.params hx.main)

end Sys2Proof.Machine

namespace Sys2Proof

open Sys2Proof.Machine

/-- Settles O39: with LOAD_MAR no word is stored, without it F2 stores the one `storedWord` names. -/
theorem mainStoreFrame : Obligations.MainStoreFrame := by
  intro i s t h hooks
  rw [exec_eq] at h
  obtain rfl := Host.Outcome.next.inj h
  have hframe : StoredFrame i.micro s (cpuStep i.micro s) := by
    by_cases hf : i.micro.f1 = .loadMar
    · exact .of_main (cpuStep_params _ s) (cpuStep_main_of_loadMar _ s hooks hf)
    · exact cpuStep_storedFrame _ s hooks hf
  exact ⟨hframe.same, hframe.others⟩

/-- Settles O41: the latches are the bus clock's, and each other part of the bus has its one or two functions. -/
theorem memoryBusFrame : Obligations.MemoryBusFrame := by
  intro i s t h hooks
  rw [exec_eq] at h
  obtain rfl := Host.Outcome.next.inj h
  refine ⟨(cpuStep_memData _ s).1, (cpuStep_memData _ s).2, fun hmar => ?_, fun hmar hstore => ?_, fun hmar hread => ?_,
    fun hstore => ?_⟩
  · have hop := cpuStep_offBus (fun x => (x.memActive, x.memCycle, x.memAddr, x.memTask, x.memXM)) i.micro s hooks
      (fun x y e => by rw [e]) (fun _ x => by rw [bsReadMd_eq]) (absurd · hmar) fun _ x v => by rw [storeMd_eq]
    simp only [Prod.mk.injEq] at hop
    exact hop
  · have hflags := cpuStep_offBus (fun x => (x.dwStore, x.dwMixed)) i.micro s hooks (fun x y e => by rw [e])
      (fun _ x => by rw [bsReadMd_eq]) (absurd · hmar) (absurd · hstore)
    simp only [Prod.mk.injEq] at hflags
    exact hflags
  · exact cpuStep_offBus State.memRd5 i.micro s hooks (fun x y e => by rw [e]) (absurd · hread) (absurd · hmar)
      fun _ x v => by rw [storeMd_eq]
  · refine cpuStep_offBus State.xmBanks i.micro s hooks (fun x y e => by rw [e]) (fun _ x => by rw [bsReadMd_eq])
      (fun _ x => ?_) (absurd · hstore)
    unfold f1LoadMar loadMar
    split <;> rfl

end Sys2Proof

/-! PROOFS. What a whole tick keeps: the Emulator's own state in a tick of another task (46_emulator.md R235), and the machine
invariant (10_state.md R30 to R43). -/

namespace Sys2Proof

/-- Writing what a cell holds changes nothing. -/
theorem Bank.put_same {α : Type} {n : Nat} (v : Vector α n) (i : Fin n) (x : α) (h : Bank.get v i = x) : Bank.put v i x = v :=
  Bank.ext _ _ fun j => by
    rw [Bank.get_put]
    split
    · rename_i e
      rw [e, h]
    · rfl

end Sys2Proof

namespace Sys2Proof.Machine

/-! ## The Emulator's own state -/

/-- A microinstruction of a task other than the Emulator has none of the Emulator's functions (30_encoding.md R98). -/
theorem ne_emulatorFunctions_of_fits {u : Micro} (h : u.fits false = true) :
    (u.bs ≠ .loadS ∧ u.f2 ≠ .loadIr ∧ u.f2 ≠ .loadDns)
    ∧ u.f1 ≠ .swmode ∧ u.f1 ≠ .wrtram ∧ u.f1 ≠ .rdram ∧ u.f1 ≠ .loadRmr ∧ u.f1 ≠ .loadEsrb ∧ u.f1 ≠ .startf := by
  obtain ⟨hbs, hf1, hf2⟩ := (Micro.fits_iff false u).mp h
  refine ⟨⟨?_, ?_, ?_⟩, ?_, ?_, ?_, ?_, ?_, ?_⟩
  · rintro e; rw [e] at hbs; cases hbs
  · rintro e; rw [e] at hf2; cases hf2
  · rintro e; rw [e] at hf2; cases hf2
  all_goals rintro e; rw [e] at hf1; cases hf1

/-- What F1 is when it is none of the functions that reach the Emulator's state: a hook, as far as frames go. -/
theorem runF1_hookFrame (u : Micro) (k : TaskNum) (x : State) (h : u.fits false = true) : HookFrame x (runF1 u k x) := by
  obtain ⟨-, hsw, hwrt, hrd, hrmr, hrb, hstart⟩ := ne_emulatorFunctions_of_fits h
  rcases runF1_cases u k x with e | ⟨hf, -⟩ | ⟨hf, -⟩ | ⟨hf, -⟩ | ⟨hf, -⟩ | ⟨hf, -⟩ | ⟨hf, -⟩
  · exact e
  · exact absurd hf hsw
  · exact absurd hf hwrt
  · exact absurd hf hrd
  · exact absurd hf hrmr
  · exact absurd hf hrb
  · exact absurd hf hstart

/-- The carried flags of every task. -/
def carriedFlags (x : State) : PerTask Bool × PerTask Bool × PerTask Bool := (x.rdRamPending, x.wrtRamPending, x.swModePending)

/-- Taking flags that are not due changes none. -/
theorem beginMicro_carriedFlags (u : Micro) (k : TaskNum) (x : State) (hrd : Bank.get x.rdRamPending k = false)
    (hwrt : Bank.get x.wrtRamPending k = false) (hsw : Bank.get x.swModePending k = false) :
    carriedFlags (beginMicro u k x) = carriedFlags x := by
  simp only [carriedFlags, beginMicro, Bank.put_same _ k false hrd, Bank.put_same _ k false hwrt, Bank.put_same _ k false hsw]

theorem cpuStep_carriedFlags (u : Micro) (s : State) (h : u.fits false = true)
    (hrd : Bank.get s.rdRamPending s.currentTask = false) (hwrt : Bank.get s.wrtRamPending s.currentTask = false)
    (hsw : Bank.get s.swModePending s.currentTask = false) : carriedFlags (cpuStep u s) = carriedFlags s :=
  field_of_wait (F := carriedFlags) (cpuStep_field carriedFlags (carriedFlags s) u s
    (beginMicro_carriedFlags u s.currentTask s hrd hwrt hsw)
    (hf1 := fun x hx => by rw [runF1_hookFrame u _ x h]; exact hx)) rfl

/-- The state that only the Emulator reaches is that of `s`. -/
structure EmulatorUntouched (s t : State) : Prop where
  sStore : t.sStore = s.sStore
  m : t.m = s.m
  ir : t.ir = s.ir
  rb : t.rb = s.rb
  rmr : t.rmr = s.rmr
  skip : t.skip = s.skip
  novaCarry : t.novaCarry = s.novaCarry
  uram : t.uram = s.uram
  bank : t.bank = s.bank
  flags : carriedFlags t = carriedFlags s
  mpc : Bank.get t.mpc 0 = Bank.get s.mpc 0

theorem EmulatorUntouched.refl (s : State) : EmulatorUntouched s s :=
  ⟨rfl, rfl, rfl, rfl, rfl, rfl, rfl, rfl, rfl, rfl, rfl⟩

theorem EmulatorUntouched.trans {s t v : State} (h : EmulatorUntouched s t) (h' : EmulatorUntouched t v) :
    EmulatorUntouched s v :=
  ⟨h'.sStore.trans h.sStore, h'.m.trans h.m, h'.ir.trans h.ir, h'.rb.trans h.rb, h'.rmr.trans h.rmr, h'.skip.trans h.skip,
    h'.novaCarry.trans h.novaCarry, h'.uram.trans h.uram, h'.bank.trans h.bank, h'.flags.trans h.flags, h'.mpc.trans h.mpc⟩

theorem EmulatorUntouched.of_hook {s t v : State} (h : EmulatorUntouched s t) (e : HookFrame t v) : EmulatorUntouched s v := by
  refine h.trans ?_
  rw [e]
  constructor <;> rfl

theorem emulatorUntouched_startTick (s : State) : EmulatorUntouched s (startTick s) := by
  rw [startTick_frame]
  constructor <;> rfl

/-- The end of a tick switches tasks and runs hooks, and neither reaches it. -/
theorem EmulatorUntouched.endTick {s t : State} (h : EmulatorUntouched s t) : EmulatorUntouched s (endTick t) :=
  endTick_keeps (EmulatorUntouched s) (fun _ _ hx e => hx.of_hook e) (fun _ _ hx => hx.trans (by constructor <;> rfl))
    (fun _ _ hx _ => hx.trans (by constructor <;> rfl)) (fun _ hx => hx.trans (by constructor <;> rfl)) t h

/-- A microinstruction of another task with no carried flag due leaves the Emulator's state alone: the frames of
`Obligations.RegisterFrame`, `MicrocodeStoreFrame` and `TaskStateFrame`, where none of its functions is the Emulator's. -/
theorem cpuStep_emulatorUntouched (u : Micro) (s : State) (h : u.fits false = true) (hk : s.currentTask ≠ 0)
    (hrd : Bank.get s.rdRamPending s.currentTask = false) (hwrt : Bank.get s.wrtRamPending s.currentTask = false)
    (hsw : Bank.get s.swModePending s.currentTask = false) : EmulatorUntouched s (cpuStep u s) := by
  obtain ⟨⟨hbs, hir, hdns⟩, -, -, -, hrmr, hrb, hstart⟩ := ne_emulatorFunctions_of_fits h
  have hcram : cramWord s = none := if_neg (by simp [hwrt])
  exact {
    sStore := cpuStep_sStore_of_ne u s hbs
    m := cpuStep_m_of_task u s hk
    ir := cpuStep_ir_of_ne u s hir
    rb := cpuStep_rb_of_ne u s hrb
    rmr := cpuStep_rmr_of_ne u s hrmr hstart
    skip := cpuStep_skip_of_ne u s hir hdns
    novaCarry := cpuStep_novaCarry_of_ne u s hdns
    uram := (cpuStep_cramFrame u s).1 hcram
    bank := cpuStep_bank_of_not_due u s hstart hsw
    flags := cpuStep_carriedFlags u s h hrd hwrt hsw
    mpc := cpuStep_mpc_other u s 0 hstart hk.symm }

/-! ## The invariant, phase by phase -/

/-- `t` is `s` but for fields the invariant says nothing of. -/
def InvFrame (s t : State) : Prop :=
  t = { t with
    main := s.main, urom := s.urom, uram := s.uram, memCycle := s.memCycle, wakeup := s.wakeup, params := s.params
    currentTask := s.currentTask, nextTask := s.nextTask, rdRamPending := s.rdRamPending, wrtRamPending := s.wrtRamPending
    swModePending := s.swModePending, dwStore := s.dwStore, dwMixed := s.dwMixed }

theorem Inv.of_frame {s t : State} (h : Inv s) (e : InvFrame s t) : Inv t := by
  rw [e]
  exact ⟨h.mainWf, h.uromWf, h.uramWf, h.cycleRange, h.emulatorWoken, h.currentPresent, h.nextPresent, h.carriedFlags,
    h.storeMixed, h.mainBound, h.uramBound⟩

theorem get_put_false {v : PerTask Bool} {j k : TaskNum} (h : Bank.get v j = false) : Bank.get (Bank.put v k false) j = false := by
  rw [Bank.get_put]
  split
  · rfl
  · exact h

theorem inv_beginMicro (u : Micro) (k : TaskNum) (s : State) (h : Inv s) : Inv (beginMicro u k s) := by
  refine ⟨h.mainWf, h.uromWf, h.uramWf, h.cycleRange, h.emulatorWoken, h.currentPresent, h.nextPresent, fun j hj => ?_,
    h.storeMixed, h.mainBound, h.uramBound⟩
  obtain ⟨hrd, hwrt, hsw⟩ := h.carriedFlags j hj
  exact ⟨get_put_false hrd, get_put_false hwrt, get_put_false hsw⟩

theorem inv_earlySelect (u : Micro) (k : TaskNum) (s : State) (h : Inv s) : Inv (earlySelect u k s) := by
  unfold earlySelect
  split
  · exact h.of_frame rfl
  · exact h.of_frame rfl
  · exact h.of_frame rfl
  · split
    · exact h
    · refine runPhases_keeps Inv _ ?_ s h
      simp only [List.forall_mem_cons]
      exact ⟨inv_optionalHook k .f1Early, inv_optionalHook k .f2Early, by simp⟩

theorem inv_busSource (u : Micro) (k : TaskNum) (s : State) (h : Inv s) : Inv (busSource u k s) := by
  unfold busSource
  cases u.bs with
  | readMd => exact h.of_frame (by unfold InvFrame; rw [bsReadMd_eq])
  | taskSpecific1 | taskSpecific2 => exact inv_busHook _ _ _ h
  | readR | loadR | none | readMouse | readDisp | readS | loadS => exact h.of_frame rfl

/-- The control-RAM write is within the banks that exist (R76). -/
theorem inv_deferredCramWrite (s : State) (h : Inv s) : Inv (deferredCramWrite s) := by
  rcases deferredCramWrite_uram s with e | ⟨-, -, hbank, w, e⟩
  · rw [deferredCramWrite_frame, e]
    exact h.of_frame rfl
  · rw [deferredCramWrite_frame, e]
    refine ⟨h.mainWf, h.uromWf, Memory.wf_writeMicro _ _ _ h.uramWf, h.cycleRange, h.emulatorWoken, h.currentPresent,
      h.nextPresent, h.carriedFlags, h.storeMixed, h.mainBound, Memory.bounded_writeMicro _ _ _ _ ?_ h.uramBound⟩
    have haddr : (s.cramAddr.extractLsb' 0 10).toNat < 1024 := (s.cramAddr.extractLsb' 0 10).isLt
    show 4 * microIndex (cramBankOf s.cramAddr) (s.cramAddr.extractLsb' 0 10) + 3 < 4 * (1024 * s.params.ramBanks)
    unfold microIndex
    omega

theorem present_zero (p : Params) : p.present 0 = true := rfl

/-- A soft reset makes the Emulator current, which always exists, and only wakes a task (70_reset_and_hazards.md R305). -/
theorem inv_softReset (s : State) (h : Inv s) : Inv (softReset s) := by
  refine ⟨h.mainWf, h.uromWf, h.uramWf, h.cycleRange, ?_, present_zero _, fun _ hn => (nomatch hn), h.carriedFlags, h.storeMixed,
    h.mainBound, h.uramBound⟩
  show Bank.get (if _ then _ else _) 0 = true
  split
  · exact (inv_with_wakeup s _ true h (.inr rfl)).emulatorWoken
  · exact h.emulatorWoken

theorem inv_runF1 (u : Micro) (k : TaskNum) (s : State) (h : Inv s) : Inv (runF1 u k s) := by
  have hcarried : ∀ {v : PerTask Bool} {j : TaskNum}, j ≠ 0 → Bank.get v j = false → Bank.get (Bank.put v 0 true) j = false :=
    fun hj e => (Bank.get_put_other _ _ _ _ hj).trans e
  unfold runF1
  cases u.f1 with
  | loadMar => exact inv_loadMar _ _ _ _ h
  | task =>
    simp only [f1Task]
    split
    · exact h
    · exact h.of_frame rfl
  | block =>
    simp only [f1Block]
    split
    · exact inv_with_halted _ _ h
    · exact (inv_with_wakeup s k false h (.inl ‹_›)).of_frame rfl
  | swmode =>
    exact ⟨h.mainWf, h.uromWf, h.uramWf, h.cycleRange, h.emulatorWoken, h.currentPresent, h.nextPresent,
      fun j hj => ⟨(h.carriedFlags j hj).1, (h.carriedFlags j hj).2.1, hcarried hj (h.carriedFlags j hj).2.2⟩,
      h.storeMixed, h.mainBound, h.uramBound⟩
  | wrtram =>
    exact ⟨h.mainWf, h.uromWf, h.uramWf, h.cycleRange, h.emulatorWoken, h.currentPresent, h.nextPresent,
      fun j hj => ⟨(h.carriedFlags j hj).1, hcarried hj (h.carriedFlags j hj).2.1, (h.carriedFlags j hj).2.2⟩,
      h.storeMixed, h.mainBound, h.uramBound⟩
  | rdram =>
    exact ⟨h.mainWf, h.uromWf, h.uramWf, h.cycleRange, h.emulatorWoken, h.currentPresent, h.nextPresent,
      fun j hj => ⟨hcarried hj (h.carriedFlags j hj).1, (h.carriedFlags j hj).2⟩, h.storeMixed, h.mainBound, h.uramBound⟩
  | startf =>
    simp only [f1Startf]
    split
    · exact (inv_softReset s h).of_frame rfl
    · split
      · exact h.of_frame rfl
      · exact h
  | none | lLsh1 | lRsh1 | lLcy8 | constant | loadRmr | reserved12 | loadEsrb | rsnf => exact h.of_frame rfl
  | taskSpecific8 | taskSpecific9 | taskSpecific10 | taskSpecific11 | taskSpecific12 | taskSpecific13 | taskSpecific14 |
    taskSpecific15 => exact inv_codeHook _ _ _ _ h

theorem inv_runF2 (u : Micro) (k : TaskNum) (s : State) (h : Inv s) : Inv (runF2 u k s) := by
  unfold runF2
  cases u.f2 with
  | storeMd =>
    simp only [f2StoreMd]
    split
    · exact h
    · exact inv_storeMd _ _ h
  | none | busEq0 | shLt0 | shEq0 | bus | alucy | constant | busodd | magic | loadDns | acdest | loadIr | idisp | acsource |
    reserved15 => exact h.of_frame rfl
  | taskSpecific8 | taskSpecific9 | taskSpecific10 | taskSpecific11 | taskSpecific12 | taskSpecific13 | taskSpecific14 |
    taskSpecific15 => exact inv_codeHook _ _ _ _ h

theorem inv_lateF2 (u : Micro) (k : TaskNum) (s : State) (h : Inv s) : Inv (lateF2 u k s) := by
  by_cases hd : u.f2 = .loadDns
  · rw [lateF2_of_loadDns u k s hd]
    exact h.of_frame rfl
  · rw [lateF2_of_ne_loadDns u k s hd]
    split
    · exact h
    · exact inv_optionalHook _ _ _ h

theorem inv_blockHook (k : TaskNum) (s : State) (h : Inv s) : Inv (blockHook k s) := by
  unfold blockHook
  split
  · exact inv_optionalHook _ _ _ h
  · exact h

theorem inv_cpuStep (u : Micro) (s : State) (h : Inv s) : Inv (cpuStep u s) := by
  refine cpuStep_keeps Inv u s ?_ (h.of_frame rfl) h
  refine forall_cpuPhases (fun f => ∀ x, Inv x → Inv (f x)) u s.currentTask (inv_beginMicro u _) (inv_earlySelect u _)
    (inv_busSource u _) (fun x hx => hx.of_frame ?_) (fun x hx => hx.of_frame ?_) (fun x hx => hx.of_frame ?_)
    (fun x hx => hx.of_frame ?_) inv_deferredCramWrite (inv_runF1 u _) (inv_runF2 u _) (fun x hx => hx.of_frame ?_)
    (fun x hx => hx.of_frame ?_) (fun x hx => hx.of_frame ?_) (fun x hx => hx.of_frame ?_) (fun x hx => hx.of_frame ?_)
    (fun x hx => hx.of_frame ?_) (inv_lateF2 u _) (fun x hx => hx.of_frame ?_) (inv_blockHook _) (fun x hx => hx.of_frame ?_)
    (fun x hx => hx.of_frame ?_)
  · unfold InvFrame; rw [maskConstant_frame]
  · unfold InvFrame; rw [maskCram_frame]
  · unfold InvFrame; rw [earlyBus_frame]
  · unfold InvFrame; rw [runAlu_frame]
  · unfold InvFrame; rw [runShifter_frame]
  · unfold InvFrame; rw [shifterBranch_frame]
  · unfold InvFrame; rw [writeR_frame]
  · unfold InvFrame; rw [writeS_frame]
  · unfold InvFrame; rw [writeT_frame]
  · unfold InvFrame; rw [writeL_frame]
  · unfold InvFrame; rw [switchBank_frame]
  · unfold InvFrame; rw [advance_frame]
  · unfold InvFrame; rw [finish_frame]

/-! ## The invariant at the end of a tick -/

/-- The scan finds a woken task that exists, since the Emulator is one (60_exceptions.md R276, R280). -/
theorem highestWoken_eligible (s : State) (h : Bank.get s.wakeup 0 = true) : eligible s (highestWoken s) = true := by
  have hzero : eligible s 0 = true := by
    rw [eligible, present_zero, h, Bool.and_self]
  unfold highestWoken
  cases hfind : tasksDown.find? (eligible s) with
  | none => exact absurd hzero (List.find?_eq_none.mp hfind 0 (mem_tasksDown 0))
  | some k => exact List.find?_some hfind

theorem eligible_iff (s : State) (k : TaskNum) :
    eligible s k = true ↔ s.params.present k = true ∧ Bank.get s.wakeup k = true := by
  rw [eligible, Bool.and_eq_true]

theorem inv_schedule (s : State) (h : Inv s) : Inv (schedule s) := by
  unfold schedule
  split
  · refine ⟨h.mainWf, h.uromWf, h.uramWf, h.cycleRange, h.emulatorWoken, h.currentPresent, fun i hi => ?_, h.carriedFlags,
      h.storeMixed, h.mainBound, h.uramBound⟩
    obtain rfl := Option.some.inj hi
    exact ((eligible_iff s _).mp (highestWoken_eligible s h.emulatorWoken)).1
  · exact h
  · split
    · exact h
    · rename_i i hi
      refine inv_optionalHook _ _ _ ⟨h.mainWf, h.uromWf, h.uramWf, h.cycleRange, h.emulatorWoken, h.nextPresent i hi,
        fun _ hn => (nomatch hn), h.carriedFlags, h.storeMixed, h.mainBound, h.uramBound⟩

theorem inv_applyExternal (s : State) (h : Inv s) : Inv (applyExternal s) := by
  refine runPhases_keeps Inv _ (fun f hf x hx => ?_) _ (h.of_frame rfl)
  obtain ⟨c, -, rfl⟩ := List.mem_map.mp hf
  cases c with
  | wakeupTask i => exact inv_wakeupTask i x hx
  | blockTask i => exact inv_blockTask i x hx

theorem inv_endTick (s : State) (h : Inv s) : Inv (endTick s) := by
  unfold endTick
  split
  · exact h
  · refine runPhases_keeps Inv _ ?_ s h
    simp only [List.forall_mem_cons]
    exact ⟨inv_schedule, inv_applyExternal, by simp⟩

end Sys2Proof.Machine

namespace Sys2Proof

open Sys2Proof.Machine

/-- Settles O43: the two ends of the tick are frames, and a microinstruction decoded for another task has no function of the
Emulator, whose carried flags are the only ones. -/
theorem otherTasksKeepEmulatorState : Obligations.OtherTasksKeepEmulatorState := by
  intro s t hinv hk hstep
  have hkept : EmulatorUntouched s t := by
    rcases step_cases s t hstep with ⟨-, rfl⟩ | ⟨-, -, rfl⟩ | ⟨w, -, -, rfl⟩
    · exact .refl _
    · exact (emulatorUntouched_startTick s).trans (by constructor <;> rfl)
    · obtain ⟨hrd, hwrt, hsw⟩ := hinv.carriedFlags s.currentTask hk
      have htask : emulatorRuns s = false := by simpa [emulatorRuns] using hk
      have hcpu := cpuStep_emulatorUntouched (decodeMicro false w) (startTick s) (decodeMicro_fits false w)
        (by rw [startTick_frame]; exact hk) (by rw [startTick_frame]; exact hrd) (by rw [startTick_frame]; exact hwrt)
        (by rw [startTick_frame]; exact hsw)
      rw [htask]
      exact ((emulatorUntouched_startTick s).trans hcpu).endTick
  have hflags := hkept.flags
  simp only [carriedFlags, Prod.mk.injEq] at hflags
  obtain ⟨hrd, hwrt, hsw⟩ := hflags
  exact ⟨hkept.sStore, hkept.m, hkept.ir, hkept.rb, hkept.rmr, hkept.skip, hkept.novaCarry, hkept.uram, hkept.bank, hrd, hwrt,
    hsw, hkept.mpc⟩

/-- Settles O44: the bus clock, each phase and the end of the tick keep the invariant, and so does a fault. -/
theorem stepKeepsInvariant : Obligations.StepKeepsInvariant := by
  intro s t hinv hstep
  have hstart : Inv (startTick s) := (inv_busClock s hinv).of_frame rfl
  rcases step_cases s t hstep with ⟨-, rfl⟩ | ⟨-, -, rfl⟩ | ⟨w, -, -, rfl⟩
  · exact hinv
  · exact inv_with_halted _ _ hstart
  · exact inv_endTick _ (inv_cpuStep _ _ hstart)

/-- Settles O45: the stores are empty, only the Emulator is woken, and no flag is carried. -/
theorem resetMeetsInvariant : Obligations.ResetMeetsInvariant where
  mainWf := State.reset_stores_wf.1
  uromWf := State.reset_stores_wf.2.1
  uramWf := State.reset_stores_wf.2.2
  cycleRange := by decide
  emulatorWoken := rfl
  currentPresent := rfl
  nextPresent := nofun
  carriedFlags := fun _ _ => ⟨Bank.get_replicate .., Bank.get_replicate .., Bank.get_replicate ..⟩
  storeMixed := nofun
  mainBound := nofun
  uramBound := nofun

/-- Settles O46: the fields of the state after reset, read off. -/
theorem resetSelectsEmulator : Obligations.ResetSelectsEmulator :=
  ⟨rfl, rfl, Bank.get_replicate .., rfl, rfl⟩

end Sys2Proof

/-! PROOFS. A microinstruction that runs to its end, field by field: what `cpuStep_running` says of each field, and the forms the
rows of the table are stated in (`busRow`, `branchRow`, `nextAddress`) brought down to it. -/

namespace Sys2Proof.Machine

/-! ## The fields -/

section

variable (u : Micro) (s : State) (h : mayRun u s = true)
include h

theorem cpuStep_sh : (cpuStep u s).scratch.sh = if needsShifter u s then (shifterOut u s).1 else 0#16 := by
  rw [(cpuStep_running u s h).2.1]

theorem cpuStep_rSelect : (cpuStep u s).scratch.rSelect = selectedR u s := by
  rw [(cpuStep_running u s h).2.1]
  rfl

theorem cpuStep_softReset : (cpuStep u s).scratch.softReset = softResetDue u s := by
  rw [(cpuStep_running u s h).2.1]

theorem cpuStep_nextModifier : (cpuStep u s).scratch.nextModifier = functionBits u s ||| hookBits u s := by
  rw [(cpuStep_running u s h).2.1]

theorem cpuStep_r :
    (cpuStep u s).r = if loadsR u s then Bank.put s.r (selectedR u s).toFin (shifterOut u s).1 else s.r :=
  congrArg State.r (cpuStep_running u s h).2.2

theorem cpuStep_sStore :
    (cpuStep u s).sStore = if u.bs = .loadS then Bank.put s.sStore (sIndex (newRb u s) u.rselect) s.m else s.sStore :=
  congrArg State.sStore (cpuStep_running u s h).2.2

theorem cpuStep_ir : (cpuStep u s).ir = if u.f2 = .loadIr then busWord u s else s.ir :=
  congrArg State.ir (cpuStep_running u s h).2.2

theorem cpuStep_skip :
    (cpuStep u s).skip = if u.f2 = .loadDns then (dnsOut u s).2
      else if u.f2 = .loadIr ∧ s.params.irClearsSkip = true then false else s.skip :=
  congrArg State.skip (cpuStep_running u s h).2.2

theorem cpuStep_novaCarry : (cpuStep u s).novaCarry = if u.f2 = .loadDns then (dnsOut u s).1 else s.novaCarry :=
  congrArg State.novaCarry (cpuStep_running u s h).2.2

theorem cpuStep_rb : (cpuStep u s).rb = newRb u s := congrArg State.rb (cpuStep_running u s h).2.2

theorem cpuStep_rmr :
    (cpuStep u s).rmr = if u.f1 = .loadRmr then busWord u s else if softResetDue u s then 0#16 else s.rmr :=
  congrArg State.rmr (cpuStep_running u s h).2.2

theorem cpuStep_bank : (cpuStep u s).bank = newBank u s := congrArg State.bank (cpuStep_running u s h).2.2

theorem cpuStep_mpc :
    (cpuStep u s).mpc = if softResetDue u s then (softReset s).mpc
      else Bank.put s.mpc s.currentTask (u.next ||| functionBits u s ||| hookBits u s) :=
  congrArg State.mpc (cpuStep_running u s h).2.2

theorem cpuStep_wakeup_running :
    (cpuStep u s).wakeup = if u.f1 = .block then Bank.put s.wakeup s.currentTask false
      else if softResetDue u s then (softReset s).wakeup else s.wakeup :=
  congrArg State.wakeup (cpuStep_running u s h).2.2

theorem cpuStep_firstAfterSwitch :
    (cpuStep u s).firstAfterSwitch = Bank.put s.firstAfterSwitch s.currentTask false :=
  congrArg State.firstAfterSwitch (cpuStep_running u s h).2.2

theorem cpuStep_memRd5 :
    (cpuStep u s).memRd5 = if u.f1 = .loadMar then false
      else s.memRd5 || (u.bs == .readMd && s.memActive && s.memCycle == 5) :=
  congrArg State.memRd5 (cpuStep_running u s h).2.2

theorem cpuStep_storeFlags :
    (cpuStep u s).dwStore = ((if u.f1 = .loadMar then false else s.dwStore)
        || (storesWord u && decide (s.memCycle = s.params.storeAfter + 1)))
    ∧ (cpuStep u s).dwMixed = ((if u.f1 = .loadMar then false else s.dwMixed) || storesWord u) :=
  ⟨congrArg State.dwStore (cpuStep_running u s h).2.2, congrArg State.dwMixed (cpuStep_running u s h).2.2⟩

theorem cpuStep_main :
    (cpuStep u s).main = if storesWord u then (memWrite (storeAddr s) (busWord u s) s).main else s.main :=
  congrArg State.main (cpuStep_running u s h).2.2

theorem cpuStep_xmBanks :
    (cpuStep u s).xmBanks = if storesWord u then (memWrite (storeAddr s) (busWord u s) s).xmBanks else s.xmBanks :=
  congrArg State.xmBanks (cpuStep_running u s h).2.2

theorem cpuStep_pending :
    (cpuStep u s).rdRamPending = (if u.f1 = .rdram then Bank.put (Bank.put s.rdRamPending s.currentTask false) 0 true
        else Bank.put s.rdRamPending s.currentTask false)
    ∧ (cpuStep u s).wrtRamPending = (if u.f1 = .wrtram then Bank.put (Bank.put s.wrtRamPending s.currentTask false) 0 true
        else Bank.put s.wrtRamPending s.currentTask false)
    ∧ (cpuStep u s).swModePending = (if u.f1 = .swmode then Bank.put (Bank.put s.swModePending s.currentTask false) 0 true
        else Bank.put s.swModePending s.currentTask false) :=
  ⟨congrArg State.rdRamPending (cpuStep_running u s h).2.2, congrArg State.wrtRamPending (cpuStep_running u s h).2.2,
    congrArg State.swModePending (cpuStep_running u s h).2.2⟩

/-! ## What may run -/

theorem mayRun_ready : allReady u s = true := ((mayStart_iff u s).mp (mayRun_mayStart u s h)).2.1

theorem mayRun_fits : u.fits (emulatorRuns s) = true := ((mayStart_iff u s).mp (mayRun_mayStart u s h)).2.2.1

theorem mayRun_harmless : hooksHarmless s.currentTask s = true := ((mayStart_iff u s).mp (mayRun_mayStart u s h)).2.2.2

theorem mayRun_mayReachShifter : mayReachShifter u s = true := ((mayRun_iff u s).mp h).1

theorem mayRun_mayReachF2 : mayReachF2 u s = true := ((mayReachShifter_iff u s).mp (mayRun_mayReachShifter u s h)).1

theorem mayRun_mayReachF1 : mayReachF1 u s = true := ((mayReachF2_iff u s).mp (mayRun_mayReachF2 u s h)).1

theorem mayRun_mayReachAlu : mayReachAlu u s = true := ((mayReachF1_iff u s).mp (mayRun_mayReachF1 u s h)).1

/-- LOAD_MAR runs on an idle bus only (20_memory.md R60). -/
theorem mayRun_idle (hf : u.f1 = .loadMar) : s.memActive = false := by
  have hready := mayRun_ready u s h
  simp only [allReady, readyLoadAddress, hf, Bool.and_eq_true] at hready
  simpa using hready.1.1

/-- The Emulator's F1 functions run in the Emulator. -/
theorem mayRun_emulator_f1 (hf : u.f1.fits false = false) : s.currentTask = 0 := by
  obtain ⟨-, hfits, -⟩ := (Micro.fits_iff _ u).mp (mayRun_fits u s h)
  by_contra hk
  have hemu : emulatorRuns s = false := by simp [emulatorRuns, hk]
  rw [hemu, hf] at hfits
  cases hfits

/-- And the task-specific codes run in the other tasks, which have no STARTF. -/
theorem mayRun_task (hf : u.bs.fits true = false ∨ u.f1.fits true = false ∨ u.f2.fits true = false) :
    u.f1 ≠ .startf := by
  obtain ⟨hbs, hf1, hf2⟩ := (Micro.fits_iff _ u).mp (mayRun_fits u s h)
  intro hstart
  have hemu : emulatorRuns s = true := by
    cases hemu : emulatorRuns s with
    | true => rfl
    | false =>
      rw [hemu, hstart] at hf1
      cases hf1
  rw [hemu] at hbs hf1 hf2
  rcases hf with e | e | e
  · exact absurd hbs (by simp [e])
  · exact absurd hf1 (by simp [e])
  · exact absurd hf2 (by simp [e])

end

/-! ## The forms of the rows -/

/-- A bus row, from the source word of its bus source. -/
theorem busRow_of_sourceWord (i : Instr) (source : Word) (P : State → Prop) (s : State)
    (hsource : sourceWord i.micro s = source) (hP : mayRun i.micro s = true → P (cpuStep i.micro s)) :
    busRow i source P s := fun h =>
  completesWith_of_cpuStep i s _ h ⟨by rw [cpuStep_busData i.micro s h, busWord, hsource], hP h⟩

/-- The next address, from the bits its functions OR in. -/
theorem nextAddress_of_functionBits (i : Instr) (bits : MicroAddr) (s : State) (h : mayRun i.micro s = true)
    (hbits : functionBits i.micro s = bits) : nextAddress i bits s (cpuStep i.micro s) := by
  unfold nextAddress
  rw [cpuStep_mpc i.micro s h, cpuStep_softReset i.micro s h, hbits]

theorem branchRow_of_functionBits (i : Instr) (s : State) (bits : State → MicroAddr) (P : State → Prop)
    (hbits : mayRun i.micro s = true → functionBits i.micro s = bits (cpuStep i.micro s))
    (hP : mayRun i.micro s = true → P (cpuStep i.micro s)) : branchRow i s bits P := fun h =>
  completesWith_of_cpuStep i s _ h ⟨nextAddress_of_functionBits i _ s h (hbits h), hP h⟩

/-- Nothing is ORed into the next address of a microinstruction without F2 function and without F1 hook. -/
theorem plainNext_of_no_startf (i : Instr) (s : State) (h : mayRun i.micro s = true) (hf : i.micro.f1 ≠ .startf) :
    plainNext i s (cpuStep i.micro s) := by
  intro hf2 hhooks
  have hf2hooks : f2Hooks i.micro = [] := by simp [f2Hooks, hf2]
  have hfunction : functionBits i.micro s = 0#10 := by simp [functionBits, branchBits, shifterBits, hf2]
  have hhook : hookBits i.micro s = 0#10 := by
    rw [hookBits_eq, hhooks, hf2hooks, actsAt_nil, modifierOf_nil, BitVec.or_zero]
  rw [cpuStep_mpc i.micro s h, softResetDue_of_ne_startf i.micro s hf, hfunction, hhook]
  simp

end Sys2Proof.Machine

/-! PROOFS. The bus rows (42_bus_sources.md R161 to R170, 46_emulator.md R236, R237) and the load of T (40_cycle.md R124). -/

namespace Sys2Proof.Machine

/-- LOAD_R writes R from the shifter. -/
theorem cpuStep_r_of_loadR (u : Micro) (s : State) (h : mayRun u s = true) (hb : u.bs = .loadR) :
    (cpuStep u s).r = Bank.put s.r (selectedR u s).toFin (shifterOut u s).1 := by
  have hload : loadsR u s = true := by simp [loadsR, hb]
  rw [cpuStep_r u s h, if_pos hload]

/-- The displacement as a word: the low byte of IR, and the high byte all ones if it is signed and negative. -/
theorem displacement_eq (ir : Word) :
    displacement ir = if ir.extractLsb' 8 2 = 0#2 then ir &&& 0x00FF#16
      else if ir.getLsbD 7 then ir ||| 0xFF00#16 else ir &&& 0x00FF#16 := by
  have hlow : (ir.extractLsb' 0 8).setWidth 16 = ir &&& 0x00FF#16 := by
    apply BitVec.eq_of_toNat_eq
    rw [BitVec.toNat_setWidth, BitVec.extractLsb'_toNat, BitVec.toNat_and, BitVec.toNat_ofNat]
    rw [show 255 % 2 ^ 16 = 2 ^ 8 - 1 from rfl, Nat.and_two_pow_sub_one_eq_mod, Nat.shiftRight_zero]
    omega
  have hmsb : (ir.extractLsb' 0 8).msb = ir.getLsbD 7 := by
    rw [BitVec.msb_eq_getLsbD_last]
    simp
  unfold displacement
  rw [hlow]
  split
  · rfl
  · split
    · rename_i hneg
      rw [BitVec.signExtend_eq_not_setWidth_not_of_msb_true (by rw [hmsb, hneg])]
      ext i hi
      interval_cases i <;> simp_all [BitVec.getLsbD_eq_getElem]
    · rename_i hneg
      rw [BitVec.signExtend_eq_setWidth_of_msb_false (by rw [hmsb]; simpa using hneg), hlow]

/-- The constant ROM's index as the spec writes it (30_encoding.md R92). -/
theorem constantIndex_eq (u : Micro) : constantIndex u = BitVec.ofNat 8 (u.rselect.toNat * 8 + u.bs.code.toNat) := by
  apply BitVec.eq_of_toNat_eq
  have hr := u.rselect.isLt
  have hb := u.bs.code.isLt
  rw [constantIndex, toNat_append_add, BitVec.toNat_ofNat]
  omega

theorem constMask_of_constant (u : Micro) (s : State) (h : u.f1 = .constant ∨ u.f2 = .constant) :
    constMask u s = constRomWord s.params (BitVec.ofNat 8 (u.rselect.toNat * 8 + u.bs.code.toNat)) := by
  have haccess : constantAccessOrBS4 u = true := by
    rcases h with h | h <;> simp [constantAccessOrBS4, constantAccess, h]
  rw [constMask, if_pos haccess, constantValue, constantIndex_eq]

theorem nodeMask_of_ne (u : Micro) (s : State) (h : u.f1 ≠ .rsnf) : nodeMask u s = 0xFFFF#16 := if_neg h

/-- READ_MOUSE calls the device (R167). -/
theorem cpuStep_calls_mouse (u : Micro) (s : State) (h : mayRun u s = true) (hb : u.bs = .readMouse) :
    DeviceCall.mouse ∈ (cpuStep u s).deviceCalls := by
  refine (busSource_calls u s h).mem ?_
  simp only [busSource, hb]
  exact List.mem_cons_self

/-- The hook of a bus source makes its calls (40_cycle.md R132). -/
theorem cpuStep_hookCalled_bus (u : Micro) (s : State) (p : HookPoint) (h : mayRun u s = true) (hp : busHooks u = [p])
    (hbus : ∀ x, busSource u s.currentTask x = busHook s.currentTask p x) : hookCalled p s (cpuStep u s) := by
  intro d hd
  obtain ⟨hstart, hpres, -⟩ := (mayReachAlu_iff u s).mp (mayRun_mayReachAlu u s h)
  have hsome : (hookAnswer s.currentTask p s).isSome = true := by simpa [hooksPresent, hp] using hpres
  refine (busSource_calls u s h).mem ?_
  rw [hbus, afterSelect_eq u s hstart, busHook_harmless p s (selected u s) (mayRun_harmless u s h) rfl
    ((mayStart_iff u s).mp hstart).1 hsome]
  exact List.mem_append_left _ (mem_callsOf _ _ d hd)

end Sys2Proof.Machine

namespace Sys2Proof

open Sys2Proof.Machine

/-- Settles O8: `cpuStep_running`. -/
theorem everyInstructionRuns : Obligations.EveryInstructionRuns := by
  intro i s h
  refine ⟨_, exec_eq i s, (cpuStep_running i.micro s h).1, ?_, ?_⟩
  · rw [cpuStep_completion i.micro s h]
    split
    · exact .inr rfl
    · exact .inl rfl
  · rw [cpuStep_firstAfterSwitch i.micro s h, Bank.get_put_same]

/-- Settles O12. -/
theorem genericBusRows : Obligations.GenericBusRows := by
  intro u s
  exact ⟨busRow_of_sourceWord _ _ _ s rfl fun _ => trivial,
    busRow_of_sourceWord _ _ _ s rfl fun h => cpuStep_r_of_loadR _ s h rfl,
    busRow_of_sourceWord _ _ _ s rfl fun _ => trivial⟩

/-- Settles O13: the write of the S store uses `rb` as the tick leaves it. -/
theorem sStoreRows : Obligations.SStoreRows := by
  intro u s
  refine ⟨busRow_of_sourceWord _ _ _ s rfl fun _ => cpuStep_sStore_of_ne _ s nofun,
    busRow_of_sourceWord _ _ _ s rfl fun h => ?_⟩
  rw [cpuStep_sStore _ s h, cpuStep_rb _ s h]
  rfl

/-- Settles O14: a read in cycle 5 marks itself, since no LOAD_MAR runs with an operation active. -/
theorem memoryMouseDispRows : Obligations.MemoryMouseDispRows := by
  intro u s
  refine ⟨busRow_of_sourceWord _ _ _ s rfl fun h hactive hcycle => ?_,
    busRow_of_sourceWord _ _ _ s rfl fun h => cpuStep_calls_mouse _ s h rfl,
    busRow_of_sourceWord _ _ _ s (displacement_eq s.ir) fun _ => trivial⟩
  have hmar : (Instr.bsReadMd u).micro.f1 ≠ .loadMar := fun hf => by
    rw [mayRun_idle _ s h hf] at hactive
    cases hactive
  rw [cpuStep_memRd5 _ s h, if_neg hmar, hactive, hcycle]
  exact Bool.or_true _

/-- Settles O15. -/
theorem taskBusRows : Obligations.TaskBusRows := by
  intro u s
  exact ⟨busRow_of_sourceWord _ _ _ s rfl fun h => ⟨cpuStep_hookCalled_bus _ s .bs3 h rfl fun _ => rfl,
      plainNext_of_no_startf (.bsTaskSpecific1 u) s h (mayRun_task _ s h (.inl rfl))⟩,
    busRow_of_sourceWord _ _ _ s rfl fun h => ⟨cpuStep_hookCalled_bus _ s .bs4 h rfl fun _ => rfl,
      plainNext_of_no_startf (.bsTaskSpecific2 u) s h (mayRun_task _ s h (.inl rfl))⟩⟩

/-- Settles O16: the constant mask is the ROM's word, and F1 CONSTANT is not RSNF. -/
theorem constantRows : Obligations.ConstantRows := by
  intro u s
  refine ⟨fun h => completesWith_of_cpuStep (.f1Constant u) s _ h ?_,
    fun h => completesWith_of_cpuStep (.f2Constant u) s _ h ?_⟩
  · rw [cpuStep_busData _ s h, busWord, busMask, constMask_of_constant _ s (.inl rfl),
      nodeMask_of_ne (Instr.f1Constant u).micro s nofun, and_ones, BitVec.and_assoc]
    rfl
  · rw [cpuStep_busData _ s h, busWord, busMask, constMask_of_constant _ s (.inr rfl), BitVec.and_assoc, BitVec.and_assoc,
      BitVec.and_assoc]
    rfl

theorem loadTFromAlu_iff (f : AluFn) :
    loadTFromAlu f = true ↔ f ∈ [.bus, .busOrT, .busPlus1, .busMinus1, .busPlusTPlus1, .busPlusSkip, .aluBusAndT] := by
  cases f <;> decide

/-- Settles O31. -/
theorem loadTRow : Obligations.LoadTRow := by
  intro u s
  refine ⟨aluRow_of_alu (.aluAluBusAndT u) _ s fun _ _ _ => rfl, fun h => completesWith_of_cpuStep (.lt u) s _ h ?_⟩
  obtain ⟨ht, haddr⟩ := cpuStep_loadT _ s h rfl
  exact ⟨ht.trans (if_congr (loadTFromAlu_iff u.aluf) rfl rfl), haddr⟩

end Sys2Proof

/-! PROOFS. The F1 rows (44_f1.md R195 to R203, 46_emulator.md R240 to R246). -/

namespace Sys2Proof.Machine

/-! ## The shift functions -/

theorem shifterOut_lLsh1 (u : Micro) (s : State) (h : u.f1 = .lLsh1) :
    (shifterOut u s).1 = if u.f2 = .magic then (s.l <<< 1) ||| lowBit (s.t.getLsbD 15)
      else if u.f2 = .loadDns then (s.l <<< 1) ||| lowBit (dnsCarryIn u s) else s.l <<< 1 := by
  simp only [shifterOut, h]
  split
  · rfl
  · split <;> rfl

theorem shifterOut_lRsh1 (u : Micro) (s : State) (h : u.f1 = .lRsh1) :
    (shifterOut u s).1 = if u.f2 = .magic then (s.l >>> 1) ||| highBit (s.t.getLsbD 0)
      else if u.f2 = .loadDns then (s.l >>> 1) ||| highBit (dnsCarryIn u s) else s.l >>> 1 := by
  simp only [shifterOut, h]
  split
  · rfl
  · split <;> rfl

theorem byteSwap_eq (x : Word) : byteSwap x = x.extractLsb' 0 8 ++ x.extractLsb' 8 8 := by
  unfold byteSwap
  ext i hi
  rw [BitVec.getElem_append]
  split
  · simp [*]
  · have hhigh : 16 ≤ 8 + i := by omega
    simp [*, BitVec.getLsbD_eq_getElem (show i - 8 < 16 by omega), BitVec.getLsbD_of_ge]

theorem shifterOut_lLcy8 (u : Micro) (s : State) (h : u.f1 = .lLcy8) :
    shifterOut u s = (s.l.extractLsb' 0 8 ++ s.l.extractLsb' 8 8, dnsCarryIn u s) := by
  simp only [shifterOut, h, byteSwap_eq]

/-- The output of the shifter, where it runs. -/
theorem cpuStep_sh_of_needed (u : Micro) (s : State) (h : mayRun u s = true) (hneeded : needsShifter u s = true) :
    (cpuStep u s).scratch.sh = (shifterOut u s).1 := by
  rw [cpuStep_sh u s h, if_pos hneeded]

/-- A microinstruction without TASK completes NORMAL (60_exceptions.md R275). -/
theorem cpuStep_completion_normal (u : Micro) (s : State) (h : mayRun u s = true) (hf : u.f1 ≠ .task) :
    (cpuStep u s).completion = .normal := by
  rw [cpuStep_completion u s h, if_neg fun e => hf e.1]

/-! ## The carried flags -/

/-- The control-RAM word a due WRTRAM has written (20_memory.md R76). -/
theorem cpuStep_cramWord (u : Micro) (s : State) (h : mayRun u s = true) (p : Nat) (hp : cramWord s = some p) :
    (cpuStep u s).uram.readMicro p = (s.m ++ (cpuStep u s).scratch.alu) ^^^ s.params.cramXor := by
  unfold cramWord at hp
  split at hp
  · rename_i hdue
    obtain ⟨hpending, hram, hbank⟩ := hdue
    obtain rfl := Option.some.inj hp
    rw [cpuStep_uram u s h, if_pos hpending, cpuStep_alu u s h, cramWrite,
      if_neg (by rw [hram]; exact Bool.false_ne_true), if_neg (by omega)]
    exact Memory.readMicro_writeMicro_same ..
  · cases hp

theorem bankBefore_eq (u : Micro) (s : State) (h : mayRun u s = true) :
    bankBefore u s = if (cpuStep u s).scratch.softReset = true then (softReset s).bank else s.bank := by
  rw [cpuStep_softReset u s h]
  rfl

/-- With one ROM and one RAM bank a switch exchanges ROM0 and RAM0 (20_memory.md R73). -/
theorem swModeTarget_exchange (p : Params) (a : MicroAddr) (hrom : p.romBanks = 1) (hram : p.ramBanks = 1) :
    swModeTarget p .rom0 a = some .ram0 ∧ swModeTarget p .ram0 a = some .rom0 := by
  unfold swModeTarget
  rw [if_pos ⟨hrom, hram⟩, if_pos ⟨hrom, hram⟩]
  exact ⟨rfl, rfl⟩

/-- A due SWMODE, without a soft reset. -/
theorem cpuStep_bank_exchange (u : Micro) (s : State) (h : mayRun u s = true)
    (hdue : Bank.get s.swModePending s.currentTask = true) (hsoft : (cpuStep u s).scratch.softReset = false)
    (b c : BankName) (hb : Bank.get s.bank s.currentTask = b) (hc : swModeTarget s.params b u.next = some c) :
    Bank.get (cpuStep u s).bank s.currentTask = c := by
  have hbefore : bankBefore u s = s.bank := by
    rw [bankBefore_eq u s h, hsoft]
    rfl
  obtain ⟨c', htarget, hnew⟩ := newBank_due u s h hdue
  rw [hbefore, hb, hc] at htarget
  rw [cpuStep_bank u s h, hnew, Bank.get_put_same, Option.some.inj htarget]

theorem cpuStep_uram_of_not_due (u : Micro) (s : State) (h : mayRun u s = true)
    (hdue : Bank.get s.wrtRamPending s.currentTask = false) : (cpuStep u s).uram = s.uram := by
  rw [cpuStep_uram u s h, hdue]
  rfl

/-! ## RSNF and STARTF -/

theorem afterBus_calls (u : Micro) (s : State) (h : mayRun u s = true) : Grows (afterBus u s) (cpuStep u s) :=
  (afterAlu_logged u s).grows.trans ((afterF1_grows u s).trans (afterF1_calls u s h).grows)

/-- RSNF calls the device (46_emulator.md R245). -/
theorem cpuStep_calls_nodeId (u : Micro) (s : State) (h : mayRun u s = true) (hf : u.f1 = .rsnf) :
    DeviceCall.nodeId ∈ (cpuStep u s).deviceCalls := by
  refine (afterBus_calls u s h).mem ?_
  unfold afterBus earlyBus
  rw [if_pos hf]
  exact List.mem_cons_self

/-- The word STARTF looks at is the one the bus holds after the microinstruction. -/
theorem afterAlu_busData (u : Micro) (s : State) (h : mayRun u s = true) :
    (afterAlu u s).scratch.busData = (cpuStep u s).scratch.busData := by
  rw [cpuStep_busData u s h, afterAlu_eq u s (mayRun_mayReachF1 u s h)]
  rfl

theorem afterF1_startf (u : Micro) (s : State) (hf : u.f1 = .startf) : afterF1 u s = f1Startf (afterAlu u s) := by
  simp only [afterF1, runF1, hf]

/-- The calls of STARTF in the log are those F1 has made of it. -/
theorem cpuStep_startf_count (u : Micro) (s : State) (h : mayRun u s = true) (hf : u.f1 = .startf) (d : Word) :
    (cpuStep u s).deviceCalls.count (.startf d) = (f1Startf (afterAlu u s)).deviceCalls.count (.startf d) := by
  rw [← afterF1_startf u s hf]
  exact (afterF1_calls u s h).startf_count d

/-- A word that is zero or asks for a soft reset is not handed to the device (R246). -/
theorem cpuStep_startf_silent (u : Micro) (s : State) (h : mayRun u s = true) (hf : u.f1 = .startf)
    (hbus : (cpuStep u s).scratch.busData.getLsbD 15 = true ∨ (cpuStep u s).scratch.busData = 0#16) (d : Word) :
    (cpuStep u s).deviceCalls.count (.startf d) = s.deviceCalls.count (.startf d) := by
  rw [cpuStep_startf_count u s h hf, ← (beforeF1_logged u s).startf_count d, f1Startf, afterAlu_busData u s h]
  rcases hbus with hbit | hzero
  · rw [if_pos hbit]
    rfl
  · rw [hzero, if_neg (by decide), if_neg (by simp)]

/-- Any other word is, once. -/
theorem cpuStep_startf_call (u : Micro) (s : State) (h : mayRun u s = true) (hf : u.f1 = .startf)
    (hbit : (cpuStep u s).scratch.busData.getLsbD 15 = false) (hword : (cpuStep u s).scratch.busData ≠ 0#16) :
    DeviceCall.startf (cpuStep u s).scratch.busData ∈ (cpuStep u s).deviceCalls
    ∧ ∀ d, (cpuStep u s).deviceCalls.count (.startf d)
        = s.deviceCalls.count (.startf d) + if d = (cpuStep u s).scratch.busData then 1 else 0 := by
  have hf1 : f1Startf (afterAlu u s) = (afterAlu u s).logCall (.startf (cpuStep u s).scratch.busData) := by
    rw [f1Startf, afterAlu_busData u s h, if_neg (by rw [hbit]; exact Bool.false_ne_true), if_pos hword]
  refine ⟨(afterF1_calls u s h).mem ?_, fun d => ?_⟩
  · rw [afterF1_startf u s hf, hf1]
    exact List.mem_cons_self
  · rw [cpuStep_startf_count u s h hf, hf1, ← (beforeF1_logged u s).startf_count d]
    simp only [State.logCall, List.count_cons, beq_iff_eq, DeviceCall.startf.injEq]
    exact congrArg _ (if_congr eq_comm rfl rfl)

theorem softResetDue_startf (u : Micro) (s : State) (h : mayRun u s = true) (hf : u.f1 = .startf) :
    softResetDue u s = (cpuStep u s).scratch.busData.getLsbD 15 := by
  rw [softResetDue, hf, cpuStep_busData u s h]
  rfl

/-- The soft reset of a STARTF: all it sets but for the bank switch that may be due as well. -/
theorem cpuStep_of_softReset (u : Micro) (s : State) (h : mayRun u s = true) (hf : u.f1 = .startf)
    (hsoft : softResetDue u s = true) :
    (cpuStep u s).rmr = 0#16 ∧ (cpuStep u s).currentTask = 0 ∧ (cpuStep u s).nextTask = none
      ∧ (cpuStep u s).mpc = (softReset s).mpc ∧ (cpuStep u s).wakeup = (softReset s).wakeup
      ∧ bankBefore u s = banksOfRmr s.rmr := by
  obtain ⟨-, -, hstep⟩ := cpuStep_running u s h
  refine ⟨?_, ?_, ?_, ?_, ?_, if_pos hsoft⟩
  · rw [cpuStep_rmr u s h, hf, hsoft]
    rfl
  · exact (congrArg State.currentTask hstep).trans (if_pos hsoft)
  · exact (congrArg State.nextTask hstep).trans (if_pos hsoft)
  · exact (cpuStep_mpc u s h).trans (if_pos hsoft)
  · rw [cpuStep_wakeup_running u s h, hf, hsoft]
    rfl

/-- Without a soft reset STARTF leaves the scheduler's state and `rmr` alone. -/
theorem cpuStep_of_no_softReset (u : Micro) (s : State) (h : mayRun u s = true) (hf : u.f1 = .startf)
    (hsoft : softResetDue u s = false) :
    (cpuStep u s).rmr = s.rmr ∧ (cpuStep u s).wakeup = s.wakeup ∧ (cpuStep u s).currentTask = s.currentTask
      ∧ (cpuStep u s).nextTask = s.nextTask ∧ bankBefore u s = s.bank := by
  obtain ⟨-, -, hstep⟩ := cpuStep_running u s h
  have hnot : ¬softResetDue u s = true := by simp [hsoft]
  refine ⟨?_, ?_, ?_, ?_, if_neg hnot⟩
  · rw [cpuStep_rmr u s h, hf, hsoft]
    rfl
  · rw [cpuStep_wakeup_running u s h, hf, hsoft]
    rfl
  · exact (congrArg State.currentTask hstep).trans (if_neg hnot)
  · exact (congrArg State.nextTask hstep).trans (if_neg hnot)

theorem newBank_of_not_due (u : Micro) (s : State) (h : Bank.get s.swModePending s.currentTask = false) :
    newBank u s = bankBefore u s := by
  rw [newBank, h]
  rfl

/-! ## BLOCK and the hooks of the codes -/

theorem or_and_of_and {w : Nat} (x y a : BitVec w) (h : y &&& a = a ∨ x &&& a = a) : (x ||| y) &&& a = a := by
  ext i hi
  have hbit : (y[i] && a[i]) = a[i] ∨ (x[i] && a[i]) = a[i] := by
    simp only [← BitVec.getElem_and]
    exact h.imp (fun e => by rw [e]) (fun e => by rw [e])
  rw [BitVec.getElem_and, BitVec.getElem_or, Bool.and_or_distrib_right]
  rcases hbit with e | e <;> rw [e] <;> cases a[i] <;> simp

/-- The bits a hook of step 7 or 8 asks for are in the next address. -/
theorem cpuStep_mpc_hook (u : Micro) (s : State) (p : HookPoint) (h : mayRun u s = true) (hf : u.f1 ≠ .startf)
    (hp : f1Hooks u = [p] ∨ f2Hooks u = [p]) (a : MicroAddr) (ha : HookAction.orNextModifier a ∈ hookActs p s) :
    Bank.get (cpuStep u s).mpc s.currentTask &&& a = a := by
  have hacts : modifierOf (actsAt [p] s) &&& a = a := by
    rw [actsAt_singleton]
    exact mem_modifierOf _ a ha
  have hbits : hookBits u s &&& a = a := by
    rw [hookBits_eq]
    rcases hp with hp | hp
    · exact or_and_of_and _ _ a (.inr (by rw [hp]; exact hacts))
    · exact or_and_of_and _ _ a (.inl (by rw [hp]; exact hacts))
  rw [cpuStep_mpc u s h, softResetDue_of_ne_startf u s hf]
  simp only [Bool.false_eq_true, if_false, Bank.get_put_same]
  exact or_and_of_and _ _ a (.inl hbits)

/-- A present code hook makes its calls. -/
theorem codeHook_calls (u : Micro) (s x : State) (p : HookPoint) (f : Fault) (h : mayRun u s = true)
    (hsome : (hookAnswer s.currentTask p s).isSome = true) (hx : x.halted = none) (hparams : x.params = s.params) (d : Word)
    (hd : HookAction.device d ∈ hookActs p s) :
    DeviceCall.hook s.currentTask d ∈ (codeHook s.currentTask p f x).deviceCalls := by
  rw [codeHook_harmless p f s x (mayRun_harmless u s h) hparams hx hsome]
  exact List.mem_append_left _ (mem_callsOf _ _ d hd)

/-- The hook of an F1 code runs (44_f1.md R203). -/
theorem cpuStep_hookRan_f1 (u : Micro) (s : State) (p : HookPoint) (h : mayRun u s = true) (hp : f1Hooks u = [p])
    (hfits : u.f1.fits true = false) (hrun : ∀ x, runF1 u s.currentTask x = codeHook s.currentTask p .f1 x) :
    hookRan p s (cpuStep u s) := by
  obtain ⟨-, -, hpres, -⟩ := (mayReachF2_iff u s).mp (mayRun_mayReachF2 u s h)
  have hsome : (hookAnswer s.currentTask p s).isSome = true := by simpa [hooksPresent, hp] using hpres
  refine ⟨cpuStep_mpc_hook u s p h (mayRun_task u s h (.inr (.inl hfits))) (.inl hp), fun d hd => ?_⟩
  refine (afterF1_calls u s h).mem ?_
  have hreach := mayRun_mayReachF1 u s h
  rw [afterF1, hrun]
  exact codeHook_calls u s _ p .f1 h hsome (cpuStep_from_f1 u s hreach).1 (by rw [afterAlu_eq u s hreach]; rfl) d hd

/-- The hook of an F2 code runs (45_f2.md R223). -/
theorem cpuStep_hookRan_f2 (u : Micro) (s : State) (p : HookPoint) (h : mayRun u s = true) (hp : f2Hooks u = [p])
    (hfits : u.f2.fits true = false) (hrun : ∀ x, runF2 u s.currentTask x = codeHook s.currentTask p .f2 x) :
    hookRan p s (cpuStep u s) := by
  obtain ⟨hreach, -, hpres, -⟩ := (mayReachShifter_iff u s).mp (mayRun_mayReachShifter u s h)
  have hsome : (hookAnswer s.currentTask p s).isSome = true := by simpa [hooksPresent, hp] using hpres
  refine ⟨cpuStep_mpc_hook u s p h (mayRun_task u s h (.inr (.inr hfits))) (.inr hp), fun d hd => ?_⟩
  refine (afterF2_calls u s h).mem ?_
  obtain ⟨hrunning, hparams, -⟩ := afterF1_running u s hreach
  rw [afterF2, hrun]
  exact codeHook_calls u s _ p .f2 h hsome hrunning hparams d hd

/-- The block hook runs at step 14 (40_cycle.md R129). -/
theorem cpuStep_hookCalled_block (u : Micro) (s : State) (h : mayRun u s = true) (hf : u.f1 = .block) :
    hookCalled .block s (cpuStep u s) := by
  intro d hd
  obtain ⟨-, hlate, hswitch⟩ := afterHooks_eq u s h
  have hwrites : afterWrites u s = _ := writes_eq u s.currentTask (afterShifter u s)
  have hfired : (afterWrites u s).scratch.blockFired = true := by
    rw [hwrites, afterShifter_eq u s h, hf]
    rfl
  have hparams : (afterWrites u s).params = s.params := by rw [hwrites, afterShifter_eq u s h]
  have hrunning : (afterWrites u s).halted = none := by
    rw [hwrites, afterShifter_eq u s h]
    exact ((mayStart_iff u s).mp (mayRun_mayStart u s h)).1
  have hlateEq := lateF2_running u s (afterWrites u s) (mayRun_mayStart u s h) hrunning hparams
  have hhook : DeviceCall.hook s.currentTask d ∈ (afterHooks u s).deviceCalls := by
    unfold afterHooks blockHook
    rw [if_pos (by rw [switchBank_frame, hlateEq]; exact hfired),
      optionalHook_harmless .block s _ (mayRun_harmless u s h) (by rw [switchBank_frame, hlateEq]; exact hparams) hswitch]
    exact List.mem_append_left _ (mem_callsOf _ _ d hd)
  rw [(cpuStep_eq_afterHooks u s h).1, finish_frame, advance_frame]
  exact hhook

end Sys2Proof.Machine

namespace Sys2Proof

open Sys2Proof.Machine

/-- Settles O17. -/
theorem noneAndShiftRows : Obligations.NoneAndShiftRows := by
  intro u s
  refine ⟨fun h => completesWith_of_cpuStep (.f1None u) s _ h ⟨cpuStep_completion_normal _ s h nofun,
      cpuStep_wakeup _ s h nofun nofun, cpuStep_rmr_of_ne _ s nofun nofun, cpuStep_rb_of_ne _ s nofun,
      cpuStep_sh_of_needed _ s h⟩,
    fun h => completesWith_of_cpuStep (.f1LLsh1 u) s _ h fun hneeded => ?_,
    fun h => completesWith_of_cpuStep (.f1LRsh1 u) s _ h fun hneeded => ?_,
    fun h => completesWith_of_cpuStep (.f1LLcy8 u) s _ h fun hneeded => ?_⟩
  · exact (cpuStep_sh_of_needed _ s h hneeded).trans (shifterOut_lLsh1 _ s rfl)
  · exact (cpuStep_sh_of_needed _ s h hneeded).trans (shifterOut_lRsh1 _ s rfl)
  · rw [cpuStep_sh_of_needed _ s h hneeded, shifterOut_lLcy8 _ s rfl]

/-- Settles O18: `cpuStep_running` has the operation, and a store with LOAD_MAR is none. -/
theorem loadMarRow : Obligations.LoadMarRow := by
  intro u s h
  obtain ⟨-, -, hstep⟩ := cpuStep_running (Instr.f1LoadMar u).micro s h
  have hstores : storesWord (Instr.f1LoadMar u).micro = false := Bool.and_false _
  have hxmar : isXmar s.params (Instr.f1LoadMar u).micro = decide (s.params.system = .altoII ∧ u.f2 = .storeMd) := by
    rw [Bool.eq_iff_iff]
    simp [isXmar, Instr.micro, and_comm]
  have hflags := cpuStep_storeFlags _ s h
  rw [hstores] at hflags
  exact completesWith_of_cpuStep (.f1LoadMar u) s _ h ⟨(congrArg State.memActive hstep).trans (Bool.or_true _),
    congrArg State.memCycle hstep, (congrArg State.memAddr hstep).trans (cpuStep_alu _ s h).symm,
    congrArg State.memTask hstep, (congrArg State.memXM hstep).trans hxmar, hflags.1, hflags.2,
    congrArg State.memRd5 hstep, by rw [cpuStep_main _ s h, hstores]; rfl⟩

/-- Settles O20: the three rows run in the Emulator, so the flag they set and those they consume are in one cell. -/
theorem carriedFlagRows : Obligations.CarriedFlagRows := by
  intro u s
  refine ⟨fun h => ?_, fun h => ?_, fun h => ?_, fun i h => ?_⟩
  · have hk := mayRun_emulator_f1 _ s h rfl
    obtain ⟨hrd, hwrt, hsw⟩ := cpuStep_pending _ s h
    refine completesWith_of_cpuStep (.f1Swmode u) s _ h ⟨?_, ?_, ?_, fun hdue => ?_⟩
    · rw [hsw]; exact Bank.get_put_same ..
    · rw [hwrt, hk]; exact Bank.get_put_same ..
    · rw [hrd, hk]; exact Bank.get_put_same ..
    · exact cpuStep_bank_of_not_due _ s nofun (by rw [hk]; exact hdue)
  · have hk := mayRun_emulator_f1 _ s h rfl
    obtain ⟨hrd, hwrt, hsw⟩ := cpuStep_pending _ s h
    refine completesWith_of_cpuStep (.f1Wrtram u) s _ h ⟨?_, ?_, ?_, fun hdue => ?_⟩
    · rw [hwrt]; exact Bank.get_put_same ..
    · rw [hsw, hk]; exact Bank.get_put_same ..
    · rw [hrd, hk]; exact Bank.get_put_same ..
    · exact cpuStep_uram_of_not_due _ s h (by rw [hk]; exact hdue)
  · have hk := mayRun_emulator_f1 _ s h rfl
    obtain ⟨hrd, hwrt, hsw⟩ := cpuStep_pending _ s h
    refine completesWith_of_cpuStep (.f1Rdram u) s _ h ⟨?_, ?_, ?_⟩
    · rw [hrd]; exact Bank.get_put_same ..
    · rw [hsw, hk]; exact Bank.get_put_same ..
    · rw [hwrt, hk]; exact Bank.get_put_same ..
  · refine completesWith_of_cpuStep i s _ h ⟨cpuStep_cramWord _ s h, fun hdue => ⟨?_, fun hsoft hrom hram => ?_⟩⟩
    · rw [← bankBefore_eq _ s h, cpuStep_bank _ s h]
      exact newBank_due _ s h hdue
    · obtain ⟨htoRam, htoRom⟩ := swModeTarget_exchange s.params i.micro.next hrom hram
      exact ⟨fun hb => cpuStep_bank_exchange _ s h hdue hsoft _ _ hb htoRam,
        fun hb => cpuStep_bank_exchange _ s h hdue hsoft _ _ hb htoRom⟩

/-- Settles O21. -/
theorem controlRegisterRows : Obligations.ControlRegisterRows := by
  intro u s
  refine ⟨fun h => completesWith_of_cpuStep (.f1LoadRmr u) s _ h ⟨?_, fun hdue => ?_⟩,
    fun h => completesWith_of_cpuStep (.f1LoadEsrb u) s _ h ?_,
    fun h => completesWith_of_cpuStep (.f1Rsnf u) s _ h ⟨?_, cpuStep_calls_nodeId _ s h rfl⟩⟩
  · rw [cpuStep_rmr _ s h, cpuStep_busData _ s h]
    rfl
  · exact cpuStep_bank_of_not_due _ s nofun (by rw [mayRun_emulator_f1 _ s h rfl]; exact hdue)
  · rw [cpuStep_rb _ s h, cpuStep_busData _ s h]
    rfl
  · rw [cpuStep_busData _ s h, busWord, busMask, BitVec.and_assoc, BitVec.and_assoc, BitVec.and_assoc]
    rfl

/-- Settles O22: bit 15 of the bus is what tells the soft reset, and the word itself what tells the call. -/
theorem startfRow : Obligations.StartfRow := by
  intro u s h
  have hsoft := softResetDue_startf _ s h rfl
  have hk := mayRun_emulator_f1 _ s h rfl
  have hbank : Bank.get s.swModePending 0 = false →
      (cpuStep (Instr.f1Startf u).micro s).bank = bankBefore (Instr.f1Startf u).micro s := fun hdue =>
    (cpuStep_bank _ s h).trans (newBank_of_not_due _ s (by rw [hk]; exact hdue))
  refine completesWith_of_cpuStep (.f1Startf u) s _ h ⟨fun hbit => ?_, fun hbit hword => ?_, fun hzero => ?_⟩
  · obtain ⟨hrmr, htask, hnext, hmpc, hwakeup, hbefore⟩ := cpuStep_of_softReset _ s h rfl (hsoft.trans hbit)
    refine ⟨hrmr, htask, hnext, fun k hp => ?_, fun hdue k => ?_, fun hp => ?_,
      cpuStep_startf_silent _ s h rfl (.inl hbit)⟩
    · rw [hmpc, softReset, Bank.get_tabulate, if_pos hp]
    · rw [hbank hdue, hbefore, banksOfRmr, Bank.get_tabulate]
    · exact hwakeup.trans (if_pos hp)
  · obtain ⟨hrmr, hwakeup, -, -, hbefore⟩ := cpuStep_of_no_softReset _ s h rfl (hsoft.trans hbit)
    obtain ⟨hcall, hcount⟩ := cpuStep_startf_call _ s h rfl hbit hword
    exact ⟨hcall, hrmr, hwakeup, fun hdue => (hbank hdue).trans hbefore, hcount⟩
  · have hbit : softResetDue (Instr.f1Startf u).micro s = false := by
      rw [hsoft, hzero]
      rfl
    obtain ⟨hrmr, hwakeup, htask, hnext, hbefore⟩ := cpuStep_of_no_softReset _ s h rfl hbit
    exact ⟨hrmr, hwakeup, htask, hnext, fun hdue => (hbank hdue).trans hbefore,
      cpuStep_startf_silent _ s h rfl (.inr hzero)⟩

/-- Settles O23. -/
theorem blockAndTaskF1Rows : Obligations.BlockAndTaskF1Rows := by
  intro u s
  refine ⟨fun h => completesWith_of_cpuStep (.f1Block u) s _ h ⟨cpuStep_completion_normal _ s h nofun,
      cpuStep_currentTask _ s nofun, ?_, cpuStep_hookCalled_block _ s h rfl, plainNext_of_no_startf (.f1Block u) s h nofun⟩,
    fun h => completesWith_of_cpuStep _ s _ h (cpuStep_hookRan_f1 _ s _ h rfl rfl fun _ => rfl),
    fun h => completesWith_of_cpuStep _ s _ h (cpuStep_hookRan_f1 _ s _ h rfl rfl fun _ => rfl),
    fun h => completesWith_of_cpuStep _ s _ h (cpuStep_hookRan_f1 _ s _ h rfl rfl fun _ => rfl),
    fun h => completesWith_of_cpuStep _ s _ h (cpuStep_hookRan_f1 _ s _ h rfl rfl fun _ => rfl),
    fun h => completesWith_of_cpuStep _ s _ h (cpuStep_hookRan_f1 _ s _ h rfl rfl fun _ => rfl),
    fun h => completesWith_of_cpuStep _ s _ h (cpuStep_hookRan_f1 _ s _ h rfl rfl fun _ => rfl),
    fun h => completesWith_of_cpuStep _ s _ h (cpuStep_hookRan_f1 _ s _ h rfl rfl fun _ => rfl),
    fun h => completesWith_of_cpuStep _ s _ h (cpuStep_hookRan_f1 _ s _ h rfl rfl fun _ => rfl)⟩
  exact cpuStep_wakeup_running _ s h

/-- Settles O30. -/
theorem taskF2Rows : Obligations.TaskF2Rows := by
  intro u s
  exact ⟨fun h => completesWith_of_cpuStep _ s _ h (cpuStep_hookRan_f2 _ s _ h rfl rfl fun _ => rfl),
    fun h => completesWith_of_cpuStep _ s _ h (cpuStep_hookRan_f2 _ s _ h rfl rfl fun _ => rfl),
    fun h => completesWith_of_cpuStep _ s _ h (cpuStep_hookRan_f2 _ s _ h rfl rfl fun _ => rfl),
    fun h => completesWith_of_cpuStep _ s _ h (cpuStep_hookRan_f2 _ s _ h rfl rfl fun _ => rfl),
    fun h => completesWith_of_cpuStep _ s _ h (cpuStep_hookRan_f2 _ s _ h rfl rfl fun _ => rfl),
    fun h => completesWith_of_cpuStep _ s _ h (cpuStep_hookRan_f2 _ s _ h rfl rfl fun _ => rfl),
    fun h => completesWith_of_cpuStep _ s _ h (cpuStep_hookRan_f2 _ s _ h rfl rfl fun _ => rfl),
    fun h => completesWith_of_cpuStep _ s _ h (cpuStep_hookRan_f2 _ s _ h rfl rfl fun _ => rfl)⟩

end Sys2Proof

/-! PROOFS. The F2 rows (45_f2.md R211 to R224, 46_emulator.md R250 to R257) and the row of any microinstruction. -/

namespace Sys2Proof.Machine

/-! ## Next-address bits -/

/-- The bits LOAD_IR ORs in, from bit 15 and bits 10:8 of the bus (46_emulator.md R252). -/
theorem loadIrModifier_eq (w : Word) :
    loadIrModifier w = (if w.getLsbD 15 then 8#10 else 0#10) ||| (w.extractLsb' 8 3).setWidth 10 := by
  have hbit : w.extractLsb' 15 1 = BitVec.ofBool (w.getLsbD 15) := by
    ext i hi
    obtain rfl : i = 0 := by omega
    simp
  have hjoin : ∀ (b : Bool) (x : BitVec 3),
      (0#6 ++ BitVec.ofBool b ++ x : MicroAddr) = (if b then 8#10 else 0#10) ||| x.setWidth 10 := by decide
  rw [loadIrModifier, hbit]
  exact hjoin ..

theorem functionBits_of_branch (u : Micro) (s : State) (hlt : u.f2 ≠ .shLt0) (heq : u.f2 ≠ .shEq0) :
    functionBits u s = branchBits u s := by
  have hshifter : shifterBits u s = 0#10 := by
    unfold shifterBits
    split
    · exact absurd ‹_› hlt
    · exact absurd ‹_› heq
    · rfl
  rw [functionBits, hshifter, BitVec.or_zero]

theorem branchBit_beq {α : Type} [DecidableEq α] (x y : α) : branchBit (x == y) = if x = y then 1#10 else 0#10 := by
  simp [branchBit]

/-- A word with bits ORed in keeps its own. -/
theorem and_or_cancel {w : Nat} (x y : BitVec w) : x &&& (x ||| y) = x := by
  ext i hi
  rw [BitVec.getElem_and, BitVec.getElem_or, Bool.and_or_distrib_left, Bool.and_self]
  cases x[i] <;> simp

/-- Without a soft reset the next address is `next` with the modifier ORed in (40_cycle.md R130). -/
theorem cpuStep_mpc_of_no_softReset (u : Micro) (s : State) (h : mayRun u s = true)
    (hsoft : (cpuStep u s).scratch.softReset = false) :
    (cpuStep u s).mpc = Bank.put s.mpc s.currentTask (u.next ||| (cpuStep u s).scratch.nextModifier) := by
  rw [cpuStep_softReset u s h] at hsoft
  rw [cpuStep_mpc u s h, hsoft, cpuStep_nextModifier u s h, BitVec.or_assoc]
  rfl

/-! ## Accumulators -/

/-- Accumulator `n` is R register 3 - n of the group of four (46_emulator.md R254). -/
theorem accumulatorSelect_toNat (r : BitVec 5) (n : BitVec 2) :
    (accumulatorSelect r n).toNat = r.toNat / 4 * 4 + (3 - n.toNat) := by
  have hr := r.isLt
  have hn := n.isLt
  rw [accumulatorSelect, toNat_append_add, BitVec.extractLsb'_toNat, BitVec.toNat_not, Nat.shiftRight_eq_div_pow]
  omega

/-! ## The shifter with MAGIC and with LOAD_DNS -/

/-- Without a shift function the shifter hands on L. -/
theorem shifterOut_of_no_shift (u : Micro) (s : State) (hleft : u.f1 ≠ .lLsh1) (hright : u.f1 ≠ .lRsh1)
    (hswap : u.f1 ≠ .lLcy8) : shifterOut u s = (s.l, dnsCarryIn u s) := by
  unfold shifterOut
  split
  · exact absurd ‹_› hleft
  · exact absurd ‹_› hright
  · exact absurd ‹_› hswap
  · rfl

theorem shifterOut_magic (u : Micro) (s : State) (h : u.f2 = .magic) (hswap : u.f1 ≠ .lLcy8) :
    (shifterOut u s).1 = if u.f1 = .lLsh1 then (s.l <<< 1) ||| lowBit (s.t.getLsbD 15)
      else if u.f1 = .lRsh1 then (s.l >>> 1) ||| highBit (s.t.getLsbD 0) else s.l := by
  split
  · rw [shifterOut_lLsh1 u s ‹_›, if_pos h]
  · split
    · rw [shifterOut_lRsh1 u s ‹_›, if_pos h]
    · rw [shifterOut_of_no_shift u s ‹_› ‹_› hswap]

/-- The shifter under LOAD_DNS: the word and the carry out (46_emulator.md R256). -/
theorem shifterOut_loadDns (u : Micro) (s : State) (h : u.f2 = .loadDns) :
    shifterOut u s = (if u.f1 = .lLsh1 then (s.l <<< 1) ||| lowBit (dnsCarryIn u s)
        else if u.f1 = .lRsh1 then (s.l >>> 1) ||| highBit (dnsCarryIn u s)
        else if u.f1 = .lLcy8 then s.l.extractLsb' 0 8 ++ s.l.extractLsb' 8 8 else s.l,
      if u.f1 = .lLsh1 then s.l.getLsbD 15 else if u.f1 = .lRsh1 then s.l.getLsbD 0 else dnsCarryIn u s) := by
  by_cases hleft : u.f1 = .lLsh1
  · simp [shifterOut, hleft, h]
  by_cases hright : u.f1 = .lRsh1
  · simp [shifterOut, hright, h]
  by_cases hswap : u.f1 = .lLcy8
  · rw [shifterOut_lLcy8 u s hswap, if_neg hleft, if_neg hright, if_pos hswap, if_neg hleft, if_neg hright]
  · rw [shifterOut_of_no_shift u s hleft hright hswap, if_neg hleft, if_neg hright, if_neg hswap, if_neg hleft, if_neg hright]

/-! ## The tables of LOAD_DNS -/

theorem novaBaseCarry_eq (ir : Word) (c : Bool) :
    novaBaseCarry ir c = if ir.extractLsb' 4 2 = 0#2 then c else if ir.extractLsb' 4 2 = 1#2 then false
      else if ir.extractLsb' 4 2 = 2#2 then true else !c := by
  unfold novaBaseCarry
  generalize ir.extractLsb' 4 2 = field
  revert field c
  decide

theorem novaFnCarries_iff (ir : Word) : novaFnCarries ir = true ↔ (ir.extractLsb' 8 3).toNat ∈ [1, 3, 4, 5, 6] := by
  unfold novaFnCarries
  generalize ir.extractLsb' 8 3 = field
  revert field
  decide

theorem novaCarryIn_eq (ir : Word) (c a : Bool) :
    novaCarryIn ir c a = if (ir.extractLsb' 8 3).toNat ∈ [1, 3, 4, 5, 6] ∧ a = true then !novaBaseCarry ir c
      else novaBaseCarry ir c := by
  unfold novaCarryIn
  exact if_congr (by rw [Bool.and_eq_true, novaFnCarries_iff]) rfl rfl

/-- The skip condition by the field IR[2:0] (46_emulator.md R257). -/
theorem novaSkip_cases (ir : Word) (c : Bool) (x : Word) :
    (ir.extractLsb' 0 3 = 0#3 → novaSkip ir c x = false) ∧ (ir.extractLsb' 0 3 = 1#3 → novaSkip ir c x = true)
    ∧ (ir.extractLsb' 0 3 = 2#3 → novaSkip ir c x = !c) ∧ (ir.extractLsb' 0 3 = 3#3 → novaSkip ir c x = c)
    ∧ (ir.extractLsb' 0 3 = 4#3 → novaSkip ir c x = decide (x = 0#16))
    ∧ (ir.extractLsb' 0 3 = 5#3 → novaSkip ir c x = decide (x ≠ 0#16))
    ∧ (ir.extractLsb' 0 3 = 6#3 → novaSkip ir c x = (!c || decide (x = 0#16)))
    ∧ (ir.extractLsb' 0 3 = 7#3 → novaSkip ir c x = (c && decide (x ≠ 0#16))) := by
  unfold novaSkip
  refine ⟨fun e => ?_, fun e => ?_, fun e => ?_, fun e => ?_, fun e => ?_, fun e => ?_, fun e => ?_, fun e => ?_⟩ <;>
    simp [e, bne, BEq.beq]

section Dns

variable (u : Micro) (s : State) (hdefault : s.params.emuDnsReplaced = false)
include hdefault

theorem dnsEarly_default : dnsEarly (beginMicro u s.currentTask s)
    = (accumulatorSelect u.rselect (destField s.ir), !novaNoLoad s.ir, novaCarryIn s.ir s.novaCarry s.aluC0) := by
  rw [dnsEarly_selected, hdefault]
  rfl

theorem dnsOut_default : dnsOut u s
    = (if novaNoLoad s.ir then s.novaCarry else (shifterOut u s).2, novaSkip s.ir (shifterOut u s).2 (shifterOut u s).1) := by
  rw [dnsOut, hdefault]
  rfl

variable (hf : u.f2 = .loadDns)
include hf

theorem dnsCarryIn_default : dnsCarryIn u s = novaCarryIn s.ir s.novaCarry s.aluC0 := by
  rw [dnsCarryIn, dnsEarly_default u s hdefault, hf]
  rfl

theorem selectedR_loadDns : selectedR u s = accumulatorSelect u.rselect (destField s.ir) := by
  rw [selectedR, hf]
  exact congrArg Prod.fst (dnsEarly_default u s hdefault)

theorem loadsR_loadDns : loadsR u s = (u.bs == .loadR || !novaNoLoad s.ir) := by
  rw [loadsR, dnsEarly_default u s hdefault, hf]
  rfl

end Dns

/-! ## STORE_MD -/

/-- What F2 sees of the memory bus and of the bus word when LOAD_MAR is not the F1 function. -/
theorem afterF1_store (u : Micro) (s : State) (h : mayReachF2 u s = true) (hmar : u.f1 ≠ .loadMar) :
    storeAddr (afterF1 u s) = storeAddr s ∧ (afterF1 u s).memTask = s.memTask ∧ (afterF1 u s).memXM = s.memXM
      ∧ (afterF1 u s).scratch.busData = busWord u s := by
  obtain ⟨hreach, -⟩ := (mayReachF2_iff u s).mp h
  have hs := ((mayStart_iff u s).mp ((mayReachAlu_iff u s).mp ((mayReachF1_iff u s).mp hreach).1).1).1
  have hx := afterAlu_eq u s hreach
  have hy : afterF1 u s = _ :=
    runF1_running u s (afterAlu u s) h (by rw [hx]; exact hs) (by rw [hx]; rfl) (by rw [hx]; rfl)
  obtain ⟨-, hparams, -, -, -, hbus⟩ := afterF1_running u s h
  have hdw : (afterF1 u s).dwStore = s.dwStore := by
    rw [hy, hx]
    exact if_neg hmar
  have haddr : (afterF1 u s).memAddr = s.memAddr := by
    rw [hy, hx]
    exact if_neg hmar
  refine ⟨?_, ?_, ?_, ?_⟩
  · rw [storeAddr, (hbus hmar).2, hparams, hdw, haddr]
    rfl
  · rw [hy, hx]
    exact if_neg hmar
  · rw [hy, hx]
    exact if_neg hmar
  · rw [hy, hx]
    rfl

/-- A write to the I/O page is a call of the device (20_memory.md R52, R66). -/
theorem memWrite_device (a v : Word) (s : State) (hxm : xmIndex s.params a = none) (hio : s.params.ioBase.toNat ≤ a.toNat) :
    memWrite a v s = s.logCall (.load a v s.memTask s.memXM) := by
  simp only [memWrite, hxm]
  exact if_pos hio

theorem memWrite_store (a v : Word) (s : State) (hxm : xmIndex s.params a = none) (hio : a.toNat < s.params.ioBase.toNat) :
    memWrite a v s = { s with main := s.main.writeWord (physAddr a s.memTask s.memXM s).toNat v } := by
  simp only [memWrite, hxm]
  exact if_neg (by omega)

theorem memWrite_bank (a v : Word) (s : State) (k : TaskNum) (hxm : xmIndex s.params a = some k) :
    memWrite a v s = { s with xmBanks := Bank.put s.xmBanks k (v.extractLsb' 0 4) } := by
  simp only [memWrite, hxm]

/-- A store to the I/O page calls the device. -/
theorem cpuStep_calls_store (u : Micro) (s : State) (h : mayRun u s = true) (hf : u.f2 = .storeMd) (hmar : u.f1 ≠ .loadMar)
    (hxm : xmIndex s.params (storeAddr s) = none) (hio : s.params.ioBase.toNat ≤ (storeAddr s).toNat) :
    DeviceCall.load (storeAddr s) (busWord u s) s.memTask s.memXM ∈ (cpuStep u s).deviceCalls := by
  obtain ⟨hreach, -, -, hstore⟩ := (mayReachShifter_iff u s).mp (mayRun_mayReachShifter u s h)
  obtain ⟨-, hparams, -, -, -, hbus⟩ := afterF1_running u s hreach
  obtain ⟨hactive, hcycle⟩ := hbus hmar
  obtain ⟨haddr, htask, hxmFlag, hword⟩ := afterF1_store u s hreach hmar
  have hnotXmar : isXmar (afterF1 u s).params u = false := by simp [isXmar, hmar]
  have hidle : s.memActive = true := by
    rcases hstore hf with hx | hx
    · rw [← hparams, hnotXmar] at hx
      cases hx
    · exact hx.1
  have hready : s.params.storeAfter < s.memCycle := by
    have hall := mayRun_ready u s h
    rw [hparams] at hnotXmar
    simp only [allReady, hf, hnotXmar, readyStore, hidle, Bool.and_eq_true] at hall
    simpa using hall.2
  refine (afterF2_calls u s h).mem ?_
  have hrun : afterF2 u s = storeMd (busWord u s) (afterF1 u s) := by
    simp only [afterF2, runF2, hf, f2StoreMd, hnotXmar, hword]
    rfl
  rw [hrun, storeMd_running _ _ (hactive.trans hidle) (by rw [hparams, hcycle]; exact hready), haddr,
    memWrite_device _ _ _ (by rw [hparams]; exact hxm) (by rw [hparams]; exact hio), htask, hxmFlag]
  exact List.mem_cons_self

end Sys2Proof.Machine

namespace Sys2Proof

open Sys2Proof.Machine

/-- Settles O24: the bits of a bus branch are built at step 8, those of a shifter branch at step 10. -/
theorem genericBranchRows : Obligations.GenericBranchRows := by
  intro u s
  refine ⟨branchRow_of_functionBits _ s _ _ (fun _ => functionBits_of_branch (Instr.f2None u).micro s nofun nofun) fun _ => trivial,
    branchRow_of_functionBits _ s _ _ (fun h => ?_) fun _ => trivial,
    branchRow_of_functionBits _ s _ _ (fun _ => ?_) fun _ => trivial,
    branchRow_of_functionBits _ s _ _ (fun _ => ?_) fun _ => trivial,
    branchRow_of_functionBits _ s _ _ (fun h => ?_) fun _ => trivial,
    branchRow_of_functionBits _ s _ _ (fun _ => ?_) fun _ => trivial⟩
  · rw [functionBits_of_branch (Instr.f2BusEq0 u).micro s nofun nofun, cpuStep_busData _ s h]
    exact branchBit_beq ..
  · exact BitVec.zero_or
  · exact BitVec.zero_or.trans (branchBit_beq ..)
  · rw [functionBits_of_branch (Instr.f2Bus u).micro s nofun nofun, cpuStep_busData _ s h]
    rfl
  · exact functionBits_of_branch (Instr.f2Alucy u).micro s nofun nofun

/-- Settles O25. -/
theorem emulatorBranchRows : Obligations.EmulatorBranchRows := by
  intro u s
  refine ⟨branchRow_of_functionBits _ s _ _ (fun h => ?_) fun _ => trivial,
    branchRow_of_functionBits _ s _ _ (fun h => ?_) fun h => ⟨?_, ?_⟩,
    branchRow_of_functionBits _ s _ _ (fun _ => functionBits_of_branch (Instr.f2Idisp u).micro s nofun nofun) fun _ => trivial⟩
  · rw [functionBits_of_branch (Instr.f2Busodd u).micro s nofun nofun, cpuStep_busData _ s h]
    rfl
  · rw [functionBits_of_branch (Instr.f2LoadIr u).micro s nofun nofun, cpuStep_busData _ s h]
    exact loadIrModifier_eq _
  · rw [cpuStep_ir _ s h, cpuStep_busData _ s h]
    rfl
  · rw [cpuStep_skip _ s h, if_neg nofun]
    exact if_congr (and_iff_right rfl) rfl rfl

/-- Settles O26. -/
theorem accumulatorRows : Obligations.AccumulatorRows := by
  intro u s
  refine ⟨branchRow_of_functionBits _ s _ _ (fun _ => functionBits_of_branch (Instr.f2Acdest u).micro s nofun nofun) fun h => ?_,
    branchRow_of_functionBits _ s _ _ (fun _ => functionBits_of_branch (Instr.f2Acsource u).micro s nofun nofun) fun h => ?_⟩
  · rw [cpuStep_rSelect _ s h]
    exact accumulatorSelect_toNat ..
  · rw [cpuStep_rSelect _ s h]
    exact accumulatorSelect_toNat ..

/-- Settles O27: a magic rotate of a register load faults, so the shift functions are the two shifts. -/
theorem magicRow : Obligations.MagicRow := by
  intro u s
  refine branchRow_of_functionBits _ s _ _
    (fun _ => functionBits_of_branch (Instr.f2Magic u).micro s nofun nofun) fun h => ⟨fun hb => ?_, fun hb => ?_⟩
  · have hswap : u.f1 ≠ .lLcy8 := fun hswap => ((mayRun_iff _ s).mp h).2.1 ⟨hswap, rfl, hb⟩
    rw [cpuStep_r_of_loadR _ s h hb, shifterOut_magic (Instr.f2Magic u).micro s rfl hswap]
    rfl
  · have hload : loadsR (Instr.f2Magic u).micro s = false := by simp [loadsR, Instr.micro, hb]
    rw [cpuStep_r _ s h, hload]
    rfl

/-- Settles O28: `shifterOut_loadDns` has the word and the carry, and the tables are those of the Nova functions. -/
theorem loadDnsRow : Obligations.LoadDnsRow := by
  intro u s hdefault
  refine branchRow_of_functionBits _ s _ _
    (fun _ => functionBits_of_branch (Instr.f2LoadDns u).micro s nofun nofun) fun h => ?_
  intro base cin sh c
  have hf2 : (Instr.f2LoadDns u).micro.f2 = .loadDns := rfl
  have hcin : dnsCarryIn (Instr.f2LoadDns u).micro s = cin := by
    rw [dnsCarryIn_default _ s hdefault rfl, novaCarryIn_eq, novaBaseCarry_eq]
  have hshift : shifterOut (Instr.f2LoadDns u).micro s = (sh, c) := by
    rw [shifterOut_loadDns _ s rfl, hcin]
    rfl
  have hselect := selectedR_loadDns (Instr.f2LoadDns u).micro s hdefault rfl
  have hloads := loadsR_loadDns (Instr.f2LoadDns u).micro s hdefault rfl
  have hout := dnsOut_default (Instr.f2LoadDns u).micro s hdefault
  have hr := cpuStep_r _ s h
  have hcarry : (cpuStep (Instr.f2LoadDns u).micro s).novaCarry = if novaNoLoad s.ir then s.novaCarry else c := by
    rw [cpuStep_novaCarry _ s h, if_pos hf2, hout, hshift]
  have hskip : (cpuStep (Instr.f2LoadDns u).micro s).skip = novaSkip s.ir c sh := by
    rw [cpuStep_skip _ s h, if_pos hf2, hout, hshift]
  rw [cpuStep_rSelect _ s h, hcarry, hskip, hr, hshift, hloads]
  refine ⟨?_, fun hload => ?_, fun hload => ?_, novaSkip_cases s.ir c sh⟩
  · rw [hselect]
    exact accumulatorSelect_toNat ..
  · rw [novaNoLoad, hload]
    simp
  · rw [novaNoLoad, hload]
    exact ⟨rfl, fun hb => if_neg (by simpa [Instr.micro] using hb)⟩

/-- Settles O29: a store is a write to the data space at `storeAddr`; with LOAD_MAR there is none. -/
theorem storeMdRow : Obligations.StoreMdRow := by
  intro u s
  refine branchRow_of_functionBits _ s _ _
    (fun _ => functionBits_of_branch (Instr.f2StoreMd u).micro s nofun nofun) fun h => ⟨fun hmar => ?_, fun hmar => ?_⟩
  · have hstores : storesWord (Instr.f2StoreMd u).micro = false := by simp [storesWord, Instr.micro, hmar]
    have hxmar : isXmar s.params (Instr.f2StoreMd u).micro = true := by
      obtain ⟨-, -, -, hstore⟩ := (mayReachShifter_iff _ s).mp (mayRun_mayReachShifter _ s h)
      exact (hstore rfl).resolve_right fun hx => hx.2 hmar
    refine ⟨?_, ?_, ?_⟩
    · rw [cpuStep_main _ s h, hstores]
      rfl
    · rw [cpuStep_xmBanks _ s h, hstores]
      rfl
    · exact (congrArg State.memXM (cpuStep_running _ s h).2.2).trans ((if_pos hmar).trans hxmar)
  · have hstores : storesWord (Instr.f2StoreMd u).micro = true := by simp [storesWord, Instr.micro, hmar]
    obtain ⟨hdwStore, hdwMixed⟩ := cpuStep_storeFlags _ s h
    rw [hstores, if_neg (show (Instr.f2StoreMd u).micro.f1 ≠ .loadMar from hmar)] at hdwStore hdwMixed
    have hmain := cpuStep_main _ s h
    have hbanks := cpuStep_xmBanks _ s h
    rw [hstores, if_pos rfl] at hmain hbanks
    rw [hmain, hbanks, cpuStep_busData _ s h]
    refine ⟨hdwMixed.trans (Bool.or_true _), hdwStore, fun k hk => ?_, fun hxm hio => ?_, fun hxm hio => ?_⟩
    · rw [memWrite_bank _ _ s k hk]
      exact ⟨rfl, rfl⟩
    · rw [memWrite_device _ _ s hxm hio]
      exact ⟨rfl, cpuStep_calls_store _ s h rfl hmar hxm hio⟩
    · rw [memWrite_store _ _ s hxm hio]
      exact ⟨Memory.readWord_writeWord_same .., rfl⟩

/-- Settles O33. -/
theorem microinstructionRow : Obligations.MicroinstructionRow := by
  intro u s h
  refine completesWith_of_cpuStep (.microinstruction u) s _ h ⟨cpuStep_busData u s h, cpuStep_sh_of_needed u s h,
    cpuStep_r u s h, fun hsoft => ?_⟩
  have hmpc := cpuStep_mpc_of_no_softReset u s h hsoft
  refine ⟨hmpc, ?_⟩
  show u.next &&& Bank.get (cpuStep u s).mpc s.currentTask = u.next
  rw [hmpc, Bank.get_put_same]
  exact and_or_cancel ..

end Sys2Proof

/-! PROOFS. The faults of a microinstruction: the stage that raises each, and that nothing is written back (60_exceptions.md R271,
R272). -/

namespace Sys2Proof.Machine

/-! ## A fault before the writebacks -/

/-- The registers the writebacks of step 11 load, and the completion code, are those of `s`. -/
def Unwritten (s x : State) : Prop :=
  x.t = s.t ∧ x.cramAddr = s.cramAddr ∧ x.l = s.l ∧ x.m = s.m ∧ x.aluC0 = s.aluC0 ∧ x.r = s.r ∧ x.sStore = s.sStore
    ∧ x.completion = s.completion

theorem runPhases_of_raise (fs : List (State → State)) (phase : State → State) (x y : State) (f : Fault) (info : FaultInfo)
    (h : phase x = raise f info y) : runPhases (phase :: fs) x = raise f info y := by
  rw [runPhases_cons_of_halted _ _ _ (by rw [h]; exact Option.some_ne_none _), h]

theorem stopsWith_of_raise (i : Instr) (s x : State) (f : Fault) (info : FaultInfo) (h : cpuStep i.micro s = raise f info x)
    (hx : Unwritten s x) : stopsWith i s f :=
  ⟨raise f info x, (exec_eq i s).trans (congrArg Host.Outcome.next h), ⟨info, rfl⟩, hx⟩

theorem unwritten_selected (u : Micro) (s : State) : Unwritten s (selected u s) := ⟨rfl, rfl, rfl, rfl, rfl, rfl, rfl, rfl⟩

theorem unwritten_source (u : Micro) (s : State) :
    Unwritten s (maskConstant u (busSource u s.currentTask (selected u s))) := by
  have hsource : busSource u s.currentTask (selected u s) = _ := busSource_frame u s.currentTask (selected u s)
  rw [maskConstant_frame, hsource]
  exact ⟨rfl, rfl, rfl, rfl, rfl, rfl, rfl, rfl⟩

theorem unwritten_alu (u : Micro) (s : State) (h : mayReachAlu u s = true) :
    Unwritten s (runAlu u s.currentTask (afterBus u s)) := by
  rw [runAlu_frame, afterBus_eq u s h]
  exact ⟨rfl, rfl, rfl, rfl, rfl, rfl, rfl, rfl⟩

theorem unwritten_afterAlu (u : Micro) (s : State) (h : mayReachF1 u s = true) : Unwritten s (afterAlu u s) := by
  rw [afterAlu_eq u s h]
  exact ⟨rfl, rfl, rfl, rfl, rfl, rfl, rfl, rfl⟩

section Stages

variable (u : Micro) (s : State)

/-- F1 as one change of the state after the ALU. -/
theorem afterF1_eq (h : mayReachF2 u s = true) : afterF1 u s = { afterAlu u s with
    scratch := (afterF1 u s).scratch, memActive := s.memActive || decide (u.f1 = .loadMar)
    memCycle := if u.f1 = .loadMar then 1 else s.memCycle
    memAddr := (afterF1 u s).memAddr, memTask := (afterF1 u s).memTask, memXM := (afterF1 u s).memXM
    dwStore := (afterF1 u s).dwStore, dwMixed := (afterF1 u s).dwMixed, memRd5 := (afterF1 u s).memRd5
    wakeup := (afterF1 u s).wakeup, swModePending := (afterF1 u s).swModePending
    wrtRamPending := (afterF1 u s).wrtRamPending, rdRamPending := (afterF1 u s).rdRamPending
    rmr := (afterF1 u s).rmr, rb := (afterF1 u s).rb, deviceCalls := (afterF1 u s).deviceCalls
    bank := bankBefore u s, mpc := if softResetDue u s then (softReset s).mpc else s.mpc
    currentTask := if softResetDue u s then 0 else s.currentTask
    nextTask := if softResetDue u s then none else s.nextTask } := by
  obtain ⟨hreach, -⟩ := (mayReachF2_iff u s).mp h
  have hs := ((mayStart_iff u s).mp ((mayReachAlu_iff u s).mp ((mayReachF1_iff u s).mp hreach).1).1).1
  have hx := afterAlu_eq u s hreach
  have hsoft : softResets u (afterAlu u s) = softResetDue u s := by
    rw [hx]
    rfl
  have hy : afterF1 u s = _ :=
    runF1_running u s (afterAlu u s) h (by rw [hx]; exact hs) (by rw [hx]; rfl) (by rw [hx]; rfl)
  rw [hsoft] at hy
  rw [hy, hx]
  rfl

theorem unwritten_afterF1 (h : mayReachF2 u s = true) : Unwritten s (afterF1 u s) := by
  rw [afterF1_eq u s h]
  exact unwritten_afterAlu u s ((mayReachF2_iff u s).mp h).1

theorem unwritten_afterF2 (h : mayReachShifter u s = true) : Unwritten s (afterF2 u s) := by
  obtain ⟨hreach, -⟩ := (mayReachShifter_iff u s).mp h
  obtain ⟨hrunning, hparams, -, -, -, hbus⟩ := afterF1_running u s hreach
  have hz : afterF2 u s = _ := runF2_running u s (afterF1 u s) h hrunning hparams hbus
  rw [hz]
  exact unwritten_afterF1 u s hreach

end Stages

/-! ## The stage that faults -/

section Stops

variable (i : Instr) (s : State) (f : Fault) (info : FaultInfo)

theorem stopsWith_at_bus (h : mayStart i.micro s = true)
    (hstop : busSource i.micro s.currentTask (selected i.micro s) = raise f info (selected i.micro s)) : stopsWith i s f :=
  stopsWith_of_raise i s _ f info ((cpuStep_from_bus _ s h).trans (runPhases_of_raise _ _ _ _ f info hstop))
    (unwritten_selected _ s)

theorem stopsWith_at_f1 (h : mayReachF1 i.micro s = true)
    (hstop : runF1 i.micro s.currentTask (afterAlu i.micro s) = raise f info (afterAlu i.micro s)) : stopsWith i s f :=
  stopsWith_of_raise i s _ f info ((cpuStep_from_f1 _ s h).2.trans (runPhases_of_raise _ _ _ _ f info hstop))
    (unwritten_afterAlu _ s h)

theorem stopsWith_at_f2 (h : mayReachF2 i.micro s = true)
    (hstop : runF2 i.micro s.currentTask (afterF1 i.micro s) = raise f info (afterF1 i.micro s)) : stopsWith i s f :=
  stopsWith_of_raise i s _ f info ((cpuStep_from_f2 _ s h).trans (runPhases_of_raise _ _ _ _ f info hstop))
    (unwritten_afterF1 _ s h)

end Stops

/-! ## Missing hooks -/

theorem hookAnswer_none_of_params (k : TaskNum) (p : HookPoint) (s x : State) (hp : x.params = s.params)
    (h : hookAnswer k p s = none) : hookAnswer k p x = none := by
  rw [hookAnswer, Option.map_eq_none_iff] at h ⊢
  rw [hp]
  exact h

theorem busHook_of_missing (k : TaskNum) (p : HookPoint) (x : State) (h : hookAnswer k p x = none) :
    busHook k p x = raise .busSource .none x := by
  simp only [busHook, h]

theorem codeHook_of_missing (k : TaskNum) (p : HookPoint) (f : Fault) (x : State) (h : hookAnswer k p x = none) :
    codeHook k p f x = raise f .none x := by
  simp only [codeHook, h]

/-- A bus source 3 or 4 without its hook (42_bus_sources.md R164, R165). -/
theorem stopsWith_missing_bus (i : Instr) (s : State) (p : HookPoint) (h : mayStart i.micro s = true)
    (hmissing : hookAnswer s.currentTask p s = none)
    (hrun : ∀ x, busSource i.micro s.currentTask x = busHook s.currentTask p x) : stopsWith i s .busSource :=
  stopsWith_at_bus i s _ .none h
    ((hrun _).trans (busHook_of_missing _ p _ (hookAnswer_none_of_params _ p s _ rfl hmissing)))

/-- An F1 code of a task without its hook (44_f1.md R203). -/
theorem stopsWith_missing_f1 (i : Instr) (s : State) (p : HookPoint) (h : mayReachF1 i.micro s = true)
    (hmissing : hookAnswer s.currentTask p s = none)
    (hrun : ∀ x, runF1 i.micro s.currentTask x = codeHook s.currentTask p .f1 x) : stopsWith i s .f1 :=
  stopsWith_at_f1 i s _ .none h ((hrun _).trans (codeHook_of_missing _ p _ _
    (hookAnswer_none_of_params _ p s _ (by rw [afterAlu_eq _ s h]; rfl) hmissing)))

/-- An F2 code of a task without its hook (45_f2.md R223). -/
theorem stopsWith_missing_f2 (i : Instr) (s : State) (p : HookPoint) (h : mayReachF2 i.micro s = true)
    (hmissing : hookAnswer s.currentTask p s = none)
    (hrun : ∀ x, runF2 i.micro s.currentTask x = codeHook s.currentTask p .f2 x) : stopsWith i s .f2 :=
  stopsWith_at_f2 i s _ .none h ((hrun _).trans (codeHook_of_missing _ p _ _
    (hookAnswer_none_of_params _ p s _ (afterF1_running _ s h).2.1 hmissing)))

/-! ## The memory protocol -/

/-- A read of MD after a store (20_memory.md R61). -/
theorem bsReadMd_mixed (x : State) (h : x.dwMixed = true) : bsReadMd x = raise .mixedRead (.word x.memAddr) x := by
  have hread : readMd x = .error (raise .mixedRead (.word x.memAddr) x) := if_pos h
  simp only [bsReadMd, hread]

/-- A read of MD in cycle 6 without one in cycle 5 (20_memory.md R61). -/
theorem bsReadMd_late (x : State) (hmixed : x.dwMixed = false) (hactive : x.memActive = true) (hcycle : x.memCycle = 6)
    (hrd5 : x.memRd5 = false) : bsReadMd x = raise .readLate (.word x.memAddr) x := by
  have hread : readMd x = .error (raise .readLate (.word x.memAddr) x) := by simp [readMd, hmixed, hactive, hcycle, hrd5]
  simp only [bsReadMd, hread]

/-- STORE_MD other than an extended reference is a store of the bus word. -/
theorem runF2_storeMd (u : Micro) (k : TaskNum) (x : State) (hf : u.f2 = .storeMd) (hx : isXmar x.params u = false) :
    runF2 u k x = storeMd x.scratch.busData x := by
  simp only [runF2, hf, f2StoreMd, hx]
  rfl

theorem storeMd_noOp (v : Word) (x : State) (h : x.memActive = false) : storeMd v x = raise .storeNoOp (.word v) x := if_pos h

theorem storeMd_early (v : Word) (x : State) (h : x.memActive = true) (hcycle : x.memCycle < x.params.storeAfter + 1) :
    storeMd v x = raise .storeEarly (.cycle x.memCycle) x := by
  rw [storeMd, if_neg (by rw [h]; exact Bool.noConfusion), if_pos hcycle]

/-! ## The carried flags -/

/-- The bus source does not fault where its hook is present and the word of MD can be read. -/
theorem busSource_runs (u : Micro) (s : State) (h : mayStart u s = true) (hp : hooksPresent (busHooks u) s = true)
    (hmd : u.bs = .readMd → mdReadable s = true) : (busSource u s.currentTask (selected u s)).halted = none := by
  obtain ⟨hs, -, -, hh⟩ := (mayStart_iff u s).mp h
  have hsel : (selected u s).halted = none := hs
  unfold busSource
  cases hb : u.bs with
  | readMd =>
    simp only [bsReadMd]
    rw [readMd_readable u s (selected u s) hb (hmd hb) rfl rfl rfl rfl rfl rfl]
    exact hs
  | taskSpecific1 =>
    have hsome : (hookAnswer s.currentTask .bs3 s).isSome = true := by simpa [hooksPresent, busHooks, hb] using hp
    simp only [bsTaskSpecific1]
    rw [busHook_harmless .bs3 s (selected u s) hh rfl hsel hsome]
    exact hsel
  | taskSpecific2 =>
    have hsome : (hookAnswer s.currentTask .bs4 s).isSome = true := by simpa [hooksPresent, busHooks, hb] using hp
    simp only [bsTaskSpecific2]
    rw [busHook_harmless .bs4 s (selected u s) hh rfl hsel hsome]
    exact hsel
  | readR | loadR | none | readMouse | readDisp | readS | loadS => exact hsel

/-- A due control-RAM read that faults stops the microinstruction at the mask of the bus (20_memory.md R77). -/
theorem stopsWith_at_cramRead (i : Instr) (s : State) (f : Fault) (info : FaultInfo) (h : mayStart i.micro s = true)
    (hp : hooksPresent (busHooks i.micro) s = true) (hmd : i.micro.bs = .readMd → mdReadable s = true)
    (hdue : Bank.get s.rdRamPending s.currentTask = true)
    (hread : ∀ x, x.cramAddr = s.cramAddr → x.params = s.params → cramRead x = .error (raise f info x)) :
    stopsWith i s f := by
  have hsource : busSource i.micro s.currentTask (selected i.micro s) = _ := busSource_frame _ _ _
  have hx : ∀ x, x = maskConstant i.micro (busSource i.micro s.currentTask (selected i.micro s)) →
      maskCram x = raise f info x := by
    rintro x rfl
    have hrd : (maskConstant i.micro (busSource i.micro s.currentTask (selected i.micro s))).scratch.rdRam = true := by
      rw [maskConstant_frame, hsource]
      exact hdue
    have hcram := hread (maskConstant i.micro (busSource i.micro s.currentTask (selected i.micro s)))
      (by rw [maskConstant_frame, hsource]; rfl) (by rw [maskConstant_frame, hsource]; rfl)
    rw [maskCram, if_pos hrd, hcram]
  exact stopsWith_of_raise i s _ f info
    ((cpuStep_from_mask _ s h (busSource_runs _ s h hp hmd)).trans (runPhases_of_raise _ _ _ _ f info (hx _ rfl)))
    (unwritten_source _ s)

/-- A due control-RAM write to a bank that does not exist stops the microinstruction after the ALU (20_memory.md R76). -/
theorem stopsWith_at_cramWrite (i : Instr) (s : State) (h : mayReachAlu i.micro s = true) (h14 : i.micro.aluf ≠ .reserved14)
    (h15 : i.micro.aluf ≠ .reserved15) (hdue : Bank.get s.wrtRamPending s.currentTask = true)
    (hram : s.cramAddr.getLsbD 11 = false) (hbank : s.params.ramBanks ≤ cramBankOf s.cramAddr) : stopsWith i s .cramBank := by
  have hx : ∀ x, x = runAlu i.micro s.currentTask (afterBus i.micro s) →
      deferredCramWrite x = raise .cramBank (.ramBank (cramBankOf x.cramAddr)) x := by
    rintro x rfl
    have hwrt : (runAlu i.micro s.currentTask (afterBus i.micro s)).scratch.wrtRam = true := by
      rw [runAlu_frame, afterBus_eq _ s h]
      exact hdue
    have haddr : (runAlu i.micro s.currentTask (afterBus i.micro s)).cramAddr = s.cramAddr := by
      rw [runAlu_frame, afterBus_eq _ s h]
      rfl
    have hparams : (runAlu i.micro s.currentTask (afterBus i.micro s)).params = s.params := by
      rw [runAlu_frame, afterBus_eq _ s h]
      rfl
    rw [deferredCramWrite, if_pos hwrt, cramWrite, haddr, hparams, if_neg (by rw [hram]; exact Bool.false_ne_true), if_pos hbank]
  exact stopsWith_of_raise i s _ .cramBank _
    ((cpuStep_from_cram _ s h h14 h15).2.trans (runPhases_of_raise _ _ _ _ _ _ (hx _ rfl))) (unwritten_alu _ s h)

/-! ## The shifter and the bank switch -/

/-- What the shifter and the bank switch see after F2. -/
theorem afterF2_view (u : Micro) (s : State) (h : mayReachShifter u s = true) :
    (afterF2 u s).scratch.loadR = loadsR u s ∧ (afterF2 u s).scratch.shift = shiftOf u s
      ∧ (afterF2 u s).scratch.lPrev = s.l ∧ (afterF2 u s).t = s.t ∧ (afterF2 u s).params = s.params
      ∧ (afterF2 u s).bank = bankBefore u s ∧ (afterF2 u s).mpc = (if softResetDue u s then (softReset s).mpc else s.mpc)
      ∧ (afterF2 u s).scratch.swMode = Bank.get s.swModePending s.currentTask := by
  obtain ⟨hreach2, -⟩ := (mayReachShifter_iff u s).mp h
  obtain ⟨hreach1, -⟩ := (mayReachF2_iff u s).mp hreach2
  have hs := ((mayStart_iff u s).mp ((mayReachAlu_iff u s).mp ((mayReachF1_iff u s).mp hreach1).1).1).1
  have hx := afterAlu_eq u s hreach1
  have hsoft : softResets u (afterAlu u s) = softResetDue u s := by
    rw [hx]
    rfl
  have hy : afterF1 u s = _ :=
    runF1_running u s (afterAlu u s) hreach2 (by rw [hx]; exact hs) (by rw [hx]; rfl) (by rw [hx]; rfl)
  rw [hsoft] at hy
  obtain ⟨hrunning, hparams, -, -, -, hbus⟩ := afterF1_running u s hreach2
  have hz : afterF2 u s = _ := runF2_running u s (afterF1 u s) h hrunning hparams hbus
  refine ⟨?_, ?_, ?_, ?_, ?_, ?_, ?_, ?_⟩
  · rw [hz, hy, hx]
  · rw [hz, hy, hx]
    simp only [shiftOf, f1Shift, selected, quietChange]
    by_cases hd : u.f2 = .loadDns <;> cases hf : u.f1 <;> simp [hd, ShiftConfig.clear]
  · rw [hz, hy, hx]
    rfl
  · rw [hz, hy, hx]
    rfl
  · rw [hz, hy, hx]
    rfl
  · rw [hz, hy, hx]
    rfl
  · rw [hz, hy, hx]
    rfl
  · rw [hz, hy, hx]
    rfl

/-- MAGIC with L_LCY_8 asks for a magic rotate, which the shifter does not have (43_shifter.md R189). -/
theorem runShifter_magic_rotate (u : Micro) (s : State) (h : mayReachShifter u s = true) (hswap : u.f1 = .lLcy8)
    (hmagic : u.f2 = .magic) (hload : u.bs = .loadR) :
    runShifter u (afterF2 u s) = raise .shifterMode .none (afterF2 u s) := by
  obtain ⟨hloadR, hconfig, -⟩ := afterF2_view u s h
  have hneeded : needShifterOutput u (afterF2 u s) = true := by simp [needShifterOutput, hloadR, loadsR, hload]
  have hmode : ∀ x t, shift (shiftOf u s) x t = .error .shifterMode := fun x t => by
    simp [shiftOf, f1Shift, hswap, hmagic, ShiftConfig.clear, shift, rotateLeft]
  rw [runShifter, if_pos hneeded, hconfig, hmode]

/-- The cycle from the bank switch on, for a shifter that does not fault. -/
theorem cpuStep_from_switch (u : Micro) (s : State) (h : mayReachShifter u s = true)
    (hmagic : ¬(u.f1 = .lLcy8 ∧ u.f2 = .magic ∧ u.bs = .loadR)) :
    lateF2 u s.currentTask (afterWrites u s) = { afterF2 u s with
        scratch := (lateF2 u s.currentTask (afterWrites u s)).scratch, r := (afterWrites u s).r
        sStore := (afterWrites u s).sStore, t := (afterWrites u s).t, cramAddr := (afterWrites u s).cramAddr
        l := (afterWrites u s).l, m := (afterWrites u s).m, aluC0 := (afterWrites u s).aluC0
        novaCarry := (lateF2 u s.currentTask (afterWrites u s)).novaCarry
        skip := (lateF2 u s.currentTask (afterWrites u s)).skip
        deviceCalls := (lateF2 u s.currentTask (afterWrites u s)).deviceCalls }
    ∧ (lateF2 u s.currentTask (afterWrites u s)).scratch.swMode = Bank.get s.swModePending s.currentTask
    ∧ cpuStep u s = runPhases [switchBank u s.currentTask, blockHook s.currentTask, advance u s.currentTask,
      finish s.currentTask] (lateF2 u s.currentTask (afterWrites u s)) := by
  obtain ⟨hreach, -⟩ := (mayReachShifter_iff u s).mp h
  have hstart := ((mayReachAlu_iff u s).mp ((mayReachF1_iff u s).mp ((mayReachF2_iff u s).mp hreach).1).1).1
  obtain ⟨hrunning, hcycle⟩ := cpuStep_from_shifter u s h
  obtain ⟨hloadR, hconfig, hl, ht, hparams, -, -, hsw⟩ := afterF2_view u s h
  have hshifter : afterShifter u s = _ := runShifter_running u s (afterF2 u s) hmagic hloadR hconfig hl ht
  have hwrites : afterWrites u s = _ := writes_eq u s.currentTask (afterShifter u s)
  have hbranch : (afterShifter u s).halted = none := by
    rw [hshifter]
    exact hrunning
  have hshift : (runShifter u (afterF2 u s)).halted = none := by
    have e := hbranch
    rw [afterShifter, shifterBranch_frame] at e
    exact e
  have hr : (writeR (afterShifter u s)).halted = none := by rw [writeR_frame]; exact hbranch
  have hS : (writeS (writeR (afterShifter u s))).halted = none := by rw [writeS_frame]; exact hr
  have hT : (writeT u (writeS (writeR (afterShifter u s)))).halted = none := by rw [writeT_frame]; exact hS
  have hL : (afterWrites u s).halted = none := by
    rw [hwrites]
    exact hbranch
  have hlate := lateF2_running u s (afterWrites u s) hstart hL (by rw [hwrites, hshifter]; exact hparams)
  have hlateRuns : (lateF2 u s.currentTask (afterWrites u s)).halted = none := by
    rw [hlate]
    exact hL
  refine ⟨?_, ?_, ?_⟩
  · rw [hlate, hwrites, hshifter]
  · rw [hlate, hwrites, hshifter]
    exact hsw
  · rw [hcycle, runPhases_cons_of_running _ _ _ hshift,
      runPhases_cons_of_running _ _ _ (show (shifterBranch u _).halted = none from hbranch)]
    change runPhases _ (afterShifter u s) = _
    rw [runPhases_cons_of_running _ _ _ hr, runPhases_cons_of_running _ _ _ hS, runPhases_cons_of_running _ _ _ hT,
      runPhases_cons_of_running _ _ _ (show (writeL u _ _).halted = none from hL)]
    change runPhases _ (afterWrites u s) = _
    rw [runPhases_cons_of_running _ _ _ hlateRuns]

/-- A due bank switch without a target stops the microinstruction after its writebacks (20_memory.md R74). -/
theorem cpuStep_switch_unmodelled (u : Micro) (s : State) (h : mayReachShifter u s = true)
    (hmagic : ¬(u.f1 = .lLcy8 ∧ u.f2 = .magic ∧ u.bs = .loadR)) (hf : u.f1 ≠ .startf)
    (hdue : Bank.get s.swModePending s.currentTask = true)
    (hnone : swModeTarget s.params (Bank.get s.bank s.currentTask) u.next = none) :
    ∃ x, cpuStep u s = raise .swModeUnmodelled .none x ∧ x.bank = s.bank ∧ x.mpc = s.mpc := by
  obtain ⟨hlate, hsw, hcycle⟩ := cpuStep_from_switch u s h hmagic
  obtain ⟨-, -, -, -, hparams, hbank, hmpc, -⟩ := afterF2_view u s h
  have hsoft := softResetDue_of_ne_startf u s hf
  rw [bankBefore, hsoft] at hbank
  rw [hsoft] at hmpc
  have hlateParams : (lateF2 u s.currentTask (afterWrites u s)).params = s.params := by
    rw [hlate]
    exact hparams
  have hlateBank : (lateF2 u s.currentTask (afterWrites u s)).bank = s.bank := by
    rw [hlate]
    exact hbank
  have hlateMpc : (lateF2 u s.currentTask (afterWrites u s)).mpc = s.mpc := by
    rw [hlate]
    exact hmpc
  refine ⟨_, hcycle.trans (runPhases_of_raise _ _ _ _ .swModeUnmodelled .none ?_), hlateBank, hlateMpc⟩
  rw [switchBank, if_pos (hsw.trans hdue), hlateParams, hlateBank, hnone]

end Sys2Proof.Machine

namespace Sys2Proof

open Sys2Proof.Machine

/-- Settles O35. -/
theorem missingFunctionsHalt : Obligations.MissingFunctionsHalt := by
  intro u s
  refine ⟨fun h => stopsWith_at_f1 _ s _ .none h rfl, fun h => stopsWith_at_f2 _ s _ .none h rfl,
    fun h hk => stopsWith_at_f1 _ s _ .none h (if_pos hk),
    fun h hmissing => stopsWith_missing_bus _ s .bs3 h hmissing fun _ => rfl,
    fun h hmissing => stopsWith_missing_bus _ s .bs4 h hmissing fun _ => rfl,
    fun p i hmem h hmissing => stopsWith_missing_f1 i s p h hmissing ?_,
    fun p i hmem h hmissing => stopsWith_missing_f2 i s p h hmissing ?_⟩
  · simp only [List.mem_cons, Prod.mk.injEq, List.not_mem_nil, or_false] at hmem
    rcases hmem with ⟨rfl, rfl⟩ | ⟨rfl, rfl⟩ | ⟨rfl, rfl⟩ | ⟨rfl, rfl⟩ | ⟨rfl, rfl⟩ | ⟨rfl, rfl⟩ | ⟨rfl, rfl⟩ |
      ⟨rfl, rfl⟩ <;> exact fun _ => rfl
  · simp only [List.mem_cons, Prod.mk.injEq, List.not_mem_nil, or_false] at hmem
    rcases hmem with ⟨rfl, rfl⟩ | ⟨rfl, rfl⟩ | ⟨rfl, rfl⟩ | ⟨rfl, rfl⟩ | ⟨rfl, rfl⟩ | ⟨rfl, rfl⟩ | ⟨rfl, rfl⟩ |
      ⟨rfl, rfl⟩ <;> exact fun _ => rfl

/-- Settles O36: the reads fault in the bus source, the stores in F2, which sees the operation LOAD_MAR has just started. -/
theorem memoryProtocolFaults : Obligations.MemoryProtocolFaults := by
  intro u s
  refine ⟨fun h hmixed => stopsWith_at_bus _ s _ _ h (bsReadMd_mixed _ hmixed),
    fun h hmixed hactive hcycle hrd5 => stopsWith_at_bus _ s _ _ h (bsReadMd_late _ hmixed hactive hcycle hrd5),
    fun h hmar hidle => ?_, fun h hmar hsystem => ?_⟩
  · have hxmar : isXmar (afterF1 (Instr.f2StoreMd u).micro s).params (Instr.f2StoreMd u).micro = false := by
      simp [isXmar, Instr.micro, hmar]
    obtain ⟨-, -, -, -, -, hbus⟩ := afterF1_running _ s h
    exact stopsWith_at_f2 _ s _ _ h
      ((runF2_storeMd _ _ _ rfl hxmar).trans (storeMd_noOp _ _ ((hbus hmar).1.trans hidle)))
  · have hparams := (afterF1_running _ s h).2.1
    have hxmar : isXmar (afterF1 (Instr.f2StoreMd u).micro s).params (Instr.f2StoreMd u).micro = false := by
      rw [hparams]
      simp [isXmar, hsystem]
    have hactive : (afterF1 (Instr.f2StoreMd u).micro s).memActive = true := by
      rw [afterF1_eq _ s h]
      simp [Instr.micro, hmar]
    have hcycle : (afterF1 (Instr.f2StoreMd u).micro s).memCycle = 1 := by
      rw [afterF1_eq _ s h]
      exact if_pos hmar
    refine stopsWith_at_f2 _ s _ _ h ((runF2_storeMd _ _ _ rfl hxmar).trans (storeMd_early _ _ hactive ?_))
    rw [hcycle, hparams, Params.storeAfter, hsystem]
    decide

/-- Settles O37. -/
theorem deferredFaults : Obligations.DeferredFaults := by
  intro i s
  refine ⟨fun h hp hmd hdue => ⟨fun hrom => ?_, fun hram hbank => ?_⟩, fun h h14 h15 hdue hram hbank =>
    stopsWith_at_cramWrite i s h h14 h15 hdue hram hbank, fun h hswap hmagic hload => ?_,
    fun h hmagic hf hdue hnone => ?_⟩
  · refine stopsWith_at_cramRead i s .cramRomRead (.word s.cramAddr) h hp hmd hdue fun x haddr hparams => ?_
    rw [cramRead, haddr, if_pos hrom]
  · refine stopsWith_at_cramRead i s .cramBank (.ramBank (cramBankOf s.cramAddr)) h hp hmd hdue fun x haddr hparams => ?_
    rw [cramRead, haddr, hparams, if_neg (by rw [hram]; exact Bool.false_ne_true), if_pos hbank]
  · obtain ⟨-, hcycle⟩ := cpuStep_from_shifter _ s h
    exact stopsWith_of_raise i s _ _ _
      (hcycle.trans (runPhases_of_raise _ _ _ _ _ _ (runShifter_magic_rotate _ s h hswap hmagic hload))) (unwritten_afterF2 _ s h)
  · obtain ⟨x, hstep, hbank, hmpc⟩ := cpuStep_switch_unmodelled _ s h hmagic hf hdue hnone
    exact ⟨raise .swModeUnmodelled .none x, (exec_eq i s).trans (congrArg Host.Outcome.next hstep), ⟨_, rfl⟩, hbank, hmpc⟩

end Sys2Proof

/-! PROOFS. The subtraction carry (41_alu.md section 6), the shifter on its own (43_shifter.md R175 to R194), the data space
(20_memory.md R52 to R54) and the timeline of the memory bus (R57 to R65). -/

namespace Sys2Proof.Machine

/-! ## Rotates -/

theorem rotateRight_rotateLeft_cancel {w : Nat} (x : BitVec w) (c : Nat) : (x.rotateLeft c).rotateRight c = x := by
  ext i hi
  have hc : c % w < w := Nat.mod_lt _ (by omega)
  rw [BitVec.getElem_rotateRight]
  split
  · rw [BitVec.getElem_rotateLeft, dif_neg (by omega)]
    congr 1
    omega
  · rw [BitVec.getElem_rotateLeft, dif_pos (by omega)]
    congr 1
    omega

theorem rotateLeft_rotateRight_cancel {w : Nat} (x : BitVec w) (c : Nat) : (x.rotateRight c).rotateLeft c = x := by
  ext i hi
  have hc : c % w < w := Nat.mod_lt _ (by omega)
  rw [BitVec.getElem_rotateLeft]
  split
  · rw [BitVec.getElem_rotateRight, dif_neg (by omega)]
    congr 1
    omega
  · rw [BitVec.getElem_rotateRight, dif_pos (by omega)]
    congr 1
    omega

/-- The model's rotates are those of the library (43_shifter.md R185, R187). -/
theorem rotL_eq (x : Word) (c : Nat) : rotL x c = x.rotateLeft c := rfl

theorem rotR_eq (x : Word) (c : Nat) : rotR x c = x.rotateRight c := rfl

/-- Counts 0 and 16 leave a word as it is (R193). -/
theorem rotL_of_dvd (x : Word) (c : Nat) (h : c % 16 = 0) : rotL x c = x := by
  ext i hi
  simp [rotL, h]

theorem rotR_of_dvd (x : Word) (c : Nat) (h : c % 16 = 0) : rotR x c = x := by
  ext i hi
  simp [rotR, h]

/-! ## Nova shifts -/

theorem getElem_lowBit (c : Bool) (i : Nat) (h : i < 16) : (lowBit c)[i] = (c && decide (i = 0)) := by
  cases c with
  | false => simp [lowBit]
  | true =>
    show (BitVec.twoPow 16 0)[i] = _
    simp [BitVec.getElem_twoPow]

theorem getElem_highBit (c : Bool) (i : Nat) (h : i < 16) : (highBit c)[i] = (c && decide (i = 15)) := by
  cases c with
  | false => simp [highBit]
  | true =>
    show (BitVec.twoPow 16 15)[i] = _
    simp [BitVec.getElem_twoPow]

/-- The left shift with the carry brought in is a 17-bit rotate (R182). -/
theorem novaLeft_rotate (x : Word) (c : Bool) :
    BitVec.ofBool (x.getLsbD 15) ++ ((x <<< 1) ||| lowBit c) = (BitVec.ofBool c ++ x).rotateLeft 1 := by
  ext i hi
  rw [BitVec.getElem_rotateLeft, BitVec.getElem_append]
  split
  · rw [BitVec.getElem_or, getElem_lowBit]
    cases i <;> simp <;> grind
  · simp
    grind

/-- The right shift with the carry brought in is a 17-bit rotate (R183). -/
theorem novaRight_rotate (x : Word) (c : Bool) :
    BitVec.ofBool (x.getLsbD 0) ++ ((x >>> 1) ||| highBit c) = (BitVec.ofBool c ++ x).rotateRight 1 := by
  ext i hi
  rw [BitVec.getElem_rotateRight, BitVec.getElem_append]
  split
  · rw [BitVec.getElem_or, getElem_highBit]
    simp
    grind
  · simp
    grind

/-- A word behind a bit is taken apart again. -/
theorem ofBool_append_inj {w : Nat} (c d : Bool) (x y : BitVec w) (h : BitVec.ofBool c ++ x = BitVec.ofBool d ++ y) :
    c = d ∧ x = y := by
  have hbits : ∀ i, (BitVec.ofBool c ++ x).getLsbD i = (BitVec.ofBool d ++ y).getLsbD i := fun i => by rw [h]
  refine ⟨?_, BitVec.eq_of_getLsbD_eq fun i hi => ?_⟩
  · have hbit := hbits w
    rw [BitVec.getLsbD_append, BitVec.getLsbD_append] at hbit
    simpa using hbit
  · have hbit := hbits i
    rw [BitVec.getLsbD_append, BitVec.getLsbD_append] at hbit
    simpa [hi] using hbit

theorem shift_novaLeft (x t : Word) (c : Bool) :
    shift ⟨.shiftLeft, 1, false, true, c⟩ x t = .ok ((x <<< 1) ||| lowBit c, x.getLsbD 15) := rfl

theorem shift_novaRight (x t : Word) (c : Bool) :
    shift ⟨.shiftRight, 1, false, true, c⟩ x t = .ok ((x >>> 1) ||| highBit c, x.getLsbD 0) := rfl

/-! ## The faults of the shifter -/

/-- A shift by a count other than 1 faults in magic mode, and otherwise in DNS mode. -/
def ShiftFaults (g : ShiftConfig) (f : Fault) : Prop :=
  g.count ≠ 1 ∧ (g.magic = true ∧ f = .magicCount ∨ g.magic = false ∧ g.dns = true ∧ f = .shifterMode)

theorem shiftLeft_error_iff (g : ShiftConfig) (x t : Word) (f : Fault) : shiftLeft g x t = .error f ↔ ShiftFaults g f := by
  unfold shiftLeft ShiftFaults
  cases g.magic <;> cases g.dns <;> by_cases h : g.count = 1 <;> simp [h, eq_comm]

theorem shiftRight_error_iff (g : ShiftConfig) (x t : Word) (f : Fault) : shiftRight g x t = .error f ↔ ShiftFaults g f := by
  unfold shiftRight ShiftFaults
  cases g.magic <;> cases g.dns <;> by_cases h : g.count = 1 <;> simp [h, eq_comm]

theorem rotateLeft_error_iff (g : ShiftConfig) (x : Word) (f : Fault) :
    rotateLeft g x = .error f ↔ g.magic = true ∧ f = .shifterMode := by
  unfold rotateLeft
  cases g.magic <;> cases g.dns <;> simp [eq_comm]

theorem rotateRight_error_iff (g : ShiftConfig) (x : Word) (f : Fault) :
    rotateRight g x = .error f ↔ g.dns = true ∧ f = .dnsRotateRight ∨ g.dns = false ∧ g.magic = true ∧ f = .shifterMode := by
  unfold rotateRight
  cases g.magic <;> cases g.dns <;> simp [eq_comm]

/-- The faults of the shifter by its operation (R194). -/
theorem shift_error_iff (g : ShiftConfig) (x t : Word) (f : Fault) :
    shift g x t = .error f ↔ g.op ≠ .none ∧ if g.magic = true ∧ g.dns = true then f = .shifterMode
      else if g.op = .rotateLeft then g.magic = true ∧ f = .shifterMode
      else if g.op = .rotateRight then g.dns = true ∧ f = .dnsRotateRight ∨ g.dns = false ∧ g.magic = true ∧ f = .shifterMode
      else ShiftFaults g f := by
  have hmode : Except.error Fault.shifterMode = (.error f : Except Fault (Word × Bool)) ↔ f = .shifterMode := by
    simp [eq_comm]
  by_cases hboth : g.magic = true ∧ g.dns = true
  · cases hop : g.op <;> simp [shift, hop, hboth, hmode]
  · have hnot : (g.magic && g.dns) = false := by simpa using hboth
    cases hop : g.op <;>
      simp [shift, hop, hboth, hnot, shiftLeft_error_iff, shiftRight_error_iff, rotateLeft_error_iff, rotateRight_error_iff]

/-! ## The data space -/

/-- The physical address of a reference is the address behind two bits that do not depend on it (20_memory.md R54). -/
theorem physAddr_append (k : TaskNum) (xm : Bool) (s : State) : ∃ b : BitVec 2, ∀ a, physAddr a k xm s = b ++ a := by
  unfold physAddr
  split
  · exact ⟨_, fun _ => rfl⟩
  · split
    · exact ⟨_, fun _ => rfl⟩
    · exact ⟨_, fun _ => rfl⟩

theorem physAddr_ne (a b : Word) (k : TaskNum) (xm : Bool) (s : State) (h : b ≠ a) :
    (physAddr b k xm s).toNat ≠ (physAddr a k xm s).toNat := by
  obtain ⟨high, hphys⟩ := physAddr_append k xm s
  rw [hphys, hphys, toNat_append_add, toNat_append_add]
  intro e
  exact h (BitVec.eq_of_toNat_eq (by omega))

theorem memRead_main (a : Word) (s : State) (hxm : xmIndex s.params a = none) (hio : a.toNat < s.params.ioBase.toNat) :
    memRead a s = (s.main.readWord (physAddr a s.memTask s.memXM s).toNat, s) := by
  simp only [memRead, hxm]
  exact if_neg (by omega)

theorem memRead_bank (a : Word) (s : State) (k : TaskNum) (hxm : xmIndex s.params a = some k) :
    memRead a s = (s.params.xmReadFill ||| (Bank.get s.xmBanks k).setWidth 16, s) := by
  simp only [memRead, hxm]

/-- The low four bits of a word. -/
theorem extract_low_setWidth (v : Word) : (v.extractLsb' 0 4).setWidth 16 = v &&& 0x000F#16 := by
  apply BitVec.eq_of_toNat_eq
  rw [BitVec.toNat_setWidth, BitVec.extractLsb'_toNat, BitVec.toNat_and, BitVec.toNat_ofNat]
  rw [show 15 % 2 ^ 16 = 2 ^ 4 - 1 from rfl, Nat.and_two_pow_sub_one_eq_mod, Nat.shiftRight_zero]
  omega

/-- The partner of an address is another address (R48). -/
theorem partner_ne (a : Word) : partner a ≠ a := by
  intro h
  have hbit := congrArg (·.getLsbD 0) h
  simp [partner] at hbit

/-! ## The timeline of an operation -/

/-- The state `n` bus clocks after LOAD_MAR started an operation on two words of the main store, with nothing stored. -/
def timeline (s : State) (a : Word) (k : TaskNum) (xm : Bool) (n : Nat) : State :=
  { s with
    memActive := decide (n < 6), memCycle := if n < 6 then n + 1 else 6, memAddr := a, memTask := k, memXM := xm
    dwStore := false, dwMixed := false, memRd5 := false
    memData := if 4 ≤ n then s.main.readWord (physAddr a k xm s).toNat else s.memData
    memData2 := if 5 ≤ n then s.main.readWord (physAddr (partner a) k xm s).toNat else s.memData2 }

theorem loadMar_timeline (s : State) (a : Word) (k : TaskNum) (xm : Bool) (h : s.memActive = false) :
    loadMar a k xm s = timeline s a k xm 0 := by
  rw [loadMar, h]
  rfl

section Clock

variable (s : State) (a : Word) (k : TaskNum) (xm : Bool) (hxm : xmIndex s.params a = none)
  (hio : a.toNat < s.params.ioBase.toNat) (hxm' : xmIndex s.params (partner a) = none)
  (hio' : (partner a).toNat < s.params.ioBase.toNat)
include hxm hio hxm' hio'

/-- A bus clock is one step of the timeline (R58). -/
theorem busClock_timeline (n : Nat) (h : n < 6) : busClock (timeline s a k xm n) = timeline s a k xm (n + 1) := by
  have hfirst : ∀ x : State, x.memAddr = a → x.params = s.params → latchFirst x
      = { x with memData := x.main.readWord (physAddr a x.memTask x.memXM x).toNat } := by
    intro x haddr hp
    have hread := memRead_main a x (by rw [hp]; exact hxm) (by rw [hp]; exact hio)
    rw [← haddr] at hread ⊢
    rw [latchFirst, hread]
  have hsecond : ∀ x : State, x.memAddr = a → x.params = s.params → latchSecond x
      = { x with memData2 := x.main.readWord (physAddr (partner a) x.memTask x.memXM x).toNat } := by
    intro x haddr hp
    have hread := memRead_main (partner a) x (by rw [hp]; exact hxm') (by rw [hp]; exact hio')
    rw [← haddr] at hread ⊢
    rw [latchSecond, hread]
  interval_cases n
  · rfl
  · rfl
  · rfl
  · exact hfirst { timeline s a k xm 3 with memCycle := 5 } rfl rfl
  · exact hsecond { timeline s a k xm 4 with memCycle := 6 } rfl rfl
  · rfl

theorem busClock_iterate (n : Nat) (h : n ≤ 6) : (busClock^[n]) (timeline s a k xm 0) = timeline s a k xm n := by
  induction n with
  | zero => rfl
  | succ n ih => rw [Function.iterate_succ_apply', ih (by omega), busClock_timeline s a k xm hxm hio hxm' hio' n (by omega)]

end Clock

theorem storeAfter_eq (p : Params) : p.storeAfter = if p.system = .altoII then 2 else 4 := by
  unfold Params.storeAfter
  cases p.system <;> rfl

/-! ## Two stores in a row -/

/-- The bus clock after a store only counts (R58). -/
theorem busClock_of_mixed (x : State) (hactive : x.memActive = true) (hmixed : x.dwMixed = true) (hcycle : x.memCycle ≠ 6) :
    busClock x = { x with memCycle := x.memCycle + 1 } := by
  simp [busClock, hactive, hmixed, hcycle]

/-- A store to the main store. -/
theorem storeMd_main (v : Word) (x : State) (hactive : x.memActive = true) (hcycle : x.params.storeAfter < x.memCycle)
    (hxm : xmIndex x.params (storeAddr x) = none) (hio : (storeAddr x).toNat < x.params.ioBase.toNat) :
    storeMd v x = { x with
      main := x.main.writeWord (physAddr (storeAddr x) x.memTask x.memXM x).toNat v
      dwStore := x.dwStore || decide (x.memCycle = x.params.storeAfter + 1), dwMixed := true } := by
  rw [storeMd_running v x hactive hcycle, memWrite_store _ v x hxm hio]

end Sys2Proof.Machine

namespace Sys2Proof

open Sys2Proof.Machine

/-- Settles O11: `~t` is `2^16 - 1 - t`. -/
theorem subtractionIsComplementAddition : Obligations.SubtractionIsComplementAddition := by
  intro b t skip
  have hb := b.isLt
  have ht := t.isLt
  refine ⟨congrArg Except.ok (ofDifference_eq _ _ _ ?_ ?_), congrArg Except.ok (ofDifference_eq _ _ _ ?_ ?_)⟩
  · rw [ofInt_toNat_sub, BitVec.sub_eq_add_neg, BitVec.neg_eq_not_add, BitVec.add_assoc]
  · rw [decide_eq_true_iff, BitVec.toNat_not]
    omega
  · rw [ofInt_sub, ofInt_toNat_sub, BitVec.sub_eq_add_neg b, BitVec.neg_eq_not_add, ← BitVec.add_assoc]
    exact BitVec.add_sub_cancel ..
  · rw [decide_eq_true_iff, BitVec.toNat_not]
    omega

/-- Settles O53. -/
theorem rotatesAreInverse : Obligations.RotatesAreInverse := by
  intro x c _
  refine ⟨?_, ?_, rotL_of_dvd x 0 rfl, rotR_of_dvd x 0 rfl, rotL_of_dvd x 16 rfl, rotR_of_dvd x 16 rfl⟩
  · rw [rotL_eq, rotR_eq, rotateRight_rotateLeft_cancel]
  · rw [rotL_eq, rotR_eq, rotateLeft_rotateRight_cancel]

/-- Settles O54: both shifts are 17-bit rotates, and the rotates undo each other. -/
theorem novaShiftsRotateThroughCarry : Obligations.NovaShiftsRotateThroughCarry := by
  intro x t c
  refine ⟨⟨_, _, shift_novaLeft x t c, novaLeft_rotate x c, ?_⟩, _, _, shift_novaRight x t c, novaRight_rotate x c⟩
  have hback := novaRight_rotate ((x <<< 1) ||| lowBit c) (x.getLsbD 15)
  rw [novaLeft_rotate, rotateRight_rotateLeft_cancel] at hback
  obtain ⟨hcarry, hword⟩ := ofBool_append_inj _ _ _ _ hback
  rw [shift_novaRight, hcarry, hword]

/-- Settles O55. -/
theorem shifterFaults : Obligations.ShifterFaults := by
  intro g x t
  simp only [shift_error_iff, ShiftFaults]
  cases g.op <;> cases g.magic <;> cases g.dns <;> simp

/-- Settles O49. -/
theorem dataSpaceReadAfterWrite : Obligations.DataSpaceReadAfterWrite := by
  intro s a v
  refine ⟨fun hxm hio => ?_, fun k hk => ?_⟩
  · have hwrite := memWrite_store a v s hxm hio
    have hread : ∀ b, xmIndex s.params b = none → b.toNat < s.params.ioBase.toNat →
        (memRead b (memWrite a v s)).1 = (memWrite a v s).main.readWord (physAddr b s.memTask s.memXM s).toNat := by
      intro b hxm' hio'
      rw [memRead_main b _ (by rw [hwrite]; exact hxm') (by rw [hwrite]; exact hio'), hwrite]
      rfl
    have hother : ∀ p, p ≠ (physAddr a s.memTask s.memXM s).toNat →
        (memWrite a v s).main.readWord p = s.main.readWord p := by
      intro p hp
      rw [hwrite]
      exact Memory.readWord_writeWord_other _ _ _ _ hp
    refine ⟨?_, hother, fun b hxm' hio' hne => ?_⟩
    · rw [hread a hxm hio, hwrite]
      exact Memory.readWord_writeWord_same ..
    · rw [hread b hxm' hio', memRead_main b s hxm' hio']
      exact hother _ (physAddr_ne a b _ _ s hne)
  · have hwrite := memWrite_bank a v s k hk
    refine ⟨?_, by rw [hwrite], fun j hj => ?_⟩
    · rw [memRead_bank a _ k (by rw [hwrite]; exact hk), hwrite, Bank.get_put_same, extract_low_setWidth]
    · rw [hwrite]
      exact Bank.get_put_other _ _ _ _ hj

/-- Settles O50. -/
theorem physicalAddress : Obligations.PhysicalAddress := by
  intro a k xm s
  have hbank := (Bank.get s.xmBanks k).isLt
  refine ⟨fun h => ?_, fun h hx => ?_, fun h hx => ?_⟩
  · simp only [physAddr, h]
    rw [toNat_append_add]
    exact Nat.zero_add _
  · simp only [physAddr, h, hx, if_true]
    rw [toNat_append_add, BitVec.extractLsb'_toNat]
    rfl
  · simp only [physAddr, h, hx, Bool.false_eq_true, if_false]
    rw [toNat_append_add, BitVec.extractLsb'_toNat, Nat.shiftRight_eq_div_pow]
    omega

/-- Settles O51: the clauses are the fields of `timeline`. -/
theorem busTimeline : Obligations.BusTimeline := by
  intro s a k xm hidle hread hxm hio hxm' hio' n hn
  rw [loadMar_timeline s a k xm hidle, busClock_iterate s a k xm hxm hio hxm' hio' n hn]
  refine ⟨rfl, fun h => if_pos h, fun h => if_pos h, fun h => if_pos h, ?_, ?_, ?_, rfl, rfl⟩
  · rw [Bool.eq_iff_iff]
    simp only [readyLoadAddress, timeline, Bool.not_eq_true', decide_eq_false_iff_not, decide_eq_true_eq]
    omega
  · rw [Bool.eq_iff_iff]
    simp only [readyRead, timeline, hread, Bool.or_eq_true, Bool.not_eq_true', decide_eq_false_iff_not, decide_eq_true_eq]
    split <;> omega
  · rw [Bool.eq_iff_iff]
    simp only [readyStore, timeline, storeAfter_eq, Bool.or_eq_true, Bool.not_eq_true', decide_eq_false_iff_not,
      decide_eq_true_eq]
    split <;> split <;> omega

/-- Settles O52: the first store is to the address of the operation, the second to its partner. -/
theorem doubleWordStore : Obligations.DoubleWordStore := by
  intro s v w hactive hcycle hxm hio hxm' hio' hdw t
  have hafter : s.params.storeAfter = 2 ∨ s.params.storeAfter = 4 := by
    rw [storeAfter_eq]
    split
    · exact .inl rfl
    · exact .inr rfl
  have haddr : storeAddr s = s.memAddr := if_neg fun h => by omega
  have hfirst := storeMd_main v s hactive (by omega) (by rw [haddr]; exact hxm) (by rw [haddr]; exact hio)
  rw [haddr] at hfirst
  have hdue : (s.dwStore || decide (s.memCycle = s.params.storeAfter + 1)) = true := by simp [hcycle]
  rw [hdue] at hfirst
  have hx := busClock_of_mixed (storeMd v s) (by rw [hfirst]; exact hactive) (by rw [hfirst])
    (by rw [hfirst]; show s.memCycle ≠ 6; omega)
  rw [hfirst] at hx
  have hsecondAddr : storeAddr (busClock (storeMd v s)) = partner s.memAddr := by
    rw [hfirst, hx, storeAddr]
    exact if_pos ⟨by show s.memCycle + 1 = s.params.storeAfter + 2; omega, rfl⟩
  have ht : t = _ := storeMd_main w (busClock (storeMd v s)) (by rw [hfirst, hx]; exact hactive)
    (by rw [hfirst, hx]; show s.params.storeAfter < s.memCycle + 1; omega)
    (by rw [hsecondAddr, hfirst, hx]; exact hxm') (by rw [hsecondAddr, hfirst, hx]; exact hio')
  rw [hsecondAddr, hfirst, hx] at ht
  have hne := physAddr_ne s.memAddr (partner s.memAddr) s.memTask s.memXM s (partner_ne _)
  rw [ht]
  refine ⟨rfl, rfl, rfl, ?_, Memory.readWord_writeWord_same .., fun p hp hp' => ?_⟩
  · exact (Memory.readWord_writeWord_other _ _ _ _ hne.symm).trans (Memory.readWord_writeWord_same ..)
  · exact (Memory.readWord_writeWord_other _ _ _ _ hp').trans (Memory.readWord_writeWord_other _ _ _ _ hp)

end Sys2Proof

/-! PROOFS. The resets (70_reset_and_hazards.md R300, R305), the scheduler and the calls of a tick's end (60_exceptions.md R276 to
R281), and the control RAM (20_memory.md R75 to R80). -/

namespace Sys2Proof.Machine

/-! ## The soft reset -/

/-- The Disk Sector task is woken, if it exists (R305). -/
theorem softReset_wakeup (s : State) (k : TaskNum) : Bank.get (softReset s).wakeup k
    = (Bank.get s.wakeup k || (decide (k = s.params.diskSectorTask) && s.params.present k)) := by
  unfold softReset
  by_cases hpresent : s.params.present s.params.diskSectorTask = true
  · simp only [if_pos hpresent]
    rw [Bank.get_put]
    split
    · rename_i hk
      rw [hk, hpresent]
      simp
    · rename_i hk
      rw [decide_eq_false hk, Bool.false_and, Bool.or_false]
  · simp only [if_neg hpresent]
    by_cases hk : k = s.params.diskSectorTask
    · rw [hk, Bool.eq_false_iff.mpr hpresent, Bool.and_false, Bool.or_false]
    · rw [decide_eq_false hk, Bool.false_and, Bool.or_false]

theorem softReset_bank (s : State) (k : TaskNum) :
    Bank.get (softReset s).bank k = if s.rmr.getLsbD k.val then .rom0 else .ram0 := Bank.get_tabulate ..

theorem softReset_mpc (s : State) (k : TaskNum) (h : s.params.present k = true) :
    Bank.get (softReset s).mpc k = BitVec.ofNat 10 k.val :=
  (Bank.get_tabulate ..).trans (if_pos h)

/-! ## The power-up reset -/

/-- The reset register of power-up selects ROM0 for every task (10_state.md R45). -/
theorem banksOfRmr_ones (k : TaskNum) : Bank.get (banksOfRmr 0xFFFF#16) k = .rom0 := by
  revert k
  decide

/-- What the loop over the tasks keeps of the first part of the reset. -/
theorem powerUp_frame (s : State) (h : (powerUp s).halted = none) :
    powerUp s = promote (resetBus { resetTasks (resetShared s) with
      t := 0#16, l := 0#16, m := 0#16, ir := 0#16, rb := 0#3, cramAddr := 0#16, r := Vector.replicate 32 0#16
      sStore := Vector.replicate 256 0#16, aluCarry := false, aluC0 := false, rmr := 0xFFFF#16
      bank := banksOfRmr 0xFFFF#16, urom := s.urom, uram := s.uram, params := s.params }) := by
  have hframe : resetTasks (resetShared s) = _ := resetTasks_frame (resetShared s)
  rw [(powerUp_running s h).2, hframe]
  rfl

/-! ## The scheduler -/

/-- The first match in a list that goes down is the greatest. -/
theorem find?_greatest {α : Type} [LinearOrder α] (l : List α) (hl : l.Pairwise (· > ·)) (p : α → Bool) (m k : α)
    (hm : l.find? p = some m) (hk : k ∈ l) (hp : p k = true) : k ≤ m := by
  obtain ⟨-, front, back, rfl, hfront⟩ := List.find?_eq_some_iff_append.mp hm
  rcases List.mem_append.mp hk with hin | hin
  · exact absurd hp (by simpa using hfront k hin)
  · rcases List.mem_cons.mp hin with rfl | hback
    · exact le_rfl
    · exact le_of_lt (List.rel_of_pairwise_cons (List.pairwise_append.mp hl).2.1 hback)

theorem tasksDown_pairwise : tasksDown.Pairwise (· > ·) := by decide

/-- No woken task that exists is above the scan's winner (R281). -/
theorem le_highestWoken (s : State) (k : TaskNum) (h : eligible s k = true) : k ≤ highestWoken s := by
  unfold highestWoken
  cases hfind : tasksDown.find? (eligible s) with
  | none => exact absurd h (List.find?_eq_none.mp hfind k (mem_tasksDown k))
  | some m => exact find?_greatest tasksDown tasksDown_pairwise _ m k hfind (mem_tasksDown k) h

theorem schedule_of_taskSwitch (s : State) (h : s.completion = .taskSwitch) :
    schedule s = { s with nextTask := some (highestWoken s) } := by
  simp only [schedule, h]

theorem schedule_of_memoryWait (s : State) (h : s.completion = .memoryWait) : schedule s = s := by
  simp only [schedule, h]

theorem schedule_of_none (s : State) (h : s.completion = .normal) (hn : s.nextTask = none) : schedule s = s := by
  simp only [schedule, h, hn]

/-- A switch without a hook (R276). -/
theorem takeSwitch_without_hook (s : State) (k : TaskNum) (h : ∀ e ∈ s.params.hooks, e.point ≠ .onTaskSwitch) :
    takeSwitch k s
      = { s with currentTask := k, nextTask := none, firstAfterSwitch := Bank.put s.firstAfterSwitch k true } := by
  unfold takeSwitch optionalHook
  split
  · rfl
  · rename_i a ha
    exact absurd (ha.symm.trans (hookAnswer_none_of_point _ k .onTaskSwitch h)) (Option.some_ne_none a)

theorem schedule_of_pending (s : State) (k : TaskNum) (h : s.completion = .normal) (hn : s.nextTask = some k) :
    schedule s = takeSwitch k s := by
  simp only [schedule, h, hn]

/-! ## Waking and blocking -/

/-- The wakeups after a list of calls (R279). -/
def wakeupsAfter (calls : List ExternalCall) (w : PerTask Bool) : PerTask Bool :=
  calls.foldl (fun v c => Bank.put v (callTask c) (callWakes c)) w

/-- The last call on a task decides. -/
theorem wakeupsAfter_get (calls : List ExternalCall) (w : PerTask Bool) (k : TaskNum) :
    Bank.get (wakeupsAfter calls w) k
      = (((calls.filter fun c => callTask c == k).getLast?.map callWakes).getD (Bank.get w k)) := by
  induction calls using List.reverseRecOn with
  | nil => rfl
  | append_singleton rest c ih =>
    have hfold : wakeupsAfter (rest ++ [c]) w = Bank.put (wakeupsAfter rest w) (callTask c) (callWakes c) := by
      rw [wakeupsAfter, List.foldl_append]
      rfl
    rw [hfold, Bank.get_put, List.filter_append]
    by_cases hk : callTask c = k
    · simp [hk]
    · rw [if_neg (fun e => hk e.symm), ih]
      simp [hk]

/-- A call on a task other than the Emulator that exists. -/
theorem externalCall_of_present (c : ExternalCall) (s : State) (h0 : callTask c ≠ 0) (hp : s.params.present (callTask c) = true) :
    externalCall c s = { s with wakeup := Bank.put s.wakeup (callTask c) (callWakes c) } := by
  have hpresent : ¬s.params.present (callTask c) = false := by rw [hp]; exact Bool.noConfusion
  cases c with
  | wakeupTask i =>
    show wakeupTask i s = _
    rw [wakeupTask, if_neg (show ¬i = 0 from h0), if_neg (show ¬s.params.present i = false from hpresent)]
    rfl
  | blockTask i =>
    show blockTask i s = _
    rw [blockTask, if_neg (show ¬i = 0 from h0), if_neg (show ¬s.params.present i = false from hpresent)]
    rfl

theorem runPhases_externalCalls (calls : List ExternalCall) (s : State) (hs : s.halted = none)
    (h : ∀ c ∈ calls, callTask c ≠ 0 ∧ s.params.present (callTask c) = true) :
    runPhases (calls.map externalCall) s = { s with wakeup := wakeupsAfter calls s.wakeup } := by
  induction calls generalizing s with
  | nil => rfl
  | cons c rest ih =>
    obtain ⟨h0, hp⟩ := h c List.mem_cons_self
    have hcall := externalCall_of_present c s h0 hp
    rw [List.map_cons, runPhases_cons_of_running _ _ _ (by rw [hcall]; exact hs), hcall]
    exact ih _ hs fun d hd => h d (List.mem_cons_of_mem c hd)

theorem applyExternal_eq (s : State) (hs : s.halted = none)
    (h : ∀ c ∈ callsDue s, callTask c ≠ 0 ∧ s.params.present (callTask c) = true) : applyExternal s = { s with
      wakeup := wakeupsAfter (callsDue s) s.wakeup, hookCalls := [], external := s.external.tail } := by
  unfold applyExternal
  exact runPhases_externalCalls _ _ hs h

/-! ## The end of a tick -/

/-- A microinstruction that is executed does not complete MEMORY_WAIT. -/
theorem allReady_of_completion (u : Micro) (s : State) (hs : s.halted = none) (h : (cpuStep u s).halted = none)
    (hwait : (cpuStep u s).completion = .memoryWait) : allReady u s = false := by
  rw [Bool.eq_false_iff]
  intro hr
  rw [cpuStep_eq_afterAll u s hr hs h] at hwait
  simp only [afterAll, finish] at hwait
  split at hwait <;> cases hwait

/-- What the calls of a tick's end keep of the tasks' state. -/
theorem applyExternal_tasks (s : State) : (applyExternal s).currentTask = s.currentTask
    ∧ (applyExternal s).nextTask = s.nextTask ∧ (applyExternal s).mpc = s.mpc
    ∧ (applyExternal s).firstAfterSwitch = s.firstAfterSwitch := by
  have hframe : applyExternal s = _ := applyExternal_frame s
  rw [hframe]
  exact ⟨rfl, rfl, rfl, rfl⟩

theorem step_of_exec (s t : State) (i : Instr) (hs : s.halted = none) (hfetch : fetch (startTick s) = some i)
    (hexec : exec i (startTick s) = .next t) : step s = .next (endTick t) := by
  simp only [step, hs, hfetch, hexec]

/-! ## The control RAM -/

theorem cramWrite_of_ram (s : State) (alu m : Word) (hram : s.cramAddr.getLsbD 11 = false)
    (hbank : cramBankOf s.cramAddr < s.params.ramBanks) : cramWrite alu m s = { s with
      uram := s.uram.writeMicro (microIndex (cramBankOf s.cramAddr) (s.cramAddr.extractLsb' 0 10))
        ((m ++ alu) ^^^ s.params.cramXor) } := by
  rw [cramWrite, if_neg (by rw [hram]; exact Bool.false_ne_true), if_neg (by omega)]

theorem cramRead_of_ram (s : State) (hram : s.cramAddr.getLsbD 11 = false)
    (hbank : cramBankOf s.cramAddr < s.params.ramBanks) (w : MicroWord)
    (hw : s.uram.readMicro (microIndex (cramBankOf s.cramAddr) (s.cramAddr.extractLsb' 0 10)) ^^^ s.params.cramXor = w) :
    cramRead s = .ok (if s.cramAddr.getLsbD 10 then w.extractLsb' 16 16 else w.extractLsb' 0 16) := by
  rw [cramRead, if_neg (by rw [hram]; exact Bool.false_ne_true), if_neg (by omega)]
  simp only [hw]

theorem xor_xor_cancel {w : Nat} (x y : BitVec w) : x ^^^ y ^^^ y = x := by
  rw [BitVec.xor_assoc, BitVec.xor_self, BitVec.xor_zero]

end Sys2Proof.Machine

namespace Sys2Proof

open Sys2Proof.Machine

/-- Settles O48. -/
theorem softResetEffect : Obligations.SoftResetEffect := fun s =>
  ⟨softReset_bank s, rfl, softReset_mpc s, rfl, rfl, softReset_wakeup s, fun k => (softReset_bank (softReset s) k).trans
    (if_neg (by rw [show (softReset s).rmr = 0#16 from rfl, BitVec.getLsbD_zero]; exact Bool.false_ne_true)), rfl⟩

/-- Settles O47: the loop keeps the first part but for the cells of its tasks, and a hook writes neither. -/
theorem powerUpReset : Obligations.PowerUpReset := by
  intro s
  refine ⟨fun hrun => ?_, fun hhooks => ?_⟩
  · have hseeds := resetTasks_seeds s (powerUp_running s hrun).1
    rw [powerUp_frame s hrun]
    intro t
    exact ⟨rfl, rfl, rfl, rfl, rfl, rfl, fun i => Bank.get_replicate .., fun i => Bank.get_replicate .., rfl, rfl, rfl, rfl, rfl,
      fun k => ⟨banksOfRmr_ones k, (hseeds k).mpc, (hseeds k).firstAfterSwitch, (hseeds k).rdRamPending,
        (hseeds k).wrtRamPending, (hseeds k).swModePending⟩,
      rfl, rfl, rfl, rfl, rfl, rfl, rfl, rfl, rfl, rfl, rfl, rfl, rfl, rfl, rfl, rfl⟩
  · have hpower := powerUp_without_hook s hhooks
    have hcurrent : highestWoken (resetBus (seeded (resetShared s))) = 0 := highestWoken_emulator _ rfl
    have hwhole : powerUp s = { State.reset with
        main := s.main, urom := s.urom, uram := s.uram, params := s.params
        external := s.external, deviceCalls := s.deviceCalls, ticks := s.ticks } := by
      rw [hpower, promote, hcurrent]
      rfl
    rw [hwhole]
    exact ⟨rfl, rfl, fun k => ⟨Bank.get_tabulate (fun k => k == 0) k, Bank.get_replicate ..⟩, rfl⟩

/-- Settles O56. -/
theorem scanPicksHighestWoken : Obligations.ScanPicksHighestWoken := fun s h =>
  have hwinner := (eligible_iff s _).mp (highestWoken_eligible s h)
  ⟨hwinner.1, hwinner.2, fun k hp hw => le_highestWoken s k ((eligible_iff s k).mpr ⟨hp, hw⟩)⟩

/-- Settles O57. -/
theorem schedulerSwitches : Obligations.SchedulerSwitches := by
  intro s
  refine ⟨schedule_of_taskSwitch s, schedule_of_memoryWait s, schedule_of_none s, fun k h hn hhook => ?_⟩
  rw [schedule_of_pending s k h hn, takeSwitch_without_hook s k hhook]
  exact ⟨rfl, rfl, fun j => Bank.get_put .., rfl, rfl, rfl, rfl⟩

/-- Settles O58. -/
theorem wakeAndBlock : Obligations.WakeAndBlock := by
  intro s k
  refine ⟨⟨_, rfl⟩, ⟨_, rfl⟩, fun h0 hp => ?_, fun h0 hp => ?_, fun j p hpoint => ⟨if_neg hpoint, if_neg hpoint⟩,
    fun hs hcalls => ?_⟩
  · rw [wakeupTask, if_neg h0, if_pos hp, blockTask, if_neg h0, if_pos hp]
    exact ⟨⟨_, rfl⟩, ⟨_, rfl⟩⟩
  · exact ⟨externalCall_of_present (.wakeupTask k) s h0 hp, externalCall_of_present (.blockTask k) s h0 hp⟩
  · rw [applyExternal_eq s hs hcalls]
    exact ⟨wakeupsAfter_get .., rfl⟩

/-- Settles O59: the schedule after TASK_SWITCH and MEMORY_WAIT switches nothing, and the calls of the tick's end only wake and
block. -/
theorem taskSwitchIsDeferred : Obligations.TaskSwitchIsDeferred := by
  intro s t i hs hfetch hexec ht
  have hstep := step_of_exec s t i hs hfetch hexec
  have hcycle : t = cpuStep i.micro (startTick s) := by
    rw [exec_eq] at hexec
    exact (Host.Outcome.next.inj hexec).symm
  refine ⟨fun hswitch hf => ?_, fun hwait => ?_⟩
  · have hsched := schedule_of_taskSwitch t hswitch
    have hend := endTick_running t ht (by rw [hsched]; exact ht)
    obtain ⟨hcurrent, hnext, -, -⟩ := applyExternal_tasks (schedule t)
    refine ⟨_, hstep, ?_, ?_⟩
    · rw [hend, hcurrent, hsched]
      show t.currentTask = s.currentTask
      rw [hcycle, cpuStep_currentTask _ _ hf, startTick_frame]
    · rw [hend, hnext, hsched]
  · have hsched := schedule_of_memoryWait t hwait
    have hend := endTick_running t ht (by rw [hsched]; exact ht)
    obtain ⟨hcurrent, hnext, hmpc, hfirst⟩ := applyExternal_tasks (schedule t)
    rw [hsched] at hcurrent hnext hmpc hfirst
    have hready : allReady i.micro (startTick s) = false :=
      allReady_of_completion _ _ ((startTick_halted s).trans hs) (by rw [← hcycle]; exact ht) (by rw [← hcycle]; exact hwait)
    rw [cpuStep_wait _ _ hready, startTick_frame] at hcycle
    refine ⟨_, hstep, ?_⟩
    rw [hend, hsched, hcurrent, hnext, hmpc, hfirst, hcycle]
    exact ⟨rfl, rfl, rfl, rfl⟩

/-- Settles O60. -/
theorem controlRamReadAfterWrite : Obligations.ControlRamReadAfterWrite := by
  intro s alu m hram hbank
  have hwrite := cramWrite_of_ram s alu m hram hbank
  have hread : cramRead (cramWrite alu m s)
      = .ok (if s.cramAddr.getLsbD 10 then (m ++ alu).extractLsb' 16 16 else (m ++ alu).extractLsb' 0 16) := by
    have hword : (cramWrite alu m s).uram.readMicro (microIndex (cramBankOf s.cramAddr) (s.cramAddr.extractLsb' 0 10))
        ^^^ s.params.cramXor = m ++ alu := by
      rw [hwrite]
      show Memory.readMicro (Memory.writeMicro _ _ _) _ ^^^ _ = _
      rw [Memory.readMicro_writeMicro_same]
      exact xor_xor_cancel ..
    have haddr : (cramWrite alu m s).cramAddr = s.cramAddr := by rw [hwrite]
    have hparams : (cramWrite alu m s).params = s.params := by rw [hwrite]
    rw [cramRead_of_ram (cramWrite alu m s) (by rw [haddr]; exact hram) (by rw [haddr, hparams]; exact hbank) (m ++ alu)
      (by rw [haddr, hparams]; exact hword), haddr]
  refine ⟨fun b hb => ?_, fun h => ?_, fun h => ?_⟩
  · have hexists : bankExists (cramWrite alu m s).params b = true := by
      rw [hwrite, bankExists, hb]
      exact decide_eq_true hbank
    rw [uFetch, if_pos hexists, hb, hwrite]
    show some (Memory.readMicro (Memory.writeMicro _ _ _) _) = _
    rw [Memory.readMicro_writeMicro_same]
  · rw [hread, if_pos h, BitVec.extractLsb'_append_eq_left]
  · rw [hread, if_neg (by rw [h]; exact Bool.false_ne_true), BitVec.extractLsb'_append_eq_right]

end Sys2Proof
